-- ==== Sys2Proof/Word.lean ====
section
/-! DEFINITION. The machine's word types (10_state.md R20, R22; 00_scope.md R9). All values are unsigned (R10). -/

namespace Sys2Proof

/-- A word of the host port: 32 bits (R22). -/
abbrev Word := BitVec 32

/-- A byte of the window, the source or the sink. -/
abbrev Byte := BitVec 8

/-- A probability cell's value: 11 bits (41_probability_model.md R160). -/
abbrev Prob := BitVec 11

/-- A byte address of the host port: 0x00..0x7F (R22). DEDUCED, safe: see notes/assumptions/10.md. -/
abbrev PortAddr := BitVec 7

end Sys2Proof
end

