-- ==== Sys2Proof/Syntax.lean ====
section
/-! DEFINITION. The commands of the block: one constructor per row of spec/opcode_table.json (30_encoding.md R83).
The arguments are the immediate fields of R81; wide operands stand in ARG0 and ARG1 (R82). -/

namespace Sys2Proof

/-- One command. -/
inductive Instr where
  /-- NOP (70_reset_and_hazards.md R345). -/
  | nop
  /-- SESSION_RESET (R341). -/
  | sessionReset
  /-- RC_ENC_INIT (40_range_coder.md R130). -/
  | rcEncInit
  /-- RC_ENC_BIT, `bit = IMM[0]` (R131). -/
  | rcEncBit (bit : Bool)
  /-- RC_ENC_BIT_NA, `bit = IMM[0]` (R132). -/
  | rcEncBitNa (bit : Bool)
  /-- RC_ENC_TREE, `n = IMM[3:0]` (41_probability_model.md R176). -/
  | rcEncTree (n : Nat)
  /-- RC_ENC_FLUSH (R133). -/
  | rcEncFlush
  /-- RC_DEC_INIT (R140). -/
  | rcDecInit
  /-- RC_DEC_BIT (R141). -/
  | rcDecBit
  /-- RC_DEC_BIT_NA (R142). -/
  | rcDecBitNa
  /-- RC_DEC_DIRECT, `n = IMM[5:0]` (R143). -/
  | rcDecDirect (n : Nat)
  /-- RC_DEC_TREE, `n = IMM[3:0]` (R177). -/
  | rcDecTree (n : Nat)
  /-- RC_DEC_RTREE, `n = IMM[3:0]` (R178). -/
  | rcDecRtree (n : Nat)
  /-- RC_DEC_FINISHED (R144). -/
  | rcDecFinished
  /-- PM_INIT (R179). -/
  | pmInit
  /-- CELL_READ (R180). -/
  | cellRead
  /-- ENC_LITERAL, `byte = IMM[7:0]` (42_symbol_fsm.md R210). -/
  | encLiteral (b : Byte)
  /-- ENC_EOS (R211). -/
  | encEos
  /-- DEC_TOKEN (R220). -/
  | decToken
  /-- DW_RESET (43_dictionary_window.md R270). -/
  | dwReset
  /-- DW_PUSH, `byte = IMM[7:0]` (R271). -/
  | dwPush (b : Byte)
  /-- DW_BYTE_AT (R272). -/
  | dwByteAt
  /-- DW_LAST (R273). -/
  | dwLast
  /-- DW_COPY (R274). -/
  | dwCopy
  /-- PROPS_VALIDATE (44_header.md R292). -/
  | propsValidate
  /-- HDR_WRITE (R294). -/
  | hdrWrite
  /-- HDR_READ (R297). -/
  | hdrRead
  deriving DecidableEq, Repr

end Sys2Proof
end

