-- ==== Sys2Proof/WellFormed.lean ====
section
/-! DEFINITION. Which terms of Instr are commands: each count fits its immediate field (30_encoding.md R81). A count
that fits its field and is illegal for the command (R81's last column) is well formed: it faults ILLEGAL_OPERAND. -/

namespace Sys2Proof

/-- The immediate fields fit: 4 bits for a tree depth, 6 bits for a direct-bit count (R81). -/
def Instr.wf : Instr → Bool
  | .rcEncTree n => decide (n < 16)
  | .rcDecTree n => decide (n < 16)
  | .rcDecRtree n => decide (n < 16)
  | .rcDecDirect n => decide (n < 64)
  | .nop | .sessionReset | .rcEncInit | .rcEncBit _ | .rcEncBitNa _ | .rcEncFlush | .rcDecInit | .rcDecBit
  | .rcDecBitNa | .rcDecFinished | .pmInit | .cellRead | .encLiteral _ | .encEos | .decToken | .dwReset | .dwPush _
  | .dwByteAt | .dwLast | .dwCopy | .propsValidate | .hdrWrite | .hdrRead => true

end Sys2Proof
end

