-- ==== Sys2Proof/Decode.lean ====
section
/-! DEFINITION. The command word's decoder and encoder (30_encoding.md R80 to R86), and the opcode map as rows of
match and mask (R83). -/

namespace Sys2Proof

/-- Why a word is no command (R86). Both fault ILLEGAL_COMMAND when the word is written to CMD. -/
inductive Reject where
  /-- The opcode is none of R83's. -/
  | reservedOpcode
  /-- The opcode is defined and an IMM bit that R81 does not name is 1. -/
  | reservedImm
  deriving DecidableEq, Repr

/-- `OPCODE = CMD[31:24]` (R80). -/
def opcodeField (w : Word) : Nat := (w.extractLsb' 24 8).toNat

/-- `IMM = CMD[23:0]` (R80). -/
def immField (w : Word) : Nat := (w.extractLsb' 0 24).toNat

/-- A command with no immediate field: all 24 IMM bits are reserved (R81). -/
def plain (imm : Nat) (i : Instr) : Except Reject Instr :=
  if imm = 0 then .ok i else .error .reservedImm

/-- A command whose one immediate field is the `width` low bits of IMM; the other bits are reserved (R81). -/
def withField (imm width : Nat) (f : Nat → Instr) : Except Reject Instr :=
  if imm < 2 ^ width then .ok (f imm) else .error .reservedImm

/-- The command a word encodes, or why it encodes none (R83, R86). -/
def decode (w : Word) : Except Reject Instr :=
  match opcodeField w with
  | 0x00 => plain (immField w) .nop
  | 0x01 => plain (immField w) .sessionReset
  | 0x10 => plain (immField w) .rcEncInit
  | 0x11 => withField (immField w) 1 fun v => .rcEncBit (v == 1)
  | 0x12 => withField (immField w) 1 fun v => .rcEncBitNa (v == 1)
  | 0x13 => withField (immField w) 4 .rcEncTree
  | 0x14 => plain (immField w) .rcEncFlush
  | 0x20 => plain (immField w) .rcDecInit
  | 0x21 => plain (immField w) .rcDecBit
  | 0x22 => plain (immField w) .rcDecBitNa
  | 0x23 => withField (immField w) 6 .rcDecDirect
  | 0x24 => withField (immField w) 4 .rcDecTree
  | 0x25 => withField (immField w) 4 .rcDecRtree
  | 0x26 => plain (immField w) .rcDecFinished
  | 0x30 => plain (immField w) .pmInit
  | 0x31 => plain (immField w) .cellRead
  | 0x40 => withField (immField w) 8 fun v => .encLiteral (BitVec.ofNat 8 v)
  | 0x41 => plain (immField w) .encEos
  | 0x42 => plain (immField w) .decToken
  | 0x50 => plain (immField w) .dwReset
  | 0x51 => withField (immField w) 8 fun v => .dwPush (BitVec.ofNat 8 v)
  | 0x52 => plain (immField w) .dwByteAt
  | 0x53 => plain (immField w) .dwLast
  | 0x54 => plain (immField w) .dwCopy
  | 0x60 => plain (immField w) .propsValidate
  | 0x61 => plain (immField w) .hdrWrite
  | 0x62 => plain (immField w) .hdrRead
  | _ => .error .reservedOpcode

/-- The command's opcode (R83). -/
def Instr.opcode : Instr → Nat
  | .nop => 0x00
  | .sessionReset => 0x01
  | .rcEncInit => 0x10
  | .rcEncBit _ => 0x11
  | .rcEncBitNa _ => 0x12
  | .rcEncTree _ => 0x13
  | .rcEncFlush => 0x14
  | .rcDecInit => 0x20
  | .rcDecBit => 0x21
  | .rcDecBitNa => 0x22
  | .rcDecDirect _ => 0x23
  | .rcDecTree _ => 0x24
  | .rcDecRtree _ => 0x25
  | .rcDecFinished => 0x26
  | .pmInit => 0x30
  | .cellRead => 0x31
  | .encLiteral _ => 0x40
  | .encEos => 0x41
  | .decToken => 0x42
  | .dwReset => 0x50
  | .dwPush _ => 0x51
  | .dwByteAt => 0x52
  | .dwLast => 0x53
  | .dwCopy => 0x54
  | .propsValidate => 0x60
  | .hdrWrite => 0x61
  | .hdrRead => 0x62

/-- The command's immediate value (R81). -/
def Instr.imm : Instr → Nat
  | .rcEncBit bit => bit.toNat
  | .rcEncBitNa bit => bit.toNat
  | .rcEncTree n => n
  | .rcDecDirect n => n
  | .rcDecTree n => n
  | .rcDecRtree n => n
  | .encLiteral b => b.toNat
  | .dwPush b => b.toNat
  | .nop | .sessionReset | .rcEncInit | .rcEncFlush | .rcDecInit | .rcDecBit | .rcDecBitNa | .rcDecFinished | .pmInit
  | .cellRead | .encEos | .decToken | .dwReset | .dwByteAt | .dwLast | .dwCopy | .propsValidate | .hdrWrite
  | .hdrRead => 0

/-- The word of a command: `(opcode << 24) | imm` (R87). -/
def encode (i : Instr) : Word := BitVec.ofNat 32 (i.opcode * 2 ^ 24 + i.imm)

/-- One row of the opcode map: a word `w` encodes the row's command when `(w & mask) == match` (R83). -/
structure OpRow where
  pattern : Word
  mask : Word
  deriving DecidableEq, Repr

/-- A row's test (R83). -/
def OpRow.matches (r : OpRow) (w : Word) : Bool := w &&& r.mask == r.pattern

/-- The match and mask columns of R83's table, in its order. -/
def opcodeRows : List OpRow :=
  [⟨0x00000000, 0xFFFFFFFF⟩, ⟨0x01000000, 0xFFFFFFFF⟩, ⟨0x10000000, 0xFFFFFFFF⟩, ⟨0x11000000, 0xFFFFFFFE⟩,
   ⟨0x12000000, 0xFFFFFFFE⟩, ⟨0x13000000, 0xFFFFFFF0⟩, ⟨0x14000000, 0xFFFFFFFF⟩, ⟨0x20000000, 0xFFFFFFFF⟩,
   ⟨0x21000000, 0xFFFFFFFF⟩, ⟨0x22000000, 0xFFFFFFFF⟩, ⟨0x23000000, 0xFFFFFFC0⟩, ⟨0x24000000, 0xFFFFFFF0⟩,
   ⟨0x25000000, 0xFFFFFFF0⟩, ⟨0x26000000, 0xFFFFFFFF⟩] ++
  [⟨0x30000000, 0xFFFFFFFF⟩, ⟨0x31000000, 0xFFFFFFFF⟩, ⟨0x40000000, 0xFFFFFF00⟩, ⟨0x41000000, 0xFFFFFFFF⟩,
   ⟨0x42000000, 0xFFFFFFFF⟩, ⟨0x50000000, 0xFFFFFFFF⟩, ⟨0x51000000, 0xFFFFFF00⟩, ⟨0x52000000, 0xFFFFFFFF⟩,
   ⟨0x53000000, 0xFFFFFFFF⟩, ⟨0x54000000, 0xFFFFFFFF⟩, ⟨0x60000000, 0xFFFFFFFF⟩, ⟨0x61000000, 0xFFFFFFFF⟩,
   ⟨0x62000000, 0xFFFFFFFF⟩]

/-- The row of an instruction: its opcode as the pattern, and a mask of every bit but those of its field (R81, R83). -/
def Instr.row : Instr → OpRow
  | .rcEncBit _ => ⟨0x11000000, 0xFFFFFFFE⟩
  | .rcEncBitNa _ => ⟨0x12000000, 0xFFFFFFFE⟩
  | .rcEncTree _ => ⟨0x13000000, 0xFFFFFFF0⟩
  | .rcDecDirect _ => ⟨0x23000000, 0xFFFFFFC0⟩
  | .rcDecTree _ => ⟨0x24000000, 0xFFFFFFF0⟩
  | .rcDecRtree _ => ⟨0x25000000, 0xFFFFFFF0⟩
  | .encLiteral _ => ⟨0x40000000, 0xFFFFFF00⟩
  | .dwPush _ => ⟨0x51000000, 0xFFFFFF00⟩
  | .nop => ⟨0x00000000, 0xFFFFFFFF⟩
  | .sessionReset => ⟨0x01000000, 0xFFFFFFFF⟩
  | .rcEncInit => ⟨0x10000000, 0xFFFFFFFF⟩
  | .rcEncFlush => ⟨0x14000000, 0xFFFFFFFF⟩
  | .rcDecInit => ⟨0x20000000, 0xFFFFFFFF⟩
  | .rcDecBit => ⟨0x21000000, 0xFFFFFFFF⟩
  | .rcDecBitNa => ⟨0x22000000, 0xFFFFFFFF⟩
  | .rcDecFinished => ⟨0x26000000, 0xFFFFFFFF⟩
  | .pmInit => ⟨0x30000000, 0xFFFFFFFF⟩
  | .cellRead => ⟨0x31000000, 0xFFFFFFFF⟩
  | .encEos => ⟨0x41000000, 0xFFFFFFFF⟩
  | .decToken => ⟨0x42000000, 0xFFFFFFFF⟩
  | .dwReset => ⟨0x50000000, 0xFFFFFFFF⟩
  | .dwByteAt => ⟨0x52000000, 0xFFFFFFFF⟩
  | .dwLast => ⟨0x53000000, 0xFFFFFFFF⟩
  | .dwCopy => ⟨0x54000000, 0xFFFFFFFF⟩
  | .propsValidate => ⟨0x60000000, 0xFFFFFFFF⟩
  | .hdrWrite => ⟨0x61000000, 0xFFFFFFFF⟩
  | .hdrRead => ⟨0x62000000, 0xFFFFFFFF⟩

/-- The command the decoder reads from the bits `w` of a table row: a command is one 32-bit word, bit 0 the least
significant (R80). -/
def decodeTableWord (nbits w : Nat) : Option Instr :=
  if w < 2 ^ nbits ∧ w < 2 ^ 32 then (decode (BitVec.ofNat 32 w)).toOption else none

end Sys2Proof
end

