-- ==== Sys2Proof/Config.lean ====
section
/-! DEFINITION. The block's one open parameter (43_dictionary_window.md R262; 92_eei_decisions.md D14). -/

namespace Sys2Proof

/-- What an implementation fixes. It is plain data that State carries and no step writes, so a statement about every
state is a statement about every value of the parameter. DESIGN CHOICE, unsafe only in its reset value: see
notes/assumptions/2.md. -/
structure Config where
  /-- `P_MAX_DICT`: the size in bytes of the physical window buffer (R262). -/
  pMaxDict : Nat
  deriving DecidableEq, Repr

/-- The least dictionary size, 0x1000 (R262, 00_scope.md R8). -/
abbrev Config.minDict : Nat := 0x1000

/-- The parameter's one constraint: `P_MAX_DICT ≥ 0x1000` (R262). -/
abbrev Config.wf (c : Config) : Prop := Config.minDict ≤ c.pMaxDict

/-- The value State.reset carries: 2^32, the one the spec's own vectors were made with (R262). DESIGN CHOICE, unsafe:
see notes/assumptions/2.md. -/
def Config.powerOn : Config := ⟨4294967296⟩

end Sys2Proof
end

