-- ==== Sys2Proof/Machine/State.lean ====
section
/-! DEFINITION. The block's state (10_state.md R20), the environment it talks to (R46), and why the model stops. -/

namespace Sys2Proof.Machine

/-- `STATUS.MODE`: the session's phase (R25). -/
inductive Mode where
  | idle
  | encode
  | decode
  | done
  deriving DecidableEq, Repr

/-- What follows the source's last byte (R46). -/
inductive SourceEnd where
  /-- End: no more bytes. -/
  | atEnd
  /-- Error: the next read fails with an I/O error. -/
  | error
  deriving DecidableEq, Repr

/-- One access of the host to the register port: a whole 32-bit word (R22; 20_memory.md R65). -/
inductive Access where
  | read (addr : PortAddr)
  | write (addr : PortAddr) (value : Word)
  deriving DecidableEq, Repr

/-- The causes of a fault of the block (60_exceptions.md R320), STREAM_CORRUPT and IO_ERROR by sub-cause. -/
inductive Cause where
  | headerTooShort
  | invalidProperties
  | truncated
  | distBeyondOutput
  | distBeyondDict
  | repOnEmpty
  | eosCodeNonzero
  | sizeMismatch
  | matchPastSize
  | eosTrailing
  | ioErrorIn
  | ioErrorOut
  | illegalCommand
  | illegalOperand
  | sequenceError
  | dictTooLarge
  | invalidConfig
  deriving DecidableEq, Repr

/-- Why the MODEL stops. The block's own faults (R320) are no such stop: the machine goes on, FAULTED, and its next
state says so (R321). Each stop below arises only in a state that breaks the invariants of R48 and R125; no run from
reset reaches one. -/
inductive Fault where
  /-- Raised by the encoder's renormalisation when RANGE is 0, where the loop of 40_range_coder.md R124 need not end.
  Safe: the model stops, whatever the hardware does. See notes/assumptions/5.md. -/
  | renormalisationNeverEnds
  /-- Raised by a command's own access to a cell address that does not exist (41_probability_model.md R165), which needs
  properties that R291 refuses. Safe: the model stops. See notes/assumptions/6.md. -/
  | noSuchCell
  /-- Raised by the literal context of R168 when LC > 8, where its shift count `8 - lc` is negative. Safe: the model
  stops. See notes/assumptions/6.md. -/
  | negativeShift
  deriving DecidableEq, Repr

/-- Why the model refuses an instruction. -/
inductive Refusal where
  /-- Raised by exec's arm of an instruction that has no meaning yet; no arm is left so. Safe: the model stops. -/
  | notModelled (mnemonic : String)
  deriving DecidableEq, Repr

/-- How a command ends early: with a fault of the block, or with a stop of the model. -/
inductive Stop where
  | raise (c : Cause)
  | stuck (f : Fault)
  deriving DecidableEq, Repr

/-- The probability RAM (R43): (cell address, value) pairs, addresses strictly rising, no value 1024. A cell not listed
holds 1024, what SESSION_RESET writes to every cell (41_probability_model.md R161). See notes/assumptions/7.md. -/
abbrev Memory := List (Nat × Prob)

/-- Everything 10_state.md R20 gives the block, then the environment of R46 and R7, then the open parameter of R262. -/
structure State where
  /-- PROPS (R27). -/
  props : Word
  /-- DICT_SIZE (R28). -/
  dictSize : Word
  /-- USIZE = USIZE_HI, USIZE_LO (R29). -/
  usize : BitVec 64
  /-- POLICY (R30). -/
  policy : Word
  /-- ARG0 (R31). -/
  arg0 : Word
  /-- ARG1 (R31). -/
  arg1 : Word
  /-- RES (R32). -/
  res : Word
  /-- STATUS.MODE (R25). -/
  mode : Mode
  /-- STATUS.FAULTED (R25). -/
  faulted : Bool
  /-- STATUS.EOS_SEEN (R25). -/
  eosSeen : Bool
  /-- FAULT.CODE (R26). -/
  faultCode : Byte
  /-- FAULT.SUB (R26). -/
  faultSub : Byte
  /-- LOW (R37): 64 bits, its value below 2^33. -/
  low : BitVec 64
  /-- RANGE (R35). -/
  range : Word
  /-- CACHE (R38). -/
  cache : Byte
  /-- CACHE_SIZE (R38), a count: see notes/assumptions/3.md. -/
  cacheSize : Nat
  /-- CODE (R36). -/
  code : Word
  /-- PRAM (R43). -/
  pram : Memory
  /-- STATE (R39). -/
  fsm : BitVec 4
  /-- REP0 (R40). -/
  rep0 : Word
  /-- REP1 (R40). -/
  rep1 : Word
  /-- REP2 (R40). -/
  rep2 : Word
  /-- REP3 (R40). -/
  rep3 : Word
  /-- W (R44), oldest byte first; POS (R34) is its length. -/
  window : List Byte
  /-- IN_COUNT (R41), a count: see notes/assumptions/3.md. -/
  inCount : Nat
  /-- OUT_COUNT (R41), a count: see notes/assumptions/3.md. -/
  outCount : Nat
  /-- Environment: the source's bytes not yet consumed (R46). -/
  source : List Byte
  /-- Environment: what follows them (R46). -/
  sourceEnd : SourceEnd
  /-- Environment: the bytes delivered to the sink, oldest first (R46). -/
  sink : List Byte
  /-- Environment: the index at which, and after which, the sink fails (R46). -/
  sinkFailAt : Option Nat
  /-- Environment: the host's accesses not yet performed, next first (R7, R22): see notes/assumptions/1.md. -/
  hostQueue : List Access
  /-- Environment: what the host's reads returned, oldest first (R22): see notes/assumptions/1.md. -/
  hostReads : List Word
  /-- The open parameter (R262): see notes/assumptions/2.md. -/
  config : Config
  deriving DecidableEq, Repr

/-- Power-on (70_reset_and_hazards.md R340, 10_state.md R23). The environment's fields and `config` are DESIGN CHOICE,
unsafe: see notes/assumptions/2.md and notes/assumptions/8.md. -/
def State.reset : State where
  props := 0x00020003
  dictSize := 0x00800000
  usize := 0
  policy := 0
  arg0 := 0
  arg1 := 0
  res := 0
  mode := .idle
  faulted := false
  eosSeen := false
  faultCode := 0
  faultSub := 0
  low := 0
  range := 0xFFFFFFFF
  cache := 0
  cacheSize := 1
  code := 0
  pram := []
  fsm := 0
  rep0 := 0
  rep1 := 0
  rep2 := 0
  rep3 := 0
  window := []
  inCount := 0
  outCount := 0
  source := []
  sourceEnd := .atEnd
  sink := []
  sinkFailAt := none
  hostQueue := []
  hostReads := []
  config := Config.powerOn

end Sys2Proof.Machine
end

