-- ==== Sys2Proof/Machine/Flags.lean ====
section
/-! DEFINITION. STATUS and FAULT (10_state.md R25, R26), the fault codes (60_exceptions.md R320), and the fields of
PROPS and POLICY (R27, R30). The block has no arithmetic condition flags (R25). -/

namespace Sys2Proof.Machine

/-- `FAULT.CODE` of a cause (R320). -/
def Cause.code : Cause → Byte
  | .headerTooShort => 0x01
  | .invalidProperties => 0x02
  | .truncated | .distBeyondOutput | .distBeyondDict | .repOnEmpty | .eosCodeNonzero | .sizeMismatch | .matchPastSize
  | .eosTrailing => 0x03
  | .ioErrorIn | .ioErrorOut => 0x04
  | .illegalCommand => 0x10
  | .illegalOperand => 0x11
  | .sequenceError => 0x12
  | .dictTooLarge => 0x13
  | .invalidConfig => 0x14

/-- `FAULT.SUB` of a cause (R320): 0 where the table gives none. -/
def Cause.sub : Cause → Byte
  | .truncated => 1
  | .distBeyondOutput => 2
  | .distBeyondDict => 3
  | .repOnEmpty => 4
  | .eosCodeNonzero => 5
  | .sizeMismatch => 6
  | .matchPastSize => 7
  | .eosTrailing => 8
  | .ioErrorIn => 1
  | .ioErrorOut => 2
  | .headerTooShort | .invalidProperties | .illegalCommand | .illegalOperand | .sequenceError | .dictTooLarge
  | .invalidConfig => 0

/-- `STATUS.MODE`, bits 1:0 (R25). -/
def Mode.bits : Mode → Nat
  | .idle => 0
  | .encode => 1
  | .decode => 2
  | .done => 3

/-- STATUS as the host reads it (R25): MODE 1:0, FAULTED 4, EOS_SEEN 8, every other bit 0. -/
def statusWord (s : State) : Word :=
  BitVec.ofNat 32 (s.mode.bits + s.faulted.toNat * 2 ^ 4 + s.eosSeen.toNat * 2 ^ 8)

/-- FAULT as the host reads it (R26): CODE 7:0, SUB 15:8, and 0 while FAULTED is 0. -/
def faultWord (s : State) : Word :=
  if s.faulted then BitVec.ofNat 32 (s.faultCode.toNat + s.faultSub.toNat * 2 ^ 8) else 0

/-- The bits PROPS stores (R27). -/
def propsMask : Word := 0x000F0F0F

/-- The bits POLICY stores (R30). -/
def policyMask : Word := 0x00001113

/-- `lc = PROPS[3:0]` (R27). -/
def lcOf (props : Word) : Nat := (props.extractLsb' 0 4).toNat

/-- `lp = PROPS[11:8]` (R27). -/
def lpOf (props : Word) : Nat := (props.extractLsb' 8 4).toNat

/-- `pb = PROPS[19:16]` (R27). -/
def pbOf (props : Word) : Nat := (props.extractLsb' 16 4).toNat

/-- The PROPS word of three fields (44_header.md R296): `lc | (lp << 8) | (pb << 16)`. -/
def propsWord (lc lp pb : Nat) : Word := BitVec.ofNat 32 (lc ||| lp <<< 8 ||| pb <<< 16)

/-- `PropsValid` (44_header.md R291). -/
def propsValid (props : Word) : Bool := lcOf props ≤ 8 && lpOf props ≤ 4 && pbOf props ≤ 4

/-- `POLICY.DEC_POLICY`, bits 1:0 (R30). -/
def decPolicy (policy : Word) : Nat := (policy.extractLsb' 0 2).toNat

/-- `POLICY.ENC_POLICY`, bit 4 (R30). -/
def encPolicySkip (policy : Word) : Bool := policy.getLsbD 4

/-- `POLICY.USIZE_PRESENT`, bit 8 (R30). -/
def usizePresent (policy : Word) : Bool := policy.getLsbD 8

/-- `POLICY.EOS_TRAILING`, bit 12 (R30). -/
def eosTrailingPolicy (policy : Word) : Bool := policy.getLsbD 12

/-- POLICY with USIZE_PRESENT set to `pr` and its other bits kept (44_header.md R296). -/
def setUsizePresent (policy : Word) (pr : Bool) : Word :=
  if pr then policy ||| 0x00000100 else policy &&& ~~~0x00000100

/-- The size value that means "unknown" (R29). -/
def unknownSize : BitVec 64 := 0xFFFFFFFFFFFFFFFF

/-- `KnownSize()` (R29). -/
def knownSize (s : State) : Option Nat :=
  if usizePresent s.policy && s.usize != unknownSize then some s.usize.toNat else none

end Sys2Proof.Machine
end

