-- ==== Sys2Proof/Machine/Ops.lean ====
section
/-! DEFINITION. The operations every command is made of: the probability RAM, the source, the sink and the window
(00_scope.md R11; 43_dictionary_window.md R260 to R267), taking a fault (60_exceptions.md R321) and the one way back
from it, SESSION_RESET (R325, 70_reset_and_hazards.md R341), and the order of checks of a command (R323). -/

namespace Sys2Proof.Machine

/-! ## The probability RAM (R43, 41_probability_model.md R165) -/

/-- `PROB_INIT`, the value of every cell after SESSION_RESET (40_range_coder.md R120, R161). -/
def probInit : Prob := 1024

/-- `CellValid` (41_probability_model.md R165). -/
def cellValid (a : Nat) : Bool :=
  a ≤ 0x3007FF && !(0x323 ≤ a && a ≤ 0x32F) && !(0x744 ≤ a && a ≤ 0x7FF)

/-- The value of cell `a`; a cell not listed holds `probInit`. -/
def Memory.read : Memory → Nat → Prob
  | [], _ => probInit
  | (k, v) :: rest, a => if k = a then v else Memory.read rest a

/-- Cell `a` set to `v`, in canonical form: listed in rising order, not listed where the value is `probInit`. -/
def Memory.write : Memory → Nat → Prob → Memory
  | [], a, v => if v = probInit then [] else [(a, v)]
  | (k, x) :: rest, a, v =>
    if a < k then (if v = probInit then (k, x) :: rest else (a, v) :: (k, x) :: rest)
    else if a = k then (if v = probInit then rest else (a, v) :: rest)
    else (k, x) :: Memory.write rest a v

/-- Every listed address is at least `lo`, the addresses rise strictly, and no value is `probInit`. -/
def Memory.wfFrom : Nat → Memory → Bool
  | _, [] => true
  | lo, (k, v) :: rest => lo ≤ k && v != probInit && Memory.wfFrom (k + 1) rest

/-- The canonical form: equal probability RAMs are equal lists. -/
def Memory.wf (m : Memory) : Bool := Memory.wfFrom 0 m

/-! ## Named updates of the state -/

/-- RES written. -/
def State.withRes (s : State) (v : Word) : State := { s with res := v }
/-- MODE written. -/
def State.withMode (s : State) (m : Mode) : State := { s with mode := m }
/-- EOS_SEEN set. -/
def State.sawEos (s : State) : State := { s with eosSeen := true }
/-- RANGE written. -/
def State.withRange (s : State) (v : Word) : State := { s with range := v }
/-- LOW written. -/
def State.withLow (s : State) (v : BitVec 64) : State := { s with low := v }
/-- CODE written. -/
def State.withCode (s : State) (v : Word) : State := { s with code := v }
/-- CACHE and CACHE_SIZE written. -/
def State.withCache (s : State) (c : Byte) (n : Nat) : State := { s with cache := c, cacheSize := n }
/-- PRAM replaced. -/
def State.withPram (s : State) (m : Memory) : State := { s with pram := m }
/-- STATE written. -/
def State.withFsm (s : State) (n : Nat) : State := { s with fsm := BitVec.ofNat 4 n }
/-- REP0..REP3 written. -/
def State.withReps (s : State) (r0 r1 r2 r3 : Word) : State :=
  { s with rep0 := r0, rep1 := r1, rep2 := r2, rep3 := r3 }
/-- The window replaced. -/
def State.withWindow (s : State) (w : List Byte) : State := { s with window := w }
/-- One source byte consumed, `rest` left (R11). -/
def State.consumed (s : State) (rest : List Byte) : State := { s with source := rest, inCount := s.inCount + 1 }
/-- One byte delivered to the sink (R11). -/
def State.delivered (s : State) (b : Byte) : State := { s with sink := s.sink ++ [b], outCount := s.outCount + 1 }
/-- PROPS written. -/
def State.withProps (s : State) (v : Word) : State := { s with props := v }
/-- DICT_SIZE written. -/
def State.withDictSize (s : State) (v : Word) : State := { s with dictSize := v }
/-- USIZE written. -/
def State.withUsize (s : State) (v : BitVec 64) : State := { s with usize := v }
/-- POLICY written. -/
def State.withPolicy (s : State) (v : Word) : State := { s with policy := v }
/-- ARG0 written. -/
def State.withArg0 (s : State) (v : Word) : State := { s with arg0 := v }
/-- ARG1 written. -/
def State.withArg1 (s : State) (v : Word) : State := { s with arg1 := v }
/-- The host's queue of accesses replaced. -/
def State.withQueue (s : State) (q : List Access) : State := { s with hostQueue := q }
/-- A value returned to the host (R22). -/
def State.answered (s : State) (v : Word) : State := { s with hostReads := s.hostReads ++ [v] }

/-! ## Taking a fault, and the way back -/

/-- Fault entry (60_exceptions.md R321): FAULTED, FAULT.CODE and FAULT.SUB, and nothing else. -/
def State.takeFault (s : State) (c : Cause) : State :=
  { s with faulted := true, faultCode := c.code, faultSub := c.sub }

/-- Every effect of SESSION_RESET (70_reset_and_hazards.md R341): the session state is cleared, the configuration and
ARG0, ARG1 are kept, the source and the sink are not touched. -/
def State.sessionReset (s : State) : State :=
  { s with
    mode := .idle, faulted := false, faultCode := 0, faultSub := 0, eosSeen := false, res := 0,
    low := 0, range := 0xFFFFFFFF, cache := 0, cacheSize := 1, code := 0,
    pram := [], fsm := 0, rep0 := 0, rep1 := 0, rep2 := 0, rep3 := 0,
    window := [], inCount := 0, outCount := 0 }

/-! ## A command's pseudocode: run step by step, stopped at the first raise, every effect kept (R322) -/

/-- A piece of pseudocode. It ends with a value, or early with a `Stop`; either way the state holds every effect made so
far: a fault undoes nothing (R322). -/
abbrev Cmd := EStateM Stop State

/-- `raise Fault(code, sub)` (R11, R321). -/
def raise {α : Type} (c : Cause) : Cmd α := throw (.raise c)

/-- A stop of the model, for states no run reaches (Fault). -/
def stuck {α : Type} (f : Fault) : Cmd α := throw (.stuck f)

/-- `if not <check>: raise Fault(c)`. -/
def check (ok : Bool) (c : Cause) : Cmd Unit := if ok then pure () else raise c

/-- `if <cond>: <x>`. -/
def runIf (cond : Bool) (x : Cmd Unit) : Cmd Unit := if cond then x else pure ()

/-- `repeat n times`. -/
def repeatCmd : Nat → Cmd Unit → Cmd Unit
  | 0, _ => pure ()
  | n + 1, c => do
    c
    repeatCmd n c

/-- What a command's run means for the machine: its last state, FAULTED if it raised. -/
def conclude : EStateM.Result Stop State Unit → Host.Outcome State Fault Refusal
  | .ok _ t => .next t
  | .error (.raise c) t => .next (t.takeFault c)
  | .error (.stuck f) _ => .fault f

/-- `MODE` must be one of the command's modes (30_encoding.md R83). -/
def requireMode (modes : List Mode) : Cmd Unit := do
  let s ← get
  check (modes.contains s.mode) .sequenceError

/-- A command other than SESSION_RESET (60_exceptions.md R323): refused with no effect while FAULTED (R324), then the
mode check, then the command's own checks and effects. -/
def issue (modes : List Mode) (body : Cmd Unit) (s : State) : Host.Outcome State Fault Refusal :=
  if s.faulted then .next s
  else conclude ((do requireMode modes; body) s)

/-! ## Source and sink (R11, R46) -/

/-- The fault of a read with no byte left: a source error is reported before end-of-source is considered (R11, R323). -/
def sourceStop (s : State) (onEnd : Cause) : Cause := if s.sourceEnd = .error then .ioErrorIn else onEnd

/-- `InRead(onEnd)` (R11). -/
def inRead (onEnd : Cause) : Cmd Byte := do
  let s ← get
  match s.source with
  | b :: rest => do
    set (s.consumed rest)
    pure b
  | [] => raise (sourceStop s onEnd)

/-- `InAtEnd()`: true exactly when the source has no further byte (R11). DEDUCED, unsafe for a source that ends in an
error: see notes/assumptions/9.md. -/
def inAtEnd (s : State) : Bool := s.source.isEmpty

/-- Whether the sink's next write fails (R46). -/
def sinkFails (s : State) : Bool :=
  match s.sinkFailAt with
  | none => false
  | some k => k ≤ s.sink.length

/-- `OutWrite(b)` (R11). -/
def outWrite (b : Byte) : Cmd Unit := do
  let s ← get
  if sinkFails s then raise .ioErrorOut else set (s.delivered b)

/-- `OutWrite` of each byte in order. -/
def outWriteAll : List Byte → Cmd Unit
  | [] => pure ()
  | b :: rest => do
    outWrite b
    outWriteAll rest

/-! ## Cells -/

/-- `PRAM[a]`. -/
def readCell (a : Nat) : Cmd Nat := do
  let s ← get
  if cellValid a then pure (Memory.read s.pram a).toNat else stuck .noSuchCell

/-- `PRAM[a] <- v`. -/
def writeCell (a v : Nat) : Cmd Unit := do
  let s ← get
  if cellValid a then set (s.withPram (Memory.write s.pram a (BitVec.ofNat 11 v))) else stuck .noSuchCell

/-! ## The window (43_dictionary_window.md) -/

/-- `POS = |W|` (R260). -/
def posOf (s : State) : Nat := s.window.length

/-- `cap = max(DICT_SIZE, 0x1000)` (R261). -/
def windowCap (s : State) : Nat := max s.dictSize.toNat Config.minDict

/-- `WLIMIT = min(cap, P_MAX_DICT)` (R261). -/
def windowLimit (s : State) : Nat := min (windowCap s) s.config.pMaxDict

/-- `CheckDistance(d)` (R263). -/
def checkDistance (d : Nat) : Cmd Unit := do
  let s ← get
  check (d != 0 && d ≤ posOf s) .distBeyondOutput
  check (d ≤ windowLimit s) .distBeyondDict

/-- `W[POS - d]` (R260), for a readable `d`; the 0 stands for no byte of `W` and no readable `d` reads it. -/
def windowByte (s : State) (d : Nat) : Byte := s.window.getD (posOf s - d) 0

/-- `ByteAt(d)` (R265). -/
def byteAt (d : Nat) : Cmd Byte := do
  checkDistance d
  let s ← get
  pure (windowByte s d)

/-- `LastByte()` (R266): the byte appended last, 0 on an empty window. -/
def lastByte (s : State) : Byte := s.window.getLastD 0

/-- `WindowAppend(b)` (R264): in DECODE the sink is written first. -/
def windowAppend (b : Byte) : Cmd Unit := do
  let s ← get
  runIf (s.mode == .decode) (outWrite b)
  modify fun t => t.withWindow (t.window ++ [b])

/-- One byte of a match copy (R267). -/
def copyByte (d : Nat) : Cmd Unit := do
  let s ← get
  windowAppend (windowByte s d)

/-- `CopyMatch(d, n)` (R267): one check, then `n` bytes one at a time. -/
def copyMatch (d n : Nat) : Cmd Unit := do
  checkDistance d
  repeatCmd n (copyByte d)

end Sys2Proof.Machine
end

