-- ==== Sys2Proof/Machine/Operands.lean ====
section
/-! DEFINITION. The operand forms: ARG0 and ARG1 as cell address, probability, tree base, value, distance and length
(30_encoding.md R82), and the checks that fault ILLEGAL_OPERAND (60_exceptions.md R323). -/

namespace Sys2Proof.Machine

/-- `a = ARG0`, a cell address (R82): checked with `CellValid` on all 32 bits (41_probability_model.md R165). -/
def cellOperand : Cmd Nat := do
  let s ← get
  check (cellValid s.arg0.toNat) .illegalOperand
  pure s.arg0.toNat

/-- `p = ARG0`, a throwaway probability, legal 1..2047 (R82; 40_range_coder.md R132, R142). -/
def probOperand : Cmd Nat := do
  let s ← get
  check (1 ≤ s.arg0.toNat && s.arg0.toNat ≤ 2047) .illegalOperand
  pure s.arg0.toNat

/-- `TreeOperandsLegal(n, base, v)` (41_probability_model.md R175). -/
def treeOperandsLegal (n base v : Nat) : Bool :=
  1 ≤ n && n ≤ 8 && v < 2 ^ n && (List.range (2 ^ n - 1)).all fun k => cellValid (base + 1 + k)

/-- `base = ARG0` of a decoder's tree command (R177, R178). -/
def treeBaseOperand (n : Nat) : Cmd Nat := do
  let s ← get
  check (treeOperandsLegal n s.arg0.toNat 0) .illegalOperand
  pure s.arg0.toNat

/-- The legal range of a direct-bit count (R81, R143). -/
def directCountLegal (n : Nat) : Bool := 1 ≤ n && n ≤ 32

end Sys2Proof.Machine
end

