-- ==== Sys2Proof/Machine/Header.lean ====
section
/-! DEFINITION. The properties and the stream header (44_header.md): the layout (R293), PROPS_VALIDATE (R292),
HDR_WRITE (R294) and HDR_READ (R296, R297). -/

namespace Sys2Proof.Machine

/-- The `n` low bytes of a value, least significant first (20_memory.md R61). -/
def bytesLE : Nat → Nat → List Byte
  | 0, _ => []
  | n + 1, v => BitVec.ofNat 8 v :: bytesLE n (v >>> 8)

/-- The props byte `lc + 9*(lp + 5*pb)` (R293). -/
def propsByte (props : Word) : Byte := BitVec.ofNat 8 (lcOf props + 9 * (lpOf props + 5 * pbOf props))

/-- The size field's value: USIZE when present, else all ones (R294). -/
def sizeField (s : State) : Nat := if usizePresent s.policy then s.usize.toNat else unknownSize.toNat

/-- The header's bytes (R293, R294): 5, and 8 more unless ENC_POLICY is SKIP. -/
def headerBytes (s : State) : List Byte :=
  propsByte s.props :: bytesLE 4 s.dictSize.toNat ++ (if encPolicySkip s.policy then [] else bytesLE 8 (sizeField s))

/-- `n` bytes read least significant first, the next at bit `8k`, the value so far in `v` (R296). -/
def readLE (n k v : Nat) : Cmd Nat :=
  match n with
  | 0 => pure v
  | n + 1 => do
    let b ← inRead .headerTooShort
    readLE n (k + 1) (v ||| b.toNat <<< (8 * k))

/-- The size to store after the header's size field, if any, was read (R296): READ trusts the field, whose all-ones value
means unknown; READ_OVERRIDE reads it and keeps the caller's; SKIP reads nothing. -/
def readSize (pol : Nat) (usize : BitVec 64) (present : Bool) : Cmd (BitVec 64 × Bool) := do
  if pol = 0 ∨ pol = 1 then
    let v ← readLE 8 0 0
    if pol = 0 then pure (if v = unknownSize.toNat then (0, false) else (BitVec.ofNat 64 v, true))
    else pure (usize, present)
  else pure (usize, present)

/-- `ReadHeader()` (R296): the registers are written at the end, after every byte has been read. -/
def readHeader : Cmd Unit := do
  let s ← get
  check (decPolicy s.policy != 3) .invalidConfig
  let p ← inRead .headerTooShort
  check (p.toNat < 225) .invalidProperties
  let ds ← readLE 4 0 0
  let size ← readSize (decPolicy s.policy) s.usize (usizePresent s.policy)
  modify fun t =>
    (((t.withProps (propsWord (p.toNat % 9) (p.toNat / 9 % 5) (p.toNat / 9 / 5))).withDictSize
      (BitVec.ofNat 32 (max ds Config.minDict))).withUsize size.1).withPolicy (setUsizePresent t.policy size.2)

/-- PROPS_VALIDATE (R292). -/
def execPropsValidate (s : State) : Host.Outcome State Fault Refusal :=
  issue [.idle, .encode, .decode, .done] (do
    let t ← get
    check (propsValid t.props) .invalidProperties) s

/-- HDR_WRITE (R294). -/
def execHdrWrite (s : State) : Host.Outcome State Fault Refusal :=
  issue [.idle] (do
    let t ← get
    check (propsValid t.props) .invalidProperties
    outWriteAll (headerBytes t)) s

/-- HDR_READ (R297). -/
def execHdrRead (s : State) : Host.Outcome State Fault Refusal := issue [.idle] readHeader s

end Sys2Proof.Machine
end

