-- ==== Sys2Proof/Machine/RangeCoder.lean ====
section
/-! DEFINITION. The range coder (40_range_coder.md): its arithmetic (R120 to R128, R135 to R138) and its nine commands
(R130 to R133, R140 to R144). Arithmetic is on naturals, narrowed where a register is written (00_scope.md R10). -/

namespace Sys2Proof.Machine

/-- `TOP`, the renormalisation threshold (R120). -/
def top : Nat := 2 ^ 24

/-- `bound = (RANGE >> 11) * p` (R121). -/
def splitBound (range : Word) (p : Nat) : Nat := (range.toNat >>> 11) * p

/-- `Adapt(p, bit)` (R122). -/
def adapt (p : Nat) (bit : Bool) : Nat :=
  if bit then p - p >>> 5 else p + (2048 - p) >>> 5

/-! ## Encoder arithmetic -/

/-- `LOW[32]`, the carry (R127). -/
def carryOf (low : BitVec 64) : Nat := (low.extractLsb' 32 1).toNat

/-- Whether `ShiftLow` delivers the pending run: no later carry can reach it (R127). -/
def runIsFinal (low : BitVec 64) : Bool := low.toNat < 0xFF000000 || 0x100000000 ≤ low.toNat

/-- The pending run with the carry added: `u8(CACHE + carry)`, then `CACHE_SIZE - 1` bytes `u8(0xFF + carry)` (R127). -/
def pendingRun (s : State) : List Byte :=
  BitVec.ofNat 8 (s.cache.toNat + carryOf s.low) ::
    List.replicate (s.cacheSize - 1) (BitVec.ofNat 8 (0xFF + carryOf s.low))

/-- Delivery of the run, after which CACHE is `LOW[31:24]` and CACHE_SIZE is 0 (R127). -/
def deliverRun : Cmd Unit := do
  let s ← get
  outWriteAll (pendingRun s)
  modify fun t => t.withCache (s.low.extractLsb' 24 8) 0

/-- `ShiftLow()` (R127). -/
def shiftLow : Cmd Unit := do
  let s ← get
  runIf (runIsFinal s.low) deliverRun
  modify fun t =>
    (t.withCache t.cache (t.cacheSize + 1)).withLow (BitVec.ofNat 64 ((s.low.toNat &&& 0x00FFFFFF) <<< 8))

/-- The loop of `EncNormalize` (R124). A RANGE of 1 or more leaves it within three turns, so four looks at RANGE are
enough; a RANGE of 0 stops the model (Fault.renormalisationNeverEnds). -/
def encNormalizeLoop : Nat → Cmd Unit
  | 0 => stuck .renormalisationNeverEnds
  | turns + 1 => do
    let s ← get
    if s.range.toNat < top then
      set (s.withRange (BitVec.ofNat 32 (s.range.toNat <<< 8)))
      shiftLow
      encNormalizeLoop turns
    else pure ()

/-- `EncNormalize()` (R124). -/
def encNormalize : Cmd Unit := encNormalizeLoop 4

/-- The split of the encoder's interval for one decision (R123). -/
def encSplit (p : Nat) (bit : Bool) (s : State) : State :=
  if bit then
    (s.withLow (BitVec.ofNat 64 (s.low.toNat + splitBound s.range p))).withRange
      (BitVec.ofNat 32 (s.range.toNat - splitBound s.range p))
  else s.withRange (BitVec.ofNat 32 (splitBound s.range p))

/-- `EncodeBitCore(p, bit)` (R123). -/
def encodeBitCore (p : Nat) (bit : Bool) : Cmd Nat := do
  modify (encSplit p bit)
  encNormalize
  pure (adapt p bit)

/-- `PRAM[a] <- EncodeBitCore(PRAM[a], bit)`: one adaptive decision (R131). -/
def encCell (a : Nat) (bit : Bool) : Cmd Unit := do
  let p ← readCell a
  let q ← encodeBitCore p bit
  writeCell a q

/-- One non-adaptive decision whose adapted value is thrown away (R132, R164). -/
def encDiscard (p : Nat) (bit : Bool) : Cmd Unit := do
  let _ ← encodeBitCore p bit
  pure ()

/-! ## Decoder arithmetic -/

/-- The loop of `DecNormalize` (R135). Each turn consumes a source byte or raises, so one turn more than the source has
bytes is never used up. -/
def decNormalizeLoop : Nat → Cmd Unit
  | 0 => pure ()
  | turns + 1 => do
    let s ← get
    if s.range.toNat < top then
      set (s.withRange (BitVec.ofNat 32 (s.range.toNat <<< 8)))
      let b ← inRead .truncated
      modify fun t => t.withCode (BitVec.ofNat 32 (t.code.toNat <<< 8 ||| b.toNat))
      decNormalizeLoop turns
    else pure ()

/-- `DecNormalize()` (R135). -/
def decNormalize : Cmd Unit := do
  let s ← get
  decNormalizeLoop (s.source.length + 2)

/-- Four bytes shifted in most significant first (R136; 20_memory.md R62). -/
def readCode : Nat → Nat → Cmd Nat
  | 0, c => pure c
  | k + 1, c => do
    let b ← inRead .truncated
    readCode k ((c <<< 8 ||| b.toNat) % 2 ^ 32)

/-- `DecInit()` (R136). -/
def decInit : Cmd Unit := do
  modify fun t => t.withRange 0xFFFFFFFF
  let _ ← inRead .truncated
  let c ← readCode 4 0
  modify fun t => t.withCode (BitVec.ofNat 32 c)

/-- The decoded bit of a decision (R137): 0 when `CODE < bound`. -/
def decBit (p : Nat) (s : State) : Bool := splitBound s.range p ≤ s.code.toNat

/-- The split of the decoder's interval (R137). -/
def decSplit (p : Nat) (s : State) : State :=
  if decBit p s then
    (s.withCode (BitVec.ofNat 32 (s.code.toNat - splitBound s.range p))).withRange
      (BitVec.ofNat 32 (s.range.toNat - splitBound s.range p))
  else s.withRange (BitVec.ofNat 32 (splitBound s.range p))

/-- `DecodeBitCore(p)` (R137): the bit and the adapted probability. -/
def decodeBitCore (p : Nat) : Cmd (Bool × Nat) := do
  let s ← get
  set (decSplit p s)
  decNormalize
  pure (decBit p s, adapt p (decBit p s))

/-- `DecCell(a)` (42_symbol_fsm.md R220): one adaptive decision. -/
def decCell (a : Nat) : Cmd Bool := do
  let p ← readCell a
  let r ← decodeBitCore p
  writeCell a r.2
  pure r.1

/-- One direct bit halves the range (R138). -/
def directSplit (s : State) : State :=
  if s.range.toNat >>> 1 ≤ s.code.toNat then
    (s.withCode (BitVec.ofNat 32 (s.code.toNat - s.range.toNat >>> 1))).withRange (BitVec.ofNat 32 (s.range.toNat >>> 1))
  else s.withRange (BitVec.ofNat 32 (s.range.toNat >>> 1))

/-- The loop of `DecodeDirectCore`, with the bits decoded so far in `r` (R138). -/
def decDirectLoop : Nat → Nat → Cmd Nat
  | 0, r => pure r
  | k + 1, r => do
    let s ← get
    set (directSplit s)
    decNormalize
    decDirectLoop k (2 * r + (decide (s.range.toNat >>> 1 ≤ s.code.toNat)).toNat)

/-- `DecodeDirectCore(n)` (R138): `n` bits, most significant first. -/
def decDirect (n : Nat) : Cmd Nat := decDirectLoop n 0

/-! ## Starting a session (R130, R140) -/

/-- The two checks that `RC_ENC_INIT` and `RC_DEC_INIT` make, in this order (R130, R140, R323). -/
def initChecks : Cmd Unit := do
  let s ← get
  check (propsValid s.props) .invalidProperties
  check (windowCap s ≤ s.config.pMaxDict) .dictTooLarge

/-- The encoder's initial state (R130). -/
def encoderStart (s : State) : State :=
  (((s.withLow 0).withRange 0xFFFFFFFF).withCache 0 1).withMode .encode

/-! ## Commands -/

/-- RC_ENC_INIT (R130). -/
def execRcEncInit (s : State) : Host.Outcome State Fault Refusal :=
  issue [.idle] (do initChecks; modify encoderStart) s

/-- RC_ENC_BIT (R131). -/
def execRcEncBit (bit : Bool) (s : State) : Host.Outcome State Fault Refusal :=
  issue [.encode] (do let a ← cellOperand; encCell a bit) s

/-- RC_ENC_BIT_NA (R132): RES is the adapted throwaway value. -/
def execRcEncBitNa (bit : Bool) (s : State) : Host.Outcome State Fault Refusal :=
  issue [.encode] (do
    let p ← probOperand
    let q ← encodeBitCore p bit
    modify fun t => t.withRes (BitVec.ofNat 32 q)) s

/-- RC_ENC_FLUSH (R133). -/
def execRcEncFlush (s : State) : Host.Outcome State Fault Refusal :=
  issue [.encode] (do repeatCmd 5 shiftLow; modify fun t => t.withMode .done) s

/-- RC_DEC_INIT (R140). -/
def execRcDecInit (s : State) : Host.Outcome State Fault Refusal :=
  issue [.idle] (do initChecks; decInit; modify fun t => t.withMode .decode) s

/-- RC_DEC_BIT (R141): RES is the bit. -/
def execRcDecBit (s : State) : Host.Outcome State Fault Refusal :=
  issue [.decode] (do
    let a ← cellOperand
    let bit ← decCell a
    modify fun t => t.withRes (BitVec.ofNat 32 bit.toNat)) s

/-- RC_DEC_BIT_NA (R142): RES[0] is the bit, RES[26:16] the adapted throwaway value. -/
def execRcDecBitNa (s : State) : Host.Outcome State Fault Refusal :=
  issue [.decode] (do
    let p ← probOperand
    let r ← decodeBitCore p
    modify fun t => t.withRes (BitVec.ofNat 32 (r.2 <<< 16 ||| r.1.toNat))) s

/-- RC_DEC_DIRECT (R143). -/
def execRcDecDirect (n : Nat) (s : State) : Host.Outcome State Fault Refusal :=
  issue [.decode] (do
    check (directCountLegal n) .illegalOperand
    let v ← decDirect n
    modify fun t => t.withRes (BitVec.ofNat 32 v)) s

/-- RC_DEC_FINISHED (R144). -/
def execRcDecFinished (s : State) : Host.Outcome State Fault Refusal :=
  issue [.decode] (modify fun t => t.withRes (if t.code = 0 then 1 else 0)) s

end Sys2Proof.Machine
end

