-- ==== Sys2Proof/Machine/ProbModel.lean ====
section
/-! DEFINITION. The probability model (41_probability_model.md): the cell address map (R165), the context formulas
(R167 to R169), the bit trees (R170 to R173) and the five commands (R176 to R180). -/

namespace Sys2Proof.Machine

/-! ## Address map (R165) -/

/-- `IS_MATCH[s][ps]`. -/
def isMatchCell (s ps : Nat) : Nat := 0x000 + s * 16 + ps
/-- `IS_REP[s]`. -/
def isRepCell (s : Nat) : Nat := 0x0C0 + s
/-- `IS_REP_G0[s]`. -/
def isRepG0Cell (s : Nat) : Nat := 0x0CC + s
/-- `IS_REP_G1[s]`. -/
def isRepG1Cell (s : Nat) : Nat := 0x0D8 + s
/-- `IS_REP_G2[s]`. -/
def isRepG2Cell (s : Nat) : Nat := 0x0E4 + s
/-- `IS_REP0_LONG[s][ps]`. -/
def isRep0LongCell (s ps : Nat) : Nat := 0x0F0 + s * 16 + ps
/-- `POS_SLOT[ls]`, the base of its 6-bit tree. -/
def posSlotBase (ls : Nat) : Nat := 0x1B0 + 64 * ls
/-- `SPEC_POS`. -/
def specPosBase : Nat := 0x2B0
/-- `ALIGN`. -/
def alignBase : Nat := 0x330
/-- `LEN`. -/
def lenBase : Nat := 0x340
/-- `REP_LEN`. -/
def repLenBase : Nat := 0x542
/-- `LITERAL`: the base of literal coder `lit`. -/
def literalBase (lit : Nat) : Nat := 0x800 + 0x300 * lit

/-! ## Contexts -/

/-- `pos_state = POS & ((1 << pb) - 1)` (R167). -/
def posState (s : State) : Nat := posOf s &&& (1 <<< pbOf s.props - 1)

/-- `lit_state` (R168), for LC at most 8. -/
def litState (s : State) : Nat :=
  (posOf s &&& (1 <<< lpOf s.props - 1)) <<< lcOf s.props + (lastByte s).toNat >>> (8 - lcOf s.props)

/-- `LB`, the base of the literal coder in use (R168, R170). -/
def literalCoder : Cmd Nat := do
  let s ← get
  if lcOf s.props ≤ 8 then pure (literalBase (litState s)) else stuck .negativeShift

/-- `len_state = min(i, 3)` (R169). -/
def lenState (i : Nat) : Nat := min i 3

/-! ## Bit trees -/

/-- The walk of `TreeEncode`: `k` bits of `v` left, at node `m` (R171). -/
def treeEncodeLoop (base v : Nat) : Nat → Nat → Cmd Unit
  | 0, _ => pure ()
  | k + 1, m => do
    encCell (base + m) (v.testBit k)
    treeEncodeLoop base v k (2 * m + (v.testBit k).toNat)

/-- `TreeEncode(base, n, v)`, most significant bit first (R171). -/
def treeEncode (base n v : Nat) : Cmd Unit := treeEncodeLoop base v n 1

/-- The walk of `TreeDecode`: `k` bits left, at node `m`; its last node is the answer (R172). -/
def treeDecodeLoop (base : Nat) : Nat → Nat → Cmd Nat
  | 0, m => pure m
  | k + 1, m => do
    let bit ← decCell (base + m)
    treeDecodeLoop base k (2 * m + bit.toNat)

/-- `TreeDecode(base, n)` (R172). -/
def treeDecode (base n : Nat) : Cmd Nat := do
  let m ← treeDecodeLoop base n 1
  pure (m - 2 ^ n)

/-- The walk of `RTreeDecode`: `j` bits left of which the next is bit `k` of the value, at node `m`, value so far `r`
(R173). -/
def rtreeDecodeLoop (base : Nat) : Nat → Nat → Nat → Nat → Cmd Nat
  | 0, _, _, r => pure r
  | j + 1, k, m, r => do
    let bit ← decCell (base + m)
    rtreeDecodeLoop base j (k + 1) (2 * m + bit.toNat) (r ||| bit.toNat <<< k)

/-- `RTreeDecode(base, n)` (R173). -/
def rtreeDecode (base n : Nat) : Cmd Nat := rtreeDecodeLoop base n 0 1 0

/-! ## Commands -/

/-- RC_ENC_TREE (R176). -/
def execRcEncTree (n : Nat) (s : State) : Host.Outcome State Fault Refusal :=
  issue [.encode] (do
    let t ← get
    check (treeOperandsLegal n t.arg0.toNat t.arg1.toNat) .illegalOperand
    treeEncode t.arg0.toNat n t.arg1.toNat) s

/-- RC_DEC_TREE (R177). -/
def execRcDecTree (n : Nat) (s : State) : Host.Outcome State Fault Refusal :=
  issue [.decode] (do
    let base ← treeBaseOperand n
    let v ← treeDecode base n
    modify fun t => t.withRes (BitVec.ofNat 32 v)) s

/-- RC_DEC_RTREE (R178). -/
def execRcDecRtree (n : Nat) (s : State) : Host.Outcome State Fault Refusal :=
  issue [.decode] (do
    let base ← treeBaseOperand n
    let v ← rtreeDecode base n
    modify fun t => t.withRes (BitVec.ofNat 32 v)) s

/-- PM_INIT (R179): every valid cell is 1024, which is the empty list. -/
def execPmInit (s : State) : Host.Outcome State Fault Refusal :=
  issue [.idle] (modify fun t => t.withPram []) s

/-- CELL_READ (R180). -/
def execCellRead (s : State) : Host.Outcome State Fault Refusal :=
  issue [.idle, .encode, .decode, .done] (do
    let a ← cellOperand
    let v ← readCell a
    modify fun t => t.withRes (BitVec.ofNat 32 v)) s

end Sys2Proof.Machine
end

