-- ==== Sys2Proof/Machine/Symbol.lean ====
section
/-! DEFINITION. The symbol state machine (42_symbol_fsm.md): the transitions (R201), the rep list (R215 to R219), the
token decoder (R220 to R226) and the commands ENC_LITERAL, ENC_EOS and DEC_TOKEN. -/

namespace Sys2Proof.Machine

/-! ## Transitions (R201) -/

/-- `LitNext`. -/
def litNext (s : Nat) : Nat := if s < 4 then 0 else if s < 10 then s - 3 else s - 6
/-- `MatchNext`. -/
def matchNext (s : Nat) : Nat := if s < 7 then 7 else 10
/-- `RepNext`. -/
def repNext (s : Nat) : Nat := if s < 7 then 8 else 11
/-- `ShortRepNext`. -/
def shortRepNext (s : Nat) : Nat := if s < 7 then 9 else 11

/-! ## Token kinds as RES reports them (R226) -/

/-- A token's kind. -/
inductive TokenKind where
  | endBySize
  | lit
  | newMatch
  | shortRep
  | rep0
  | rep1
  | rep2
  | rep3
  | eos
  deriving DecidableEq, Repr

/-- The RES code of a kind (R226). -/
def TokenKind.code : TokenKind → Word
  | .endBySize => 0
  | .lit => 1
  | .newMatch => 2
  | .shortRep => 3
  | .rep0 => 4
  | .rep1 => 5
  | .rep2 => 6
  | .rep3 => 7
  | .eos => 8

/-- `RES <- code of kind`. -/
def report (k : TokenKind) : Cmd Unit := modify fun t => t.withRes k.code

/-- `STATE <- n`. -/
def setFsm (n : Nat) : Cmd Unit := modify fun t => t.withFsm n

/-! ## Encoder -/

/-- The body of ENC_LITERAL (R210): the is_match decision, the plain literal walk (R170), STATE, then the window. -/
def encLiteral (b : Byte) : Cmd Unit := do
  let s ← get
  encCell (isMatchCell s.fsm.toNat (posState s)) false
  let lb ← literalCoder
  treeEncode lb 8 b.toNat
  setFsm (litNext s.fsm.toNat)
  windowAppend b

/-- The body of ENC_EOS (R211): the 42 decisions of 30_encoding.md R97 (90_conflicts.md C1), then EOS_SEEN. -/
def encEos : Cmd Unit := do
  let s ← get
  encCell (isMatchCell s.fsm.toNat (posState s)) true
  encDiscard 1024 false
  repeatCmd 4 (encDiscard 1024 false)
  repeatCmd 6 (encDiscard 1024 true)
  repeatCmd 30 (encDiscard 1024 true)
  modify fun t => t.sawEos

/-- ENC_LITERAL and ENC_EOS run only while EOS_SEEN is 0 (30_encoding.md R83, R323). -/
def requireNoEos : Cmd Unit := do
  let s ← get
  check (!s.eosSeen) .sequenceError

/-! ## Literals (R223) -/

/-- The plain walk from node `sym`, `k` bits left (R223, second loop). -/
def literalPlain (lb : Nat) : Nat → Nat → Cmd Nat
  | 0, sym => pure sym
  | k + 1, sym => do
    let bit ← decCell (lb + sym)
    literalPlain lb k (2 * sym + bit.toNat)

/-- The matched walk (R223, first loop): `k` bits left, `mb` the match byte shifted so far. It goes over to the plain walk
at the first bit that differs from the match byte's. -/
def literalMatched (lb : Nat) : Nat → Nat → Nat → Cmd Nat
  | 0, _, sym => pure sym
  | k + 1, mb, sym => do
    let mbit := mb.testBit 7
    let bit ← decCell (lb + (1 + mbit.toNat) <<< 8 + sym)
    if bit != mbit then literalPlain lb k (2 * sym + bit.toNat)
    else literalMatched lb k (mb <<< 1 &&& 0xFF) (2 * sym + bit.toNat)

/-- `DecodeLiteral(LB, s)` (R223). -/
def decodeLiteral (lb st : Nat) : Cmd Byte := do
  let s ← get
  if 7 ≤ st then
    let mb ← byteAt (s.rep0.toNat + 1)
    let sym ← literalMatched lb 8 mb.toNat 1
    pure (BitVec.ofNat 8 (sym - 0x100))
  else
    let sym ← literalPlain lb 8 1
    pure (BitVec.ofNat 8 (sym - 0x100))

/-! ## Lengths and distances (R224, R225) -/

/-- `LenDecode(L, ps)` (R224): the length index, 0..271. -/
def lenDecode (l ps : Nat) : Cmd Nat := do
  let choice ← decCell (l + 0x000)
  if choice then
    let choice2 ← decCell (l + 0x001)
    if choice2 then
      let t ← treeDecode (l + 0x102) 8
      pure (16 + t)
    else
      let t ← treeDecode (l + 0x082 + 8 * ps) 3
      pure (8 + t)
  else
    treeDecode (l + 0x002 + 8 * ps) 3

/-- `nd` of a slot (R225): how many bits follow it. -/
def slotBits (slot : Nat) : Nat := slot >>> 1 - 1

/-- `base` of a slot (R225): its first distance field. -/
def slotBase (slot : Nat) : Nat := (2 ||| slot &&& 1) <<< slotBits slot

/-- `DistDecode(i)` (R225): the distance field. The direct bits are decoded before the ALIGN tree (30_encoding.md R99). -/
def distDecode (i : Nat) : Cmd Word := do
  let slot ← treeDecode (posSlotBase (lenState i)) 6
  if slot < 4 then pure (BitVec.ofNat 32 slot)
  else if slot < 14 then
    let low ← rtreeDecode (specPosBase + slotBase slot - slot) (slotBits slot)
    pure (BitVec.ofNat 32 (slotBase slot + low))
  else
    let high ← decDirect (slotBits slot - 4)
    let low ← rtreeDecode alignBase 4
    pure (BitVec.ofNat 32 (slotBase slot + high <<< 4 + low))

/-! ## Tokens (R220) -/

/-- The end of a match or rep token (R220, R227): the size check, the copy, RES. -/
def finishMatch (i : Nat) (k : TokenKind) : Cmd Unit := do
  let s ← get
  check (match knownSize s with | none => true | some n => posOf s + (i + 2) ≤ n) .matchPastSize
  copyMatch (s.rep0.toNat + 1) (i + 2)
  report k

/-- `EndMarker()` (R221). -/
def endMarker : Cmd Unit := do
  modify fun t => t.sawEos
  let s ← get
  check (knownSize s).isNone .sizeMismatch
  check (s.code == 0) .eosCodeNonzero
  check (!eosTrailingPolicy s.policy || inAtEnd s) .eosTrailing
  modify fun t => t.withMode .done
  report .eos

/-- A LIT token after its is_match decision (R220). -/
def decLiteralToken (st : Nat) : Cmd Unit := do
  let lb ← literalCoder
  let b ← decodeLiteral lb st
  setFsm (litNext st)
  windowAppend b
  report .lit

/-- A SHORTREP token after its decisions (R220). -/
def decShortRep (st : Nat) : Cmd Unit := do
  setFsm (shortRepNext st)
  let s ← get
  let b ← byteAt (s.rep0.toNat + 1)
  windowAppend b
  report .shortRep

/-- The length of a rep token, STATE, and the copy (R220). -/
def decRepLength (st ps : Nat) (k : TokenKind) : Cmd Unit := do
  let i ← lenDecode repLenBase ps
  setFsm (repNext st)
  finishMatch i k

/-- REP1 to the front (R217). -/
def frontRep1 (s : State) : State := s.withReps s.rep1 s.rep0 s.rep2 s.rep3
/-- REP2 to the front (R217). -/
def frontRep2 (s : State) : State := s.withReps s.rep2 s.rep0 s.rep1 s.rep3
/-- REP3 to the front (R217). -/
def frontRep3 (s : State) : State := s.withReps s.rep3 s.rep0 s.rep1 s.rep2

/-- A REP1, REP2 or REP3 token after IS_REP_G0 = 1 (R217, R220). -/
def decOlderRep (st ps : Nat) : Cmd Unit := do
  let g1 ← decCell (isRepG1Cell st)
  if g1 then
    let g2 ← decCell (isRepG2Cell st)
    if g2 then
      modify frontRep3
      decRepLength st ps .rep3
    else
      modify frontRep2
      decRepLength st ps .rep2
  else
    modify frontRep1
    decRepLength st ps .rep1

/-- A rep token after IS_REP = 1 (R220). -/
def decRepToken (st ps : Nat) : Cmd Unit := do
  let s ← get
  check (posOf s != 0) .repOnEmpty
  let g0 ← decCell (isRepG0Cell st)
  if g0 then decOlderRep st ps
  else
    let long ← decCell (isRep0LongCell st ps)
    if long then decRepLength st ps .rep0 else decShortRep st

/-- A MATCH token after IS_REP = 0 (R216, R220). -/
def decMatchToken (st ps : Nat) : Cmd Unit := do
  modify fun t => t.withReps t.rep0 t.rep0 t.rep1 t.rep2
  let i ← lenDecode lenBase ps
  setFsm (matchNext st)
  let d ← distDecode i
  modify fun t => t.withReps d t.rep1 t.rep2 t.rep3
  if d = 0xFFFFFFFF then endMarker else finishMatch i .newMatch

/-- The body of DEC_TOKEN (R220). -/
def decToken : Cmd Unit := do
  let s ← get
  if knownSize s = some (posOf s) then
    modify fun t => t.withMode .done
    report .endBySize
  else
    let isMatch ← decCell (isMatchCell s.fsm.toNat (posState s))
    if isMatch then
      let isRep ← decCell (isRepCell s.fsm.toNat)
      if isRep then decRepToken s.fsm.toNat (posState s) else decMatchToken s.fsm.toNat (posState s)
    else decLiteralToken s.fsm.toNat

/-! ## Commands -/

/-- ENC_LITERAL (R210). -/
def execEncLiteral (b : Byte) (s : State) : Host.Outcome State Fault Refusal :=
  issue [.encode] (do requireNoEos; encLiteral b) s

/-- ENC_EOS (R211). -/
def execEncEos (s : State) : Host.Outcome State Fault Refusal :=
  issue [.encode] (do requireNoEos; encEos) s

/-- DEC_TOKEN (R220). -/
def execDecToken (s : State) : Host.Outcome State Fault Refusal := issue [.decode] decToken s

end Sys2Proof.Machine
end

