-- ==== Sys2Proof/Machine/System.lean ====
section
/-! DEFINITION. NOP and SESSION_RESET (70_reset_and_hazards.md R345, R341). -/

namespace Sys2Proof.Machine

/-- NOP (R345): no state changes. -/
def execNop (s : State) : Host.Outcome State Fault Refusal :=
  issue [.idle, .encode, .decode, .done] (pure ()) s

/-- SESSION_RESET (R341): the only command that runs while FAULTED (60_exceptions.md R323). -/
def execSessionReset (s : State) : Host.Outcome State Fault Refusal := .next s.sessionReset

end Sys2Proof.Machine
end

