-- ==== Sys2Proof/Machine/Window.lean ====
section
/-! DEFINITION. The five window commands (43_dictionary_window.md R270 to R274). -/

namespace Sys2Proof.Machine

/-- DW_RESET (R270). -/
def execDwReset (s : State) : Host.Outcome State Fault Refusal :=
  issue [.idle] (modify fun t => t.withWindow []) s

/-- DW_PUSH (R271). -/
def execDwPush (b : Byte) (s : State) : Host.Outcome State Fault Refusal :=
  issue [.idle, .encode, .decode] (windowAppend b) s

/-- DW_BYTE_AT (R272). -/
def execDwByteAt (s : State) : Host.Outcome State Fault Refusal :=
  issue [.idle, .encode, .decode, .done] (do
    let t ← get
    let b ← byteAt t.arg0.toNat
    modify fun t => t.withRes (BitVec.ofNat 32 b.toNat)) s

/-- DW_LAST (R273). -/
def execDwLast (s : State) : Host.Outcome State Fault Refusal :=
  issue [.idle, .encode, .decode, .done] (modify fun t => t.withRes (BitVec.ofNat 32 (lastByte t).toNat)) s

/-- DW_COPY (R274). -/
def execDwCopy (s : State) : Host.Outcome State Fault Refusal :=
  issue [.idle, .encode, .decode] (do
    let t ← get
    copyMatch t.arg0.toNat t.arg1.toNat) s

end Sys2Proof.Machine
end

