-- ==== Sys2Proof/Machine/Dispatch.lean ====
section
/-! DEFINITION. One arm per command (30_encoding.md R83). -/

namespace Sys2Proof.Machine

def exec (i : Instr) (s : State) : Host.Outcome State Fault Refusal :=
  match i with
  | .nop => Sys2Proof.Machine.execNop s
  | .sessionReset => Sys2Proof.Machine.execSessionReset s
  | .rcEncInit => Sys2Proof.Machine.execRcEncInit s
  | .rcEncBit bit => Sys2Proof.Machine.execRcEncBit bit s
  | .rcEncBitNa bit => Sys2Proof.Machine.execRcEncBitNa bit s
  | .rcEncTree n => Sys2Proof.Machine.execRcEncTree n s
  | .rcEncFlush => Sys2Proof.Machine.execRcEncFlush s
  | .rcDecInit => Sys2Proof.Machine.execRcDecInit s
  | .rcDecBit => Sys2Proof.Machine.execRcDecBit s
  | .rcDecBitNa => Sys2Proof.Machine.execRcDecBitNa s
  | .rcDecDirect n => Sys2Proof.Machine.execRcDecDirect n s
  | .rcDecTree n => Sys2Proof.Machine.execRcDecTree n s
  | .rcDecRtree n => Sys2Proof.Machine.execRcDecRtree n s
  | .rcDecFinished => Sys2Proof.Machine.execRcDecFinished s
  | .pmInit => Sys2Proof.Machine.execPmInit s
  | .cellRead => Sys2Proof.Machine.execCellRead s
  | .encLiteral b => Sys2Proof.Machine.execEncLiteral b s
  | .encEos => Sys2Proof.Machine.execEncEos s
  | .decToken => Sys2Proof.Machine.execDecToken s
  | .dwReset => Sys2Proof.Machine.execDwReset s
  | .dwPush b => Sys2Proof.Machine.execDwPush b s
  | .dwByteAt => Sys2Proof.Machine.execDwByteAt s
  | .dwLast => Sys2Proof.Machine.execDwLast s
  | .dwCopy => Sys2Proof.Machine.execDwCopy s
  | .propsValidate => Sys2Proof.Machine.execPropsValidate s
  | .hdrWrite => Sys2Proof.Machine.execHdrWrite s
  | .hdrRead => Sys2Proof.Machine.execHdrRead s

end Sys2Proof.Machine
end

