-- ==== Sys2Proof/Machine/Port.lean ====
section
/-! DEFINITION. The host port: the register map (10_state.md R22, R23), the write rules (R31, R33, R42), and a write to
CMD, which runs one command (30_encoding.md R86; 60_exceptions.md R323). -/

namespace Sys2Proof.Machine

/-- The address of CMD (R23). -/
def cmdAddr : PortAddr := 0x2C

/-- Bits 31:0 of a 64-bit value (R22). -/
def loWord (v : Nat) : Word := BitVec.ofNat 32 v

/-- Bits 63:32 of a 64-bit value (R22). -/
def hiWord (v : Nat) : Word := BitVec.ofNat 32 (v >>> 32)

/-- What a read of an address returns (R22, R23): CMD, reserved and unaligned addresses read 0. -/
def readPort (s : State) (a : PortAddr) : Word :=
  match a.toNat with
  | 0x00 => 0x4C5A4D41
  | 0x04 => statusWord s
  | 0x08 => faultWord s
  | 0x0C => s.props
  | 0x10 => s.dictSize
  | 0x14 => loWord s.usize.toNat
  | 0x18 => hiWord s.usize.toNat
  | 0x1C => s.policy
  | 0x20 => s.arg0
  | 0x24 => s.arg1
  | 0x28 => s.res
  | 0x30 => loWord (posOf s)
  | 0x34 => hiWord (posOf s)
  | 0x38 => s.range
  | 0x3C => s.code
  | 0x40 => loWord s.low.toNat
  | 0x44 => hiWord s.low.toNat
  | 0x48 => BitVec.ofNat 32 s.cache.toNat
  | 0x4C => loWord s.cacheSize
  | 0x50 => BitVec.ofNat 32 s.fsm.toNat
  | 0x54 => s.rep0
  | 0x58 => s.rep1
  | 0x5C => s.rep2
  | 0x60 => s.rep3
  | 0x64 => loWord s.inCount
  | 0x68 => hiWord s.inCount
  | 0x6C => loWord s.outCount
  | 0x70 => hiWord s.outCount
  | _ => 0

/-- A 64-bit value with its bits 31:0 replaced (R22). -/
def withLo (v : BitVec 64) (w : Word) : BitVec 64 := v.extractLsb' 32 32 ++ w

/-- A 64-bit value with its bits 63:32 replaced (R22). -/
def withHi (v : BitVec 64) (w : Word) : BitVec 64 := w ++ v.extractLsb' 0 32

/-- A write to a configuration register (R42): ignored while FAULTED, SEQUENCE_ERROR outside IDLE, else stored. -/
def configWrite (store : State → State) (s : State) : Host.Outcome State Fault Refusal :=
  if s.faulted then .next s
  else if s.mode = .idle then .next (store s)
  else .next (s.takeFault .sequenceError)

/-- A write of a word to CMD (R33, R86): one command, or ILLEGAL_COMMAND unless FAULTED. -/
def command (w : Word) (s : State) : Host.Outcome State Fault Refusal :=
  match decode w with
  | .ok i => exec i s
  | .error _ => if s.faulted then .next s else .next (s.takeFault .illegalCommand)

/-- A write of a word to an address (R22, R23): read-only, reserved and unaligned addresses ignore it. -/
def writePort (a : PortAddr) (v : Word) (s : State) : Host.Outcome State Fault Refusal :=
  match a.toNat with
  | 0x0C => configWrite (fun t => t.withProps (v &&& propsMask)) s
  | 0x10 => configWrite (fun t => t.withDictSize v) s
  | 0x14 => configWrite (fun t => t.withUsize (withLo t.usize v)) s
  | 0x18 => configWrite (fun t => t.withUsize (withHi t.usize v)) s
  | 0x1C => configWrite (fun t => t.withPolicy (v &&& policyMask)) s
  | 0x20 => .next (s.withArg0 v)
  | 0x24 => .next (s.withArg1 v)
  | 0x2C => command v s
  | _ => .next s

/-- One access of the host: a read returns a value and changes nothing of the block (20_memory.md R66). -/
def access : Access → State → Host.Outcome State Fault Refusal
  | .read a, s => .next (s.answered (readPort s a))
  | .write a v, s => writePort a v s

/-- The host's next access (R21). With none queued the block is idle and holds its state (60_exceptions.md R334).
DESIGN CHOICE, safe: see notes/assumptions/1.md. -/
def hostStep (s : State) : Host.Outcome State Fault Refusal :=
  match s.hostQueue with
  | [] => .next s
  | a :: rest => access a (s.withQueue rest)

/-- The command word `w` as the host's next access. -/
def queueCommand (s : State) (w : Word) : State := s.withQueue (.write cmdAddr w :: s.hostQueue)

end Sys2Proof.Machine
end

