-- ==== Sys2Proof/Machine/Step.lean ====
section
/-! DEFINITION. One step: the host's next access to the port, performed whole (00_scope.md R12). -/

namespace Sys2Proof.Machine

/-- One step of the machine. -/
def step (s : State) : Host.Outcome State Fault Refusal := hostStep s

/-- `s` with the command word whose bits are `w` written to CMD by the host's next access: the block fetches nothing
(10_state.md R21), and this access is where a command comes from. See notes/assumptions/1.md. -/
def State.withFetchWord (s : State) (nbits w : Nat) : State := queueCommand s (BitVec.ofNat 32 (w % 2 ^ nbits))

end Sys2Proof.Machine
end

