-- ==== Sys2Proof/Machine/Pseudo.lean ====
section
/-! DEFINITION. The pseudo-instructions of 30_encoding.md R88: fixed sequences of host accesses. None is a command, and
the block sees only the accesses. -/

namespace Sys2Proof.Machine

/-- A write of a command's word to CMD (R87). -/
def issueAccess (i : Instr) : Access := .write cmdAddr (encode i)

/-- `W USIZE_LO, N[31:0]` and `W USIZE_HI, N[63:32]`, only if `size = N` (R88). -/
def sizeWrites (size : Option (BitVec 64)) : List Access :=
  match size with
  | none => []
  | some n => [.write 0x14 (loWord n.toNat), .write 0x18 (hiWord n.toNat)]

/-- The POLICY bit USIZE_PRESENT of a caller's size (R30, R88). -/
def sizeBit (size : Option (BitVec 64)) : Word := if size.isSome then 0x100 else 0

/-- `ENC_BEGIN size, raw` (R88): start a literal-only encode. -/
def encBegin (size : Option (BitVec 64)) (raw : Bool) : List Access :=
  [issueAccess .sessionReset, .write 0x0C 0x00020003, .write 0x10 0x00800000] ++ sizeWrites size ++
    [.write 0x1C ((if raw then 0x10 else 0) ||| sizeBit size), issueAccess .hdrWrite, issueAccess .rcEncInit]

/-- `ENC_BYTE b` (R88). -/
def encByte (b : Byte) : List Access := [issueAccess (.encLiteral b)]

/-- `ENC_END` (R88), issued in state `s`: the end marker exactly when `KnownSize()`, which POLICY and USIZE decide (10_state.md
R29; 42_symbol_fsm.md R206), is None, then the flush. -/
def encEnd (s : State) : List Access :=
  (if knownSize s = none then [issueAccess .encEos] else []) ++ [issueAccess .rcEncFlush]

/-- `DEC_BEGIN policy, size` (R88): start a decode from a stream with a header. R88's sequence also uses `trailing`, which
it names among no operands: the model takes it as a third operand, the value of POLICY.EOS_TRAILING (10_state.md R30).
DESIGN CHOICE, safe: see notes/assumptions/11.md. -/
def decBegin (pol : Word) (size : Option (BitVec 64)) (trailing : Bool) : List Access :=
  [issueAccess .sessionReset] ++ sizeWrites size ++
    [.write 0x1C (pol ||| sizeBit size ||| (if trailing then 0x1000 else 0)), issueAccess .hdrRead,
     issueAccess .rcDecInit]

/-- `DEC_BEGIN_RAW lc, lp, pb, dict, size` (R88): start a decode of a stream with no header. -/
def decBeginRaw (lc lp pb : Nat) (dict : Word) (size : Option (BitVec 64)) : List Access :=
  [issueAccess .sessionReset, .write 0x0C (propsWord lc lp pb), .write 0x10 dict] ++ sizeWrites size ++
    [.write 0x1C (0x2 ||| sizeBit size), issueAccess .rcDecInit]

/-- The accesses performed in order, as so many steps would. -/
def perform : List Access → State → Host.Outcome State Fault Refusal
  | [], s => .next s
  | a :: rest, s =>
    match access a s with
    | .next t => perform rest t
    | .fault f => .fault f
    | .refused r => .refused r

/-- One turn of `DEC_RUN`: DEC_TOKEN, then a read of STATUS (R88). -/
def decTurn : List Access := [issueAccess .decToken, .read 0x04]

/-- `DEC_RUN` (R88), at most `turns` turns: repeat while MODE = DECODE and FAULTED = 0. -/
def decRun : Nat → State → Host.Outcome State Fault Refusal
  | 0, s => .next s
  | turns + 1, s =>
    match perform decTurn s with
    | .next t => if t.mode = .decode ∧ t.faulted = false then decRun turns t else .next t
    | .fault f => .fault f
    | .refused r => .refused r

end Sys2Proof.Machine
end

