-- ==== Sys2Proof/Safety.lean ====
section
/-! DEFINITION. The terms the claims are stated in: the invariant of 10_state.md R48 with what the rules derive beside it,
the numbers a coded body stands for, and the conditions under which the environment lets a command complete. -/

namespace Sys2Proof.Machine

/-! ## Invariants -/

/-- Every listed cell has a valid address (R43) and a value in 31..2017 (R48.3, 41_probability_model.md R162). -/
def cellsOk (m : Memory) : Bool := m.all fun c => cellValid c.1 && 31 ≤ c.2.toNat && c.2.toNat ≤ 2017

/-- What holds in every state a run reaches, faulted or not. -/
structure State.Shape (s : State) : Prop where
  /-- The probability RAM keeps its canonical form. -/
  pramWf : s.pram.wf = true
  /-- Every cell is valid and in range (R48.3). -/
  cells : cellsOk s.pram = true
  /-- `STATE ≤ 11` (R48.4). -/
  fsmLe : s.fsm.toNat ≤ 11
  /-- `CACHE_SIZE ≥ 1` (R48.2). -/
  cachePos : 1 ≤ s.cacheSize
  /-- PROPS stores only its three fields (R27). -/
  propsMasked : s.props &&& propsMask = s.props
  /-- POLICY stores only its four fields (R30). -/
  policyMasked : s.policy &&& policyMask = s.policy
  /-- FAULT is 0 while FAULTED is 0 (R26). -/
  faultClear : s.faulted = false → s.faultCode = 0 ∧ s.faultSub = 0
  /-- `P_MAX_DICT ≥ 0x1000` (43_dictionary_window.md R262). -/
  configWf : s.config.wf
  /-- Outside IDLE the properties are valid: both init commands checked them (40_range_coder.md R130, R140). -/
  propsOk : s.mode ≠ .idle → propsValid s.props = true
  /-- Outside IDLE `cap ≤ P_MAX_DICT` (43_dictionary_window.md R261). -/
  capFits : s.mode ≠ .idle → windowCap s ≤ s.config.pMaxDict
  /-- In ENCODE `STATE` is 0 (42_symbol_fsm.md R202). -/
  encodeFsm : s.mode = .encode → s.fsm = 0
  /-- In IDLE `STATE` is 0, no end marker was seen and every cell is 1024: SESSION_RESET wrote them and no IDLE command
  does (70_reset_and_hazards.md R341, 41_probability_model.md R179). -/
  idleFresh : s.mode = .idle → s.fsm = 0 ∧ s.eosSeen = false ∧ s.pram = []
  /-- In IDLE and DECODE the encoder is as SESSION_RESET left it (R341; R35: a session only ever uses one coder). -/
  encoderFresh : s.mode = .idle ∨ s.mode = .decode → s.low = 0 ∧ s.cache = 0 ∧ s.cacheSize = 1

/-- What holds between commands in a session that has not faulted (R48). -/
structure State.Live (s : State) : Prop where
  /-- `RANGE ≥ 2^24` (R48.1). -/
  rangeGe : 2 ^ 24 ≤ s.range.toNat
  /-- `LOW + RANGE < 2^33` (R48.2). -/
  lowRange : s.low.toNat + s.range.toNat < 2 ^ 33
  /-- A pending byte of 0xFF takes no carry: `LOW + RANGE` stays at most 2^32 until it is delivered. DEDUCED from
  40_range_coder.md R123 to R127. -/
  noCarryIntoFF : s.cache = 0xFF → s.low.toNat + s.range.toNat ≤ 2 ^ 32
  /-- In DECODE and a match state, `REP0 + 1` is a readable distance (42_symbol_fsm.md R223). -/
  matchReadable : s.mode = .decode → 7 ≤ s.fsm.toNat → s.rep0.toNat + 1 ≤ posOf s ∧ s.rep0.toNat + 1 ≤ windowLimit s

/-- The machine's invariant: it holds at reset and every step keeps it. -/
def State.Inv (s : State) : Prop := s.Shape ∧ (s.faulted = false → s.Live)

/-! ## Numbers of a coded body -/

/-- A byte string read as one number, most significant byte first (20_memory.md R62). -/
def numOf (l : List Byte) : Nat := l.foldl (fun n b => n * 256 + b.toNat) 0

/-- The pending bytes: CACHE, then `CACHE_SIZE - 1` bytes of 0xFF (10_state.md R38, R47). -/
def pendingBytes (s : State) : List Byte := s.cache :: List.replicate (s.cacheSize - 1) 0xFF

/-- The arithmetic code value the encoder stands at: the bytes delivered and pending, then LOW with its carry. -/
def codeValue (s : State) : Nat := numOf (s.sink ++ pendingBytes s) * 2 ^ 32 + s.low.toNat

/-! ## Conditions of a command -/

/-- The block may run a command in this mode: it has not faulted and is in mode `m`. -/
def Ready (m : Mode) (s : State) : Prop := s.faulted = false ∧ s.mode = m

/-- The sink takes `n` more bytes without failing (R46). -/
def sinkTakes (n : Nat) (s : State) : Prop := ∀ k, s.sinkFailAt = some k → s.sink.length + n ≤ k

/-- The value of a probability cell. -/
def cellAt (s : State) (a : Nat) : Nat := (Memory.read s.pram a).toNat

/-- The cells one token's decisions can be made with, in the state it starts from (41_probability_model.md R165): those
of STATE and the position, one literal coder, and the distance and length trees. -/
def TokenCell (s : State) (a : Nat) : Prop :=
  a = isMatchCell s.fsm.toNat (posState s) ∨ a = isRepCell s.fsm.toNat ∨ a = isRepG0Cell s.fsm.toNat ∨
  a = isRepG1Cell s.fsm.toNat ∨ a = isRepG2Cell s.fsm.toNat ∨ a = isRep0LongCell s.fsm.toNat (posState s) ∨
  (literalBase (litState s) ≤ a ∧ a < literalBase (litState s) + 0x300) ∨ (0x1B0 ≤ a ∧ a < 0x744)

/-- A distance the window can read (43_dictionary_window.md R263). -/
def Readable (s : State) (d : Nat) : Prop := 1 ≤ d ∧ d ≤ posOf s ∧ d ≤ windowLimit s

/-! ## Modes and runs of commands -/

/-- The modes a command may run in (30_encoding.md R83). SESSION_RESET runs in every mode. -/
def modesOf : Instr → List Mode
  | .nop | .sessionReset | .cellRead | .dwByteAt | .dwLast | .propsValidate => [.idle, .encode, .decode, .done]
  | .rcEncInit | .rcDecInit | .pmInit | .dwReset | .hdrWrite | .hdrRead => [.idle]
  | .rcEncBit _ | .rcEncBitNa _ | .rcEncTree _ | .rcEncFlush | .encLiteral _ | .encEos => [.encode]
  | .rcDecBit | .rcDecBitNa | .rcDecDirect _ | .rcDecTree _ | .rcDecRtree _ | .rcDecFinished | .decToken => [.decode]
  | .dwPush _ | .dwCopy => [.idle, .encode, .decode]

/-- What came out, run on if it is a next state. -/
def andThen (o : Host.Outcome State Fault Refusal) (f : State → Host.Outcome State Fault Refusal) :
    Host.Outcome State Fault Refusal :=
  match o with
  | .next t => f t
  | .fault e => .fault e
  | .refused r => .refused r

/-- What came out, with its next state changed by `f`. -/
def mapNext (f : State → State) (o : Host.Outcome State Fault Refusal) : Host.Outcome State Fault Refusal :=
  andThen o fun t => .next (f t)

/-- RC_ENC_BIT commands along a tree's path: `k` bits of `v` left, at node `m` (41_probability_model.md R171). -/
def encodePath (base v : Nat) : Nat → Nat → State → Host.Outcome State Fault Refusal
  | 0, _, s => .next s
  | k + 1, m, s => andThen (exec (.rcEncBit (v.testBit k)) (s.withArg0 (BitVec.ofNat 32 (base + m))))
      (encodePath base v k (2 * m + (v.testBit k).toNat))

/-- RC_DEC_BIT commands down a tree: `k` bits left, at node `m`, each next node chosen by RES (R172). RES ends as the
last node. -/
def decodePath (base : Nat) : Nat → Nat → State → Host.Outcome State Fault Refusal
  | 0, m, s => .next (s.withRes (BitVec.ofNat 32 m))
  | k + 1, m, s => andThen (exec .rcDecBit (s.withArg0 (BitVec.ofNat 32 (base + m))))
      fun t => decodePath base k (2 * m + t.res.toNat) t

/-- RC_ENC_BIT_NA commands at probability 1024, one per bit (30_encoding.md R97). -/
def encodeDiscards : List Bool → State → Host.Outcome State Fault Refusal
  | [], s => .next s
  | b :: rest, s => andThen (exec (.rcEncBitNa b) (s.withArg0 1024)) (encodeDiscards rest)

/-- The host's accesses that encode non-adaptive decisions `(p, bit)` as one whole body (40_range_coder.md R145). -/
def encodeDecisions (ds : List (Word × Bool)) : List Access :=
  issueAccess .rcEncInit :: ds.flatMap (fun d => [.write 0x20 d.1, issueAccess (.rcEncBitNa d.2)]) ++
    [issueAccess .rcEncFlush]

/-- The host's accesses that decode decisions at given probabilities and read each RES (R145). -/
def decodeDecisions (ps : List Word) : List Access :=
  issueAccess .rcDecInit :: ps.flatMap fun p => [.write 0x20 p, issueAccess .rcDecBitNa, .read 0x28]

/-! ## A token's decisions as commands (42_symbol_fsm.md R220 to R227)

Each piece is a sequence of commands and leaves what it decoded in RES; cells stand by the numbers of the rules. -/

/-- `f` on what came out, unless it faulted there. -/
def ifRuns (o : Host.Outcome State Fault Refusal) (f : State → Host.Outcome State Fault Refusal) :
    Host.Outcome State Fault Refusal :=
  andThen o fun t => if t.faulted then .next t else f t

/-- Command `i` with `a` in ARG0. -/
def runAt (i : Instr) (a : Nat) (s : State) : Host.Outcome State Fault Refusal := exec i (s.withArg0 (BitVec.ofNat 32 a))

/-- A fault taken and nothing else. -/
def raises (c : Cause) (s : State) : Host.Outcome State Fault Refusal := .next (s.takeFault c)

/-- RES raised by `n`. -/
def addRes (n : Nat) (s : State) : Host.Outcome State Fault Refusal := .next (s.withRes (s.res + BitVec.ofNat 32 n))

/-- From `s` to `u`, RC_DEC_BIT at each cell in turn completes and decodes the bit beside it. -/
def Decides : List (Nat × Bool) → State → State → Prop
  | [], s, u => u = s
  | (a, bit) :: rest, s, u => ∃ t, runAt .rcDecBit a s = .next t ∧ t.faulted = false ∧ t.res.toNat = bit.toNat ∧
      Decides rest t u

/-- The length field of the coder at `l` (R224): its index in RES. -/
def lengthRun (l ps : Nat) (s : State) : Host.Outcome State Fault Refusal :=
  ifRuns (runAt .rcDecBit l s) fun t =>
    if t.res = 0 then runAt (.rcDecTree 3) (l + 0x002 + 8 * ps) t
    else ifRuns (runAt .rcDecBit (l + 1) t) fun u =>
      if u.res = 0 then ifRuns (runAt (.rcDecTree 3) (l + 0x082 + 8 * ps) u) (addRes 8)
      else ifRuns (runAt (.rcDecTree 8) (l + 0x102) u) (addRes 16)

/-- `base` of a slot of 4 or more (R225): its first distance. -/
def slotStart (slot : Nat) : Nat := (2 + slot % 2) * 2 ^ (slot / 2 - 1)

/-- The distance field after length index `i` (R225): a slot, then no bits, a reverse tree, or direct bits and the ALIGN
tree. -/
def distanceRun (i : Nat) (s : State) : Host.Outcome State Fault Refusal :=
  ifRuns (runAt (.rcDecTree 6) (0x1B0 + 64 * min i 3) s) fun t =>
    if t.res.toNat < 4 then .next t
    else if t.res.toNat < 14 then
      ifRuns (runAt (.rcDecRtree (t.res.toNat / 2 - 1)) (0x2B0 + slotStart t.res.toNat - t.res.toNat) t)
        (addRes (slotStart t.res.toNat))
    else ifRuns (exec (.rcDecDirect (t.res.toNat / 2 - 5)) t) fun u =>
      ifRuns (runAt (.rcDecRtree 4) 0x330 u) (addRes (slotStart t.res.toNat + 16 * u.res.toNat))

/-- The plain walk of a literal from node `sym`, `k` bits left (R223, second loop): the byte in RES. -/
def literalWalk (lb : Nat) : Nat → Nat → State → Host.Outcome State Fault Refusal
  | 0, sym, s => .next (s.withRes (BitVec.ofNat 32 (sym - 0x100)))
  | k + 1, sym, s => ifRuns (runAt .rcDecBit (lb + sym) s) fun t => literalWalk lb k (2 * sym + t.res.toNat) t

/-- The matched walk of a literal (R223, first loop) beside the match byte `mb`: bit `k` of it picks the cell, and the first
bit decoded unlike it goes over to the plain walk. -/
def matchedWalk (lb : Nat) (mb : Byte) : Nat → Nat → State → Host.Outcome State Fault Refusal
  | 0, sym, s => .next (s.withRes (BitVec.ofNat 32 (sym - 0x100)))
  | k + 1, sym, s =>
    ifRuns (runAt .rcDecBit (lb + (if mb.getLsbD k then 0x200 else 0x100) + sym) s) fun t =>
      if t.res.toNat = (mb.getLsbD k).toNat then matchedWalk lb mb k (2 * sym + t.res.toNat) t
      else literalWalk lb k (2 * sym + t.res.toNat) t

/-- The end of a LIT token (R220): STATE, and DW_PUSH of the byte in RES. -/
def literalEnd (st : Nat) (s : State) : Host.Outcome State Fault Refusal :=
  ifRuns (exec (.dwPush (s.res.setWidth 8)) { s with
    fsm := BitVec.ofNat 4 (if st < 4 then 0 else if st < 10 then st - 3 else st - 6) }) fun t => .next (t.withRes 1)

/-- A LIT token after IS_MATCH (R220, R223): RC_DEC_TREE 8 at the literal coder, or in a match state the matched walk beside
the byte REP0 + 1 back. -/
def literalRun (st : Nat) (s : State) : Host.Outcome State Fault Refusal :=
  ifRuns
    (if st < 7 then runAt (.rcDecTree 8) (literalBase (litState s)) s
      else matchedWalk (literalBase (litState s)) (windowByte s (s.rep0.toNat + 1)) 8 1 s)
    (literalEnd st)

/-- The copy of `n` bytes at distance REP0 + 1 (R227), DW_COPY after the two distance checks, and the kind in RES. -/
def copyRun (n : Nat) (kind : Word) (s : State) : Host.Outcome State Fault Refusal :=
  if posOf s < s.rep0.toNat + 1 then raises .distBeyondOutput s
  else if windowLimit s < s.rep0.toNat + 1 then raises .distBeyondDict s
  else ifRuns (exec .dwCopy { s with arg0 := BitVec.ofNat 32 (s.rep0.toNat + 1), arg1 := BitVec.ofNat 32 n })
    fun t => .next (t.withRes kind)

/-- The copy of a token with a length, after its size check (R220, R227). -/
def sizedCopyRun (n : Nat) (kind : Word) (s : State) : Host.Outcome State Fault Refusal :=
  if (knownSize s).any fun size => size < posOf s + n then raises .matchPastSize s else copyRun n kind s

/-- The length of a rep token, STATE, and the copy (R220). -/
def repLengthRun (st ps : Nat) (kind : Word) (s : State) : Host.Outcome State Fault Refusal :=
  ifRuns (lengthRun 0x542 ps s) fun t =>
    sizedCopyRun (t.res.toNat + 2) kind { t with fsm := if st < 7 then 8 else 11 }

/-- A rep token after IS_REP = 1 (R217, R220). -/
def repRun (st ps : Nat) (s : State) : Host.Outcome State Fault Refusal :=
  if posOf s = 0 then raises .repOnEmpty s
  else ifRuns (runAt .rcDecBit (0x0CC + st) s) fun t =>
    if t.res = 0 then ifRuns (runAt .rcDecBit (0x0F0 + st * 16 + ps) t) fun u =>
      if u.res = 0 then copyRun 1 3 { u with fsm := if st < 7 then 9 else 11 } else repLengthRun st ps 4 u
    else ifRuns (runAt .rcDecBit (0x0D8 + st) t) fun u =>
      if u.res = 0 then repLengthRun st ps 5 { u with rep0 := u.rep1, rep1 := u.rep0 }
      else ifRuns (runAt .rcDecBit (0x0E4 + st) u) fun v =>
        if v.res = 0 then repLengthRun st ps 6 { v with rep0 := v.rep2, rep1 := v.rep0, rep2 := v.rep1 }
        else repLengthRun st ps 7 { v with rep0 := v.rep3, rep1 := v.rep0, rep2 := v.rep1, rep3 := v.rep2 }

/-- The end marker (R221), its checks in their order; no byte left is InAtEnd, also when a source error is to come (DEDUCED:
see notes/assumptions/9.md). -/
def endMarkerRun (s : State) : Host.Outcome State Fault Refusal :=
  if knownSize s ≠ none then raises .sizeMismatch { s with eosSeen := true }
  else if s.code ≠ 0 then raises .eosCodeNonzero { s with eosSeen := true }
  else if s.policy.getLsbD 12 = true ∧ s.source ≠ [] then raises .eosTrailing { s with eosSeen := true }
  else .next { s with eosSeen := true, mode := .done, res := 8 }

/-- A MATCH token after IS_REP = 0 (R216, R220): the list shifts, the length, STATE, the distance; 0xFFFFFFFF is the end
marker. -/
def matchRun (st ps : Nat) (s : State) : Host.Outcome State Fault Refusal :=
  ifRuns (lengthRun 0x340 ps { s with rep1 := s.rep0, rep2 := s.rep1, rep3 := s.rep2 }) fun t =>
    ifRuns (distanceRun t.res.toNat { t with fsm := if st < 7 then 7 else 10 }) fun u =>
      if u.res = 0xFFFFFFFF then endMarkerRun { u with rep0 := u.res }
      else sizedCopyRun (t.res.toNat + 2) 2 { u with rep0 := u.res }

/-- One token (R220). -/
def tokenRun (s : State) : Host.Outcome State Fault Refusal :=
  if knownSize s = some (posOf s) then .next { s with mode := .done, res := 0 }
  else ifRuns (runAt .rcDecBit (s.fsm.toNat * 16 + posState s) s) fun t =>
    if t.res = 0 then literalRun s.fsm.toNat t
    else ifRuns (runAt .rcDecBit (0x0C0 + s.fsm.toNat) t) fun u =>
      if u.res = 0 then matchRun s.fsm.toNat (posState s) u else repRun s.fsm.toNat (posState s) u

/-- What came out of a token's commands, as the one command DEC_TOKEN from `s` leaves it: ARG0 and ARG1 are the host's, and
a fault leaves RES (R85). -/
def asToken (s : State) (o : Host.Outcome State Fault Refusal) : Host.Outcome State Fault Refusal :=
  mapNext (fun t => { t with arg0 := s.arg0, arg1 := s.arg1, res := if t.faulted then s.res else t.res }) o

end Sys2Proof.Machine
end

