-- ==== Sys2Proof/Certificates/Slice0/Obligations.lean ====
section
/-! DEFINITION. The statements for the provers. A statement about a command names its conditions on the state alone, says
that the command answers a next state, and gives that state; a record update of `s` in it says that every field it does
not name is as before. -/

section Statements

open Sys2Proof Sys2Proof.Machine

/-! ## Command words (30_encoding.md) -/

/-- 30_encoding.md R80, R81, R83: one word of each opcode group, written from the table, decodes to its command. -/
def Obligations.CommandWordsDecode : Prop :=
  decode 0x00000000 = .ok .nop ∧ decode 0x01000000 = .ok .sessionReset ∧ decode 0x11000001 = .ok (.rcEncBit true) ∧
  decode 0x13000008 = .ok (.rcEncTree 8) ∧ decode 0x23000020 = .ok (.rcDecDirect 32) ∧
  decode 0x31000000 = .ok .cellRead ∧ decode 0x40000061 = .ok (.encLiteral 0x61) ∧ decode 0x42000000 = .ok .decToken ∧
  decode 0x510000FF = .ok (.dwPush 0xFF) ∧ decode 0x62000000 = .ok .hdrRead ∧
  decode 0x02000000 = .error .reservedOpcode ∧ decode 0x11000002 = .error .reservedImm ∧
  decode 0x23000040 = .error .reservedImm

/-- R80 to R83, R87: decoding an encoded well-formed command gives it back, whatever its immediate field. -/
def Obligations.DecodeOfEncode : Prop := ∀ i : Instr, i.wf = true → decode (encode i) = .ok i

/-- R80 to R84, R87: a word encodes a command exactly when it matches a row of the opcode map, then it matches that
command's row, is that well-formed command's encoding, and matches no other row. -/
def Obligations.DecodesExactlyByRows : Prop :=
  (∀ w : Word, (∃ i, decode w = .ok i) ↔ ∃ r ∈ opcodeRows, r.matches w = true) ∧
  (∀ (w : Word) (i : Instr), decode w = .ok i →
    i.row ∈ opcodeRows ∧ i.row.matches w = true ∧ i.wf = true ∧ encode i = w) ∧
  (∀ (w : Word) (r r' : OpRow), r ∈ opcodeRows → r' ∈ opcodeRows → r.matches w = true → r'.matches w = true → r = r')

/-- R86: a word that matches no row faults ILLEGAL_COMMAND (code 0x10, sub 0) and does nothing else; while FAULTED every
word but 0x01000000 is ignored, and that exact word clears the fault. -/
def Obligations.IllegalCommandWord : Prop :=
  (∀ (w : Word) (s : State), (∀ r ∈ opcodeRows, r.matches w = false) → s.faulted = false →
    command w s = .next { s with faulted := true, faultCode := 0x10, faultSub := 0 }) ∧
  (∀ (w : Word) (s : State), s.faulted = true → w ≠ 0x01000000 → command w s = .next s) ∧
  (∀ s : State, s.faulted = true → ∃ t, command 0x01000000 s = .next t ∧ t.faulted = false)

/-! ## The host port (10_state.md) and steps -/

/-- 00_scope.md R12, 10_state.md R33: when the host's next access writes a word that decodes to `i` to CMD, one step is
`exec i` in the state with that access taken off the queue. The step, the queue and `withFetchWord`, which places such a
write, are the model's own (notes/assumptions/1.md, DESIGN CHOICE). -/
def Obligations.StepRunsDecodedCommand : Prop :=
  (∀ (s : State) (w : Word) (rest : List Access) (i : Instr), s.hostQueue = .write cmdAddr w :: rest →
    decode w = .ok i → step s = exec i { s with hostQueue := rest }) ∧
  (∀ (s : State) (w : Word) (i : Instr), decode w = .ok i → step (s.withFetchWord 32 w.toNat) = exec i s)

/-! ## Reset, faults and modes -/

/-- 10_state.md R21, R22, 60_exceptions.md R334: a step performs the host's next access: a read returns the register and
changes nothing of the block, a write goes to the port. With no access queued the step keeps the state: that clause is
the model's choice (notes/assumptions/1.md). -/
def Obligations.StepPerformsNextAccess : Prop :=
  (∀ (s : State) (a : PortAddr) (rest : List Access), s.hostQueue = .read a :: rest →
    step s = .next { s with hostQueue := rest, hostReads := s.hostReads ++ [readPort s a] }) ∧
  (∀ (s : State) (a : PortAddr) (v : Word) (rest : List Access), s.hostQueue = .write a v :: rest →
    step s = writePort a v { s with hostQueue := rest }) ∧
  (∀ s : State, s.hostQueue = [] → step s = .next s)

/-- 10_state.md R24: ID reads 0x4C5A4D41, whose bytes from bit 31 down are ASCII "L", "Z", "M", "A". -/
def Obligations.IdentityRegister : Prop :=
  (∀ s : State, readPort s 0x00 = 0x4C5A4D41) ∧
  (0x4C5A4D41 : Word) = BitVec.ofNat 8 'L'.toNat ++ BitVec.ofNat 8 'Z'.toNat ++ BitVec.ofNat 8 'M'.toNat ++
    BitVec.ofNat 8 'A'.toNat

/-- R22, R23, R25 to R41: what a read of each other address returns: registers, 64-bit values in halves, the fields of
STATUS and FAULT (FAULT is 0 while FAULTED is 0), and 0 at CMD, at reserved and at unaligned addresses. A write to any
address but the configuration, ARG0, ARG1 and CMD is ignored. -/
def Obligations.PortMap : Prop := ∀ s : State,
  ((readPort s 0x04).extractLsb' 0 2 = BitVec.ofNat 2 s.mode.bits ∧
    (readPort s 0x04).getLsbD 4 = s.faulted ∧ (readPort s 0x04).getLsbD 8 = s.eosSeen ∧
    readPort s 0x04 &&& 0xFFFFFEEC = 0) ∧
  readPort s 0x08 = (if s.faulted then (0 : BitVec 16) ++ s.faultSub ++ s.faultCode else 0) ∧
  readPort s 0x0C = s.props ∧ readPort s 0x10 = s.dictSize ∧
  readPort s 0x18 ++ readPort s 0x14 = s.usize ∧ readPort s 0x1C = s.policy ∧ readPort s 0x20 = s.arg0 ∧
  readPort s 0x24 = s.arg1 ∧ readPort s 0x28 = s.res ∧ readPort s 0x2C = 0 ∧
  readPort s 0x34 ++ readPort s 0x30 = BitVec.ofNat 64 s.window.length ∧ readPort s 0x38 = s.range ∧
  readPort s 0x3C = s.code ∧ readPort s 0x44 ++ readPort s 0x40 = s.low ∧
  readPort s 0x48 = s.cache.setWidth 32 ∧ readPort s 0x4C = BitVec.ofNat 32 s.cacheSize ∧
  readPort s 0x50 = s.fsm.setWidth 32 ∧ readPort s 0x54 = s.rep0 ∧ readPort s 0x58 = s.rep1 ∧
  readPort s 0x5C = s.rep2 ∧ readPort s 0x60 = s.rep3 ∧
  readPort s 0x68 ++ readPort s 0x64 = BitVec.ofNat 64 s.inCount ∧
  readPort s 0x70 ++ readPort s 0x6C = BitVec.ofNat 64 s.outCount ∧
  (∀ a : PortAddr, a.toNat % 4 ≠ 0 ∨ 0x74 ≤ a.toNat → readPort s a = 0) ∧
  (∀ (a : PortAddr) (v : Word), a ∉ [(0x0C : PortAddr), 0x10, 0x14, 0x18, 0x1C, 0x20, 0x24, 0x2C] →
    writePort a v s = .next s)

/-- R42: a configuration write is ignored while FAULTED, else faults SEQUENCE_ERROR (code 0x12) outside IDLE and is not
performed, else stores the masked value. -/
def Obligations.ConfigurationWrites : Prop :=
  (∀ (a : PortAddr) (v : Word) (s : State), a ∈ [(0x0C : PortAddr), 0x10, 0x14, 0x18, 0x1C] →
    (s.faulted = true → writePort a v s = .next s) ∧
    (s.faulted = false → s.mode ≠ .idle →
      writePort a v s = .next { s with faulted := true, faultCode := 0x12, faultSub := 0 })) ∧
  (∀ (v : Word) (s : State), s.faulted = false → s.mode = .idle →
    writePort 0x0C v s = .next { s with props := v &&& 0x000F0F0F } ∧
    writePort 0x10 v s = .next { s with dictSize := v } ∧
    writePort 0x14 v s = .next { s with usize := s.usize.extractLsb' 32 32 ++ v } ∧
    writePort 0x18 v s = .next { s with usize := v ++ s.usize.extractLsb' 0 32 } ∧
    writePort 0x1C v s = .next { s with policy := v &&& 0x00001113 })

/-- R31: a host write to ARG0 or ARG1 stores all 32 bits in any mode, even while FAULTED, and no command writes them. -/
def Obligations.OperandRegisters : Prop :=
  (∀ (v : Word) (s : State), writePort 0x20 v s = .next { s with arg0 := v } ∧
    writePort 0x24 v s = .next { s with arg1 := v }) ∧
  (∀ (i : Instr) (s t : State), exec i s = .next t → t.arg0 = s.arg0 ∧ t.arg1 = s.arg1)

/-- 70_reset_and_hazards.md R340: power-on is these values of the configuration and ARG registers, then every effect of
SESSION_RESET. The environment's fields and P_MAX_DICT are not the rule's and not in this statement. -/
def Obligations.PowerOnState : Prop :=
  State.reset.props = 0x00020003 ∧ State.reset.dictSize = 0x00800000 ∧ State.reset.usize = 0 ∧
  State.reset.policy = 0 ∧ State.reset.arg0 = 0 ∧ State.reset.arg1 = 0 ∧
  exec .sessionReset State.reset = .next State.reset ∧
  State.reset.mode = .idle ∧ State.reset.faulted = false ∧ State.reset.window = [] ∧
  (∀ a, cellAt State.reset a = 1024)

/-- R341: SESSION_RESET sets the session state, keeps the configuration, ARG0 and ARG1, and touches neither stream, in
every mode and while FAULTED; every cell is 1024. Its word with a nonzero IMM is ILLEGAL_COMMAND, or ignored while
FAULTED. -/
def Obligations.SessionResetEffects : Prop :=
  decode 0x01000000 = .ok .sessionReset ∧
  (∀ s : State, ∃ t, exec .sessionReset s = .next t ∧ (∀ a, cellAt t a = 1024) ∧
    t = { s with
      mode := .idle, faulted := false, faultCode := 0, faultSub := 0, eosSeen := false, res := 0, low := 0,
      range := 0xFFFFFFFF, cache := 0, cacheSize := 1, code := 0, pram := t.pram, fsm := 0, rep0 := 0, rep1 := 0,
      rep2 := 0, rep3 := 0, window := [], inCount := 0, outCount := 0 }) ∧
  (∀ (w : Word) (s : State), opcodeField w = 0x01 → immField w ≠ 0 → command w s =
    if s.faulted then .next s else .next { s with faulted := true, faultCode := 0x10, faultSub := 0 })

/-- R345: NOP is the all-zero word; it changes no state in any mode, faulted or not, and with a nonzero IMM its word is
ILLEGAL_COMMAND. -/
def Obligations.NopDoesNothing : Prop :=
  decode 0x00000000 = .ok .nop ∧ (∀ s : State, exec .nop s = .next s) ∧
  (∀ (w : Word) (s : State), opcodeField w = 0x00 → immField w ≠ 0 → s.faulted = false →
    command w s = .next { s with faulted := true, faultCode := 0x10, faultSub := 0 })

/-- 60_exceptions.md R321: a raise ends the command at its point (whatever pseudocode follows), sets FAULTED, FAULT.CODE
and FAULT.SUB, and changes nothing else. -/
def Obligations.FaultEntry : Prop :=
  (∀ (c : Cause) (later : Unit → Cmd Unit) (s : State),
    conclude ((raise c >>= later) s) = .next { s with faulted := true, faultCode := c.code, faultSub := c.sub })

/-- R321, R322, R25: a command that runs and ends FAULTED has set a fault code of R320 and left MODE, RES, ARG0 and ARG1,
the configuration and the host's side, the model's queue and reads (notes/assumptions/1.md), as they were. -/
def Obligations.FaultingCommandKeeps : Prop :=
  ∀ (i : Instr) (s t : State), s.faulted = false → exec i s = .next t → t.faulted = true →
    t.mode = s.mode ∧ t.res = s.res ∧ t.arg0 = s.arg0 ∧ t.arg1 = s.arg1 ∧ t.props = s.props ∧ t.dictSize = s.dictSize ∧
    t.usize = s.usize ∧ t.policy = s.policy ∧ t.hostQueue = s.hostQueue ∧ t.hostReads = s.hostReads ∧
    (∃ c : Cause, t.faultCode = c.code ∧ t.faultSub = c.sub)

/-- R324: while FAULTED every command but SESSION_RESET and every configuration write has no effect, ARG writes take
effect, and reads return the registers; so FAULT keeps its first cause until SESSION_RESET. What a read returns is
recorded in `hostReads`, a field of the model's (notes/assumptions/1.md). -/
def Obligations.WhileFaulted : Prop := ∀ s : State, s.faulted = true →
  (∀ i : Instr, i ≠ .sessionReset → exec i s = .next s) ∧
  (∀ (a : PortAddr) (v : Word), a ∈ [(0x0C : PortAddr), 0x10, 0x14, 0x18, 0x1C] → writePort a v s = .next s) ∧
  (∀ v : Word, writePort 0x20 v s = .next { s with arg0 := v } ∧ writePort 0x24 v s = .next { s with arg1 := v }) ∧
  (∀ a : PortAddr, access (.read a) s = .next { s with hostReads := s.hostReads ++ [readPort s a] }) ∧
  (∀ (x : Access) (t : State), access x s = .next t → x ≠ .write 0x2C 0x01000000 → readPort t 0x08 = readPort s 0x08)

/-- R325: the only host access that leaves the faulted state is a write of the word of SESSION_RESET to CMD, and it
starts a new session. -/
def Obligations.OnlySessionResetRecovers : Prop :=
  ∀ (x : Access) (s t : State), s.faulted = true → access x s = .next t → t.faulted = false →
    x = .write 0x2C 0x01000000 ∧ exec .sessionReset s = .next t ∧ t.mode = .idle ∧ t.window = [] ∧ t.range = 0xFFFFFFFF

/-- 30_encoding.md R83, 60_exceptions.md R323: in a mode its row does not list, a command faults SEQUENCE_ERROR (code
0x12) and does nothing else; so do ENC_LITERAL and ENC_EOS once EOS_SEEN is 1. -/
def Obligations.WrongModeFaults : Prop :=
  (∀ (i : Instr) (s : State), s.faulted = false → s.mode ∉ modesOf i →
    exec i s = .next { s with faulted := true, faultCode := 0x12, faultSub := 0 }) ∧
  (∀ (b : Byte) (s : State), Ready .encode s → s.eosSeen = true →
    exec (.encLiteral b) s = .next { s with faulted := true, faultCode := 0x12, faultSub := 0 } ∧
    exec .encEos s = .next { s with faulted := true, faultCode := 0x12, faultSub := 0 })

/-- R323 (its fourth check), R175: in a mode of its row, a command whose operand check fails faults ILLEGAL_OPERAND (code
0x11) and does nothing else. -/
def Obligations.IllegalOperandFaults : Prop := ∀ (i : Instr) (s : State), s.faulted = false → s.mode ∈ modesOf i →
  (match i with
    | .rcEncBit _ | .rcDecBit | .cellRead => cellValid s.arg0.toNat = false
    | .rcEncBitNa _ | .rcDecBitNa => s.arg0.toNat < 1 ∨ 2047 < s.arg0.toNat
    | .rcDecDirect n => n < 1 ∨ 32 < n
    | .rcEncTree n => n < 1 ∨ 8 < n ∨ 2 ^ n ≤ s.arg1.toNat ∨
        ∃ x, 1 ≤ x ∧ x < 2 ^ n ∧ cellValid (s.arg0.toNat + x) = false
    | .rcDecTree n | .rcDecRtree n => n < 1 ∨ 8 < n ∨
        ∃ x, 1 ≤ x ∧ x < 2 ^ n ∧ cellValid (s.arg0.toNat + x) = false
    | _ => False) →
  exec i s = .next { s with faulted := true, faultCode := 0x11, faultSub := 0 }

/-- 10_state.md R25: MODE changes only in the five ways the rule lists. -/
def Obligations.ModeTransitions : Prop :=
  ∀ (i : Instr) (s t : State), exec i s = .next t → t.mode ≠ s.mode →
    (i = .rcEncInit ∧ s.mode = .idle ∧ t.mode = .encode) ∨ (i = .rcDecInit ∧ s.mode = .idle ∧ t.mode = .decode) ∨
    (i = .rcEncFlush ∧ s.mode = .encode ∧ t.mode = .done) ∨
    (i = .decToken ∧ s.mode = .decode ∧ t.mode = .done ∧ (t.res = 0 ∨ t.res = 8)) ∨
    (i = .sessionReset ∧ t.mode = .idle)

/-! ## Who writes what -/

/-- 10_state.md R32, 30_encoding.md R85: RES changes only by the commands R85 lists, each at its successful completion;
a faulting or refused command leaves it, and SESSION_RESET sets it to 0. -/
def Obligations.ResultRegisterWriters : Prop :=
  (∀ (i : Instr) (s t : State), exec i s = .next t → t.res ≠ s.res →
    t.faulted = false ∧ match i with
      | .rcEncBitNa _ | .rcDecBit | .rcDecBitNa | .rcDecDirect _ | .rcDecTree _ | .rcDecRtree _ | .rcDecFinished
      | .cellRead | .decToken | .dwByteAt | .dwLast | .sessionReset => True
      | _ => False) ∧
  (∀ s t : State, exec .sessionReset s = .next t → t.res = 0)

/-- 10_state.md R25, R27 to R30, R39, R40, R42, R290, 42_symbol_fsm.md R215: of all commands only a completed HDR_READ in
IDLE changes PROPS, DICT_SIZE, USIZE or POLICY, and of POLICY only USIZE_PRESENT; STATE, the reps and EOS_SEEN change by
the commands named; none changes P_MAX_DICT, the source's end, the sink's failing index or the host's side. -/
def Obligations.RegisterWriters : Prop := ∀ (i : Instr) (s t : State), exec i s = .next t →
  (i ≠ .hdrRead ∨ s.mode ≠ .idle ∨ t.faulted = true →
    t.props = s.props ∧ t.dictSize = s.dictSize ∧ t.usize = s.usize ∧ t.policy = s.policy) ∧
  t.policy &&& 0xFFFFFEFF = s.policy &&& 0xFFFFFEFF ∧
  (t.fsm ≠ s.fsm → (∃ b, i = .encLiteral b) ∨ i = .decToken ∨ i = .sessionReset) ∧
  (t.rep0 ≠ s.rep0 ∨ t.rep1 ≠ s.rep1 ∨ t.rep2 ≠ s.rep2 ∨ t.rep3 ≠ s.rep3 → i = .decToken ∨ i = .sessionReset) ∧
  (t.eosSeen ≠ s.eosSeen → i = .encEos ∨ i = .decToken ∨ i = .sessionReset) ∧
  t.config = s.config ∧ t.sourceEnd = s.sourceEnd ∧ t.sinkFailAt = s.sinkFailAt ∧ t.hostQueue = s.hostQueue ∧
  t.hostReads = s.hostReads

/-- 41_probability_model.md R163, R164: only the decision commands, PM_INIT and SESSION_RESET change a cell, and no host
access but a command does; a non-adaptive decision reads none and writes none: with any other probability RAM it does
the same. -/
def Obligations.CellWriters : Prop :=
  (∀ (i : Instr) (s t : State) (a : Nat), exec i s = .next t → cellAt t a ≠ cellAt s a → match i with
      | .rcEncBit _ | .rcDecBit | .rcEncTree _ | .rcDecTree _ | .rcDecRtree _ | .encLiteral _ | .encEos | .decToken
      | .pmInit | .sessionReset => True
      | _ => False) ∧
  (∀ (x : Access) (s t : State) (a : Nat), access x s = .next t → cellAt t a ≠ cellAt s a →
    ∃ w i, x = .write 0x2C w ∧ decode w = .ok i) ∧
  (∀ (i : Instr) (m : Memory) (s : State), (match i with
      | .rcEncBitNa _ | .rcDecBitNa => True
      | _ => False) →
    exec i { s with pram := m } = mapNext (fun t => { t with pram := m }) (exec i s) ∧
    (∀ t, exec i s = .next t → t.pram = s.pram))

/-- 10_state.md R41, R46, R48 (its sixth invariant), 20_memory.md R66, 43_dictionary_window.md R260, R264, 60_exceptions.md
R322: every command but SESSION_RESET takes source bytes from the front, appends sink bytes at the end and counts exactly
those; four commands append to the window, and in DECODE the sink gets exactly the window's new bytes, also when a fault
cuts a command short; DW_RESET and SESSION_RESET empty the window, and SESSION_RESET clears the counts and touches no
stream. On a sink that fails at byte `k` a command does what it does on one that never fails if it delivers no byte at or
past `k`; else it faults IO_ERROR(OUT) with exactly the bytes before `k` delivered, MODE and RES as before. -/
def Obligations.StreamAccounting : Prop :=
  (∀ (i : Instr) (s t : State), exec i s = .next t →
    (i ≠ .sessionReset → ∃ taken given, s.source = taken ++ t.source ∧ t.inCount = s.inCount + taken.length ∧
      t.sink = s.sink ++ given ∧ t.outCount = s.outCount + given.length ∧
      (s.mode = .decode → t.window = s.window ++ given)) ∧
    (i ≠ .sessionReset → i ≠ .dwReset → s.window <+: t.window) ∧
    (t.window ≠ s.window → match i with
      | .encLiteral _ | .decToken | .dwPush _ | .dwCopy | .dwReset | .sessionReset => True
      | _ => False) ∧
    (i = .dwReset → t.faulted = false → t.window = []) ∧
    (i = .sessionReset →
      t.window = [] ∧ t.source = s.source ∧ t.sink = s.sink ∧ t.inCount = 0 ∧ t.outCount = 0)) ∧
  (∀ (i : Instr) (s u : State) (k : Nat), s.sinkFailAt = some k → s.sink.length ≤ k →
    exec i { s with sinkFailAt := none } = .next u →
    (u.sink.length ≤ k → exec i s = .next { u with sinkFailAt := some k }) ∧
    (k < u.sink.length → ∃ t, exec i s = .next t ∧ t.faulted = true ∧ t.faultCode = 0x04 ∧ t.faultSub = 2 ∧
      t.sink = u.sink.take k ∧ t.mode = s.mode ∧ t.res = s.res))

/-! ## Range coder (40_range_coder.md) -/

/-- R122, R162: adaptation moves a probability toward 2048 on a 0 and toward 0 on a 1, and keeps 31..2017 within itself. -/
def Obligations.AdaptationRange : Prop := ∀ p : Nat, p ≤ 2048 →
  adapt p false = p + (2048 - p) / 32 ∧ adapt p true = p - p / 32 ∧
  (∀ bit, 31 ≤ p → p ≤ 2017 → 31 ≤ adapt p bit ∧ adapt p bit ≤ 2017) ∧
  (p ≤ 31 → adapt p true = p) ∧ (2017 ≤ p → adapt p false = p)

/-- R127, 60_exceptions.md R322: `ShiftLow` with a byte pending. Below 0xFF000000 or with a carry it delivers CACHE and the
0xFF run with the carry added and keeps LOW's next byte; if the sink fails inside the run it has taken the bytes before,
and CACHE, CACHE_SIZE and LOW are as they were. Otherwise the run grows by one and nothing is delivered. -/
def Obligations.ShiftOut : Prop := ∀ s : State, 1 ≤ s.cacheSize → s.low.toNat < 2 ^ 33 →
  (∀ run, s.low.toNat < 0xFF000000 ∨ 2 ^ 32 ≤ s.low.toNat →
    run = (s.cache + BitVec.ofNat 8 (s.low.toNat / 2 ^ 32)) ::
      List.replicate (s.cacheSize - 1) (0xFF + BitVec.ofNat 8 (s.low.toNat / 2 ^ 32)) →
    (sinkTakes s.cacheSize s → shiftLow s = .ok () { s with
      sink := s.sink ++ run, outCount := s.outCount + s.cacheSize, cache := BitVec.ofNat 8 (s.low.toNat / 2 ^ 24),
      cacheSize := 1, low := BitVec.ofNat 64 (s.low.toNat % 2 ^ 24 * 256) }) ∧
    (∀ k, s.sinkFailAt = some k → k < s.sink.length + s.cacheSize → shiftLow s = .error (.raise .ioErrorOut) { s with
      sink := s.sink ++ run.take (k - s.sink.length), outCount := s.outCount + (k - s.sink.length) })) ∧
  (0xFF000000 ≤ s.low.toNat → s.low.toNat < 2 ^ 32 → shiftLow s = .ok () { s with
    cacheSize := s.cacheSize + 1, low := BitVec.ofNat 64 (s.low.toNat % 2 ^ 24 * 256) })

/-- R130: RC_ENC_INIT starts the encoder when the properties are valid and the window fits, else faults
INVALID_PROPERTIES, then DICT_TOO_LARGE, with no other effect. -/
def Obligations.EncInitStarts : Prop := ∀ s : State, Ready .idle s →
  (propsValid s.props = true → windowCap s ≤ s.config.pMaxDict →
    exec .rcEncInit s = .next { s with low := 0, range := 0xFFFFFFFF, cache := 0, cacheSize := 1, mode := .encode }) ∧
  (propsValid s.props = false →
    exec .rcEncInit s = .next { s with faulted := true, faultCode := 0x02, faultSub := 0 }) ∧
  (propsValid s.props = true → s.config.pMaxDict < windowCap s →
    exec .rcEncInit s = .next { s with faulted := true, faultCode := 0x13, faultSub := 0 })

/-- R131 with R121 to R125: RC_ENC_BIT on a valid cell and a sink that takes the pending bytes codes one decision: the
range becomes its part of the interval, the coded value gains the split for a 1, both rescaled by 256 for each of at most
one renormalisation, and only that cell is adapted. If that renormalisation's ShiftLow raises, the fault leaves what it
left (R127, ShiftOut) with no cell adapted. -/
def Obligations.EncBitCodes : Prop := ∀ (bit : Bool) (s : State) (part gain : Nat), Ready .encode s → s.Inv →
  cellValid s.arg0.toNat = true →
  part = (if bit then s.range.toNat - s.range.toNat / 2048 * cellAt s s.arg0.toNat
    else s.range.toNat / 2048 * cellAt s s.arg0.toNat) →
  gain = (if bit then s.range.toNat / 2048 * cellAt s s.arg0.toNat else 0) →
  (sinkTakes s.cacheSize s →
    ∃ t k, exec (.rcEncBit bit) s = .next t ∧ t.faulted = false ∧ k ≤ 1 ∧ 2 ^ 24 ≤ t.range.toNat ∧
      t.range.toNat = part * 256 ^ k ∧ codeValue t = (codeValue s + gain) * 256 ^ k ∧
      t.sink.length + t.cacheSize = s.sink.length + s.cacheSize + k ∧ s.sink <+: t.sink ∧
      (k = 0 → t.cache = s.cache ∧ t.cacheSize = s.cacheSize) ∧ (1 ≤ k → t.low.toNat < 2 ^ 32) ∧
      (∀ a, cellAt t a = if a = s.arg0.toNat then adapt (cellAt s s.arg0.toNat) bit else cellAt s a) ∧
      t = { s with
        low := t.low, range := t.range, cache := t.cache, cacheSize := t.cacheSize, sink := t.sink,
        outCount := s.outCount + (t.sink.length - s.sink.length), pram := t.pram }) ∧
  (∀ (e : Cause) (u : State), part < 2 ^ 24 →
    shiftLow { s with low := s.low + BitVec.ofNat 64 gain, range := BitVec.ofNat 32 (part * 256) } =
      .error (.raise e) u →
    exec (.rcEncBit bit) s = .next (u.takeFault e))

/-- R132: RC_ENC_BIT_NA codes one decision at the probability in ARG0, with at most two renormalisations; RES is the
adapted value and no cell changes. If the first or the second of their ShiftLows raises, the fault leaves what it left
(R127, ShiftOut) and RES as it was. -/
def Obligations.EncBitNaCodes : Prop := ∀ (bit : Bool) (s : State) (part gain : Nat), Ready .encode s → s.Inv →
  1 ≤ s.arg0.toNat → s.arg0.toNat ≤ 2047 →
  part = (if bit then s.range.toNat - s.range.toNat / 2048 * s.arg0.toNat
    else s.range.toNat / 2048 * s.arg0.toNat) →
  gain = (if bit then s.range.toNat / 2048 * s.arg0.toNat else 0) →
  (sinkTakes (s.cacheSize + 1) s →
    ∃ t k, exec (.rcEncBitNa bit) s = .next t ∧ t.faulted = false ∧ k ≤ 2 ∧ 2 ^ 24 ≤ t.range.toNat ∧
      t.res.toNat = adapt s.arg0.toNat bit ∧
      t.range.toNat = part * 256 ^ k ∧ codeValue t = (codeValue s + gain) * 256 ^ k ∧
      t.sink.length + t.cacheSize = s.sink.length + s.cacheSize + k ∧ s.sink <+: t.sink ∧
      (k = 0 → t.cache = s.cache ∧ t.cacheSize = s.cacheSize) ∧ (1 ≤ k → t.low.toNat < 2 ^ 32) ∧
      t = { s with
        low := t.low, range := t.range, cache := t.cache, cacheSize := t.cacheSize, sink := t.sink,
        outCount := s.outCount + (t.sink.length - s.sink.length), res := t.res }) ∧
  (∀ (e : Cause) (u v : State), part < 2 ^ 24 →
    (shiftLow { s with low := s.low + BitVec.ofNat 64 gain, range := BitVec.ofNat 32 (part * 256) } =
      .error (.raise e) v →
      exec (.rcEncBitNa bit) s = .next (v.takeFault e)) ∧
    (shiftLow { s with low := s.low + BitVec.ofNat 64 gain, range := BitVec.ofNat 32 (part * 256) } = .ok () u →
      part < 2 ^ 16 → shiftLow { u with range := BitVec.ofNat 32 (part * 65536) } = .error (.raise e) v →
      exec (.rcEncBitNa bit) s = .next (v.takeFault e)))

/-- R133, R126, R128: RC_ENC_FLUSH delivers every pending byte and LOW: the sink, read as a number, is the coded value; the
session is DONE and one zero byte stays pending. If one of its five ShiftLows raises, the fault leaves what that one and
those before it left (R127, ShiftOut). -/
def Obligations.EncFlushDelivers : Prop := ∀ s : State, Ready .encode s → s.Inv →
  (sinkTakes (s.cacheSize + 4) s →
    ∃ t, exec .rcEncFlush s = .next t ∧ t.faulted = false ∧ t.mode = .done ∧ numOf t.sink = codeValue s ∧
      t.sink.length = s.sink.length + s.cacheSize + 4 ∧ s.sink <+: t.sink ∧
      t = { s with
        mode := .done, low := 0, cache := 0, cacheSize := 1, sink := t.sink,
        outCount := s.outCount + s.cacheSize + 4 }) ∧
  (∀ (j : Nat) (e : Cause) (u v : State), j < 5 → repeatCmd j shiftLow s = .ok () u →
    shiftLow u = .error (.raise e) v → exec .rcEncFlush s = .next (v.takeFault e))

/-- R136, R140: RC_DEC_INIT discards one byte, loads CODE from the next four, most significant first, and enters DECODE;
a shorter source faults TRUNCATED, or IO_ERROR(IN) if the source fails, with its bytes consumed, CODE kept and MODE
IDLE; the two configuration checks come first. -/
def Obligations.DecInitLoads : Prop := ∀ s : State, Ready .idle s →
  (propsValid s.props = true → windowCap s ≤ s.config.pMaxDict →
    (∀ (b0 b1 b2 b3 b4 : Byte) (rest : List Byte), s.source = b0 :: b1 :: b2 :: b3 :: b4 :: rest →
      exec .rcDecInit s = .next { s with
        range := 0xFFFFFFFF, code := b1 ++ b2 ++ b3 ++ b4, source := rest, inCount := s.inCount + 5,
        mode := .decode }) ∧
    (s.source.length < 5 → exec .rcDecInit s = .next { s with
      range := 0xFFFFFFFF, source := [], inCount := s.inCount + s.source.length, faulted := true,
      faultCode := if s.sourceEnd = .atEnd then 0x03 else 0x04, faultSub := 1 })) ∧
  (propsValid s.props = false →
    exec .rcDecInit s = .next { s with faulted := true, faultCode := 0x02, faultSub := 0 }) ∧
  (propsValid s.props = true → s.config.pMaxDict < windowCap s →
    exec .rcDecInit s = .next { s with faulted := true, faultCode := 0x13, faultSub := 0 })

/-- R141 with R121, R122, R135, R137: RC_DEC_BIT on a valid cell with a byte left decodes the bit that says whether CODE is
at or past the split, takes its part of the interval, consumes at most one byte, and adapts only that cell. Where the
renormalisation needs a byte and the source has none, it faults TRUNCATED (or IO_ERROR(IN) if the source fails) and the
cell and RES are as before. -/
def Obligations.DecBitDecodes : Prop := ∀ s : State, Ready .decode s → s.Inv → cellValid s.arg0.toNat = true →
  (1 ≤ s.source.length →
    ∃ t taken, ∃ bit : Bool, exec .rcDecBit s = .next t ∧ t.faulted = false ∧ taken.length ≤ 1 ∧
      (bit = true ↔ s.range.toNat / 2048 * cellAt s s.arg0.toNat ≤ s.code.toNat) ∧ t.res.toNat = bit.toNat ∧
      2 ^ 24 ≤ t.range.toNat ∧
      t.range.toNat = (if bit then s.range.toNat - s.range.toNat / 2048 * cellAt s s.arg0.toNat
        else s.range.toNat / 2048 * cellAt s s.arg0.toNat) * 256 ^ taken.length ∧
      t.code.toNat = ((s.code.toNat - if bit then s.range.toNat / 2048 * cellAt s s.arg0.toNat else 0) *
        256 ^ taken.length + numOf taken) % 2 ^ 32 ∧
      s.source = taken ++ t.source ∧
      (∀ a, cellAt t a = if a = s.arg0.toNat then adapt (cellAt s s.arg0.toNat) bit else cellAt s a) ∧
      t = { s with
        range := t.range, code := t.code, source := t.source, inCount := s.inCount + taken.length, pram := t.pram,
        res := t.res }) ∧
  (s.source = [] →
    (if s.range.toNat / 2048 * cellAt s s.arg0.toNat ≤ s.code.toNat
      then s.range.toNat - s.range.toNat / 2048 * cellAt s s.arg0.toNat
      else s.range.toNat / 2048 * cellAt s s.arg0.toNat) < 2 ^ 24 →
    ∃ t, exec .rcDecBit s = .next t ∧ t = { s with
      range := t.range, code := t.code, faulted := true,
      faultCode := if s.sourceEnd = .atEnd then 0x03 else 0x04, faultSub := 1 })

/-- R142: RC_DEC_BIT_NA decodes at the probability in ARG0, consuming at most two bytes; RES[0] is the bit, RES[26:16] the
adapted value, and no cell changes. -/
def Obligations.DecBitNaDecodes : Prop := ∀ s : State, Ready .decode s → s.Inv → 1 ≤ s.arg0.toNat →
  s.arg0.toNat ≤ 2047 → 2 ≤ s.source.length →
  ∃ t taken, ∃ bit : Bool, exec .rcDecBitNa s = .next t ∧ t.faulted = false ∧ taken.length ≤ 2 ∧
    (bit = true ↔ s.range.toNat / 2048 * s.arg0.toNat ≤ s.code.toNat) ∧
    t.res.toNat = adapt s.arg0.toNat bit * 2 ^ 16 + bit.toNat ∧ 2 ^ 24 ≤ t.range.toNat ∧
    t.range.toNat = (if bit then s.range.toNat - s.range.toNat / 2048 * s.arg0.toNat
      else s.range.toNat / 2048 * s.arg0.toNat) * 256 ^ taken.length ∧
    t.code.toNat = ((s.code.toNat - if bit then s.range.toNat / 2048 * s.arg0.toNat else 0) *
      256 ^ taken.length + numOf taken) % 2 ^ 32 ∧
    s.source = taken ++ t.source ∧
    t = { s with
      range := t.range, code := t.code, source := t.source, inCount := s.inCount + taken.length, res := t.res }

/-- R138, R143: RC_DEC_DIRECT with n in 1..32 and n bytes left gives n bits; for n = 1 the bit says whether CODE is at or
past half the range, which then halves. No cell changes. n + 1 bits are n bits and then one more, the last the least
significant, also when a read fails part way. -/
def Obligations.DecDirectDecodes : Prop :=
  (∀ (n : Nat) (s : State), Ready .decode s → s.Inv → 1 ≤ n → n ≤ 32 → n ≤ s.source.length →
    ∃ t taken, exec (.rcDecDirect n) s = .next t ∧ t.faulted = false ∧ taken.length ≤ n ∧ t.res.toNat < 2 ^ n ∧
      2 ^ 24 ≤ t.range.toNat ∧ s.source = taken ++ t.source ∧
      (n = 1 → t.range.toNat = s.range.toNat / 2 * 256 ^ taken.length ∧
        (t.res = 1 ↔ s.range.toNat / 2 ≤ s.code.toNat) ∧
        t.code.toNat = ((s.code.toNat - if s.range.toNat / 2 ≤ s.code.toNat then s.range.toNat / 2 else 0) *
          256 ^ taken.length + numOf taken) % 2 ^ 32) ∧
      t = { s with
        range := t.range, code := t.code, source := t.source, inCount := s.inCount + taken.length, res := t.res }) ∧
  (∀ (n : Nat) (s : State), Ready .decode s → 1 ≤ n → n + 1 ≤ 32 →
    exec (.rcDecDirect (n + 1)) s = andThen (exec (.rcDecDirect n) s) fun t =>
      mapNext (fun u => { u with res := if u.faulted then s.res else 2 * t.res + u.res }) (exec (.rcDecDirect 1) t))

/-- R144: RC_DEC_FINISHED sets RES to 1 when CODE is 0, else to 0, and changes nothing else; it is the word 0x26000000, and
outside DECODE it faults SEQUENCE_ERROR. -/
def Obligations.DecFinishedTestsCode : Prop :=
  decode 0x26000000 = .ok .rcDecFinished ∧
  (∀ s : State, Ready .decode s → exec .rcDecFinished s = .next { s with res := if s.code = 0 then 1 else 0 }) ∧
  (∀ s : State, s.faulted = false → s.mode ≠ .decode →
    exec .rcDecFinished s = .next { s with faulted := true, faultCode := 0x12, faultSub := 0 })

/-- R145: decisions coded with RC_ENC_BIT_NA from RC_ENC_INIT to RC_ENC_FLUSH on an empty, unfailing sink decode to the same
bits with RC_DEC_BIT_NA at the same probabilities from RC_DEC_INIT on that body, without a fault, and use the body up
with CODE = 0. The host's reads of RES are recorded in `hostReads`, a field of the model's (notes/assumptions/1.md). -/
def Obligations.MirrorProperty : Prop :=
  ∀ (ds : List (Word × Bool)) (s d : State), (∀ x ∈ ds, 1 ≤ x.1.toNat ∧ x.1.toNat ≤ 2047) →
    Ready .idle s → propsValid s.props = true → windowCap s ≤ s.config.pMaxDict → s.sink = [] → s.sinkFailAt = none →
    Ready .idle d → propsValid d.props = true → windowCap d ≤ d.config.pMaxDict →
    ∃ t, perform (encodeDecisions ds) s = .next t ∧ t.faulted = false ∧ t.mode = .done ∧
      (d.source = t.sink → ∃ u reads, perform (decodeDecisions (ds.map Prod.fst)) d = .next u ∧ u.faulted = false ∧
        u.hostReads = d.hostReads ++ reads ∧ reads.map (fun w => w.getLsbD 0) = ds.map Prod.snd ∧
        u.source = [] ∧ u.code = 0)

/-! ## Probability model (41_probability_model.md) -/

/-- R171, R174, R176: RC_ENC_TREE with legal operands is RC_ENC_BIT once per bit of ARG1, most significant first, down the
tree at ARG0, whatever happens on the way, a sink that fails included. With room on the sink it completes; it changes no
cell but those of the tree's nodes 1 to 2^n - 1, and nothing but cells, the encoder and the sink. -/
def Obligations.EncTreeEncodes : Prop :=
  (∀ (n : Nat) (s : State), Ready .encode s → treeOperandsLegal n s.arg0.toNat s.arg1.toNat = true →
    exec (.rcEncTree n) s =
      mapNext (fun t => { t with arg0 := s.arg0 }) (encodePath s.arg0.toNat s.arg1.toNat n 1 s)) ∧
  (∀ (n : Nat) (s : State), Ready .encode s → s.Inv →
  treeOperandsLegal n s.arg0.toNat s.arg1.toNat = true → sinkTakes (s.cacheSize + n - 1) s →
  ∃ t, exec (.rcEncTree n) s = .next t ∧ t.faulted = false ∧ 2 ^ 24 ≤ t.range.toNat ∧
    (∀ a, a ≤ s.arg0.toNat ∨ s.arg0.toNat + 2 ^ n ≤ a → cellAt t a = cellAt s a) ∧
    t = { s with
      low := t.low, range := t.range, cache := t.cache, cacheSize := t.cacheSize, sink := t.sink,
      outCount := t.outCount, pram := t.pram })

/-- R172, R177: RC_DEC_TREE with legal operands is RC_DEC_BIT once per level, each next node chosen by RES, and gives the
last node less 2^n; a fault on the way leaves RES as it was. -/
def Obligations.DecTreeIsBits : Prop := ∀ (n : Nat) (s : State), Ready .decode s →
  treeOperandsLegal n s.arg0.toNat 0 = true →
  exec (.rcDecTree n) s = mapNext
    (fun t => { t with arg0 := s.arg0, res := if t.faulted then s.res else BitVec.ofNat 32 (t.res.toNat - 2 ^ n) })
    (decodePath s.arg0.toNat n 1 s)

/-- R173, R178: RC_DEC_RTREE does to the state what RC_DEC_TREE does, with the n bits of RES in the opposite order. -/
def Obligations.RtreeReversesBits : Prop := ∀ (n : Nat) (s t : State), Ready .decode s → s.Inv →
  treeOperandsLegal n s.arg0.toNat 0 = true → exec (.rcDecTree n) s = .next t →
  ∃ u, exec (.rcDecRtree n) s = .next u ∧ u = { t with res := u.res } ∧
    (t.faulted = true → u.res = s.res) ∧
    (t.faulted = false → ∀ k, u.res.getLsbD k = (decide (k < n) && t.res.getLsbD (n - 1 - k)))

/-- R174, R177, R178: RC_DEC_TREE and RC_DEC_RTREE with legal operands and n bytes left complete with a value below 2^n;
they change no cell but those of the tree's nodes. -/
def Obligations.DecTreesComplete : Prop := ∀ (i : Instr) (n : Nat) (s : State), i = .rcDecTree n ∨ i = .rcDecRtree n →
  Ready .decode s → s.Inv → treeOperandsLegal n s.arg0.toNat 0 = true → n ≤ s.source.length →
  ∃ t, exec i s = .next t ∧ t.faulted = false ∧ t.res.toNat < 2 ^ n ∧ 2 ^ 24 ≤ t.range.toNat ∧
    (∀ a, a ≤ s.arg0.toNat ∨ s.arg0.toNat + 2 ^ n ≤ a → cellAt t a = cellAt s a) ∧
    t = { s with
      range := t.range, code := t.code, source := t.source, inCount := t.inCount, pram := t.pram, res := t.res }

/-- R179, R180: PM_INIT in IDLE sets every cell to 1024 and nothing else; CELL_READ of a valid cell gives its value in RES,
in every mode, and nothing else. -/
def Obligations.CellCommands : Prop :=
  (∀ s : State, Ready .idle s → ∃ t, exec .pmInit s = .next t ∧ (∀ a, cellAt t a = 1024) ∧
    t = { s with pram := t.pram }) ∧
  (∀ s : State, s.faulted = false → cellValid s.arg0.toNat = true →
    exec .cellRead s = .next { s with res := BitVec.ofNat 32 (cellAt s s.arg0.toNat) })

/-- R43, R163: a cell reads what was last written to it, every other cell as before; a write keeps the canonical form, in
which equal contents are equal data: that form is the model's own (notes/assumptions/7.md). -/
def Obligations.CellMemory : Prop :=
  (∀ (m : Memory) (a b : Nat) (v : Prob), m.wf = true →
    Memory.read (Memory.write m a v) b = (if b = a then v else Memory.read m b) ∧ (Memory.write m a v).wf = true) ∧
  (∀ m n : Memory, m.wf = true → n.wf = true → (∀ a, Memory.read m a = Memory.read n a) → m = n)

/-! ## Symbols (42_symbol_fsm.md) -/

/-- R210: ENC_LITERAL is RC_ENC_BIT of a 0 in the IS_MATCH cell, RC_ENC_TREE of the byte in its literal coder, and DW_PUSH
of the byte, whatever happens on the way, a sink that fails included. With room on the sink it completes: the byte joins
the window, STATE stays 0, no cell changes but the IS_MATCH cell and the literal coder's first 256, and nothing else but
the encoder and the sink. -/
def Obligations.EncLiteralEncodes : Prop := ∀ (b : Byte) (s : State), Ready .encode s → s.Inv → s.eosSeen = false →
  exec (.encLiteral b) s = mapNext (fun t => { t with arg0 := s.arg0, arg1 := s.arg1 })
    (andThen (exec (.rcEncBit false) { s with arg0 := BitVec.ofNat 32 (isMatchCell s.fsm.toNat (posState s)) })
      fun t => andThen (exec (.rcEncTree 8) { t with
          arg0 := BitVec.ofNat 32 (literalBase (litState s)), arg1 := BitVec.ofNat 32 b.toNat })
        fun u => exec (.dwPush b) u) ∧
  (sinkTakes (s.cacheSize + 8) s →
  ∃ t, exec (.encLiteral b) s = .next t ∧ t.faulted = false ∧ 2 ^ 24 ≤ t.range.toNat ∧
    (∀ a, a ≠ isMatchCell s.fsm.toNat (posState s) →
      a ≤ literalBase (litState s) ∨ literalBase (litState s) + 256 ≤ a → cellAt t a = cellAt s a) ∧
    t = { s with
      low := t.low, range := t.range, cache := t.cache, cacheSize := t.cacheSize, sink := t.sink,
      outCount := t.outCount, pram := t.pram, window := s.window ++ [b] })

/-- R211, 30_encoding.md R97: ENC_EOS is RC_ENC_BIT of a 1 in the IS_MATCH cell and 41 RC_ENC_BIT_NA at probability 1024,
five 0 bits and 36 1 bits; then EOS_SEEN is set, unless one of them faulted, as on a sink that fails. With room on the
sink it completes: the IS_MATCH cell is adapted to a 1 and no other cell, and nothing else changes but the encoder and
the sink. -/
def Obligations.EncEosEncodes : Prop := ∀ s : State, Ready .encode s → s.Inv → s.eosSeen = false →
  exec .encEos s = mapNext (fun t => { t with arg0 := s.arg0, res := s.res, eosSeen := !t.faulted })
    (andThen (exec (.rcEncBit true) { s with arg0 := BitVec.ofNat 32 (isMatchCell s.fsm.toNat (posState s)) })
      (encodeDiscards (List.replicate 5 false ++ List.replicate 36 true))) ∧
  (sinkTakes (s.cacheSize + 41) s →
  ∃ t, exec .encEos s = .next t ∧ t.faulted = false ∧ 2 ^ 24 ≤ t.range.toNat ∧
    (∀ a, cellAt t a = if a = isMatchCell s.fsm.toNat (posState s)
      then adapt (cellAt s (isMatchCell s.fsm.toNat (posState s))) true else cellAt s a) ∧
    t = { s with
      low := t.low, range := t.range, cache := t.cache, cacheSize := t.cacheSize, sink := t.sink,
      outCount := t.outCount, pram := t.pram, eosSeen := true })

/-- R222: when the size is known and POS has reached it, DEC_TOKEN ends the session with RES 0 and does nothing else, with
no byte read and CODE not looked at. -/
def Obligations.DecTokenEndsBySize : Prop := ∀ s : State, Ready .decode s → knownSize s = some (posOf s) →
  exec .decToken s = .next { s with mode := .done, res := 0 }

/-- R220, R223, R201: DEC_TOKEN when the IS_MATCH decision is a 0 decodes a literal. Whatever happens on the way it is, when
STATE < 7, RC_DEC_BIT at the IS_MATCH cell, RC_DEC_TREE 8 at the literal coder, and STATE, DW_PUSH of the byte in RES and
RES 1; else the matched walk of R223 stands in the tree's place, beside the byte REP0 + 1 back. With nine bytes left and
room on the sink it completes: one byte to window and sink, STATE by LitNext, the reps kept, no cell changed but the
IS_MATCH cell and those of one literal coder. -/
def Obligations.DecTokenLiteral : Prop := ∀ s : State, Ready .decode s → s.Inv → knownSize s ≠ some (posOf s) →
  s.code.toNat < s.range.toNat / 2048 * cellAt s (isMatchCell s.fsm.toNat (posState s)) →
  (s.fsm.toNat < 7 → exec .decToken s = asToken s
    (ifRuns (runAt .rcDecBit (isMatchCell s.fsm.toNat (posState s)) s) fun t =>
      ifRuns (runAt (.rcDecTree 8) (literalBase (litState s)) t) (literalEnd s.fsm.toNat))) ∧
  (7 ≤ s.fsm.toNat → ∃ mb, s.window[posOf s - (s.rep0.toNat + 1)]? = some mb ∧ exec .decToken s = asToken s
    (ifRuns (runAt .rcDecBit (isMatchCell s.fsm.toNat (posState s)) s) fun t =>
      ifRuns (matchedWalk (literalBase (litState s)) mb 8 1 t) (literalEnd s.fsm.toNat))) ∧
  (9 ≤ s.source.length → sinkTakes 1 s →
    ∃ t b taken, exec .decToken s = .next t ∧ t.faulted = false ∧ s.source = taken ++ t.source ∧ taken.length ≤ 9 ∧
      t.fsm.toNat = (if s.fsm.toNat < 4 then 0 else if s.fsm.toNat < 10 then s.fsm.toNat - 3 else s.fsm.toNat - 6) ∧
      2 ^ 24 ≤ t.range.toNat ∧
      (∀ a, a ≠ isMatchCell s.fsm.toNat (posState s) →
        a ≤ literalBase (litState s) ∨ literalBase (litState s) + 0x300 ≤ a → cellAt t a = cellAt s a) ∧
      t = { s with
        range := t.range, code := t.code, source := t.source, inCount := s.inCount + taken.length, pram := t.pram,
        fsm := t.fsm, window := s.window ++ [b], sink := s.sink ++ [b], outCount := s.outCount + 1, res := 1 })

/-- 00_scope.md R11, 42_symbol_fsm.md R201, R215 to R227, 43_dictionary_window.md R267: DEC_TOKEN is the decisions of
R220 made one by one with the decoder's own commands, whatever happens on the way: RC_DEC_BIT at the flag cells, the
length, distance and literal fields, DW_COPY or DW_PUSH, and the checks where R220, R221 and R227 put them. So a token
that completes has done, by the kind in RES: the next STATE, the reps, and the bytes appended, each copied from the
distance the token's rep gives, within the known size. That with EOS_TRAILING = 1 an end marker completes when no byte
is left but a source error is to come is the model's deduction from R11's InAtEnd (notes/assumptions/9.md). -/
def Obligations.DecTokenByKind : Prop := ∀ s : State, Ready .decode s → s.Inv →
  exec .decToken s = asToken s (tokenRun s) ∧
  ∀ t : State, exec .decToken s = .next t → t.faulted = false →
  ∃ l, t.window = s.window ++ l ∧ t.sink = s.sink ++ l ∧
    (∀ n, knownSize s = some n → posOf s ≤ n → posOf t ≤ n) ∧
    (t.res = 0 ∧ l = [] ∧ t.mode = .done ∧ knownSize s = some (posOf s) ∨
     t.res = 1 ∧ l.length = 1 ∧ t.mode = .decode ∧ t.fsm.toNat = litNext s.fsm.toNat ∧ t.rep0 = s.rep0 ∧
       t.rep1 = s.rep1 ∧ t.rep2 = s.rep2 ∧ t.rep3 = s.rep3 ∨
     t.res = 8 ∧ l = [] ∧ t.mode = .done ∧ t.eosSeen = true ∧ t.fsm.toNat = matchNext s.fsm.toNat ∧
       t.rep0 = 0xFFFFFFFF ∧ t.rep1 = s.rep0 ∧ t.rep2 = s.rep1 ∧ t.rep3 = s.rep2 ∧ t.code = 0 ∧
       knownSize s = none ∧ (eosTrailingPolicy s.policy = true → t.source = []) ∨
     t.mode = .decode ∧ (∀ j < l.length, t.window[posOf s + j]? = t.window[posOf s + j - (t.rep0.toNat + 1)]?) ∧
       1 ≤ posOf s ∧ Readable s (t.rep0.toNat + 1) ∧
       (t.res = 2 ∧ 2 ≤ l.length ∧ l.length ≤ 273 ∧ t.fsm.toNat = matchNext s.fsm.toNat ∧ t.rep0 ≠ 0xFFFFFFFF ∧
          t.rep1 = s.rep0 ∧ t.rep2 = s.rep1 ∧ t.rep3 = s.rep2 ∨
        t.res = 3 ∧ l.length = 1 ∧ t.fsm.toNat = shortRepNext s.fsm.toNat ∧ t.rep0 = s.rep0 ∧ t.rep1 = s.rep1 ∧
          t.rep2 = s.rep2 ∧ t.rep3 = s.rep3 ∨
        2 ≤ l.length ∧ l.length ≤ 273 ∧ t.fsm.toNat = repNext s.fsm.toNat ∧
          (t.res = 4 ∧ t.rep0 = s.rep0 ∧ t.rep1 = s.rep1 ∧ t.rep2 = s.rep2 ∧ t.rep3 = s.rep3 ∨
           t.res = 5 ∧ t.rep0 = s.rep1 ∧ t.rep1 = s.rep0 ∧ t.rep2 = s.rep2 ∧ t.rep3 = s.rep3 ∨
           t.res = 6 ∧ t.rep0 = s.rep2 ∧ t.rep1 = s.rep0 ∧ t.rep2 = s.rep1 ∧ t.rep3 = s.rep3 ∨
           t.res = 7 ∧ t.rep0 = s.rep3 ∧ t.rep1 = s.rep0 ∧ t.rep2 = s.rep1 ∧ t.rep3 = s.rep2)))

/-- 00_scope.md R11, 42_symbol_fsm.md R201, R216, R217, R220, R221, R224 to R227: which token the decisions give, and
that it completes. With the flag decisions of a SHORTREP, REP0 to REP3 or MATCH decoded, then its length and distance
fields, a readable distance, room for the size and on the sink, DEC_TOKEN appends that many bytes copied from that
distance, sets STATE, the reps and RES, and keeps the cells and the coder as those decisions left them; a distance of
0xFFFFFFFF with no known size, CODE 0 and no forbidden trailing byte ends the session with EOS. That the last clause
asks with EOS_TRAILING = 1 only that no byte is left, whether or not a source error is to come, is the model's deduction
from R11's InAtEnd (notes/assumptions/9.md). -/
def Obligations.DecTokenKindsComplete : Prop := ∀ s u v w : State, Ready .decode s → s.Inv →
  knownSize s ≠ some (posOf s) →
  (Decides [(s.fsm.toNat * 16 + posState s, true), (0x0C0 + s.fsm.toNat, true), (0x0CC + s.fsm.toNat, false),
      (0x0F0 + s.fsm.toNat * 16 + posState s, false)] s u →
    Readable s (s.rep0.toNat + 1) → sinkTakes 1 s →
    ∃ b, s.window[posOf s - (s.rep0.toNat + 1)]? = some b ∧ exec .decToken s = .next { s with
      range := u.range, code := u.code, source := u.source, inCount := u.inCount, pram := u.pram,
      fsm := if s.fsm.toNat < 7 then 9 else 11, window := s.window ++ [b], sink := s.sink ++ [b],
      outCount := s.outCount + 1, res := 3 }) ∧
  (∀ (kind r0 r1 r2 r3 : Word) (path : List (Nat × Bool)), (kind, r0, r1, r2, r3, path) ∈ [
      ((4 : Word), s.rep0, s.rep1, s.rep2, s.rep3,
        [(0x0CC + s.fsm.toNat, false), (0x0F0 + s.fsm.toNat * 16 + posState s, true)]),
      (5, s.rep1, s.rep0, s.rep2, s.rep3, [(0x0CC + s.fsm.toNat, true), (0x0D8 + s.fsm.toNat, false)]),
      (6, s.rep2, s.rep0, s.rep1, s.rep3,
        [(0x0CC + s.fsm.toNat, true), (0x0D8 + s.fsm.toNat, true), (0x0E4 + s.fsm.toNat, false)]),
      (7, s.rep3, s.rep0, s.rep1, s.rep2,
        [(0x0CC + s.fsm.toNat, true), (0x0D8 + s.fsm.toNat, true), (0x0E4 + s.fsm.toNat, true)])] →
    Decides ((s.fsm.toNat * 16 + posState s, true) :: (0x0C0 + s.fsm.toNat, true) :: path) s u →
    lengthRun 0x542 (posState s) { u with rep0 := r0, rep1 := r1, rep2 := r2, rep3 := r3 } = .next v →
    v.faulted = false → (∀ n, knownSize s = some n → posOf s + (v.res.toNat + 2) ≤ n) →
    Readable s (r0.toNat + 1) → sinkTakes (v.res.toNat + 2) s →
    ∃ l, l.length = v.res.toNat + 2 ∧
      (∀ j < l.length, (s.window ++ l)[posOf s + j]? = (s.window ++ l)[posOf s + j - (r0.toNat + 1)]?) ∧
      exec .decToken s = .next { s with
        range := v.range, code := v.code, source := v.source, inCount := v.inCount, pram := v.pram,
        fsm := if s.fsm.toNat < 7 then 8 else 11, rep0 := r0, rep1 := r1, rep2 := r2, rep3 := r3,
        window := s.window ++ l, sink := s.sink ++ l, outCount := s.outCount + l.length, res := kind }) ∧
  (Decides [(s.fsm.toNat * 16 + posState s, true), (0x0C0 + s.fsm.toNat, false)] s u →
    lengthRun 0x340 (posState s) { u with rep1 := s.rep0, rep2 := s.rep1, rep3 := s.rep2 } = .next v →
    v.faulted = false →
    distanceRun v.res.toNat { v with fsm := if s.fsm.toNat < 7 then 7 else 10 } = .next w → w.faulted = false →
    (w.res ≠ 0xFFFFFFFF → (∀ n, knownSize s = some n → posOf s + (v.res.toNat + 2) ≤ n) →
      Readable s (w.res.toNat + 1) → sinkTakes (v.res.toNat + 2) s →
      ∃ l, l.length = v.res.toNat + 2 ∧
        (∀ j < l.length, (s.window ++ l)[posOf s + j]? = (s.window ++ l)[posOf s + j - (w.res.toNat + 1)]?) ∧
        exec .decToken s = .next { s with
          range := w.range, code := w.code, source := w.source, inCount := w.inCount, pram := w.pram,
          fsm := if s.fsm.toNat < 7 then 7 else 10, rep0 := w.res, rep1 := s.rep0, rep2 := s.rep1, rep3 := s.rep2,
          window := s.window ++ l, sink := s.sink ++ l, outCount := s.outCount + l.length, res := 2 }) ∧
    (w.res = 0xFFFFFFFF → knownSize s = none → w.code = 0 → (s.policy.getLsbD 12 = true → w.source = []) →
      exec .decToken s = .next { s with
        range := w.range, code := 0, source := w.source, inCount := w.inCount, pram := w.pram,
        fsm := if s.fsm.toNat < 7 then 7 else 10, rep0 := 0xFFFFFFFF, rep1 := s.rep0, rep2 := s.rep1,
        rep3 := s.rep2, mode := .done, eosSeen := true, res := 8 }))

/-- 00_scope.md R11, 42_symbol_fsm.md R220, R221, R227, R228, 30_encoding.md R100, R101: with 48 bytes left DEC_TOKEN
answers a next state that is not TRUNCATED and no source error: at most 48 bytes are taken, and if it faults then for a
sink that does not take 273 bytes, or by a structural check, with nothing appended and that check's own condition met.
That an end marker faults neither EOS_TRAILING nor IO_ERROR(IN) when no byte is left but a source error is to come is
the model's deduction from R11's InAtEnd (notes/assumptions/9.md). -/
def Obligations.DecTokenNeedsAtMost48 : Prop := ∀ s : State, Ready .decode s → s.Inv → 48 ≤ s.source.length →
  ∃ t taken, exec .decToken s = .next t ∧ s.source = taken ++ t.source ∧ taken.length ≤ 48 ∧
    (t.faulted = true → t.faultCode = 0x04 ∧ t.faultSub = 2 ∧ ¬ sinkTakes 273 s ∨
      t.faultCode = 0x03 ∧ t.window = s.window ∧ t.sink = s.sink ∧
        (t.faultSub = 2 ∧ posOf s < t.rep0.toNat + 1 ∨
         t.faultSub = 3 ∧ t.rep0.toNat + 1 ≤ posOf s ∧ windowLimit s < t.rep0.toNat + 1 ∨
         t.faultSub = 4 ∧ posOf s = 0 ∨
         t.faultSub = 5 ∧ t.rep0 = 0xFFFFFFFF ∧ knownSize s = none ∧ t.code ≠ 0 ∨
         t.faultSub = 6 ∧ t.rep0 = 0xFFFFFFFF ∧ knownSize s ≠ none ∨
         t.faultSub = 7 ∧ (∃ n, knownSize s = some n ∧ n < posOf s + 273) ∨
         t.faultSub = 8 ∧ t.rep0 = 0xFFFFFFFF ∧ knownSize s = none ∧ t.code = 0 ∧
           eosTrailingPolicy s.policy = true ∧ t.source ≠ []))

/-- R163, R165, R167 to R169, R223 to R225: DEC_TOKEN changes no cell but those its position, STATE and literal context
select: six flag cells, one literal coder, and the length and distance trees. -/
def Obligations.DecTokenCells : Prop := ∀ s t : State, s.Inv → exec .decToken s = .next t →
  ∀ a, ¬ TokenCell s a → cellAt t a = cellAt s a

/-! ## Window (43_dictionary_window.md) -/

/-- R264, R270, R271: DW_RESET in IDLE empties the window and nothing else; DW_PUSH appends its byte, in DECODE after
delivering it to the sink, and if the sink fails there it faults IO_ERROR(OUT) with nothing appended. -/
def Obligations.WindowResetAndPush : Prop :=
  (∀ s : State, Ready .idle s → exec .dwReset s = .next { s with window := [] }) ∧
  (∀ (b : Byte) (s : State), s.faulted = false →
    (s.mode = .idle ∨ s.mode = .encode → exec (.dwPush b) s = .next { s with window := s.window ++ [b] }) ∧
    (s.mode = .decode → sinkTakes 1 s → exec (.dwPush b) s = .next { s with
      window := s.window ++ [b], sink := s.sink ++ [b], outCount := s.outCount + 1 }) ∧
    (s.mode = .decode → ¬ sinkTakes 1 s →
      exec (.dwPush b) s = .next { s with faulted := true, faultCode := 0x04, faultSub := 2 }))

/-- R263, R265, R266, R272, R273: DW_BYTE_AT gives the byte at a readable distance, in every mode; distance 0 or past POS
faults DIST_BEYOND_OUTPUT, a distance past the limit DIST_BEYOND_DICT, with no other effect. DW_LAST gives the byte
appended last, 0 on an empty window, in every mode, and nothing else changes. -/
def Obligations.WindowReads : Prop := ∀ s : State, s.faulted = false →
  (1 ≤ s.arg0.toNat → s.arg0.toNat ≤ s.window.length → s.arg0.toNat ≤ windowLimit s →
    ∃ b, s.window[s.window.length - s.arg0.toNat]? = some b ∧
      exec .dwByteAt s = .next { s with res := BitVec.ofNat 32 b.toNat }) ∧
  (s.arg0.toNat = 0 ∨ s.window.length < s.arg0.toNat →
    exec .dwByteAt s = .next { s with faulted := true, faultCode := 0x03, faultSub := 2 }) ∧
  (s.arg0.toNat ≤ s.window.length → windowLimit s < s.arg0.toNat →
    exec .dwByteAt s = .next { s with faulted := true, faultCode := 0x03, faultSub := 3 }) ∧
  (s.window = [] → exec .dwLast s = .next { s with res := 0 }) ∧
  (∀ (w : List Byte) (b : Byte), s.window = w ++ [b] →
    exec .dwLast s = .next { s with res := BitVec.ofNat 32 b.toNat })

/-- R267, R274: DW_COPY from a readable distance d, with room on the sink in DECODE, appends ARG1 bytes, each the byte d
back from its place (so an overlapping copy repeats the last d bytes), in DECODE also to the sink; an unreadable
distance faults with nothing appended. -/
def Obligations.CopyRepeats : Prop := ∀ s : State, s.faulted = false → s.mode ≠ .done →
  (Readable s s.arg0.toNat → (s.mode = .decode → sinkTakes s.arg1.toNat s) →
    ∃ t l, exec .dwCopy s = .next t ∧ l.length = s.arg1.toNat ∧ t.window = s.window ++ l ∧
      (∀ j < l.length, t.window[posOf s + j]? = t.window[posOf s + j - s.arg0.toNat]?) ∧
      t = { s with
        window := s.window ++ l, sink := if s.mode = .decode then s.sink ++ l else s.sink,
        outCount := if s.mode = .decode then s.outCount + l.length else s.outCount }) ∧
  (¬ Readable s s.arg0.toNat → exec .dwCopy s = .next { s with
    faulted := true, faultCode := 0x03,
    faultSub := if s.arg0.toNat = 0 ∨ posOf s < s.arg0.toNat then 2 else 3 })

/-! ## Properties and header (44_header.md) -/

/-- R291, R292: the properties are valid exactly when LC is at most 8, LP at most 4 and PB at most 4, with no joint limit;
PROPS_VALIDATE then changes nothing, and otherwise faults INVALID_PROPERTIES, in every mode. -/
def Obligations.PropertiesCheck : Prop := ∀ s : State,
  (propsValid s.props = true ↔ (s.props.extractLsb' 0 4).toNat ≤ 8 ∧ (s.props.extractLsb' 8 4).toNat ≤ 4 ∧
    (s.props.extractLsb' 16 4).toNat ≤ 4) ∧
  (s.faulted = false → propsValid s.props = true → exec .propsValidate s = .next s) ∧
  (s.faulted = false → propsValid s.props = false →
    exec .propsValidate s = .next { s with faulted := true, faultCode := 0x02, faultSub := 0 })

/-- R293, R294, 60_exceptions.md R322: HDR_WRITE with valid properties and room on the sink delivers the props byte,
DICT_SIZE and, unless ENC_POLICY is SKIP, the size (all ones if absent), least significant byte first, and changes nothing
else; on a sink that fails inside the header it faults IO_ERROR(OUT) with the bytes before delivered; with invalid
properties it faults before any byte. -/
def Obligations.HeaderWritten : Prop := ∀ s : State, Ready .idle s →
  (propsValid s.props = true → ∃ p d z,
    p.toNat = (s.props.extractLsb' 0 4).toNat +
      9 * ((s.props.extractLsb' 8 4).toNat + 5 * (s.props.extractLsb' 16 4).toNat) ∧
    d.length = 4 ∧ numOf d.reverse = s.dictSize.toNat ∧
    (s.policy.getLsbD 4 = true → z = []) ∧
    (s.policy.getLsbD 4 = false → z.length = 8 ∧
      numOf z.reverse = if s.policy.getLsbD 8 then s.usize.toNat else 2 ^ 64 - 1) ∧
    (sinkTakes (5 + z.length) s → exec .hdrWrite s = .next { s with
      sink := s.sink ++ p :: d ++ z, outCount := s.outCount + (5 + z.length) }) ∧
    (∀ k, s.sinkFailAt = some k → k < s.sink.length + (5 + z.length) → exec .hdrWrite s = .next { s with
      sink := s.sink ++ (p :: d ++ z).take (k - s.sink.length), outCount := s.outCount + (k - s.sink.length),
      faulted := true, faultCode := 0x04, faultSub := 2 })) ∧
  (propsValid s.props = false →
    exec .hdrWrite s = .next { s with faulted := true, faultCode := 0x02, faultSub := 0 })

/-- R296, R297, R300: HDR_READ of a complete header sets PROPS, DICT_SIZE (raised to 0x1000), and for READ the size;
READ_OVERRIDE reads and drops the size field, SKIP reads none; 13 or 5 bytes are consumed and MODE stays IDLE. It faults
INVALID_CONFIG before any byte for the reserved policy, INVALID_PROPERTIES after one byte of 225 or more,
HEADER_TOO_SHORT (or IO_ERROR(IN)) when the source ends inside the header, and then writes no register. -/
def Obligations.HeaderRead : Prop :=
  (∀ (s : State) (p : Byte) (d z rest : List Byte), Ready .idle s →
  s.policy.extractLsb' 0 2 ≠ 3 → p.toNat < 225 → d.length = 4 →
  z.length = (if s.policy.extractLsb' 0 2 = 2 then 0 else 8) → s.source = p :: d ++ z ++ rest →
  ∃ t, exec .hdrRead s = .next t ∧ t.faulted = false ∧
    (t.props.extractLsb' 0 4).toNat = p.toNat % 9 ∧ (t.props.extractLsb' 8 4).toNat = p.toNat / 9 % 5 ∧
    (t.props.extractLsb' 16 4).toNat = p.toNat / 45 ∧ t.props &&& 0x000F0F0F = t.props ∧ propsValid t.props = true ∧
    t.dictSize.toNat = max (numOf d.reverse) 0x1000 ∧
    (s.policy.extractLsb' 0 2 = 0 → t.usize.toNat = (if numOf z.reverse = 2 ^ 64 - 1 then 0 else numOf z.reverse) ∧
      t.policy.getLsbD 8 = decide (numOf z.reverse ≠ 2 ^ 64 - 1)) ∧
    (s.policy.extractLsb' 0 2 ≠ 0 → t.usize = s.usize ∧ t.policy = s.policy) ∧
    t.policy &&& 0xFFFFFEFF = s.policy &&& 0xFFFFFEFF ∧
    t = { s with
      source := rest, inCount := s.inCount + (5 + z.length), props := t.props, dictSize := t.dictSize,
      usize := t.usize, policy := t.policy }) ∧
  (∀ s : State, Ready .idle s →
    (s.policy.extractLsb' 0 2 = 3 →
      exec .hdrRead s = .next { s with faulted := true, faultCode := 0x14, faultSub := 0 }) ∧
    (s.policy.extractLsb' 0 2 ≠ 3 → ∀ (p : Byte) (rest : List Byte), s.source = p :: rest → 225 ≤ p.toNat →
      exec .hdrRead s = .next { s with
        source := rest, inCount := s.inCount + 1, faulted := true, faultCode := 0x02, faultSub := 0 }) ∧
    (s.policy.extractLsb' 0 2 ≠ 3 → (∀ p rest, s.source = p :: rest → p.toNat < 225) →
      s.source.length < (if s.policy.extractLsb' 0 2 = 2 then 5 else 13) →
      exec .hdrRead s = .next { s with
        source := [], inCount := s.inCount + s.source.length, faulted := true,
        faultCode := if s.sourceEnd = .atEnd then 0x01 else 0x04,
        faultSub := if s.sourceEnd = .atEnd then 0 else 1 }))

/-- R298, R299: a header written with ENC_POLICY WRITE from valid parameters and read with DEC_POLICY READ gives back PROPS,
DICT_SIZE raised to 0x1000, and the known size, whatever else the reading session held. -/
def Obligations.HeaderRoundTrip : Prop := ∀ s d : State, Ready .idle s → propsValid s.props = true →
  s.props &&& 0x000F0F0F = s.props → s.policy.getLsbD 4 = false → s.sink = [] → sinkTakes 13 s →
  Ready .idle d → d.policy.extractLsb' 0 2 = 0 →
  ∃ t, exec .hdrWrite s = .next t ∧ t.sink.length = 13 ∧
    (d.source = t.sink → ∃ u, exec .hdrRead d = .next u ∧ u.faulted = false ∧ u.source = [] ∧ u.props = s.props ∧
      u.dictSize.toNat = max s.dictSize.toNat 0x1000 ∧ knownSize u = knownSize s)

/-! ## Invariants and safety -/

/-- R48, R125, R162, 70_reset_and_hazards.md R340: the invariant holds after power-on. Its clause on P_MAX_DICT rests on
the model's own value (notes/assumptions/2.md). -/
def Obligations.InvAtReset : Prop := State.reset.Inv

/-- R48, R125, R162, R202, R261: every step, faulting or not, keeps the invariant. Its clause that a pending 0xFF takes no
carry is the model's deduction (notes/assumptions/16.md), and the canonical form of the cells is the model's
(notes/assumptions/7.md). -/
def Obligations.StepKeepsInv : Prop := ∀ s t : State, s.Inv → step s = .next t → t.Inv

/-- 40_range_coder.md R124, R139, 41_probability_model.md R165, R168: from a state that meets the invariant every step answers
a next state: the model's own stops (notes/assumptions/5.md and 6.md) are never reached. -/
def Obligations.StepNeverStops : Prop := ∀ s : State, s.Inv → ∃ t, step s = .next t

end Statements
end

