-- ==== Sys2Proof/Laws/State.lean ====
section
/-! SUPPORT. One lemma per field per named update of State, each by rfl: later proofs need not unfold an update. -/

namespace Sys2Proof.Machine

variable (s : State)

/-! ### withRes -/
@[simp] theorem State.withRes_props (v : Word) : (s.withRes v).props = s.props := rfl
@[simp] theorem State.withRes_dictSize (v : Word) : (s.withRes v).dictSize = s.dictSize := rfl
@[simp] theorem State.withRes_usize (v : Word) : (s.withRes v).usize = s.usize := rfl
@[simp] theorem State.withRes_policy (v : Word) : (s.withRes v).policy = s.policy := rfl
@[simp] theorem State.withRes_arg0 (v : Word) : (s.withRes v).arg0 = s.arg0 := rfl
@[simp] theorem State.withRes_arg1 (v : Word) : (s.withRes v).arg1 = s.arg1 := rfl
@[simp] theorem State.withRes_res (v : Word) : (s.withRes v).res = v := rfl
@[simp] theorem State.withRes_mode (v : Word) : (s.withRes v).mode = s.mode := rfl
@[simp] theorem State.withRes_faulted (v : Word) : (s.withRes v).faulted = s.faulted := rfl
@[simp] theorem State.withRes_eosSeen (v : Word) : (s.withRes v).eosSeen = s.eosSeen := rfl
@[simp] theorem State.withRes_faultCode (v : Word) : (s.withRes v).faultCode = s.faultCode := rfl
@[simp] theorem State.withRes_faultSub (v : Word) : (s.withRes v).faultSub = s.faultSub := rfl
@[simp] theorem State.withRes_low (v : Word) : (s.withRes v).low = s.low := rfl
@[simp] theorem State.withRes_range (v : Word) : (s.withRes v).range = s.range := rfl
@[simp] theorem State.withRes_cache (v : Word) : (s.withRes v).cache = s.cache := rfl
@[simp] theorem State.withRes_cacheSize (v : Word) : (s.withRes v).cacheSize = s.cacheSize := rfl
@[simp] theorem State.withRes_code (v : Word) : (s.withRes v).code = s.code := rfl
@[simp] theorem State.withRes_pram (v : Word) : (s.withRes v).pram = s.pram := rfl
@[simp] theorem State.withRes_fsm (v : Word) : (s.withRes v).fsm = s.fsm := rfl
@[simp] theorem State.withRes_rep0 (v : Word) : (s.withRes v).rep0 = s.rep0 := rfl
@[simp] theorem State.withRes_rep1 (v : Word) : (s.withRes v).rep1 = s.rep1 := rfl
@[simp] theorem State.withRes_rep2 (v : Word) : (s.withRes v).rep2 = s.rep2 := rfl
@[simp] theorem State.withRes_rep3 (v : Word) : (s.withRes v).rep3 = s.rep3 := rfl
@[simp] theorem State.withRes_window (v : Word) : (s.withRes v).window = s.window := rfl
@[simp] theorem State.withRes_inCount (v : Word) : (s.withRes v).inCount = s.inCount := rfl
@[simp] theorem State.withRes_outCount (v : Word) : (s.withRes v).outCount = s.outCount := rfl
@[simp] theorem State.withRes_source (v : Word) : (s.withRes v).source = s.source := rfl
@[simp] theorem State.withRes_sourceEnd (v : Word) : (s.withRes v).sourceEnd = s.sourceEnd := rfl
@[simp] theorem State.withRes_sink (v : Word) : (s.withRes v).sink = s.sink := rfl
@[simp] theorem State.withRes_sinkFailAt (v : Word) : (s.withRes v).sinkFailAt = s.sinkFailAt := rfl
@[simp] theorem State.withRes_hostQueue (v : Word) : (s.withRes v).hostQueue = s.hostQueue := rfl
@[simp] theorem State.withRes_hostReads (v : Word) : (s.withRes v).hostReads = s.hostReads := rfl
@[simp] theorem State.withRes_config (v : Word) : (s.withRes v).config = s.config := rfl

/-! ### withMode -/
@[simp] theorem State.withMode_props (m : Mode) : (s.withMode m).props = s.props := rfl
@[simp] theorem State.withMode_dictSize (m : Mode) : (s.withMode m).dictSize = s.dictSize := rfl
@[simp] theorem State.withMode_usize (m : Mode) : (s.withMode m).usize = s.usize := rfl
@[simp] theorem State.withMode_policy (m : Mode) : (s.withMode m).policy = s.policy := rfl
@[simp] theorem State.withMode_arg0 (m : Mode) : (s.withMode m).arg0 = s.arg0 := rfl
@[simp] theorem State.withMode_arg1 (m : Mode) : (s.withMode m).arg1 = s.arg1 := rfl
@[simp] theorem State.withMode_res (m : Mode) : (s.withMode m).res = s.res := rfl
@[simp] theorem State.withMode_mode (m : Mode) : (s.withMode m).mode = m := rfl
@[simp] theorem State.withMode_faulted (m : Mode) : (s.withMode m).faulted = s.faulted := rfl
@[simp] theorem State.withMode_eosSeen (m : Mode) : (s.withMode m).eosSeen = s.eosSeen := rfl
@[simp] theorem State.withMode_faultCode (m : Mode) : (s.withMode m).faultCode = s.faultCode := rfl
@[simp] theorem State.withMode_faultSub (m : Mode) : (s.withMode m).faultSub = s.faultSub := rfl
@[simp] theorem State.withMode_low (m : Mode) : (s.withMode m).low = s.low := rfl
@[simp] theorem State.withMode_range (m : Mode) : (s.withMode m).range = s.range := rfl
@[simp] theorem State.withMode_cache (m : Mode) : (s.withMode m).cache = s.cache := rfl
@[simp] theorem State.withMode_cacheSize (m : Mode) : (s.withMode m).cacheSize = s.cacheSize := rfl
@[simp] theorem State.withMode_code (m : Mode) : (s.withMode m).code = s.code := rfl
@[simp] theorem State.withMode_pram (m : Mode) : (s.withMode m).pram = s.pram := rfl
@[simp] theorem State.withMode_fsm (m : Mode) : (s.withMode m).fsm = s.fsm := rfl
@[simp] theorem State.withMode_rep0 (m : Mode) : (s.withMode m).rep0 = s.rep0 := rfl
@[simp] theorem State.withMode_rep1 (m : Mode) : (s.withMode m).rep1 = s.rep1 := rfl
@[simp] theorem State.withMode_rep2 (m : Mode) : (s.withMode m).rep2 = s.rep2 := rfl
@[simp] theorem State.withMode_rep3 (m : Mode) : (s.withMode m).rep3 = s.rep3 := rfl
@[simp] theorem State.withMode_window (m : Mode) : (s.withMode m).window = s.window := rfl
@[simp] theorem State.withMode_inCount (m : Mode) : (s.withMode m).inCount = s.inCount := rfl
@[simp] theorem State.withMode_outCount (m : Mode) : (s.withMode m).outCount = s.outCount := rfl
@[simp] theorem State.withMode_source (m : Mode) : (s.withMode m).source = s.source := rfl
@[simp] theorem State.withMode_sourceEnd (m : Mode) : (s.withMode m).sourceEnd = s.sourceEnd := rfl
@[simp] theorem State.withMode_sink (m : Mode) : (s.withMode m).sink = s.sink := rfl
@[simp] theorem State.withMode_sinkFailAt (m : Mode) : (s.withMode m).sinkFailAt = s.sinkFailAt := rfl
@[simp] theorem State.withMode_hostQueue (m : Mode) : (s.withMode m).hostQueue = s.hostQueue := rfl
@[simp] theorem State.withMode_hostReads (m : Mode) : (s.withMode m).hostReads = s.hostReads := rfl
@[simp] theorem State.withMode_config (m : Mode) : (s.withMode m).config = s.config := rfl

/-! ### sawEos -/
@[simp] theorem State.sawEos_props : (s.sawEos).props = s.props := rfl
@[simp] theorem State.sawEos_dictSize : (s.sawEos).dictSize = s.dictSize := rfl
@[simp] theorem State.sawEos_usize : (s.sawEos).usize = s.usize := rfl
@[simp] theorem State.sawEos_policy : (s.sawEos).policy = s.policy := rfl
@[simp] theorem State.sawEos_arg0 : (s.sawEos).arg0 = s.arg0 := rfl
@[simp] theorem State.sawEos_arg1 : (s.sawEos).arg1 = s.arg1 := rfl
@[simp] theorem State.sawEos_res : (s.sawEos).res = s.res := rfl
@[simp] theorem State.sawEos_mode : (s.sawEos).mode = s.mode := rfl
@[simp] theorem State.sawEos_faulted : (s.sawEos).faulted = s.faulted := rfl
@[simp] theorem State.sawEos_eosSeen : (s.sawEos).eosSeen = true := rfl
@[simp] theorem State.sawEos_faultCode : (s.sawEos).faultCode = s.faultCode := rfl
@[simp] theorem State.sawEos_faultSub : (s.sawEos).faultSub = s.faultSub := rfl
@[simp] theorem State.sawEos_low : (s.sawEos).low = s.low := rfl
@[simp] theorem State.sawEos_range : (s.sawEos).range = s.range := rfl
@[simp] theorem State.sawEos_cache : (s.sawEos).cache = s.cache := rfl
@[simp] theorem State.sawEos_cacheSize : (s.sawEos).cacheSize = s.cacheSize := rfl
@[simp] theorem State.sawEos_code : (s.sawEos).code = s.code := rfl
@[simp] theorem State.sawEos_pram : (s.sawEos).pram = s.pram := rfl
@[simp] theorem State.sawEos_fsm : (s.sawEos).fsm = s.fsm := rfl
@[simp] theorem State.sawEos_rep0 : (s.sawEos).rep0 = s.rep0 := rfl
@[simp] theorem State.sawEos_rep1 : (s.sawEos).rep1 = s.rep1 := rfl
@[simp] theorem State.sawEos_rep2 : (s.sawEos).rep2 = s.rep2 := rfl
@[simp] theorem State.sawEos_rep3 : (s.sawEos).rep3 = s.rep3 := rfl
@[simp] theorem State.sawEos_window : (s.sawEos).window = s.window := rfl
@[simp] theorem State.sawEos_inCount : (s.sawEos).inCount = s.inCount := rfl
@[simp] theorem State.sawEos_outCount : (s.sawEos).outCount = s.outCount := rfl
@[simp] theorem State.sawEos_source : (s.sawEos).source = s.source := rfl
@[simp] theorem State.sawEos_sourceEnd : (s.sawEos).sourceEnd = s.sourceEnd := rfl
@[simp] theorem State.sawEos_sink : (s.sawEos).sink = s.sink := rfl
@[simp] theorem State.sawEos_sinkFailAt : (s.sawEos).sinkFailAt = s.sinkFailAt := rfl
@[simp] theorem State.sawEos_hostQueue : (s.sawEos).hostQueue = s.hostQueue := rfl
@[simp] theorem State.sawEos_hostReads : (s.sawEos).hostReads = s.hostReads := rfl
@[simp] theorem State.sawEos_config : (s.sawEos).config = s.config := rfl

/-! ### withRange -/
@[simp] theorem State.withRange_props (v : Word) : (s.withRange v).props = s.props := rfl
@[simp] theorem State.withRange_dictSize (v : Word) : (s.withRange v).dictSize = s.dictSize := rfl
@[simp] theorem State.withRange_usize (v : Word) : (s.withRange v).usize = s.usize := rfl
@[simp] theorem State.withRange_policy (v : Word) : (s.withRange v).policy = s.policy := rfl
@[simp] theorem State.withRange_arg0 (v : Word) : (s.withRange v).arg0 = s.arg0 := rfl
@[simp] theorem State.withRange_arg1 (v : Word) : (s.withRange v).arg1 = s.arg1 := rfl
@[simp] theorem State.withRange_res (v : Word) : (s.withRange v).res = s.res := rfl
@[simp] theorem State.withRange_mode (v : Word) : (s.withRange v).mode = s.mode := rfl
@[simp] theorem State.withRange_faulted (v : Word) : (s.withRange v).faulted = s.faulted := rfl
@[simp] theorem State.withRange_eosSeen (v : Word) : (s.withRange v).eosSeen = s.eosSeen := rfl
@[simp] theorem State.withRange_faultCode (v : Word) : (s.withRange v).faultCode = s.faultCode := rfl
@[simp] theorem State.withRange_faultSub (v : Word) : (s.withRange v).faultSub = s.faultSub := rfl
@[simp] theorem State.withRange_low (v : Word) : (s.withRange v).low = s.low := rfl
@[simp] theorem State.withRange_range (v : Word) : (s.withRange v).range = v := rfl
@[simp] theorem State.withRange_cache (v : Word) : (s.withRange v).cache = s.cache := rfl
@[simp] theorem State.withRange_cacheSize (v : Word) : (s.withRange v).cacheSize = s.cacheSize := rfl
@[simp] theorem State.withRange_code (v : Word) : (s.withRange v).code = s.code := rfl
@[simp] theorem State.withRange_pram (v : Word) : (s.withRange v).pram = s.pram := rfl
@[simp] theorem State.withRange_fsm (v : Word) : (s.withRange v).fsm = s.fsm := rfl
@[simp] theorem State.withRange_rep0 (v : Word) : (s.withRange v).rep0 = s.rep0 := rfl
@[simp] theorem State.withRange_rep1 (v : Word) : (s.withRange v).rep1 = s.rep1 := rfl
@[simp] theorem State.withRange_rep2 (v : Word) : (s.withRange v).rep2 = s.rep2 := rfl
@[simp] theorem State.withRange_rep3 (v : Word) : (s.withRange v).rep3 = s.rep3 := rfl
@[simp] theorem State.withRange_window (v : Word) : (s.withRange v).window = s.window := rfl
@[simp] theorem State.withRange_inCount (v : Word) : (s.withRange v).inCount = s.inCount := rfl
@[simp] theorem State.withRange_outCount (v : Word) : (s.withRange v).outCount = s.outCount := rfl
@[simp] theorem State.withRange_source (v : Word) : (s.withRange v).source = s.source := rfl
@[simp] theorem State.withRange_sourceEnd (v : Word) : (s.withRange v).sourceEnd = s.sourceEnd := rfl
@[simp] theorem State.withRange_sink (v : Word) : (s.withRange v).sink = s.sink := rfl
@[simp] theorem State.withRange_sinkFailAt (v : Word) : (s.withRange v).sinkFailAt = s.sinkFailAt := rfl
@[simp] theorem State.withRange_hostQueue (v : Word) : (s.withRange v).hostQueue = s.hostQueue := rfl
@[simp] theorem State.withRange_hostReads (v : Word) : (s.withRange v).hostReads = s.hostReads := rfl
@[simp] theorem State.withRange_config (v : Word) : (s.withRange v).config = s.config := rfl

/-! ### withLow -/
@[simp] theorem State.withLow_props (v : BitVec 64) : (s.withLow v).props = s.props := rfl
@[simp] theorem State.withLow_dictSize (v : BitVec 64) : (s.withLow v).dictSize = s.dictSize := rfl
@[simp] theorem State.withLow_usize (v : BitVec 64) : (s.withLow v).usize = s.usize := rfl
@[simp] theorem State.withLow_policy (v : BitVec 64) : (s.withLow v).policy = s.policy := rfl
@[simp] theorem State.withLow_arg0 (v : BitVec 64) : (s.withLow v).arg0 = s.arg0 := rfl
@[simp] theorem State.withLow_arg1 (v : BitVec 64) : (s.withLow v).arg1 = s.arg1 := rfl
@[simp] theorem State.withLow_res (v : BitVec 64) : (s.withLow v).res = s.res := rfl
@[simp] theorem State.withLow_mode (v : BitVec 64) : (s.withLow v).mode = s.mode := rfl
@[simp] theorem State.withLow_faulted (v : BitVec 64) : (s.withLow v).faulted = s.faulted := rfl
@[simp] theorem State.withLow_eosSeen (v : BitVec 64) : (s.withLow v).eosSeen = s.eosSeen := rfl
@[simp] theorem State.withLow_faultCode (v : BitVec 64) : (s.withLow v).faultCode = s.faultCode := rfl
@[simp] theorem State.withLow_faultSub (v : BitVec 64) : (s.withLow v).faultSub = s.faultSub := rfl
@[simp] theorem State.withLow_low (v : BitVec 64) : (s.withLow v).low = v := rfl
@[simp] theorem State.withLow_range (v : BitVec 64) : (s.withLow v).range = s.range := rfl
@[simp] theorem State.withLow_cache (v : BitVec 64) : (s.withLow v).cache = s.cache := rfl
@[simp] theorem State.withLow_cacheSize (v : BitVec 64) : (s.withLow v).cacheSize = s.cacheSize := rfl
@[simp] theorem State.withLow_code (v : BitVec 64) : (s.withLow v).code = s.code := rfl
@[simp] theorem State.withLow_pram (v : BitVec 64) : (s.withLow v).pram = s.pram := rfl
@[simp] theorem State.withLow_fsm (v : BitVec 64) : (s.withLow v).fsm = s.fsm := rfl
@[simp] theorem State.withLow_rep0 (v : BitVec 64) : (s.withLow v).rep0 = s.rep0 := rfl
@[simp] theorem State.withLow_rep1 (v : BitVec 64) : (s.withLow v).rep1 = s.rep1 := rfl
@[simp] theorem State.withLow_rep2 (v : BitVec 64) : (s.withLow v).rep2 = s.rep2 := rfl
@[simp] theorem State.withLow_rep3 (v : BitVec 64) : (s.withLow v).rep3 = s.rep3 := rfl
@[simp] theorem State.withLow_window (v : BitVec 64) : (s.withLow v).window = s.window := rfl
@[simp] theorem State.withLow_inCount (v : BitVec 64) : (s.withLow v).inCount = s.inCount := rfl
@[simp] theorem State.withLow_outCount (v : BitVec 64) : (s.withLow v).outCount = s.outCount := rfl
@[simp] theorem State.withLow_source (v : BitVec 64) : (s.withLow v).source = s.source := rfl
@[simp] theorem State.withLow_sourceEnd (v : BitVec 64) : (s.withLow v).sourceEnd = s.sourceEnd := rfl
@[simp] theorem State.withLow_sink (v : BitVec 64) : (s.withLow v).sink = s.sink := rfl
@[simp] theorem State.withLow_sinkFailAt (v : BitVec 64) : (s.withLow v).sinkFailAt = s.sinkFailAt := rfl
@[simp] theorem State.withLow_hostQueue (v : BitVec 64) : (s.withLow v).hostQueue = s.hostQueue := rfl
@[simp] theorem State.withLow_hostReads (v : BitVec 64) : (s.withLow v).hostReads = s.hostReads := rfl
@[simp] theorem State.withLow_config (v : BitVec 64) : (s.withLow v).config = s.config := rfl

/-! ### withCode -/
@[simp] theorem State.withCode_props (v : Word) : (s.withCode v).props = s.props := rfl
@[simp] theorem State.withCode_dictSize (v : Word) : (s.withCode v).dictSize = s.dictSize := rfl
@[simp] theorem State.withCode_usize (v : Word) : (s.withCode v).usize = s.usize := rfl
@[simp] theorem State.withCode_policy (v : Word) : (s.withCode v).policy = s.policy := rfl
@[simp] theorem State.withCode_arg0 (v : Word) : (s.withCode v).arg0 = s.arg0 := rfl
@[simp] theorem State.withCode_arg1 (v : Word) : (s.withCode v).arg1 = s.arg1 := rfl
@[simp] theorem State.withCode_res (v : Word) : (s.withCode v).res = s.res := rfl
@[simp] theorem State.withCode_mode (v : Word) : (s.withCode v).mode = s.mode := rfl
@[simp] theorem State.withCode_faulted (v : Word) : (s.withCode v).faulted = s.faulted := rfl
@[simp] theorem State.withCode_eosSeen (v : Word) : (s.withCode v).eosSeen = s.eosSeen := rfl
@[simp] theorem State.withCode_faultCode (v : Word) : (s.withCode v).faultCode = s.faultCode := rfl
@[simp] theorem State.withCode_faultSub (v : Word) : (s.withCode v).faultSub = s.faultSub := rfl
@[simp] theorem State.withCode_low (v : Word) : (s.withCode v).low = s.low := rfl
@[simp] theorem State.withCode_range (v : Word) : (s.withCode v).range = s.range := rfl
@[simp] theorem State.withCode_cache (v : Word) : (s.withCode v).cache = s.cache := rfl
@[simp] theorem State.withCode_cacheSize (v : Word) : (s.withCode v).cacheSize = s.cacheSize := rfl
@[simp] theorem State.withCode_code (v : Word) : (s.withCode v).code = v := rfl
@[simp] theorem State.withCode_pram (v : Word) : (s.withCode v).pram = s.pram := rfl
@[simp] theorem State.withCode_fsm (v : Word) : (s.withCode v).fsm = s.fsm := rfl
@[simp] theorem State.withCode_rep0 (v : Word) : (s.withCode v).rep0 = s.rep0 := rfl
@[simp] theorem State.withCode_rep1 (v : Word) : (s.withCode v).rep1 = s.rep1 := rfl
@[simp] theorem State.withCode_rep2 (v : Word) : (s.withCode v).rep2 = s.rep2 := rfl
@[simp] theorem State.withCode_rep3 (v : Word) : (s.withCode v).rep3 = s.rep3 := rfl
@[simp] theorem State.withCode_window (v : Word) : (s.withCode v).window = s.window := rfl
@[simp] theorem State.withCode_inCount (v : Word) : (s.withCode v).inCount = s.inCount := rfl
@[simp] theorem State.withCode_outCount (v : Word) : (s.withCode v).outCount = s.outCount := rfl
@[simp] theorem State.withCode_source (v : Word) : (s.withCode v).source = s.source := rfl
@[simp] theorem State.withCode_sourceEnd (v : Word) : (s.withCode v).sourceEnd = s.sourceEnd := rfl
@[simp] theorem State.withCode_sink (v : Word) : (s.withCode v).sink = s.sink := rfl
@[simp] theorem State.withCode_sinkFailAt (v : Word) : (s.withCode v).sinkFailAt = s.sinkFailAt := rfl
@[simp] theorem State.withCode_hostQueue (v : Word) : (s.withCode v).hostQueue = s.hostQueue := rfl
@[simp] theorem State.withCode_hostReads (v : Word) : (s.withCode v).hostReads = s.hostReads := rfl
@[simp] theorem State.withCode_config (v : Word) : (s.withCode v).config = s.config := rfl

/-! ### withCache -/
@[simp] theorem State.withCache_props (c : Byte) (n : Nat) : (s.withCache c n).props = s.props := rfl
@[simp] theorem State.withCache_dictSize (c : Byte) (n : Nat) : (s.withCache c n).dictSize = s.dictSize := rfl
@[simp] theorem State.withCache_usize (c : Byte) (n : Nat) : (s.withCache c n).usize = s.usize := rfl
@[simp] theorem State.withCache_policy (c : Byte) (n : Nat) : (s.withCache c n).policy = s.policy := rfl
@[simp] theorem State.withCache_arg0 (c : Byte) (n : Nat) : (s.withCache c n).arg0 = s.arg0 := rfl
@[simp] theorem State.withCache_arg1 (c : Byte) (n : Nat) : (s.withCache c n).arg1 = s.arg1 := rfl
@[simp] theorem State.withCache_res (c : Byte) (n : Nat) : (s.withCache c n).res = s.res := rfl
@[simp] theorem State.withCache_mode (c : Byte) (n : Nat) : (s.withCache c n).mode = s.mode := rfl
@[simp] theorem State.withCache_faulted (c : Byte) (n : Nat) : (s.withCache c n).faulted = s.faulted := rfl
@[simp] theorem State.withCache_eosSeen (c : Byte) (n : Nat) : (s.withCache c n).eosSeen = s.eosSeen := rfl
@[simp] theorem State.withCache_faultCode (c : Byte) (n : Nat) : (s.withCache c n).faultCode = s.faultCode := rfl
@[simp] theorem State.withCache_faultSub (c : Byte) (n : Nat) : (s.withCache c n).faultSub = s.faultSub := rfl
@[simp] theorem State.withCache_low (c : Byte) (n : Nat) : (s.withCache c n).low = s.low := rfl
@[simp] theorem State.withCache_range (c : Byte) (n : Nat) : (s.withCache c n).range = s.range := rfl
@[simp] theorem State.withCache_cache (c : Byte) (n : Nat) : (s.withCache c n).cache = c := rfl
@[simp] theorem State.withCache_cacheSize (c : Byte) (n : Nat) : (s.withCache c n).cacheSize = n := rfl
@[simp] theorem State.withCache_code (c : Byte) (n : Nat) : (s.withCache c n).code = s.code := rfl
@[simp] theorem State.withCache_pram (c : Byte) (n : Nat) : (s.withCache c n).pram = s.pram := rfl
@[simp] theorem State.withCache_fsm (c : Byte) (n : Nat) : (s.withCache c n).fsm = s.fsm := rfl
@[simp] theorem State.withCache_rep0 (c : Byte) (n : Nat) : (s.withCache c n).rep0 = s.rep0 := rfl
@[simp] theorem State.withCache_rep1 (c : Byte) (n : Nat) : (s.withCache c n).rep1 = s.rep1 := rfl
@[simp] theorem State.withCache_rep2 (c : Byte) (n : Nat) : (s.withCache c n).rep2 = s.rep2 := rfl
@[simp] theorem State.withCache_rep3 (c : Byte) (n : Nat) : (s.withCache c n).rep3 = s.rep3 := rfl
@[simp] theorem State.withCache_window (c : Byte) (n : Nat) : (s.withCache c n).window = s.window := rfl
@[simp] theorem State.withCache_inCount (c : Byte) (n : Nat) : (s.withCache c n).inCount = s.inCount := rfl
@[simp] theorem State.withCache_outCount (c : Byte) (n : Nat) : (s.withCache c n).outCount = s.outCount := rfl
@[simp] theorem State.withCache_source (c : Byte) (n : Nat) : (s.withCache c n).source = s.source := rfl
@[simp] theorem State.withCache_sourceEnd (c : Byte) (n : Nat) : (s.withCache c n).sourceEnd = s.sourceEnd := rfl
@[simp] theorem State.withCache_sink (c : Byte) (n : Nat) : (s.withCache c n).sink = s.sink := rfl
@[simp] theorem State.withCache_sinkFailAt (c : Byte) (n : Nat) : (s.withCache c n).sinkFailAt = s.sinkFailAt := rfl
@[simp] theorem State.withCache_hostQueue (c : Byte) (n : Nat) : (s.withCache c n).hostQueue = s.hostQueue := rfl
@[simp] theorem State.withCache_hostReads (c : Byte) (n : Nat) : (s.withCache c n).hostReads = s.hostReads := rfl
@[simp] theorem State.withCache_config (c : Byte) (n : Nat) : (s.withCache c n).config = s.config := rfl

/-! ### withPram -/
@[simp] theorem State.withPram_props (m : Memory) : (s.withPram m).props = s.props := rfl
@[simp] theorem State.withPram_dictSize (m : Memory) : (s.withPram m).dictSize = s.dictSize := rfl
@[simp] theorem State.withPram_usize (m : Memory) : (s.withPram m).usize = s.usize := rfl
@[simp] theorem State.withPram_policy (m : Memory) : (s.withPram m).policy = s.policy := rfl
@[simp] theorem State.withPram_arg0 (m : Memory) : (s.withPram m).arg0 = s.arg0 := rfl
@[simp] theorem State.withPram_arg1 (m : Memory) : (s.withPram m).arg1 = s.arg1 := rfl
@[simp] theorem State.withPram_res (m : Memory) : (s.withPram m).res = s.res := rfl
@[simp] theorem State.withPram_mode (m : Memory) : (s.withPram m).mode = s.mode := rfl
@[simp] theorem State.withPram_faulted (m : Memory) : (s.withPram m).faulted = s.faulted := rfl
@[simp] theorem State.withPram_eosSeen (m : Memory) : (s.withPram m).eosSeen = s.eosSeen := rfl
@[simp] theorem State.withPram_faultCode (m : Memory) : (s.withPram m).faultCode = s.faultCode := rfl
@[simp] theorem State.withPram_faultSub (m : Memory) : (s.withPram m).faultSub = s.faultSub := rfl
@[simp] theorem State.withPram_low (m : Memory) : (s.withPram m).low = s.low := rfl
@[simp] theorem State.withPram_range (m : Memory) : (s.withPram m).range = s.range := rfl
@[simp] theorem State.withPram_cache (m : Memory) : (s.withPram m).cache = s.cache := rfl
@[simp] theorem State.withPram_cacheSize (m : Memory) : (s.withPram m).cacheSize = s.cacheSize := rfl
@[simp] theorem State.withPram_code (m : Memory) : (s.withPram m).code = s.code := rfl
@[simp] theorem State.withPram_pram (m : Memory) : (s.withPram m).pram = m := rfl
@[simp] theorem State.withPram_fsm (m : Memory) : (s.withPram m).fsm = s.fsm := rfl
@[simp] theorem State.withPram_rep0 (m : Memory) : (s.withPram m).rep0 = s.rep0 := rfl
@[simp] theorem State.withPram_rep1 (m : Memory) : (s.withPram m).rep1 = s.rep1 := rfl
@[simp] theorem State.withPram_rep2 (m : Memory) : (s.withPram m).rep2 = s.rep2 := rfl
@[simp] theorem State.withPram_rep3 (m : Memory) : (s.withPram m).rep3 = s.rep3 := rfl
@[simp] theorem State.withPram_window (m : Memory) : (s.withPram m).window = s.window := rfl
@[simp] theorem State.withPram_inCount (m : Memory) : (s.withPram m).inCount = s.inCount := rfl
@[simp] theorem State.withPram_outCount (m : Memory) : (s.withPram m).outCount = s.outCount := rfl
@[simp] theorem State.withPram_source (m : Memory) : (s.withPram m).source = s.source := rfl
@[simp] theorem State.withPram_sourceEnd (m : Memory) : (s.withPram m).sourceEnd = s.sourceEnd := rfl
@[simp] theorem State.withPram_sink (m : Memory) : (s.withPram m).sink = s.sink := rfl
@[simp] theorem State.withPram_sinkFailAt (m : Memory) : (s.withPram m).sinkFailAt = s.sinkFailAt := rfl
@[simp] theorem State.withPram_hostQueue (m : Memory) : (s.withPram m).hostQueue = s.hostQueue := rfl
@[simp] theorem State.withPram_hostReads (m : Memory) : (s.withPram m).hostReads = s.hostReads := rfl
@[simp] theorem State.withPram_config (m : Memory) : (s.withPram m).config = s.config := rfl

/-! ### withFsm -/
@[simp] theorem State.withFsm_props (n : Nat) : (s.withFsm n).props = s.props := rfl
@[simp] theorem State.withFsm_dictSize (n : Nat) : (s.withFsm n).dictSize = s.dictSize := rfl
@[simp] theorem State.withFsm_usize (n : Nat) : (s.withFsm n).usize = s.usize := rfl
@[simp] theorem State.withFsm_policy (n : Nat) : (s.withFsm n).policy = s.policy := rfl
@[simp] theorem State.withFsm_arg0 (n : Nat) : (s.withFsm n).arg0 = s.arg0 := rfl
@[simp] theorem State.withFsm_arg1 (n : Nat) : (s.withFsm n).arg1 = s.arg1 := rfl
@[simp] theorem State.withFsm_res (n : Nat) : (s.withFsm n).res = s.res := rfl
@[simp] theorem State.withFsm_mode (n : Nat) : (s.withFsm n).mode = s.mode := rfl
@[simp] theorem State.withFsm_faulted (n : Nat) : (s.withFsm n).faulted = s.faulted := rfl
@[simp] theorem State.withFsm_eosSeen (n : Nat) : (s.withFsm n).eosSeen = s.eosSeen := rfl
@[simp] theorem State.withFsm_faultCode (n : Nat) : (s.withFsm n).faultCode = s.faultCode := rfl
@[simp] theorem State.withFsm_faultSub (n : Nat) : (s.withFsm n).faultSub = s.faultSub := rfl
@[simp] theorem State.withFsm_low (n : Nat) : (s.withFsm n).low = s.low := rfl
@[simp] theorem State.withFsm_range (n : Nat) : (s.withFsm n).range = s.range := rfl
@[simp] theorem State.withFsm_cache (n : Nat) : (s.withFsm n).cache = s.cache := rfl
@[simp] theorem State.withFsm_cacheSize (n : Nat) : (s.withFsm n).cacheSize = s.cacheSize := rfl
@[simp] theorem State.withFsm_code (n : Nat) : (s.withFsm n).code = s.code := rfl
@[simp] theorem State.withFsm_pram (n : Nat) : (s.withFsm n).pram = s.pram := rfl
@[simp] theorem State.withFsm_fsm (n : Nat) : (s.withFsm n).fsm = BitVec.ofNat 4 n := rfl
@[simp] theorem State.withFsm_rep0 (n : Nat) : (s.withFsm n).rep0 = s.rep0 := rfl
@[simp] theorem State.withFsm_rep1 (n : Nat) : (s.withFsm n).rep1 = s.rep1 := rfl
@[simp] theorem State.withFsm_rep2 (n : Nat) : (s.withFsm n).rep2 = s.rep2 := rfl
@[simp] theorem State.withFsm_rep3 (n : Nat) : (s.withFsm n).rep3 = s.rep3 := rfl
@[simp] theorem State.withFsm_window (n : Nat) : (s.withFsm n).window = s.window := rfl
@[simp] theorem State.withFsm_inCount (n : Nat) : (s.withFsm n).inCount = s.inCount := rfl
@[simp] theorem State.withFsm_outCount (n : Nat) : (s.withFsm n).outCount = s.outCount := rfl
@[simp] theorem State.withFsm_source (n : Nat) : (s.withFsm n).source = s.source := rfl
@[simp] theorem State.withFsm_sourceEnd (n : Nat) : (s.withFsm n).sourceEnd = s.sourceEnd := rfl
@[simp] theorem State.withFsm_sink (n : Nat) : (s.withFsm n).sink = s.sink := rfl
@[simp] theorem State.withFsm_sinkFailAt (n : Nat) : (s.withFsm n).sinkFailAt = s.sinkFailAt := rfl
@[simp] theorem State.withFsm_hostQueue (n : Nat) : (s.withFsm n).hostQueue = s.hostQueue := rfl
@[simp] theorem State.withFsm_hostReads (n : Nat) : (s.withFsm n).hostReads = s.hostReads := rfl
@[simp] theorem State.withFsm_config (n : Nat) : (s.withFsm n).config = s.config := rfl

/-! ### withReps -/
@[simp] theorem State.withReps_props (r0 r1 r2 r3 : Word) : (s.withReps r0 r1 r2 r3).props = s.props := rfl
@[simp] theorem State.withReps_dictSize (r0 r1 r2 r3 : Word) : (s.withReps r0 r1 r2 r3).dictSize = s.dictSize := rfl
@[simp] theorem State.withReps_usize (r0 r1 r2 r3 : Word) : (s.withReps r0 r1 r2 r3).usize = s.usize := rfl
@[simp] theorem State.withReps_policy (r0 r1 r2 r3 : Word) : (s.withReps r0 r1 r2 r3).policy = s.policy := rfl
@[simp] theorem State.withReps_arg0 (r0 r1 r2 r3 : Word) : (s.withReps r0 r1 r2 r3).arg0 = s.arg0 := rfl
@[simp] theorem State.withReps_arg1 (r0 r1 r2 r3 : Word) : (s.withReps r0 r1 r2 r3).arg1 = s.arg1 := rfl
@[simp] theorem State.withReps_res (r0 r1 r2 r3 : Word) : (s.withReps r0 r1 r2 r3).res = s.res := rfl
@[simp] theorem State.withReps_mode (r0 r1 r2 r3 : Word) : (s.withReps r0 r1 r2 r3).mode = s.mode := rfl
@[simp] theorem State.withReps_faulted (r0 r1 r2 r3 : Word) : (s.withReps r0 r1 r2 r3).faulted = s.faulted := rfl
@[simp] theorem State.withReps_eosSeen (r0 r1 r2 r3 : Word) : (s.withReps r0 r1 r2 r3).eosSeen = s.eosSeen := rfl
@[simp] theorem State.withReps_faultCode (r0 r1 r2 r3 : Word) : (s.withReps r0 r1 r2 r3).faultCode = s.faultCode := rfl
@[simp] theorem State.withReps_faultSub (r0 r1 r2 r3 : Word) : (s.withReps r0 r1 r2 r3).faultSub = s.faultSub := rfl
@[simp] theorem State.withReps_low (r0 r1 r2 r3 : Word) : (s.withReps r0 r1 r2 r3).low = s.low := rfl
@[simp] theorem State.withReps_range (r0 r1 r2 r3 : Word) : (s.withReps r0 r1 r2 r3).range = s.range := rfl
@[simp] theorem State.withReps_cache (r0 r1 r2 r3 : Word) : (s.withReps r0 r1 r2 r3).cache = s.cache := rfl
@[simp] theorem State.withReps_cacheSize (r0 r1 r2 r3 : Word) : (s.withReps r0 r1 r2 r3).cacheSize = s.cacheSize := rfl
@[simp] theorem State.withReps_code (r0 r1 r2 r3 : Word) : (s.withReps r0 r1 r2 r3).code = s.code := rfl
@[simp] theorem State.withReps_pram (r0 r1 r2 r3 : Word) : (s.withReps r0 r1 r2 r3).pram = s.pram := rfl
@[simp] theorem State.withReps_fsm (r0 r1 r2 r3 : Word) : (s.withReps r0 r1 r2 r3).fsm = s.fsm := rfl
@[simp] theorem State.withReps_rep0 (r0 r1 r2 r3 : Word) : (s.withReps r0 r1 r2 r3).rep0 = r0 := rfl
@[simp] theorem State.withReps_rep1 (r0 r1 r2 r3 : Word) : (s.withReps r0 r1 r2 r3).rep1 = r1 := rfl
@[simp] theorem State.withReps_rep2 (r0 r1 r2 r3 : Word) : (s.withReps r0 r1 r2 r3).rep2 = r2 := rfl
@[simp] theorem State.withReps_rep3 (r0 r1 r2 r3 : Word) : (s.withReps r0 r1 r2 r3).rep3 = r3 := rfl
@[simp] theorem State.withReps_window (r0 r1 r2 r3 : Word) : (s.withReps r0 r1 r2 r3).window = s.window := rfl
@[simp] theorem State.withReps_inCount (r0 r1 r2 r3 : Word) : (s.withReps r0 r1 r2 r3).inCount = s.inCount := rfl
@[simp] theorem State.withReps_outCount (r0 r1 r2 r3 : Word) : (s.withReps r0 r1 r2 r3).outCount = s.outCount := rfl
@[simp] theorem State.withReps_source (r0 r1 r2 r3 : Word) : (s.withReps r0 r1 r2 r3).source = s.source := rfl
@[simp] theorem State.withReps_sourceEnd (r0 r1 r2 r3 : Word) : (s.withReps r0 r1 r2 r3).sourceEnd = s.sourceEnd := rfl
@[simp] theorem State.withReps_sink (r0 r1 r2 r3 : Word) : (s.withReps r0 r1 r2 r3).sink = s.sink := rfl
@[simp] theorem State.withReps_sinkFailAt (r0 r1 r2 r3 : Word) : (s.withReps r0 r1 r2 r3).sinkFailAt = s.sinkFailAt := rfl
@[simp] theorem State.withReps_hostQueue (r0 r1 r2 r3 : Word) : (s.withReps r0 r1 r2 r3).hostQueue = s.hostQueue := rfl
@[simp] theorem State.withReps_hostReads (r0 r1 r2 r3 : Word) : (s.withReps r0 r1 r2 r3).hostReads = s.hostReads := rfl
@[simp] theorem State.withReps_config (r0 r1 r2 r3 : Word) : (s.withReps r0 r1 r2 r3).config = s.config := rfl

/-! ### withWindow -/
@[simp] theorem State.withWindow_props (w : List Byte) : (s.withWindow w).props = s.props := rfl
@[simp] theorem State.withWindow_dictSize (w : List Byte) : (s.withWindow w).dictSize = s.dictSize := rfl
@[simp] theorem State.withWindow_usize (w : List Byte) : (s.withWindow w).usize = s.usize := rfl
@[simp] theorem State.withWindow_policy (w : List Byte) : (s.withWindow w).policy = s.policy := rfl
@[simp] theorem State.withWindow_arg0 (w : List Byte) : (s.withWindow w).arg0 = s.arg0 := rfl
@[simp] theorem State.withWindow_arg1 (w : List Byte) : (s.withWindow w).arg1 = s.arg1 := rfl
@[simp] theorem State.withWindow_res (w : List Byte) : (s.withWindow w).res = s.res := rfl
@[simp] theorem State.withWindow_mode (w : List Byte) : (s.withWindow w).mode = s.mode := rfl
@[simp] theorem State.withWindow_faulted (w : List Byte) : (s.withWindow w).faulted = s.faulted := rfl
@[simp] theorem State.withWindow_eosSeen (w : List Byte) : (s.withWindow w).eosSeen = s.eosSeen := rfl
@[simp] theorem State.withWindow_faultCode (w : List Byte) : (s.withWindow w).faultCode = s.faultCode := rfl
@[simp] theorem State.withWindow_faultSub (w : List Byte) : (s.withWindow w).faultSub = s.faultSub := rfl
@[simp] theorem State.withWindow_low (w : List Byte) : (s.withWindow w).low = s.low := rfl
@[simp] theorem State.withWindow_range (w : List Byte) : (s.withWindow w).range = s.range := rfl
@[simp] theorem State.withWindow_cache (w : List Byte) : (s.withWindow w).cache = s.cache := rfl
@[simp] theorem State.withWindow_cacheSize (w : List Byte) : (s.withWindow w).cacheSize = s.cacheSize := rfl
@[simp] theorem State.withWindow_code (w : List Byte) : (s.withWindow w).code = s.code := rfl
@[simp] theorem State.withWindow_pram (w : List Byte) : (s.withWindow w).pram = s.pram := rfl
@[simp] theorem State.withWindow_fsm (w : List Byte) : (s.withWindow w).fsm = s.fsm := rfl
@[simp] theorem State.withWindow_rep0 (w : List Byte) : (s.withWindow w).rep0 = s.rep0 := rfl
@[simp] theorem State.withWindow_rep1 (w : List Byte) : (s.withWindow w).rep1 = s.rep1 := rfl
@[simp] theorem State.withWindow_rep2 (w : List Byte) : (s.withWindow w).rep2 = s.rep2 := rfl
@[simp] theorem State.withWindow_rep3 (w : List Byte) : (s.withWindow w).rep3 = s.rep3 := rfl
@[simp] theorem State.withWindow_window (w : List Byte) : (s.withWindow w).window = w := rfl
@[simp] theorem State.withWindow_inCount (w : List Byte) : (s.withWindow w).inCount = s.inCount := rfl
@[simp] theorem State.withWindow_outCount (w : List Byte) : (s.withWindow w).outCount = s.outCount := rfl
@[simp] theorem State.withWindow_source (w : List Byte) : (s.withWindow w).source = s.source := rfl
@[simp] theorem State.withWindow_sourceEnd (w : List Byte) : (s.withWindow w).sourceEnd = s.sourceEnd := rfl
@[simp] theorem State.withWindow_sink (w : List Byte) : (s.withWindow w).sink = s.sink := rfl
@[simp] theorem State.withWindow_sinkFailAt (w : List Byte) : (s.withWindow w).sinkFailAt = s.sinkFailAt := rfl
@[simp] theorem State.withWindow_hostQueue (w : List Byte) : (s.withWindow w).hostQueue = s.hostQueue := rfl
@[simp] theorem State.withWindow_hostReads (w : List Byte) : (s.withWindow w).hostReads = s.hostReads := rfl
@[simp] theorem State.withWindow_config (w : List Byte) : (s.withWindow w).config = s.config := rfl

/-! ### consumed -/
@[simp] theorem State.consumed_props (l : List Byte) : (s.consumed l).props = s.props := rfl
@[simp] theorem State.consumed_dictSize (l : List Byte) : (s.consumed l).dictSize = s.dictSize := rfl
@[simp] theorem State.consumed_usize (l : List Byte) : (s.consumed l).usize = s.usize := rfl
@[simp] theorem State.consumed_policy (l : List Byte) : (s.consumed l).policy = s.policy := rfl
@[simp] theorem State.consumed_arg0 (l : List Byte) : (s.consumed l).arg0 = s.arg0 := rfl
@[simp] theorem State.consumed_arg1 (l : List Byte) : (s.consumed l).arg1 = s.arg1 := rfl
@[simp] theorem State.consumed_res (l : List Byte) : (s.consumed l).res = s.res := rfl
@[simp] theorem State.consumed_mode (l : List Byte) : (s.consumed l).mode = s.mode := rfl
@[simp] theorem State.consumed_faulted (l : List Byte) : (s.consumed l).faulted = s.faulted := rfl
@[simp] theorem State.consumed_eosSeen (l : List Byte) : (s.consumed l).eosSeen = s.eosSeen := rfl
@[simp] theorem State.consumed_faultCode (l : List Byte) : (s.consumed l).faultCode = s.faultCode := rfl
@[simp] theorem State.consumed_faultSub (l : List Byte) : (s.consumed l).faultSub = s.faultSub := rfl
@[simp] theorem State.consumed_low (l : List Byte) : (s.consumed l).low = s.low := rfl
@[simp] theorem State.consumed_range (l : List Byte) : (s.consumed l).range = s.range := rfl
@[simp] theorem State.consumed_cache (l : List Byte) : (s.consumed l).cache = s.cache := rfl
@[simp] theorem State.consumed_cacheSize (l : List Byte) : (s.consumed l).cacheSize = s.cacheSize := rfl
@[simp] theorem State.consumed_code (l : List Byte) : (s.consumed l).code = s.code := rfl
@[simp] theorem State.consumed_pram (l : List Byte) : (s.consumed l).pram = s.pram := rfl
@[simp] theorem State.consumed_fsm (l : List Byte) : (s.consumed l).fsm = s.fsm := rfl
@[simp] theorem State.consumed_rep0 (l : List Byte) : (s.consumed l).rep0 = s.rep0 := rfl
@[simp] theorem State.consumed_rep1 (l : List Byte) : (s.consumed l).rep1 = s.rep1 := rfl
@[simp] theorem State.consumed_rep2 (l : List Byte) : (s.consumed l).rep2 = s.rep2 := rfl
@[simp] theorem State.consumed_rep3 (l : List Byte) : (s.consumed l).rep3 = s.rep3 := rfl
@[simp] theorem State.consumed_window (l : List Byte) : (s.consumed l).window = s.window := rfl
@[simp] theorem State.consumed_inCount (l : List Byte) : (s.consumed l).inCount = s.inCount + 1 := rfl
@[simp] theorem State.consumed_outCount (l : List Byte) : (s.consumed l).outCount = s.outCount := rfl
@[simp] theorem State.consumed_source (l : List Byte) : (s.consumed l).source = l := rfl
@[simp] theorem State.consumed_sourceEnd (l : List Byte) : (s.consumed l).sourceEnd = s.sourceEnd := rfl
@[simp] theorem State.consumed_sink (l : List Byte) : (s.consumed l).sink = s.sink := rfl
@[simp] theorem State.consumed_sinkFailAt (l : List Byte) : (s.consumed l).sinkFailAt = s.sinkFailAt := rfl
@[simp] theorem State.consumed_hostQueue (l : List Byte) : (s.consumed l).hostQueue = s.hostQueue := rfl
@[simp] theorem State.consumed_hostReads (l : List Byte) : (s.consumed l).hostReads = s.hostReads := rfl
@[simp] theorem State.consumed_config (l : List Byte) : (s.consumed l).config = s.config := rfl

/-! ### delivered -/
@[simp] theorem State.delivered_props (b : Byte) : (s.delivered b).props = s.props := rfl
@[simp] theorem State.delivered_dictSize (b : Byte) : (s.delivered b).dictSize = s.dictSize := rfl
@[simp] theorem State.delivered_usize (b : Byte) : (s.delivered b).usize = s.usize := rfl
@[simp] theorem State.delivered_policy (b : Byte) : (s.delivered b).policy = s.policy := rfl
@[simp] theorem State.delivered_arg0 (b : Byte) : (s.delivered b).arg0 = s.arg0 := rfl
@[simp] theorem State.delivered_arg1 (b : Byte) : (s.delivered b).arg1 = s.arg1 := rfl
@[simp] theorem State.delivered_res (b : Byte) : (s.delivered b).res = s.res := rfl
@[simp] theorem State.delivered_mode (b : Byte) : (s.delivered b).mode = s.mode := rfl
@[simp] theorem State.delivered_faulted (b : Byte) : (s.delivered b).faulted = s.faulted := rfl
@[simp] theorem State.delivered_eosSeen (b : Byte) : (s.delivered b).eosSeen = s.eosSeen := rfl
@[simp] theorem State.delivered_faultCode (b : Byte) : (s.delivered b).faultCode = s.faultCode := rfl
@[simp] theorem State.delivered_faultSub (b : Byte) : (s.delivered b).faultSub = s.faultSub := rfl
@[simp] theorem State.delivered_low (b : Byte) : (s.delivered b).low = s.low := rfl
@[simp] theorem State.delivered_range (b : Byte) : (s.delivered b).range = s.range := rfl
@[simp] theorem State.delivered_cache (b : Byte) : (s.delivered b).cache = s.cache := rfl
@[simp] theorem State.delivered_cacheSize (b : Byte) : (s.delivered b).cacheSize = s.cacheSize := rfl
@[simp] theorem State.delivered_code (b : Byte) : (s.delivered b).code = s.code := rfl
@[simp] theorem State.delivered_pram (b : Byte) : (s.delivered b).pram = s.pram := rfl
@[simp] theorem State.delivered_fsm (b : Byte) : (s.delivered b).fsm = s.fsm := rfl
@[simp] theorem State.delivered_rep0 (b : Byte) : (s.delivered b).rep0 = s.rep0 := rfl
@[simp] theorem State.delivered_rep1 (b : Byte) : (s.delivered b).rep1 = s.rep1 := rfl
@[simp] theorem State.delivered_rep2 (b : Byte) : (s.delivered b).rep2 = s.rep2 := rfl
@[simp] theorem State.delivered_rep3 (b : Byte) : (s.delivered b).rep3 = s.rep3 := rfl
@[simp] theorem State.delivered_window (b : Byte) : (s.delivered b).window = s.window := rfl
@[simp] theorem State.delivered_inCount (b : Byte) : (s.delivered b).inCount = s.inCount := rfl
@[simp] theorem State.delivered_outCount (b : Byte) : (s.delivered b).outCount = s.outCount + 1 := rfl
@[simp] theorem State.delivered_source (b : Byte) : (s.delivered b).source = s.source := rfl
@[simp] theorem State.delivered_sourceEnd (b : Byte) : (s.delivered b).sourceEnd = s.sourceEnd := rfl
@[simp] theorem State.delivered_sink (b : Byte) : (s.delivered b).sink = s.sink ++ [b] := rfl
@[simp] theorem State.delivered_sinkFailAt (b : Byte) : (s.delivered b).sinkFailAt = s.sinkFailAt := rfl
@[simp] theorem State.delivered_hostQueue (b : Byte) : (s.delivered b).hostQueue = s.hostQueue := rfl
@[simp] theorem State.delivered_hostReads (b : Byte) : (s.delivered b).hostReads = s.hostReads := rfl
@[simp] theorem State.delivered_config (b : Byte) : (s.delivered b).config = s.config := rfl

/-! ### withProps -/
@[simp] theorem State.withProps_props (v : Word) : (s.withProps v).props = v := rfl
@[simp] theorem State.withProps_dictSize (v : Word) : (s.withProps v).dictSize = s.dictSize := rfl
@[simp] theorem State.withProps_usize (v : Word) : (s.withProps v).usize = s.usize := rfl
@[simp] theorem State.withProps_policy (v : Word) : (s.withProps v).policy = s.policy := rfl
@[simp] theorem State.withProps_arg0 (v : Word) : (s.withProps v).arg0 = s.arg0 := rfl
@[simp] theorem State.withProps_arg1 (v : Word) : (s.withProps v).arg1 = s.arg1 := rfl
@[simp] theorem State.withProps_res (v : Word) : (s.withProps v).res = s.res := rfl
@[simp] theorem State.withProps_mode (v : Word) : (s.withProps v).mode = s.mode := rfl
@[simp] theorem State.withProps_faulted (v : Word) : (s.withProps v).faulted = s.faulted := rfl
@[simp] theorem State.withProps_eosSeen (v : Word) : (s.withProps v).eosSeen = s.eosSeen := rfl
@[simp] theorem State.withProps_faultCode (v : Word) : (s.withProps v).faultCode = s.faultCode := rfl
@[simp] theorem State.withProps_faultSub (v : Word) : (s.withProps v).faultSub = s.faultSub := rfl
@[simp] theorem State.withProps_low (v : Word) : (s.withProps v).low = s.low := rfl
@[simp] theorem State.withProps_range (v : Word) : (s.withProps v).range = s.range := rfl
@[simp] theorem State.withProps_cache (v : Word) : (s.withProps v).cache = s.cache := rfl
@[simp] theorem State.withProps_cacheSize (v : Word) : (s.withProps v).cacheSize = s.cacheSize := rfl
@[simp] theorem State.withProps_code (v : Word) : (s.withProps v).code = s.code := rfl
@[simp] theorem State.withProps_pram (v : Word) : (s.withProps v).pram = s.pram := rfl
@[simp] theorem State.withProps_fsm (v : Word) : (s.withProps v).fsm = s.fsm := rfl
@[simp] theorem State.withProps_rep0 (v : Word) : (s.withProps v).rep0 = s.rep0 := rfl
@[simp] theorem State.withProps_rep1 (v : Word) : (s.withProps v).rep1 = s.rep1 := rfl
@[simp] theorem State.withProps_rep2 (v : Word) : (s.withProps v).rep2 = s.rep2 := rfl
@[simp] theorem State.withProps_rep3 (v : Word) : (s.withProps v).rep3 = s.rep3 := rfl
@[simp] theorem State.withProps_window (v : Word) : (s.withProps v).window = s.window := rfl
@[simp] theorem State.withProps_inCount (v : Word) : (s.withProps v).inCount = s.inCount := rfl
@[simp] theorem State.withProps_outCount (v : Word) : (s.withProps v).outCount = s.outCount := rfl
@[simp] theorem State.withProps_source (v : Word) : (s.withProps v).source = s.source := rfl
@[simp] theorem State.withProps_sourceEnd (v : Word) : (s.withProps v).sourceEnd = s.sourceEnd := rfl
@[simp] theorem State.withProps_sink (v : Word) : (s.withProps v).sink = s.sink := rfl
@[simp] theorem State.withProps_sinkFailAt (v : Word) : (s.withProps v).sinkFailAt = s.sinkFailAt := rfl
@[simp] theorem State.withProps_hostQueue (v : Word) : (s.withProps v).hostQueue = s.hostQueue := rfl
@[simp] theorem State.withProps_hostReads (v : Word) : (s.withProps v).hostReads = s.hostReads := rfl
@[simp] theorem State.withProps_config (v : Word) : (s.withProps v).config = s.config := rfl

/-! ### withDictSize -/
@[simp] theorem State.withDictSize_props (v : Word) : (s.withDictSize v).props = s.props := rfl
@[simp] theorem State.withDictSize_dictSize (v : Word) : (s.withDictSize v).dictSize = v := rfl
@[simp] theorem State.withDictSize_usize (v : Word) : (s.withDictSize v).usize = s.usize := rfl
@[simp] theorem State.withDictSize_policy (v : Word) : (s.withDictSize v).policy = s.policy := rfl
@[simp] theorem State.withDictSize_arg0 (v : Word) : (s.withDictSize v).arg0 = s.arg0 := rfl
@[simp] theorem State.withDictSize_arg1 (v : Word) : (s.withDictSize v).arg1 = s.arg1 := rfl
@[simp] theorem State.withDictSize_res (v : Word) : (s.withDictSize v).res = s.res := rfl
@[simp] theorem State.withDictSize_mode (v : Word) : (s.withDictSize v).mode = s.mode := rfl
@[simp] theorem State.withDictSize_faulted (v : Word) : (s.withDictSize v).faulted = s.faulted := rfl
@[simp] theorem State.withDictSize_eosSeen (v : Word) : (s.withDictSize v).eosSeen = s.eosSeen := rfl
@[simp] theorem State.withDictSize_faultCode (v : Word) : (s.withDictSize v).faultCode = s.faultCode := rfl
@[simp] theorem State.withDictSize_faultSub (v : Word) : (s.withDictSize v).faultSub = s.faultSub := rfl
@[simp] theorem State.withDictSize_low (v : Word) : (s.withDictSize v).low = s.low := rfl
@[simp] theorem State.withDictSize_range (v : Word) : (s.withDictSize v).range = s.range := rfl
@[simp] theorem State.withDictSize_cache (v : Word) : (s.withDictSize v).cache = s.cache := rfl
@[simp] theorem State.withDictSize_cacheSize (v : Word) : (s.withDictSize v).cacheSize = s.cacheSize := rfl
@[simp] theorem State.withDictSize_code (v : Word) : (s.withDictSize v).code = s.code := rfl
@[simp] theorem State.withDictSize_pram (v : Word) : (s.withDictSize v).pram = s.pram := rfl
@[simp] theorem State.withDictSize_fsm (v : Word) : (s.withDictSize v).fsm = s.fsm := rfl
@[simp] theorem State.withDictSize_rep0 (v : Word) : (s.withDictSize v).rep0 = s.rep0 := rfl
@[simp] theorem State.withDictSize_rep1 (v : Word) : (s.withDictSize v).rep1 = s.rep1 := rfl
@[simp] theorem State.withDictSize_rep2 (v : Word) : (s.withDictSize v).rep2 = s.rep2 := rfl
@[simp] theorem State.withDictSize_rep3 (v : Word) : (s.withDictSize v).rep3 = s.rep3 := rfl
@[simp] theorem State.withDictSize_window (v : Word) : (s.withDictSize v).window = s.window := rfl
@[simp] theorem State.withDictSize_inCount (v : Word) : (s.withDictSize v).inCount = s.inCount := rfl
@[simp] theorem State.withDictSize_outCount (v : Word) : (s.withDictSize v).outCount = s.outCount := rfl
@[simp] theorem State.withDictSize_source (v : Word) : (s.withDictSize v).source = s.source := rfl
@[simp] theorem State.withDictSize_sourceEnd (v : Word) : (s.withDictSize v).sourceEnd = s.sourceEnd := rfl
@[simp] theorem State.withDictSize_sink (v : Word) : (s.withDictSize v).sink = s.sink := rfl
@[simp] theorem State.withDictSize_sinkFailAt (v : Word) : (s.withDictSize v).sinkFailAt = s.sinkFailAt := rfl
@[simp] theorem State.withDictSize_hostQueue (v : Word) : (s.withDictSize v).hostQueue = s.hostQueue := rfl
@[simp] theorem State.withDictSize_hostReads (v : Word) : (s.withDictSize v).hostReads = s.hostReads := rfl
@[simp] theorem State.withDictSize_config (v : Word) : (s.withDictSize v).config = s.config := rfl

/-! ### withUsize -/
@[simp] theorem State.withUsize_props (v : BitVec 64) : (s.withUsize v).props = s.props := rfl
@[simp] theorem State.withUsize_dictSize (v : BitVec 64) : (s.withUsize v).dictSize = s.dictSize := rfl
@[simp] theorem State.withUsize_usize (v : BitVec 64) : (s.withUsize v).usize = v := rfl
@[simp] theorem State.withUsize_policy (v : BitVec 64) : (s.withUsize v).policy = s.policy := rfl
@[simp] theorem State.withUsize_arg0 (v : BitVec 64) : (s.withUsize v).arg0 = s.arg0 := rfl
@[simp] theorem State.withUsize_arg1 (v : BitVec 64) : (s.withUsize v).arg1 = s.arg1 := rfl
@[simp] theorem State.withUsize_res (v : BitVec 64) : (s.withUsize v).res = s.res := rfl
@[simp] theorem State.withUsize_mode (v : BitVec 64) : (s.withUsize v).mode = s.mode := rfl
@[simp] theorem State.withUsize_faulted (v : BitVec 64) : (s.withUsize v).faulted = s.faulted := rfl
@[simp] theorem State.withUsize_eosSeen (v : BitVec 64) : (s.withUsize v).eosSeen = s.eosSeen := rfl
@[simp] theorem State.withUsize_faultCode (v : BitVec 64) : (s.withUsize v).faultCode = s.faultCode := rfl
@[simp] theorem State.withUsize_faultSub (v : BitVec 64) : (s.withUsize v).faultSub = s.faultSub := rfl
@[simp] theorem State.withUsize_low (v : BitVec 64) : (s.withUsize v).low = s.low := rfl
@[simp] theorem State.withUsize_range (v : BitVec 64) : (s.withUsize v).range = s.range := rfl
@[simp] theorem State.withUsize_cache (v : BitVec 64) : (s.withUsize v).cache = s.cache := rfl
@[simp] theorem State.withUsize_cacheSize (v : BitVec 64) : (s.withUsize v).cacheSize = s.cacheSize := rfl
@[simp] theorem State.withUsize_code (v : BitVec 64) : (s.withUsize v).code = s.code := rfl
@[simp] theorem State.withUsize_pram (v : BitVec 64) : (s.withUsize v).pram = s.pram := rfl
@[simp] theorem State.withUsize_fsm (v : BitVec 64) : (s.withUsize v).fsm = s.fsm := rfl
@[simp] theorem State.withUsize_rep0 (v : BitVec 64) : (s.withUsize v).rep0 = s.rep0 := rfl
@[simp] theorem State.withUsize_rep1 (v : BitVec 64) : (s.withUsize v).rep1 = s.rep1 := rfl
@[simp] theorem State.withUsize_rep2 (v : BitVec 64) : (s.withUsize v).rep2 = s.rep2 := rfl
@[simp] theorem State.withUsize_rep3 (v : BitVec 64) : (s.withUsize v).rep3 = s.rep3 := rfl
@[simp] theorem State.withUsize_window (v : BitVec 64) : (s.withUsize v).window = s.window := rfl
@[simp] theorem State.withUsize_inCount (v : BitVec 64) : (s.withUsize v).inCount = s.inCount := rfl
@[simp] theorem State.withUsize_outCount (v : BitVec 64) : (s.withUsize v).outCount = s.outCount := rfl
@[simp] theorem State.withUsize_source (v : BitVec 64) : (s.withUsize v).source = s.source := rfl
@[simp] theorem State.withUsize_sourceEnd (v : BitVec 64) : (s.withUsize v).sourceEnd = s.sourceEnd := rfl
@[simp] theorem State.withUsize_sink (v : BitVec 64) : (s.withUsize v).sink = s.sink := rfl
@[simp] theorem State.withUsize_sinkFailAt (v : BitVec 64) : (s.withUsize v).sinkFailAt = s.sinkFailAt := rfl
@[simp] theorem State.withUsize_hostQueue (v : BitVec 64) : (s.withUsize v).hostQueue = s.hostQueue := rfl
@[simp] theorem State.withUsize_hostReads (v : BitVec 64) : (s.withUsize v).hostReads = s.hostReads := rfl
@[simp] theorem State.withUsize_config (v : BitVec 64) : (s.withUsize v).config = s.config := rfl

/-! ### withPolicy -/
@[simp] theorem State.withPolicy_props (v : Word) : (s.withPolicy v).props = s.props := rfl
@[simp] theorem State.withPolicy_dictSize (v : Word) : (s.withPolicy v).dictSize = s.dictSize := rfl
@[simp] theorem State.withPolicy_usize (v : Word) : (s.withPolicy v).usize = s.usize := rfl
@[simp] theorem State.withPolicy_policy (v : Word) : (s.withPolicy v).policy = v := rfl
@[simp] theorem State.withPolicy_arg0 (v : Word) : (s.withPolicy v).arg0 = s.arg0 := rfl
@[simp] theorem State.withPolicy_arg1 (v : Word) : (s.withPolicy v).arg1 = s.arg1 := rfl
@[simp] theorem State.withPolicy_res (v : Word) : (s.withPolicy v).res = s.res := rfl
@[simp] theorem State.withPolicy_mode (v : Word) : (s.withPolicy v).mode = s.mode := rfl
@[simp] theorem State.withPolicy_faulted (v : Word) : (s.withPolicy v).faulted = s.faulted := rfl
@[simp] theorem State.withPolicy_eosSeen (v : Word) : (s.withPolicy v).eosSeen = s.eosSeen := rfl
@[simp] theorem State.withPolicy_faultCode (v : Word) : (s.withPolicy v).faultCode = s.faultCode := rfl
@[simp] theorem State.withPolicy_faultSub (v : Word) : (s.withPolicy v).faultSub = s.faultSub := rfl
@[simp] theorem State.withPolicy_low (v : Word) : (s.withPolicy v).low = s.low := rfl
@[simp] theorem State.withPolicy_range (v : Word) : (s.withPolicy v).range = s.range := rfl
@[simp] theorem State.withPolicy_cache (v : Word) : (s.withPolicy v).cache = s.cache := rfl
@[simp] theorem State.withPolicy_cacheSize (v : Word) : (s.withPolicy v).cacheSize = s.cacheSize := rfl
@[simp] theorem State.withPolicy_code (v : Word) : (s.withPolicy v).code = s.code := rfl
@[simp] theorem State.withPolicy_pram (v : Word) : (s.withPolicy v).pram = s.pram := rfl
@[simp] theorem State.withPolicy_fsm (v : Word) : (s.withPolicy v).fsm = s.fsm := rfl
@[simp] theorem State.withPolicy_rep0 (v : Word) : (s.withPolicy v).rep0 = s.rep0 := rfl
@[simp] theorem State.withPolicy_rep1 (v : Word) : (s.withPolicy v).rep1 = s.rep1 := rfl
@[simp] theorem State.withPolicy_rep2 (v : Word) : (s.withPolicy v).rep2 = s.rep2 := rfl
@[simp] theorem State.withPolicy_rep3 (v : Word) : (s.withPolicy v).rep3 = s.rep3 := rfl
@[simp] theorem State.withPolicy_window (v : Word) : (s.withPolicy v).window = s.window := rfl
@[simp] theorem State.withPolicy_inCount (v : Word) : (s.withPolicy v).inCount = s.inCount := rfl
@[simp] theorem State.withPolicy_outCount (v : Word) : (s.withPolicy v).outCount = s.outCount := rfl
@[simp] theorem State.withPolicy_source (v : Word) : (s.withPolicy v).source = s.source := rfl
@[simp] theorem State.withPolicy_sourceEnd (v : Word) : (s.withPolicy v).sourceEnd = s.sourceEnd := rfl
@[simp] theorem State.withPolicy_sink (v : Word) : (s.withPolicy v).sink = s.sink := rfl
@[simp] theorem State.withPolicy_sinkFailAt (v : Word) : (s.withPolicy v).sinkFailAt = s.sinkFailAt := rfl
@[simp] theorem State.withPolicy_hostQueue (v : Word) : (s.withPolicy v).hostQueue = s.hostQueue := rfl
@[simp] theorem State.withPolicy_hostReads (v : Word) : (s.withPolicy v).hostReads = s.hostReads := rfl
@[simp] theorem State.withPolicy_config (v : Word) : (s.withPolicy v).config = s.config := rfl

/-! ### withArg0 -/
@[simp] theorem State.withArg0_props (v : Word) : (s.withArg0 v).props = s.props := rfl
@[simp] theorem State.withArg0_dictSize (v : Word) : (s.withArg0 v).dictSize = s.dictSize := rfl
@[simp] theorem State.withArg0_usize (v : Word) : (s.withArg0 v).usize = s.usize := rfl
@[simp] theorem State.withArg0_policy (v : Word) : (s.withArg0 v).policy = s.policy := rfl
@[simp] theorem State.withArg0_arg0 (v : Word) : (s.withArg0 v).arg0 = v := rfl
@[simp] theorem State.withArg0_arg1 (v : Word) : (s.withArg0 v).arg1 = s.arg1 := rfl
@[simp] theorem State.withArg0_res (v : Word) : (s.withArg0 v).res = s.res := rfl
@[simp] theorem State.withArg0_mode (v : Word) : (s.withArg0 v).mode = s.mode := rfl
@[simp] theorem State.withArg0_faulted (v : Word) : (s.withArg0 v).faulted = s.faulted := rfl
@[simp] theorem State.withArg0_eosSeen (v : Word) : (s.withArg0 v).eosSeen = s.eosSeen := rfl
@[simp] theorem State.withArg0_faultCode (v : Word) : (s.withArg0 v).faultCode = s.faultCode := rfl
@[simp] theorem State.withArg0_faultSub (v : Word) : (s.withArg0 v).faultSub = s.faultSub := rfl
@[simp] theorem State.withArg0_low (v : Word) : (s.withArg0 v).low = s.low := rfl
@[simp] theorem State.withArg0_range (v : Word) : (s.withArg0 v).range = s.range := rfl
@[simp] theorem State.withArg0_cache (v : Word) : (s.withArg0 v).cache = s.cache := rfl
@[simp] theorem State.withArg0_cacheSize (v : Word) : (s.withArg0 v).cacheSize = s.cacheSize := rfl
@[simp] theorem State.withArg0_code (v : Word) : (s.withArg0 v).code = s.code := rfl
@[simp] theorem State.withArg0_pram (v : Word) : (s.withArg0 v).pram = s.pram := rfl
@[simp] theorem State.withArg0_fsm (v : Word) : (s.withArg0 v).fsm = s.fsm := rfl
@[simp] theorem State.withArg0_rep0 (v : Word) : (s.withArg0 v).rep0 = s.rep0 := rfl
@[simp] theorem State.withArg0_rep1 (v : Word) : (s.withArg0 v).rep1 = s.rep1 := rfl
@[simp] theorem State.withArg0_rep2 (v : Word) : (s.withArg0 v).rep2 = s.rep2 := rfl
@[simp] theorem State.withArg0_rep3 (v : Word) : (s.withArg0 v).rep3 = s.rep3 := rfl
@[simp] theorem State.withArg0_window (v : Word) : (s.withArg0 v).window = s.window := rfl
@[simp] theorem State.withArg0_inCount (v : Word) : (s.withArg0 v).inCount = s.inCount := rfl
@[simp] theorem State.withArg0_outCount (v : Word) : (s.withArg0 v).outCount = s.outCount := rfl
@[simp] theorem State.withArg0_source (v : Word) : (s.withArg0 v).source = s.source := rfl
@[simp] theorem State.withArg0_sourceEnd (v : Word) : (s.withArg0 v).sourceEnd = s.sourceEnd := rfl
@[simp] theorem State.withArg0_sink (v : Word) : (s.withArg0 v).sink = s.sink := rfl
@[simp] theorem State.withArg0_sinkFailAt (v : Word) : (s.withArg0 v).sinkFailAt = s.sinkFailAt := rfl
@[simp] theorem State.withArg0_hostQueue (v : Word) : (s.withArg0 v).hostQueue = s.hostQueue := rfl
@[simp] theorem State.withArg0_hostReads (v : Word) : (s.withArg0 v).hostReads = s.hostReads := rfl
@[simp] theorem State.withArg0_config (v : Word) : (s.withArg0 v).config = s.config := rfl

/-! ### withArg1 -/
@[simp] theorem State.withArg1_props (v : Word) : (s.withArg1 v).props = s.props := rfl
@[simp] theorem State.withArg1_dictSize (v : Word) : (s.withArg1 v).dictSize = s.dictSize := rfl
@[simp] theorem State.withArg1_usize (v : Word) : (s.withArg1 v).usize = s.usize := rfl
@[simp] theorem State.withArg1_policy (v : Word) : (s.withArg1 v).policy = s.policy := rfl
@[simp] theorem State.withArg1_arg0 (v : Word) : (s.withArg1 v).arg0 = s.arg0 := rfl
@[simp] theorem State.withArg1_arg1 (v : Word) : (s.withArg1 v).arg1 = v := rfl
@[simp] theorem State.withArg1_res (v : Word) : (s.withArg1 v).res = s.res := rfl
@[simp] theorem State.withArg1_mode (v : Word) : (s.withArg1 v).mode = s.mode := rfl
@[simp] theorem State.withArg1_faulted (v : Word) : (s.withArg1 v).faulted = s.faulted := rfl
@[simp] theorem State.withArg1_eosSeen (v : Word) : (s.withArg1 v).eosSeen = s.eosSeen := rfl
@[simp] theorem State.withArg1_faultCode (v : Word) : (s.withArg1 v).faultCode = s.faultCode := rfl
@[simp] theorem State.withArg1_faultSub (v : Word) : (s.withArg1 v).faultSub = s.faultSub := rfl
@[simp] theorem State.withArg1_low (v : Word) : (s.withArg1 v).low = s.low := rfl
@[simp] theorem State.withArg1_range (v : Word) : (s.withArg1 v).range = s.range := rfl
@[simp] theorem State.withArg1_cache (v : Word) : (s.withArg1 v).cache = s.cache := rfl
@[simp] theorem State.withArg1_cacheSize (v : Word) : (s.withArg1 v).cacheSize = s.cacheSize := rfl
@[simp] theorem State.withArg1_code (v : Word) : (s.withArg1 v).code = s.code := rfl
@[simp] theorem State.withArg1_pram (v : Word) : (s.withArg1 v).pram = s.pram := rfl
@[simp] theorem State.withArg1_fsm (v : Word) : (s.withArg1 v).fsm = s.fsm := rfl
@[simp] theorem State.withArg1_rep0 (v : Word) : (s.withArg1 v).rep0 = s.rep0 := rfl
@[simp] theorem State.withArg1_rep1 (v : Word) : (s.withArg1 v).rep1 = s.rep1 := rfl
@[simp] theorem State.withArg1_rep2 (v : Word) : (s.withArg1 v).rep2 = s.rep2 := rfl
@[simp] theorem State.withArg1_rep3 (v : Word) : (s.withArg1 v).rep3 = s.rep3 := rfl
@[simp] theorem State.withArg1_window (v : Word) : (s.withArg1 v).window = s.window := rfl
@[simp] theorem State.withArg1_inCount (v : Word) : (s.withArg1 v).inCount = s.inCount := rfl
@[simp] theorem State.withArg1_outCount (v : Word) : (s.withArg1 v).outCount = s.outCount := rfl
@[simp] theorem State.withArg1_source (v : Word) : (s.withArg1 v).source = s.source := rfl
@[simp] theorem State.withArg1_sourceEnd (v : Word) : (s.withArg1 v).sourceEnd = s.sourceEnd := rfl
@[simp] theorem State.withArg1_sink (v : Word) : (s.withArg1 v).sink = s.sink := rfl
@[simp] theorem State.withArg1_sinkFailAt (v : Word) : (s.withArg1 v).sinkFailAt = s.sinkFailAt := rfl
@[simp] theorem State.withArg1_hostQueue (v : Word) : (s.withArg1 v).hostQueue = s.hostQueue := rfl
@[simp] theorem State.withArg1_hostReads (v : Word) : (s.withArg1 v).hostReads = s.hostReads := rfl
@[simp] theorem State.withArg1_config (v : Word) : (s.withArg1 v).config = s.config := rfl

/-! ### withQueue -/
@[simp] theorem State.withQueue_props (q : List Access) : (s.withQueue q).props = s.props := rfl
@[simp] theorem State.withQueue_dictSize (q : List Access) : (s.withQueue q).dictSize = s.dictSize := rfl
@[simp] theorem State.withQueue_usize (q : List Access) : (s.withQueue q).usize = s.usize := rfl
@[simp] theorem State.withQueue_policy (q : List Access) : (s.withQueue q).policy = s.policy := rfl
@[simp] theorem State.withQueue_arg0 (q : List Access) : (s.withQueue q).arg0 = s.arg0 := rfl
@[simp] theorem State.withQueue_arg1 (q : List Access) : (s.withQueue q).arg1 = s.arg1 := rfl
@[simp] theorem State.withQueue_res (q : List Access) : (s.withQueue q).res = s.res := rfl
@[simp] theorem State.withQueue_mode (q : List Access) : (s.withQueue q).mode = s.mode := rfl
@[simp] theorem State.withQueue_faulted (q : List Access) : (s.withQueue q).faulted = s.faulted := rfl
@[simp] theorem State.withQueue_eosSeen (q : List Access) : (s.withQueue q).eosSeen = s.eosSeen := rfl
@[simp] theorem State.withQueue_faultCode (q : List Access) : (s.withQueue q).faultCode = s.faultCode := rfl
@[simp] theorem State.withQueue_faultSub (q : List Access) : (s.withQueue q).faultSub = s.faultSub := rfl
@[simp] theorem State.withQueue_low (q : List Access) : (s.withQueue q).low = s.low := rfl
@[simp] theorem State.withQueue_range (q : List Access) : (s.withQueue q).range = s.range := rfl
@[simp] theorem State.withQueue_cache (q : List Access) : (s.withQueue q).cache = s.cache := rfl
@[simp] theorem State.withQueue_cacheSize (q : List Access) : (s.withQueue q).cacheSize = s.cacheSize := rfl
@[simp] theorem State.withQueue_code (q : List Access) : (s.withQueue q).code = s.code := rfl
@[simp] theorem State.withQueue_pram (q : List Access) : (s.withQueue q).pram = s.pram := rfl
@[simp] theorem State.withQueue_fsm (q : List Access) : (s.withQueue q).fsm = s.fsm := rfl
@[simp] theorem State.withQueue_rep0 (q : List Access) : (s.withQueue q).rep0 = s.rep0 := rfl
@[simp] theorem State.withQueue_rep1 (q : List Access) : (s.withQueue q).rep1 = s.rep1 := rfl
@[simp] theorem State.withQueue_rep2 (q : List Access) : (s.withQueue q).rep2 = s.rep2 := rfl
@[simp] theorem State.withQueue_rep3 (q : List Access) : (s.withQueue q).rep3 = s.rep3 := rfl
@[simp] theorem State.withQueue_window (q : List Access) : (s.withQueue q).window = s.window := rfl
@[simp] theorem State.withQueue_inCount (q : List Access) : (s.withQueue q).inCount = s.inCount := rfl
@[simp] theorem State.withQueue_outCount (q : List Access) : (s.withQueue q).outCount = s.outCount := rfl
@[simp] theorem State.withQueue_source (q : List Access) : (s.withQueue q).source = s.source := rfl
@[simp] theorem State.withQueue_sourceEnd (q : List Access) : (s.withQueue q).sourceEnd = s.sourceEnd := rfl
@[simp] theorem State.withQueue_sink (q : List Access) : (s.withQueue q).sink = s.sink := rfl
@[simp] theorem State.withQueue_sinkFailAt (q : List Access) : (s.withQueue q).sinkFailAt = s.sinkFailAt := rfl
@[simp] theorem State.withQueue_hostQueue (q : List Access) : (s.withQueue q).hostQueue = q := rfl
@[simp] theorem State.withQueue_hostReads (q : List Access) : (s.withQueue q).hostReads = s.hostReads := rfl
@[simp] theorem State.withQueue_config (q : List Access) : (s.withQueue q).config = s.config := rfl

/-! ### answered -/
@[simp] theorem State.answered_props (v : Word) : (s.answered v).props = s.props := rfl
@[simp] theorem State.answered_dictSize (v : Word) : (s.answered v).dictSize = s.dictSize := rfl
@[simp] theorem State.answered_usize (v : Word) : (s.answered v).usize = s.usize := rfl
@[simp] theorem State.answered_policy (v : Word) : (s.answered v).policy = s.policy := rfl
@[simp] theorem State.answered_arg0 (v : Word) : (s.answered v).arg0 = s.arg0 := rfl
@[simp] theorem State.answered_arg1 (v : Word) : (s.answered v).arg1 = s.arg1 := rfl
@[simp] theorem State.answered_res (v : Word) : (s.answered v).res = s.res := rfl
@[simp] theorem State.answered_mode (v : Word) : (s.answered v).mode = s.mode := rfl
@[simp] theorem State.answered_faulted (v : Word) : (s.answered v).faulted = s.faulted := rfl
@[simp] theorem State.answered_eosSeen (v : Word) : (s.answered v).eosSeen = s.eosSeen := rfl
@[simp] theorem State.answered_faultCode (v : Word) : (s.answered v).faultCode = s.faultCode := rfl
@[simp] theorem State.answered_faultSub (v : Word) : (s.answered v).faultSub = s.faultSub := rfl
@[simp] theorem State.answered_low (v : Word) : (s.answered v).low = s.low := rfl
@[simp] theorem State.answered_range (v : Word) : (s.answered v).range = s.range := rfl
@[simp] theorem State.answered_cache (v : Word) : (s.answered v).cache = s.cache := rfl
@[simp] theorem State.answered_cacheSize (v : Word) : (s.answered v).cacheSize = s.cacheSize := rfl
@[simp] theorem State.answered_code (v : Word) : (s.answered v).code = s.code := rfl
@[simp] theorem State.answered_pram (v : Word) : (s.answered v).pram = s.pram := rfl
@[simp] theorem State.answered_fsm (v : Word) : (s.answered v).fsm = s.fsm := rfl
@[simp] theorem State.answered_rep0 (v : Word) : (s.answered v).rep0 = s.rep0 := rfl
@[simp] theorem State.answered_rep1 (v : Word) : (s.answered v).rep1 = s.rep1 := rfl
@[simp] theorem State.answered_rep2 (v : Word) : (s.answered v).rep2 = s.rep2 := rfl
@[simp] theorem State.answered_rep3 (v : Word) : (s.answered v).rep3 = s.rep3 := rfl
@[simp] theorem State.answered_window (v : Word) : (s.answered v).window = s.window := rfl
@[simp] theorem State.answered_inCount (v : Word) : (s.answered v).inCount = s.inCount := rfl
@[simp] theorem State.answered_outCount (v : Word) : (s.answered v).outCount = s.outCount := rfl
@[simp] theorem State.answered_source (v : Word) : (s.answered v).source = s.source := rfl
@[simp] theorem State.answered_sourceEnd (v : Word) : (s.answered v).sourceEnd = s.sourceEnd := rfl
@[simp] theorem State.answered_sink (v : Word) : (s.answered v).sink = s.sink := rfl
@[simp] theorem State.answered_sinkFailAt (v : Word) : (s.answered v).sinkFailAt = s.sinkFailAt := rfl
@[simp] theorem State.answered_hostQueue (v : Word) : (s.answered v).hostQueue = s.hostQueue := rfl
@[simp] theorem State.answered_hostReads (v : Word) : (s.answered v).hostReads = s.hostReads ++ [v] := rfl
@[simp] theorem State.answered_config (v : Word) : (s.answered v).config = s.config := rfl

/-! ### takeFault -/
@[simp] theorem State.takeFault_props (c : Cause) : (s.takeFault c).props = s.props := rfl
@[simp] theorem State.takeFault_dictSize (c : Cause) : (s.takeFault c).dictSize = s.dictSize := rfl
@[simp] theorem State.takeFault_usize (c : Cause) : (s.takeFault c).usize = s.usize := rfl
@[simp] theorem State.takeFault_policy (c : Cause) : (s.takeFault c).policy = s.policy := rfl
@[simp] theorem State.takeFault_arg0 (c : Cause) : (s.takeFault c).arg0 = s.arg0 := rfl
@[simp] theorem State.takeFault_arg1 (c : Cause) : (s.takeFault c).arg1 = s.arg1 := rfl
@[simp] theorem State.takeFault_res (c : Cause) : (s.takeFault c).res = s.res := rfl
@[simp] theorem State.takeFault_mode (c : Cause) : (s.takeFault c).mode = s.mode := rfl
@[simp] theorem State.takeFault_faulted (c : Cause) : (s.takeFault c).faulted = true := rfl
@[simp] theorem State.takeFault_eosSeen (c : Cause) : (s.takeFault c).eosSeen = s.eosSeen := rfl
@[simp] theorem State.takeFault_faultCode (c : Cause) : (s.takeFault c).faultCode = c.code := rfl
@[simp] theorem State.takeFault_faultSub (c : Cause) : (s.takeFault c).faultSub = c.sub := rfl
@[simp] theorem State.takeFault_low (c : Cause) : (s.takeFault c).low = s.low := rfl
@[simp] theorem State.takeFault_range (c : Cause) : (s.takeFault c).range = s.range := rfl
@[simp] theorem State.takeFault_cache (c : Cause) : (s.takeFault c).cache = s.cache := rfl
@[simp] theorem State.takeFault_cacheSize (c : Cause) : (s.takeFault c).cacheSize = s.cacheSize := rfl
@[simp] theorem State.takeFault_code (c : Cause) : (s.takeFault c).code = s.code := rfl
@[simp] theorem State.takeFault_pram (c : Cause) : (s.takeFault c).pram = s.pram := rfl
@[simp] theorem State.takeFault_fsm (c : Cause) : (s.takeFault c).fsm = s.fsm := rfl
@[simp] theorem State.takeFault_rep0 (c : Cause) : (s.takeFault c).rep0 = s.rep0 := rfl
@[simp] theorem State.takeFault_rep1 (c : Cause) : (s.takeFault c).rep1 = s.rep1 := rfl
@[simp] theorem State.takeFault_rep2 (c : Cause) : (s.takeFault c).rep2 = s.rep2 := rfl
@[simp] theorem State.takeFault_rep3 (c : Cause) : (s.takeFault c).rep3 = s.rep3 := rfl
@[simp] theorem State.takeFault_window (c : Cause) : (s.takeFault c).window = s.window := rfl
@[simp] theorem State.takeFault_inCount (c : Cause) : (s.takeFault c).inCount = s.inCount := rfl
@[simp] theorem State.takeFault_outCount (c : Cause) : (s.takeFault c).outCount = s.outCount := rfl
@[simp] theorem State.takeFault_source (c : Cause) : (s.takeFault c).source = s.source := rfl
@[simp] theorem State.takeFault_sourceEnd (c : Cause) : (s.takeFault c).sourceEnd = s.sourceEnd := rfl
@[simp] theorem State.takeFault_sink (c : Cause) : (s.takeFault c).sink = s.sink := rfl
@[simp] theorem State.takeFault_sinkFailAt (c : Cause) : (s.takeFault c).sinkFailAt = s.sinkFailAt := rfl
@[simp] theorem State.takeFault_hostQueue (c : Cause) : (s.takeFault c).hostQueue = s.hostQueue := rfl
@[simp] theorem State.takeFault_hostReads (c : Cause) : (s.takeFault c).hostReads = s.hostReads := rfl
@[simp] theorem State.takeFault_config (c : Cause) : (s.takeFault c).config = s.config := rfl

/-! ### sessionReset -/
@[simp] theorem State.sessionReset_props : (s.sessionReset).props = s.props := rfl
@[simp] theorem State.sessionReset_dictSize : (s.sessionReset).dictSize = s.dictSize := rfl
@[simp] theorem State.sessionReset_usize : (s.sessionReset).usize = s.usize := rfl
@[simp] theorem State.sessionReset_policy : (s.sessionReset).policy = s.policy := rfl
@[simp] theorem State.sessionReset_arg0 : (s.sessionReset).arg0 = s.arg0 := rfl
@[simp] theorem State.sessionReset_arg1 : (s.sessionReset).arg1 = s.arg1 := rfl
@[simp] theorem State.sessionReset_res : (s.sessionReset).res = 0 := rfl
@[simp] theorem State.sessionReset_mode : (s.sessionReset).mode = .idle := rfl
@[simp] theorem State.sessionReset_faulted : (s.sessionReset).faulted = false := rfl
@[simp] theorem State.sessionReset_eosSeen : (s.sessionReset).eosSeen = false := rfl
@[simp] theorem State.sessionReset_faultCode : (s.sessionReset).faultCode = 0 := rfl
@[simp] theorem State.sessionReset_faultSub : (s.sessionReset).faultSub = 0 := rfl
@[simp] theorem State.sessionReset_low : (s.sessionReset).low = 0 := rfl
@[simp] theorem State.sessionReset_range : (s.sessionReset).range = 0xFFFFFFFF := rfl
@[simp] theorem State.sessionReset_cache : (s.sessionReset).cache = 0 := rfl
@[simp] theorem State.sessionReset_cacheSize : (s.sessionReset).cacheSize = 1 := rfl
@[simp] theorem State.sessionReset_code : (s.sessionReset).code = 0 := rfl
@[simp] theorem State.sessionReset_pram : (s.sessionReset).pram = [] := rfl
@[simp] theorem State.sessionReset_fsm : (s.sessionReset).fsm = 0 := rfl
@[simp] theorem State.sessionReset_rep0 : (s.sessionReset).rep0 = 0 := rfl
@[simp] theorem State.sessionReset_rep1 : (s.sessionReset).rep1 = 0 := rfl
@[simp] theorem State.sessionReset_rep2 : (s.sessionReset).rep2 = 0 := rfl
@[simp] theorem State.sessionReset_rep3 : (s.sessionReset).rep3 = 0 := rfl
@[simp] theorem State.sessionReset_window : (s.sessionReset).window = [] := rfl
@[simp] theorem State.sessionReset_inCount : (s.sessionReset).inCount = 0 := rfl
@[simp] theorem State.sessionReset_outCount : (s.sessionReset).outCount = 0 := rfl
@[simp] theorem State.sessionReset_source : (s.sessionReset).source = s.source := rfl
@[simp] theorem State.sessionReset_sourceEnd : (s.sessionReset).sourceEnd = s.sourceEnd := rfl
@[simp] theorem State.sessionReset_sink : (s.sessionReset).sink = s.sink := rfl
@[simp] theorem State.sessionReset_sinkFailAt : (s.sessionReset).sinkFailAt = s.sinkFailAt := rfl
@[simp] theorem State.sessionReset_hostQueue : (s.sessionReset).hostQueue = s.hostQueue := rfl
@[simp] theorem State.sessionReset_hostReads : (s.sessionReset).hostReads = s.hostReads := rfl
@[simp] theorem State.sessionReset_config : (s.sessionReset).config = s.config := rfl

end Sys2Proof.Machine
end

