-- ==== Sys2Proof/Laws/Cmd.lean ====
section
/-! SUPPORT. How a piece of pseudocode ends (`Ends`), rule by rule, and what that says of a command: later proofs cite
these and never unfold the monad. -/

namespace Sys2Proof.Machine

variable {α β : Type}

/-- `x` run from `s` ends with a value and state in `Q`, or early with a stop and state in `E`. -/
def Ends (x : Cmd α) (s : State) (Q : α → State → Prop) (E : Stop → State → Prop) : Prop :=
  match x s with
  | .ok a t => Q a t
  | .error e t => E e t

variable {Q Q' : α → State → Prop} {E E' : Stop → State → Prop} {s : State}

theorem bind_run (x : Cmd α) (f : α → Cmd β) (s : State) :
    (x >>= f) s = match x s with
      | .ok a t => f a t
      | .error e t => .error e t := by
  change EStateM.bind x f s = _
  unfold EStateM.bind
  cases x s <;> rfl

theorem get_run (s : State) : (get : Cmd State) s = .ok s s := rfl

/-- A run that is known to end with a value. -/
theorem ends_of_run {x : Cmd α} {a : α} {t : State} (h : x s = .ok a t) : Ends x s Q E ↔ Q a t := by
  unfold Ends
  rw [h]

theorem Ends.mono {x : Cmd α} (h : Ends x s Q E) (hq : ∀ a t, Q a t → Q' a t) (he : ∀ e t, E e t → E' e t) :
    Ends x s Q' E' := by
  unfold Ends at *
  split <;> simp_all

theorem Ends.and {x : Cmd α} (h : Ends x s Q E) (h' : Ends x s Q' E') :
    Ends x s (fun a t => Q a t ∧ Q' a t) (fun e t => E e t ∧ E' e t) := by
  unfold Ends at *
  split <;> simp_all

theorem ends_bind {x : Cmd α} {f : α → Cmd β} {Q : β → State → Prop} :
    Ends (x >>= f) s Q E ↔ Ends x s (fun a t => Ends (f a) t Q E) E := by
  unfold Ends
  rw [bind_run]
  cases x s <;> rfl

theorem Ends.bind {x : Cmd α} {f : α → Cmd β} {Q : β → State → Prop} {M : α → State → Prop} (h : Ends x s M E)
    (hf : ∀ a t, M a t → Ends (f a) t Q E) : Ends (x >>= f) s Q E :=
  ends_bind.2 (h.mono hf fun _ _ h => h)

@[simp] theorem ends_pure {a : α} : Ends (pure a) s Q E ↔ Q a s := Iff.rfl

@[simp] theorem ends_get {Q : State → State → Prop} : Ends get s Q E ↔ Q s s := Iff.rfl

@[simp] theorem ends_set {Q : PUnit → State → Prop} {t : State} : Ends (set t) s Q E ↔ Q ⟨⟩ t := Iff.rfl

@[simp] theorem ends_modify {Q : PUnit → State → Prop} {f : State → State} : Ends (modify f) s Q E ↔ Q ⟨⟩ (f s) :=
  Iff.rfl

@[simp] theorem ends_raise {c : Cause} : Ends (raise c) s Q E ↔ E (.raise c) s := Iff.rfl

@[simp] theorem ends_stuck {f : Fault} : Ends (stuck f) s Q E ↔ E (.stuck f) s := Iff.rfl

theorem ends_check {Q : Unit → State → Prop} {ok : Bool} {c : Cause} :
    Ends (check ok c) s Q E ↔ if ok = true then Q () s else E (.raise c) s := by
  unfold check
  split <;> simp

theorem Ends.check {Q : Unit → State → Prop} {ok : Bool} {c : Cause} (h : ok = true → Q () s)
    (h' : ok = false → E (.raise c) s) : Ends (check ok c) s Q E := by
  rw [ends_check]
  cases ok <;> simp_all

theorem ends_ite {p : Prop} [Decidable p] {x y : Cmd α} :
    Ends (if p then x else y) s Q E ↔ if p then Ends x s Q E else Ends y s Q E := by
  split <;> rfl

theorem ends_runIf {Q : Unit → State → Prop} {b : Bool} {x : Cmd Unit} :
    Ends (runIf b x) s Q E ↔ if b = true then Ends x s Q E else Q () s := by
  unfold runIf
  split <;> simp

/-- `repeat n times` keeps what one turn keeps. -/
theorem Ends.repeatCmd {c : Cmd Unit} {I : State → Prop} (hc : ∀ s, I s → Ends c s (fun _ t => I t) E) :
    ∀ (n : Nat) (s : State), I s → Ends (repeatCmd n c) s (fun _ t => I t) E
  | 0, _, h => h
  | n + 1, s, h => (hc s h).bind fun _ t ht => Ends.repeatCmd hc n t ht

/-- `x` relates the state it starts from to the state it ends in, however it ends. -/
def Keeps (R : State → State → Prop) (x : Cmd α) : Prop := ∀ s, Ends x s (fun _ t => R s t) (fun _ t => R s t)

section Keeps

variable {R : State → State → Prop}

theorem Keeps.pure (hr : ∀ s, R s s) (a : α) : Keeps R (pure a) := fun s => hr s

theorem Keeps.get (hr : ∀ s, R s s) : Keeps R (get : Cmd State) := fun s => hr s

theorem Keeps.raise (hr : ∀ s, R s s) (c : Cause) : Keeps R (raise c : Cmd α) := fun s => hr s

theorem Keeps.stuck (hr : ∀ s, R s s) (f : Fault) : Keeps R (stuck f : Cmd α) := fun s => hr s

theorem Keeps.check (hr : ∀ s, R s s) (ok : Bool) (c : Cause) : Keeps R (check ok c) := by
  intro s
  rw [ends_check]
  split <;> exact hr s

theorem Keeps.bind (ht : ∀ s t u, R s t → R t u → R s u) {x : Cmd α} {f : α → Cmd β} (hx : Keeps R x)
    (hf : ∀ a, Keeps R (f a)) : Keeps R (x >>= f) := by
  intro s
  refine (hx s).bind fun a t hst => ?_
  exact (hf a t).mono (fun _ u h => ht s t u hst h) fun _ u h => ht s t u hst h

/-- A bind whose second part may use the state the first one read. -/
theorem Keeps.getBind {f : State → Cmd β} (hf : ∀ s, Ends (f s) s (fun _ t => R s t) (fun _ t => R s t)) :
    Keeps R ((MonadState.get : Cmd State) >>= f) := fun s => ends_bind.2 (hf s)

theorem Keeps.ite {p : Prop} [Decidable p] {x y : Cmd α} (hx : Keeps R x) (hy : Keeps R y) :
    Keeps R (if p then x else y) := by
  split <;> assumption

theorem Keeps.runIf (hr : ∀ s, R s s) {b : Bool} {x : Cmd Unit} (hx : Keeps R x) : Keeps R (runIf b x) := by
  intro s
  rw [ends_runIf]
  split
  · exact hx s
  · exact hr s

theorem Keeps.repeatCmd (hr : ∀ s, R s s) (ht : ∀ s t u, R s t → R t u → R s u) {c : Cmd Unit} (hc : Keeps R c) :
    ∀ n, Keeps R (repeatCmd n c)
  | 0 => Keeps.pure hr ()
  | n + 1 => Keeps.bind ht hc fun _ => Keeps.repeatCmd hr ht hc n

end Keeps

/-! ## From pseudocode to commands -/

/-- A command that runs (not faulted, in one of its modes) ends as its body does. -/
theorem issue_ready {modes : List Mode} {body : Cmd Unit} (hf : s.faulted = false) (hm : modes.contains s.mode = true) :
    issue modes body s = conclude (body s) := by
  simp only [issue, requireMode, check, bind_run, get_run, hf, Bool.false_eq_true, if_false]
  rw [if_pos hm]
  rfl

/-- While FAULTED a command is refused with no effect (60_exceptions.md R324). -/
theorem issue_faulted {modes : List Mode} {body : Cmd Unit} (hf : s.faulted = true) : issue modes body s = .next s := by
  simp [issue, hf]

/-- In a mode its row does not list, a command faults SEQUENCE_ERROR (60_exceptions.md R323). -/
theorem issue_wrong_mode {modes : List Mode} {body : Cmd Unit} (hf : s.faulted = false)
    (hm : modes.contains s.mode = false) : issue modes body s = .next (s.takeFault .sequenceError) := by
  simp only [issue, requireMode, check, bind_run, get_run, hf, Bool.false_eq_true, if_false]
  rw [if_neg (by simp only [hm]; decide)]
  rfl

/-- The three ways a command can go (60_exceptions.md R323). -/
theorem issue_cases (modes : List Mode) (body : Cmd Unit) (s : State) :
    (s.faulted = true ∧ issue modes body s = .next s) ∨
    (s.faulted = false ∧ modes.contains s.mode = false ∧ issue modes body s = .next (s.takeFault .sequenceError)) ∨
    (s.faulted = false ∧ modes.contains s.mode = true ∧ issue modes body s = conclude (body s)) := by
  cases hf : s.faulted with
  | true => exact .inl ⟨rfl, issue_faulted hf⟩
  | false =>
    cases hm : modes.contains s.mode with
    | false => exact .inr (.inl ⟨rfl, rfl, issue_wrong_mode hf hm⟩)
    | true => exact .inr (.inr ⟨rfl, rfl, issue_ready hf hm⟩)

/-- What a body's end says of the command's outcome. -/
theorem conclude_ends {body : Cmd Unit} {P : Host.Outcome State Fault Refusal → Prop} (h : Ends body s
    (fun _ t => P (.next t))
    (fun e t => match e with | .raise c => P (.next (t.takeFault c)) | .stuck f => P (.fault f))) :
    P (conclude (body s)) := by
  unfold Ends at h
  unfold conclude
  split at h
  · simp_all
  · rename_i e t he
    cases e <;> simp_all

/-- A body that ends without a raise gives the command's next state. -/
theorem conclude_next {body : Cmd Unit} {Q : State → Prop} (h : Ends body s (fun _ t => Q t) fun _ _ => False) :
    ∃ t, conclude (body s) = .next t ∧ Q t := by
  unfold Ends at h
  split at h
  · exact ⟨_, by simp [conclude, *], h⟩
  · exact h.elim

end Sys2Proof.Machine
end

