-- ==== Sys2Proof/Laws/Memory.lean ====
section
/-! SUPPORT. The probability RAM: read after write, the canonical form every write keeps, and that equal contents are
equal lists. -/

namespace Sys2Proof.Machine

@[simp] theorem Memory.read_nil (a : Nat) : Memory.read [] a = probInit := rfl

theorem Memory.read_cons (k : Nat) (v : Prob) (m : Memory) (a : Nat) :
    Memory.read ((k, v) :: m) a = if k = a then v else Memory.read m a := rfl

theorem Memory.wfFrom_cons (lo k : Nat) (v : Prob) (m : Memory) :
    Memory.wfFrom lo ((k, v) :: m) = true ↔ lo ≤ k ∧ v ≠ probInit ∧ Memory.wfFrom (k + 1) m = true := by
  simp [Memory.wfFrom, and_assoc]

/-- A canonical list from `lo` up is one from any lower address. -/
theorem Memory.wfFrom_mono {lo lo' : Nat} (h : lo' ≤ lo) : ∀ {m : Memory}, Memory.wfFrom lo m = true →
    Memory.wfFrom lo' m = true
  | [], _ => rfl
  | (k, v) :: m, hm => by
    rw [Memory.wfFrom_cons] at hm ⊢
    exact ⟨by omega, hm.2⟩

/-- Below a canonical list's first address every cell reads 1024. -/
theorem Memory.read_below {a : Nat} : ∀ {m : Memory} {lo : Nat}, Memory.wfFrom lo m = true → a < lo →
    Memory.read m a = probInit
  | [], _, _, _ => rfl
  | (k, v) :: m, lo, hm, ha => by
    rw [Memory.wfFrom_cons] at hm
    rw [Memory.read_cons, if_neg (by omega)]
    exact Memory.read_below hm.2.2 (by omega)

theorem Memory.wfFrom_write {a : Nat} {v : Prob} : ∀ {m : Memory} {lo : Nat}, Memory.wfFrom lo m = true → lo ≤ a →
    Memory.wfFrom lo (Memory.write m a v) = true
  | [], lo, _, ha => by
    unfold Memory.write
    split
    · rfl
    · simp [Memory.wfFrom, *]
  | (k, x) :: m, lo, hm, ha => by
    rw [Memory.wfFrom_cons] at hm
    obtain ⟨hk, hx, hm⟩ := hm
    unfold Memory.write
    split_ifs
    · rw [Memory.wfFrom_cons]; exact ⟨hk, hx, hm⟩
    · rw [Memory.wfFrom_cons, Memory.wfFrom_cons]; exact ⟨ha, ‹_›, by omega, hx, hm⟩
    · exact Memory.wfFrom_mono (by omega) hm
    · rw [Memory.wfFrom_cons]; exact ⟨ha, ‹_›, by subst_vars; exact hm⟩
    · rw [Memory.wfFrom_cons]; exact ⟨hk, hx, Memory.wfFrom_write hm (by omega)⟩

/-- Every write keeps the canonical form. -/
theorem Memory.wf_write {m : Memory} (h : m.wf = true) (a : Nat) (v : Prob) : (Memory.write m a v).wf = true :=
  Memory.wfFrom_write h (Nat.zero_le a)

theorem Memory.read_write_same_from {a : Nat} {v : Prob} : ∀ {m : Memory} {lo : Nat}, Memory.wfFrom lo m = true →
    Memory.read (Memory.write m a v) a = v
  | [], _, _ => by
    unfold Memory.write
    split
    · simp [*]
    · simp [Memory.read]
  | (k, x) :: m, lo, hm => by
    rw [Memory.wfFrom_cons] at hm
    obtain ⟨_, _, hm⟩ := hm
    unfold Memory.write
    split_ifs with h1 h2 h3 h4
    · rw [Memory.read_cons, if_neg (by omega), h2]; exact Memory.read_below hm (by omega)
    · simp [Memory.read]
    · rw [h4]; exact Memory.read_below hm (by omega)
    · simp [Memory.read]
    · rw [Memory.read_cons, if_neg (by omega)]; exact Memory.read_write_same_from hm

/-- A cell reads what was written to it. -/
theorem Memory.read_write_same {m : Memory} (h : m.wf = true) (a : Nat) (v : Prob) :
    Memory.read (Memory.write m a v) a = v :=
  Memory.read_write_same_from h

/-- A write leaves every other cell alone. -/
theorem Memory.read_write_other {a b : Nat} (h : a ≠ b) (v : Prob) : ∀ m : Memory,
    Memory.read (Memory.write m a v) b = Memory.read m b
  | [] => by
    unfold Memory.write
    split
    · rfl
    · simp [Memory.read, h]
  | (k, x) :: m => by
    unfold Memory.write
    split_ifs with h1 h2 h3 h4
    · rfl
    · simp [Memory.read, h]
    · rw [Memory.read_cons, if_neg (by omega)]
    · rw [Memory.read_cons, Memory.read_cons, if_neg h, if_neg (by omega)]
    · rw [Memory.read_cons, Memory.read_cons, Memory.read_write_other h v m]

/-- Read after write, both cases at once. -/
theorem Memory.read_write {m : Memory} (h : m.wf = true) (a b : Nat) (v : Prob) :
    Memory.read (Memory.write m a v) b = if b = a then v else Memory.read m b := by
  split
  · subst_vars; exact Memory.read_write_same h _ v
  · exact Memory.read_write_other (fun e => ‹b ≠ a› e.symm) v m

/-- The cells of a written RAM: the new value where it was written, an old one elsewhere. -/
theorem Memory.mem_write {a : Nat} {v : Prob} {c : Nat × Prob} : ∀ {m : Memory}, c ∈ Memory.write m a v →
    c = (a, v) ∨ c ∈ m
  | [], h => by
    unfold Memory.write at h
    split at h <;> simp_all
  | (k, x) :: m, h => by
    unfold Memory.write at h
    split_ifs at h
    · exact .inr h
    · simpa using h
    · exact .inr (List.mem_cons_of_mem _ h)
    · simp only [List.mem_cons] at h ⊢; tauto
    · rcases List.mem_cons.1 h with h | h
      · exact .inr (h ▸ List.mem_cons_self)
      · exact (Memory.mem_write h).imp id (List.mem_cons_of_mem _)

theorem cellsOk_write {m : Memory} (h : cellsOk m = true) {a v : Nat} (ha : cellValid a = true) (h1 : 31 ≤ v)
    (h2 : v ≤ 2017) : cellsOk (Memory.write m a (BitVec.ofNat 11 v)) = true := by
  simp only [cellsOk, List.all_eq_true] at h ⊢
  intro c hc
  rcases Memory.mem_write hc with rfl | hc
  · have : v % 2048 = v := Nat.mod_eq_of_lt (by omega)
    simp [ha, this, h1, h2]
  · exact h c hc

/-- In an `cellsOk` RAM every cell's value is in 31..2017 (41_probability_model.md R162). -/
theorem cellsOk_read {m : Memory} (h : cellsOk m = true) (a : Nat) :
    31 ≤ (Memory.read m a).toNat ∧ (Memory.read m a).toNat ≤ 2017 := by
  induction m with
  | nil => simp [probInit]
  | cons c m ih =>
    obtain ⟨k, v⟩ := c
    simp only [cellsOk, List.all_cons, Bool.and_eq_true, decide_eq_true_eq] at h ih ⊢
    rw [Memory.read_cons]
    split
    · omega
    · exact ih h.2

theorem Memory.eq_of_read_from : ∀ {m n : Memory} {lo : Nat}, Memory.wfFrom lo m = true → Memory.wfFrom lo n = true →
    (∀ a, Memory.read m a = Memory.read n a) → m = n
  | [], [], _, _, _, _ => rfl
  | [], (k, v) :: n, lo, _, hn, h => by
    rw [Memory.wfFrom_cons] at hn
    have := h k
    rw [Memory.read_cons, if_pos rfl] at this
    exact absurd this.symm hn.2.1
  | (k, v) :: m, [], lo, hm, _, h => by
    rw [Memory.wfFrom_cons] at hm
    have := h k
    rw [Memory.read_cons, if_pos rfl] at this
    exact absurd this hm.2.1
  | (k, v) :: m, (l, x) :: n, lo, hm, hn, h => by
    rw [Memory.wfFrom_cons] at hm hn
    obtain ⟨_, hv, hm⟩ := hm
    obtain ⟨_, hx, hn⟩ := hn
    have hk := h k
    have hl := h l
    rw [Memory.read_cons, Memory.read_cons] at hk hl
    rw [if_pos rfl] at hk hl
    have hkl : k = l := by
      rcases Nat.lt_trichotomy k l with c | c | c
      · rw [if_neg (by omega), Memory.read_below hn (by omega)] at hk; exact absurd hk hv
      · exact c
      · rw [if_neg (by omega), Memory.read_below hm (by omega)] at hl; exact absurd hl.symm hx
    subst hkl
    rw [if_pos rfl] at hk
    subst hk
    congr 1
    refine Memory.eq_of_read_from hm hn fun a => ?_
    by_cases ha : k = a
    · subst ha; rw [Memory.read_below hm (by omega), Memory.read_below hn (by omega)]
    · have := h a
      rwa [Memory.read_cons, Memory.read_cons, if_neg ha, if_neg ha] at this

end Sys2Proof.Machine
end

