-- ==== Sys2Proof/Laws/Ops.lean ====
section
/-! SUPPORT. One lemma per shared operation that says once how it can end: source, sink, cells and window. -/

namespace Sys2Proof.Machine

variable {s : State} {E : Stop → State → Prop}

/-! ## Source -/

theorem inRead_cons {b : Byte} {rest : List Byte} (h : s.source = b :: rest) (c : Cause) :
    inRead c s = .ok b (s.consumed rest) := by
  unfold inRead
  rw [bind_run, get_run]
  simp only [h]
  rfl

theorem inRead_nil (h : s.source = []) (c : Cause) : inRead c s = .error (.raise (sourceStop s c)) s := by
  unfold inRead
  rw [bind_run, get_run]
  simp only [h]
  rfl

/-- `InRead` takes the source's next byte, or raises and changes nothing (00_scope.md R11). -/
theorem ends_inRead {Q : Byte → State → Prop} {c : Cause} (hq : ∀ b rest, s.source = b :: rest → Q b (s.consumed rest))
    (he : s.source = [] → E (.raise (sourceStop s c)) s) : Ends (inRead c) s Q E := by
  unfold Ends
  rcases h : s.source with _ | ⟨b, rest⟩
  · rw [inRead_nil h]; exact he h
  · rw [inRead_cons h]; exact hq b rest h

/-! ## Sink -/

theorem sinkFails_false (n : Nat) (h : sinkTakes (n + 1) s) : sinkFails s = false := by
  unfold sinkFails
  cases hk : s.sinkFailAt with
  | none => rfl
  | some k => have := h k hk; simp; omega

/-- `OutWrite` delivers the byte, or raises IO_ERROR(OUT) and changes nothing (00_scope.md R11). -/
theorem ends_outWrite {Q : Unit → State → Prop} {b : Byte} (hq : sinkFails s = false → Q () (s.delivered b))
    (he : sinkFails s = true → E (.raise .ioErrorOut) s) : Ends (outWrite b) s Q E := by
  unfold outWrite
  rw [ends_bind, ends_get, ends_ite]
  cases h : sinkFails s <;> simp_all

/-- The bytes `l` delivered. -/
def State.deliveredAll (s : State) (l : List Byte) : State :=
  { s with sink := s.sink ++ l, outCount := s.outCount + l.length }

theorem State.deliveredAll_nil (s : State) : s.deliveredAll [] = s := by simp [State.deliveredAll]

theorem State.deliveredAll_cons (s : State) (b : Byte) (l : List Byte) :
    (s.delivered b).deliveredAll l = s.deliveredAll (b :: l) := by
  simp [State.deliveredAll, State.delivered, Nat.add_assoc, Nat.add_comm]

theorem sinkTakes_delivered {n : Nat} {b : Byte} (h : sinkTakes (n + 1) s) : sinkTakes n (s.delivered b) := by
  intro k hk
  have := h k hk
  simp
  omega

/-- With room on the sink every byte is delivered, in order. -/
theorem outWriteAll_run : ∀ (l : List Byte) {s : State}, sinkTakes l.length s →
    outWriteAll l s = .ok () (s.deliveredAll l)
  | [], s, _ => by rw [State.deliveredAll_nil]; rfl
  | b :: l, s, h => by
    unfold outWriteAll outWrite
    simp only [bind_run, get_run, sinkFails_false l.length h, Bool.false_eq_true, if_false]
    change outWriteAll l (s.delivered b) = _
    rw [outWriteAll_run l (sinkTakes_delivered h), State.deliveredAll_cons]

/-- On a sink that fails inside the bytes, those before the failure are delivered (60_exceptions.md R322). -/
theorem outWriteAll_fails {k : Nat} : ∀ (l : List Byte) {s : State}, l ≠ [] → s.sinkFailAt = some k →
    k < s.sink.length + l.length →
    outWriteAll l s = .error (.raise .ioErrorOut) (s.deliveredAll (l.take (k - s.sink.length)))
  | [], _, h0, _, _ => absurd rfl h0
  | b :: l, s, _, hk, h => by
    unfold outWriteAll outWrite
    simp only [bind_run, get_run]
    by_cases hf : k ≤ s.sink.length
    · have hs : sinkFails s = true := by simp [sinkFails, hk, hf]
      rw [hs, Nat.sub_eq_zero_of_le hf, List.take_zero, State.deliveredAll_nil]
      rfl
    · have hs : sinkFails s = false := by simp [sinkFails, hk]; omega
      rw [hs]
      have hl : l ≠ [] := by
        rintro rfl
        simp at h; omega
      change outWriteAll l (s.delivered b) = _
      rw [outWriteAll_fails l hl (by simpa [State.delivered] using hk) (by simp [State.delivered] at h ⊢; omega)]
      have : k - s.sink.length = k - (s.delivered b).sink.length + 1 := by simp [State.delivered]; omega
      rw [this, List.take_succ_cons, State.deliveredAll_cons]

/-- Bytes written to the sink are delivered in order up to the first failure (60_exceptions.md R322). -/
theorem ends_outWriteAll : ∀ (l : List Byte) (s : State), Ends (outWriteAll l) s
    (fun _ t => t = s.deliveredAll l)
    (fun e t => e = .raise .ioErrorOut ∧ ∃ pre, pre <+: l ∧ t = s.deliveredAll pre)
  | [], s => by rw [State.deliveredAll_nil]; exact rfl
  | b :: l, s => by
    unfold outWriteAll
    rw [ends_bind]
    refine ends_outWrite (fun _ => ?_) fun _ => ⟨rfl, [], by simp, (State.deliveredAll_nil s).symm⟩
    refine (ends_outWriteAll l (s.delivered b)).mono (fun _ t h => ?_) fun e t h => ?_
    · rw [h, State.deliveredAll_cons]
    · obtain ⟨he, pre, hp, ht⟩ := h
      exact ⟨he, b :: pre, by simpa using hp, by rw [ht, State.deliveredAll_cons]⟩

/-! ## Cells -/

theorem readCell_run {a : Nat} (h : cellValid a = true) : readCell a s = .ok (cellAt s a) s := by
  unfold readCell
  simp only [bind_run, get_run, h, if_true]
  rfl

theorem writeCell_run {a : Nat} (h : cellValid a = true) (v : Nat) :
    writeCell a v s = .ok () (s.withPram (Memory.write s.pram a (BitVec.ofNat 11 v))) := by
  unfold writeCell
  simp only [bind_run, get_run, h, if_true]
  rfl

theorem ends_readCell {Q : Nat → State → Prop} {a : Nat} (h : cellValid a = true) :
    Ends (readCell a) s Q E ↔ Q (cellAt s a) s := by
  unfold Ends; rw [readCell_run h]

theorem ends_writeCell {Q : Unit → State → Prop} {a v : Nat} (h : cellValid a = true) :
    Ends (writeCell a v) s Q E ↔ Q () (s.withPram (Memory.write s.pram a (BitVec.ofNat 11 v))) := by
  unfold Ends; rw [writeCell_run h]

/-! ## Window -/

theorem checkDistance_run {d : Nat} (h : Readable s d) : checkDistance d s = .ok () s := by
  obtain ⟨h1, h2, h3⟩ := h
  have h0 : d ≠ 0 := by omega
  unfold checkDistance
  simp [bind_run, get_run, check, h0, h2, h3]
  rfl

/-- A readable distance gives its byte (43_dictionary_window.md R265). -/
theorem byteAt_run {d : Nat} (h : Readable s d) : byteAt d s = .ok (windowByte s d) s := by
  unfold byteAt
  rw [bind_run, checkDistance_run h]
  rfl

/-- `CheckDistance` passes exactly the readable distances and changes nothing (43_dictionary_window.md R263). -/
theorem ends_checkDistance {Q : Unit → State → Prop} {d : Nat} (hq : Readable s d → Q () s)
    (he : ∀ c, c = .distBeyondOutput ∧ (d = 0 ∨ posOf s < d) ∨ c = .distBeyondDict ∧ d ≤ posOf s ∧ windowLimit s < d →
      E (.raise c) s) : Ends (checkDistance d) s Q E := by
  unfold checkDistance
  rw [ends_bind, ends_get, ends_bind]
  refine Ends.check (fun h => Ends.check (fun h' => hq ?_) fun h' => he _ (.inr ⟨rfl, ?_⟩)) fun h => he _ (.inl ⟨rfl, ?_⟩)
  · simp only [Bool.and_eq_true, bne_iff_ne, ne_eq, decide_eq_true_eq] at h h'
    exact ⟨by omega, h.2, h'⟩
  · simp only [Bool.and_eq_true, bne_iff_ne, ne_eq, decide_eq_true_eq, decide_eq_false_iff_not] at h h'
    exact ⟨h.2, by omega⟩
  · simp only [Bool.and_eq_false_iff, bne_eq_false_iff_eq, decide_eq_false_iff_not] at h
    omega

/-- One byte appended, in DECODE delivered too (43_dictionary_window.md R264). -/
def State.appended (s : State) (b : Byte) : State :=
  (if s.mode = .decode then s.delivered b else s).withWindow (s.window ++ [b])

theorem State.appended_other (h : s.mode ≠ .decode) (b : Byte) : s.appended b = s.withWindow (s.window ++ [b]) := by
  simp [State.appended, h]

theorem State.appended_decode (h : s.mode = .decode) (b : Byte) :
    s.appended b = (s.delivered b).withWindow (s.window ++ [b]) := by
  simp [State.appended, h]

@[simp] theorem State.appended_window (s : State) (b : Byte) : (s.appended b).window = s.window ++ [b] := rfl

theorem posOf_appended (s : State) (b : Byte) : posOf (s.appended b) = posOf s + 1 := by simp [posOf]

/-- `WindowAppend` appends the byte, or raises IO_ERROR(OUT) in DECODE and changes nothing (R264). -/
theorem ends_windowAppend {Q : Unit → State → Prop} {b : Byte} (hq : Q () (s.appended b))
    (he : s.mode = .decode → sinkFails s = true → E (.raise .ioErrorOut) s) : Ends (windowAppend b) s Q E := by
  unfold windowAppend
  rw [ends_bind, ends_get, ends_bind, ends_runIf]
  by_cases h : s.mode = .decode
  · rw [if_pos (by simp [h])]
    refine ends_outWrite (fun _ => ?_) (he h)
    rw [State.appended_decode h] at hq
    simpa using hq
  · rw [if_neg (by simp [h])]
    rw [State.appended_other h] at hq
    simpa using hq

theorem windowAppend_run {b : Byte} (h : s.mode = .decode → sinkTakes 1 s) :
    windowAppend b s = .ok () (s.appended b) := by
  unfold windowAppend
  by_cases hm : s.mode = .decode
  · rw [State.appended_decode hm]
    simp [bind_run, get_run, runIf, hm, outWrite, sinkFails_false 0 (h hm)]
    rfl
  · rw [State.appended_other hm]
    simp [bind_run, get_run, runIf, hm]
    rfl

end Sys2Proof.Machine
end

