-- ==== Sys2Proof/Laws/Frames.lean ====
section
/-! SUPPORT. What the commands' bodies leave alone. A relation between the state before and the state after that every
primitive update of a coder keeps (`EncRel`, `DecRel`, `TokRel`) is kept by each body made of them, however it ends. -/

namespace Sys2Proof.Machine

variable {R Q : State → State → Prop} {C : Nat → Prop}

/-- A relation that every update of the encoder keeps, if it writes no cells but those of `C`. -/
structure EncRel (R : State → State → Prop) (C : Nat → Prop) : Prop where
  refl : ∀ s, R s s
  trans : ∀ s t u, R s t → R t u → R s u
  range : ∀ s v, R s (s.withRange v)
  low : ∀ s v, R s (s.withLow v)
  cache : ∀ s c n, R s (s.withCache c n)
  cell : ∀ s a v, C a → cellValid a = true → R s (s.withPram (Memory.write s.pram a (BitVec.ofNat 11 v)))
  out : ∀ s b, R s (s.delivered b)

/-- A relation that every update of the decoder's range coder keeps, if it writes no cells but those of `C`. -/
structure DecRel (R : State → State → Prop) (C : Nat → Prop) : Prop where
  refl : ∀ s, R s s
  trans : ∀ s t u, R s t → R t u → R s u
  range : ∀ s v, R s (s.withRange v)
  code : ∀ s v, R s (s.withCode v)
  cell : ∀ s a v, C a → cellValid a = true → R s (s.withPram (Memory.write s.pram a (BitVec.ofNat 11 v)))
  take : ∀ s b rest, s.source = b :: rest → R s (s.consumed rest)

/-- A relation `R` that every update of a token's decoding keeps up to its last, if it writes no cells but those of `C`,
and the relation `Q` its last update leads to: of RES, or of RES to 0 or 8 and MODE to DONE (R221, R222, R226). -/
structure TokRel (R Q : State → State → Prop) (C : Nat → Prop) : Prop extends DecRel R C where
  fsm : ∀ s n, n ≤ 11 → R s (s.withFsm n)
  reps : ∀ s a b c d, R s (s.withReps a b c d)
  eos : ∀ s, R s s.sawEos
  append : ∀ s b, R s (s.appended b)
  comp : ∀ s t u, R s t → Q t u → Q s u
  res : ∀ s v, Q s (s.withRes v)
  done : ∀ s v, v = 0 ∨ v = 8 → Q s ((s.withMode .done).withRes v)

/-! ## Primitives -/

theorem keeps_outWrite (hr : ∀ s, R s s) (ho : ∀ s b, R s (s.delivered b)) (b : Byte) : Keeps R (outWrite b) := fun s =>
  ends_outWrite (fun _ => ho s b) fun _ => hr s

theorem keeps_outWriteAll (hr : ∀ s, R s s) (ht : ∀ s t u, R s t → R t u → R s u) (ho : ∀ s b, R s (s.delivered b)) :
    ∀ l, Keeps R (outWriteAll l)
  | [] => Keeps.pure hr ()
  | b :: l => Keeps.bind ht (keeps_outWrite hr ho b) fun _ => keeps_outWriteAll hr ht ho l

theorem keeps_inRead (hr : ∀ s, R s s) (ht : ∀ s b rest, s.source = b :: rest → R s (s.consumed rest)) (c : Cause) :
    Keeps R (inRead c) := fun s => ends_inRead (fun b rest h => ht s b rest h) fun _ => hr s

theorem keeps_readCell (hr : ∀ s, R s s) (a : Nat) : Keeps R (readCell a) := by
  intro s
  unfold readCell
  rw [ends_bind, ends_get, ends_ite]
  split <;> simp [hr]

theorem keeps_writeCell (hr : ∀ s, R s s) {a v : Nat}
    (hc : ∀ s, cellValid a = true → R s (s.withPram (Memory.write s.pram a (BitVec.ofNat 11 v)))) :
    Keeps R (writeCell a v) := by
  intro s
  unfold writeCell
  rw [ends_bind, ends_get, ends_ite]
  split
  · exact hc s ‹_›
  · exact hr s

theorem keeps_modify {f : State → State} (h : ∀ s, R s (f s)) : Keeps R (modify f : Cmd PUnit) := fun s => h s

theorem keeps_cellOperand (hr : ∀ s, R s s) : Keeps R cellOperand := by
  refine Keeps.getBind fun s => ?_
  rw [ends_bind]
  exact Ends.check (fun _ => hr s) fun _ => hr s

theorem keeps_probOperand (hr : ∀ s, R s s) : Keeps R probOperand := by
  refine Keeps.getBind fun s => ?_
  rw [ends_bind]
  exact Ends.check (fun _ => hr s) fun _ => hr s

theorem keeps_treeBaseOperand (hr : ∀ s, R s s) (n : Nat) : Keeps R (treeBaseOperand n) := by
  refine Keeps.getBind fun s => ?_
  rw [ends_bind]
  exact Ends.check (fun _ => hr s) fun _ => hr s

theorem keeps_checkDistance (hr : ∀ s, R s s) (d : Nat) : Keeps R (checkDistance d) := fun s =>
  ends_checkDistance (fun _ => hr s) fun _ _ => hr s

theorem keeps_byteAt (hr : ∀ s, R s s) (d : Nat) : Keeps R (byteAt d) := by
  intro s
  unfold byteAt
  rw [ends_bind]
  exact ends_checkDistance (fun _ => hr s) fun _ _ => hr s

theorem keeps_windowAppend (hr : ∀ s, R s s) (ha : ∀ s b, R s (s.appended b)) (b : Byte) : Keeps R (windowAppend b) :=
  fun s => ends_windowAppend (ha s b) fun _ _ => hr s

theorem keeps_copyMatch (hr : ∀ s, R s s) (ht : ∀ s t u, R s t → R t u → R s u) (ha : ∀ s b, R s (s.appended b))
    (d n : Nat) : Keeps R (copyMatch d n) :=
  Keeps.bind ht (keeps_checkDistance hr d) fun _ =>
    Keeps.repeatCmd hr ht (Keeps.getBind fun s => keeps_windowAppend hr ha _ s) n

/-- A command's body that keeps `R` says what the command can do. -/
theorem issue_keeps {modes : List Mode} {body : Cmd Unit} (hr : ∀ s, R s s) (h : Keeps R body) {s t : State}
    (e : issue modes body s = .next t) : R s t ∨ ∃ u c, R s u ∧ t = u.takeFault c := by
  rcases issue_cases modes body s with ⟨_, h'⟩ | ⟨_, _, h'⟩ | ⟨_, _, h'⟩
  · rw [h'] at e; cases e; exact .inl (hr s)
  · rw [h'] at e; cases e; exact .inr ⟨s, _, hr s, rfl⟩
  · rw [h'] at e
    refine conclude_ends (P := fun o => o = .next t → R s t ∨ ∃ u c, R s u ∧ t = u.takeFault c) ?_ e
    refine (h s).mono (fun _ u hu hh => ?_) fun st u hu => ?_
    · cases hh; exact .inl hu
    · cases st with
      | raise c => intro hh; cases hh; exact .inr ⟨u, c, hu, rfl⟩
      | stuck f => intro hh; cases hh

/-! ## Walks through a tree -/

/-- The node at hand lies within the walk that is left. -/
theorem walk_here (m k : Nat) : 2 * m < (m + 1) * 2 ^ (k + 1) := by
  have : 1 ≤ 2 ^ k := Nat.one_le_two_pow
  rw [pow_succ]
  nlinarith

/-- The walk left after one step lies within the walk before it. -/
theorem walk_next {m k x : Nat} {b : Bool} (h : 2 * x < (2 * m + b.toNat + 1) * 2 ^ k) :
    2 * x < (m + 1) * 2 ^ (k + 1) := by
  have hb : b.toNat ≤ 1 := Bool.toNat_le b
  have : (2 * m + b.toNat + 1) * 2 ^ k ≤ (2 * m + 2) * 2 ^ k := Nat.mul_le_mul_right _ (by omega)
  have e : (2 * m + 2) * 2 ^ k = (m + 1) * 2 ^ (k + 1) := by ring
  omega

/-- The window and PROPS, which every context is computed from (41_probability_model.md R167, R168), are as before. -/
def KeepsContext (s t : State) : Prop := t.window = s.window ∧ t.props = s.props

theorem litState_congr {s t : State} (hw : t.window = s.window) (hp : t.props = s.props) : litState t = litState s := by
  simp [litState, posOf, lastByte, hw, hp]

theorem posState_congr {s t : State} (hw : t.window = s.window) (hp : t.props = s.props) : posState t = posState s := by
  simp [posState, posOf, hw, hp]

theorem KeepsContext.trans (s t u : State) (h : KeepsContext s t) (h' : KeepsContext t u) : KeepsContext s u :=
  ⟨h'.1.trans h.1, h'.2.trans h.2⟩

theorem encRel_context : EncRel KeepsContext (fun _ => True) where
  refl _ := ⟨rfl, rfl⟩
  trans := KeepsContext.trans
  range _ _ := ⟨rfl, rfl⟩
  low _ _ := ⟨rfl, rfl⟩
  cache _ _ _ := ⟨rfl, rfl⟩
  cell _ _ _ _ _ := ⟨rfl, rfl⟩
  out _ _ := ⟨rfl, rfl⟩

theorem decRel_context : DecRel KeepsContext (fun _ => True) where
  refl _ := ⟨rfl, rfl⟩
  trans := KeepsContext.trans
  range _ _ := ⟨rfl, rfl⟩
  code _ _ := ⟨rfl, rfl⟩
  cell _ _ _ _ _ := ⟨rfl, rfl⟩
  take _ _ _ _ := ⟨rfl, rfl⟩

/-! ## Encoder -/

namespace EncRel

variable (h : EncRel R C)
include h

theorem shiftLow : Keeps R shiftLow := by
  refine Keeps.getBind fun s => ?_
  refine Keeps.bind h.trans (Keeps.runIf h.refl ?_) (fun _ => ?_) s
  · refine Keeps.getBind fun u => ?_
    exact Keeps.bind h.trans (keeps_outWriteAll h.refl h.trans h.out _)
      (fun _ => keeps_modify fun t => h.cache t _ _) u
  · exact keeps_modify fun t => h.trans _ _ _ (h.cache t _ _) (h.low _ _)

theorem normalizeLoop : ∀ n, Keeps R (encNormalizeLoop n)
  | 0 => Keeps.stuck h.refl _
  | n + 1 => by
    refine Keeps.getBind fun s => ?_
    rw [ends_ite]
    split
    · rw [ends_bind, ends_set]
      have := Keeps.bind h.trans h.shiftLow (fun _ => normalizeLoop n) (s.withRange (BitVec.ofNat 32 (s.range.toNat <<< 8)))
      exact this.mono (fun _ t ht => h.trans _ _ _ (h.range s _) ht) fun _ t ht => h.trans _ _ _ (h.range s _) ht
    · exact h.refl s

theorem split (p : Nat) (bit : Bool) (s : State) : R s (encSplit p bit s) := by
  unfold encSplit
  split
  · exact h.trans _ _ _ (h.low s _) (h.range _ _)
  · exact h.range s _

theorem bitCore (p : Nat) (bit : Bool) : Keeps R (encodeBitCore p bit) :=
  Keeps.bind h.trans (keeps_modify fun s => h.split p bit s) fun _ =>
    Keeps.bind h.trans (h.normalizeLoop 4) fun _ => Keeps.pure h.refl _

theorem cellDecision {a : Nat} (ha : C a) (bit : Bool) : Keeps R (encCell a bit) :=
  Keeps.bind h.trans (keeps_readCell h.refl a) fun p =>
    Keeps.bind h.trans (h.bitCore p bit) fun q => keeps_writeCell h.refl fun s => h.cell s a q ha

theorem discard (p : Nat) (bit : Bool) : Keeps R (encDiscard p bit) :=
  Keeps.bind h.trans (h.bitCore p bit) fun _ => Keeps.pure h.refl _

theorem treeLoop (base v : Nat) : ∀ k m, (∀ x, m ≤ x → 2 * x < (m + 1) * 2 ^ k → C (base + x)) →
    Keeps R (treeEncodeLoop base v k m)
  | 0, _, _ => Keeps.pure h.refl _
  | k + 1, m, hC => by
    refine Keeps.bind h.trans (h.cellDecision (hC m le_rfl (walk_here m k)) _) fun _ => treeLoop base v k _ ?_
    exact fun x h1 h2 => hC x (by omega) (walk_next h2)

theorem literal {s : State} (hC : C (isMatchCell s.fsm.toNat (posState s)))
    (hL : ∀ x, 1 ≤ x → x < 256 → C (literalBase (litState s) + x))
    (hf : ∀ s n, R s (s.withFsm n)) (ha : ∀ s b, R s (s.appended b)) (b : Byte) :
    Ends (encLiteral b) s (fun _ t => R s t) (fun _ t => R s t) := by
  unfold encLiteral
  rw [ends_bind, ends_get]
  refine Ends.bind ((h.cellDecision hC _ s).and (encRel_context.cellDecision trivial _ s) |>.mono
    (fun _ _ h => h) fun _ _ h => h.1) fun _ t ht => ?_
  obtain ⟨ht, hk⟩ := ht
  rw [ends_bind]
  unfold literalCoder
  rw [ends_bind, ends_get, ends_ite]
  split
  · rw [ends_pure, litState_congr hk.1 hk.2]
    refine (Keeps.bind h.trans (h.treeLoop _ _ 8 1 fun x h1 h2 => hL x h1 (by omega)) (fun _ => ?_) t).mono
      (fun _ u hu => h.trans _ _ _ ht hu) fun _ u hu => h.trans _ _ _ ht hu
    exact Keeps.bind h.trans (keeps_modify fun u => hf u _) fun _ => keeps_windowAppend h.refl ha b
  · exact ht

theorem endMarker {s : State} (hC : C (isMatchCell s.fsm.toNat (posState s))) (he : ∀ s, R s s.sawEos) :
    Ends encEos s (fun _ t => R s t) (fun _ t => R s t) := by
  unfold encEos
  rw [ends_bind, ends_get]
  refine Keeps.bind h.trans (h.cellDecision hC _) (fun _ => ?_) s
  refine Keeps.bind h.trans (h.discard _ _) fun _ => ?_
  refine Keeps.bind h.trans (Keeps.repeatCmd h.refl h.trans (h.discard _ _) _) fun _ => ?_
  refine Keeps.bind h.trans (Keeps.repeatCmd h.refl h.trans (h.discard _ _) _) fun _ => ?_
  refine Keeps.bind h.trans (Keeps.repeatCmd h.refl h.trans (h.discard _ _) _) fun _ => ?_
  exact keeps_modify he

end EncRel

/-! ## Decoder -/

namespace DecRel

variable (h : DecRel R C)
include h

theorem normalizeLoop : ∀ n, Keeps R (decNormalizeLoop n)
  | 0 => Keeps.pure h.refl _
  | n + 1 => by
    refine Keeps.getBind fun s => ?_
    rw [ends_ite]
    split
    · rw [ends_bind, ends_set]
      have := Keeps.bind h.trans (keeps_inRead h.refl h.take .truncated) (fun b => Keeps.bind h.trans
        (keeps_modify fun t => h.code t (BitVec.ofNat 32 (t.code.toNat <<< 8 ||| b.toNat)))
        fun _ => normalizeLoop n) (s.withRange (BitVec.ofNat 32 (s.range.toNat <<< 8)))
      exact this.mono (fun _ t ht => h.trans _ _ _ (h.range s _) ht) fun _ t ht => h.trans _ _ _ (h.range s _) ht
    · exact h.refl s

theorem normalize : Keeps R decNormalize := Keeps.getBind fun s => h.normalizeLoop _ s

theorem split (p : Nat) (s : State) : R s (decSplit p s) := by
  unfold decSplit
  split
  · exact h.trans _ _ _ (h.code s _) (h.range _ _)
  · exact h.range s _

theorem bitCore (p : Nat) : Keeps R (decodeBitCore p) := by
  refine Keeps.getBind fun s => ?_
  rw [ends_bind, ends_set]
  refine (Keeps.bind h.trans h.normalize (fun _ => Keeps.pure h.refl _) (decSplit p s)).mono ?_ ?_
  · exact fun _ t ht => h.trans _ _ _ (h.split p s) ht
  · exact fun _ t ht => h.trans _ _ _ (h.split p s) ht

theorem cellDecision {a : Nat} (ha : C a) : Keeps R (decCell a) :=
  Keeps.bind h.trans (keeps_readCell h.refl a) fun p =>
    Keeps.bind h.trans (h.bitCore p) fun _ =>
      Keeps.bind h.trans (keeps_writeCell h.refl fun s => h.cell s a _ ha) fun _ => Keeps.pure h.refl _

theorem treeLoop (base : Nat) : ∀ k m, (∀ x, m ≤ x → 2 * x < (m + 1) * 2 ^ k → C (base + x)) →
    Keeps R (treeDecodeLoop base k m)
  | 0, _, _ => Keeps.pure h.refl _
  | k + 1, m, hC => by
    refine Keeps.bind h.trans (h.cellDecision (hC m le_rfl (walk_here m k))) fun _ => treeLoop base k _ ?_
    exact fun x h1 h2 => hC x (by omega) (walk_next h2)

theorem tree {base n : Nat} (hC : ∀ x, 1 ≤ x → x < 2 ^ n → C (base + x)) : Keeps R (treeDecode base n) :=
  Keeps.bind h.trans (h.treeLoop base n 1 fun x h1 h2 => hC x h1 (by omega)) fun _ => Keeps.pure h.refl _

theorem rtreeLoop (base : Nat) : ∀ j k m r, (∀ x, m ≤ x → 2 * x < (m + 1) * 2 ^ j → C (base + x)) →
    Keeps R (rtreeDecodeLoop base j k m r)
  | 0, _, _, _, _ => Keeps.pure h.refl _
  | j + 1, _, m, _, hC => by
    refine Keeps.bind h.trans (h.cellDecision (hC m le_rfl (walk_here m j))) fun _ => rtreeLoop base j _ _ _ ?_
    exact fun x h1 h2 => hC x (by omega) (walk_next h2)

theorem rtree {base n : Nat} (hC : ∀ x, 1 ≤ x → x < 2 ^ n → C (base + x)) : Keeps R (rtreeDecode base n) :=
  h.rtreeLoop base n 0 1 0 fun x h1 h2 => hC x h1 (by omega)

theorem init : Keeps R decInit := by
  have hc : ∀ n c, Keeps R (readCode n c) := by
    intro n
    induction n with
    | zero => exact fun c => Keeps.pure h.refl _
    | succ n ih => exact fun c => Keeps.bind h.trans (keeps_inRead h.refl h.take _) fun b => ih _
  refine Keeps.bind h.trans (keeps_modify fun s => h.range s _) fun _ => ?_
  refine Keeps.bind h.trans (keeps_inRead h.refl h.take _) fun _ => ?_
  exact Keeps.bind h.trans (hc 4 0) fun c => keeps_modify fun t => h.code t _

theorem direct (n : Nat) : Keeps R (decDirect n) := by
  have hl : ∀ k r, Keeps R (decDirectLoop k r) := by
    intro k
    induction k with
    | zero => exact fun r => Keeps.pure h.refl _
    | succ k ih =>
      intro r
      refine Keeps.getBind fun s => ?_
      rw [ends_bind, ends_set]
      have hs : R s (directSplit s) := by
        unfold directSplit
        split
        · exact h.trans _ _ _ (h.code s _) (h.range _ _)
        · exact h.range s _
      refine (Keeps.bind h.trans h.normalize (fun _ => ih _) (directSplit s)).mono ?_ ?_
      · exact fun _ t ht => h.trans _ _ _ hs ht
      · exact fun _ t ht => h.trans _ _ _ hs ht
  exact hl n 0

end DecRel

/-! ## Tokens -/

theorem litNext_le {s : Nat} (h : s < 2 ^ 4) : litNext s ≤ 11 := by unfold litNext; split_ifs <;> omega
theorem matchNext_le (s : Nat) : matchNext s ≤ 11 := by unfold matchNext; split_ifs <;> omega
theorem repNext_le (s : Nat) : repNext s ≤ 11 := by unfold repNext; split_ifs <;> omega
theorem shortRepNext_le (s : Nat) : shortRepNext s ≤ 11 := by unfold shortRepNext; split_ifs <;> omega

/-- `x` keeps `R` where it is cut short and leads to `Q` where it ends. -/
def Leads {α : Type} (R Q : State → State → Prop) (x : Cmd α) : Prop :=
  ∀ s, Ends x s (fun _ t => Q s t) (fun _ t => R s t)

theorem Leads.bind {α β : Type} (ht : ∀ s t u, R s t → R t u → R s u) (hc : ∀ s t u, R s t → Q t u → Q s u) {x : Cmd α}
    {f : α → Cmd β} (hx : Keeps R x) (hf : ∀ a, Leads R Q (f a)) : Leads R Q (x >>= f) := by
  intro s
  refine (hx s).bind fun a t hst => ?_
  exact (hf a t).mono (fun _ u h => hc s t u hst h) fun _ u h => ht s t u hst h

theorem Leads.getBind {β : Type} {f : State → Cmd β} (hf : ∀ s, Ends (f s) s (fun _ t => Q s t) (fun _ t => R s t)) :
    Leads R Q ((MonadState.get : Cmd State) >>= f) := fun s => ends_bind.2 (hf s)

theorem Leads.ite {α : Type} {p : Prop} [Decidable p] {x y : Cmd α} (hx : Leads R Q x) (hy : Leads R Q y) :
    Leads R Q (if p then x else y) := by
  split <;> assumption

namespace TokRel

variable (h : TokRel R Q C)
include h

theorem bindTo {α β : Type} {x : Cmd α} {f : α → Cmd β} (hx : Keeps R x) (hf : ∀ a, Leads R Q (f a)) :
    Leads R Q (x >>= f) := Leads.bind h.trans h.comp hx hf

theorem report (k : TokenKind) : Leads R Q (report k) := fun s => h.res s _

theorem setFsm {n : Nat} (hn : n ≤ 11) : Keeps R (setFsm n) := keeps_modify fun s => h.fsm s _ hn

theorem append' (b : Byte) : Keeps R (windowAppend b) := keeps_windowAppend h.refl h.append b

theorem copy (d n : Nat) : Keeps R (copyMatch d n) := keeps_copyMatch h.refl h.trans h.append d n

theorem finish (i : Nat) (k : TokenKind) : Leads R Q (finishMatch i k) := by
  refine Leads.getBind fun s => ?_
  exact h.bindTo (Keeps.check h.refl _ _) (fun _ => h.bindTo (h.copy _ _) fun _ => h.report k) s

theorem doneReport {k : TokenKind} (hk : k.code = 0 ∨ k.code = 8) : Leads R Q (do
    modify fun t => t.withMode .done
    Machine.report k) := fun s => h.done s _ hk

theorem marker : Leads R Q endMarker := by
  refine h.bindTo (keeps_modify h.eos) fun _ => Leads.getBind fun s => ?_
  refine h.bindTo (Keeps.check h.refl _ _) (fun _ => ?_) s
  refine h.bindTo (Keeps.check h.refl _ _) fun _ => ?_
  exact h.bindTo (Keeps.check h.refl _ _) fun _ => h.doneReport (.inr rfl)

theorem shortRep (st : Nat) : Leads R Q (decShortRep st) := by
  refine h.bindTo (h.setFsm (shortRepNext_le st)) fun _ => Leads.getBind fun s => ?_
  exact h.bindTo (keeps_byteAt h.refl _) (fun b => h.bindTo (h.append' b) fun _ => h.report _) s

/-- The cells of one literal coder. -/
theorem plain {lb : Nat} (hL : ∀ x, 1 ≤ x → x < 0x300 → C (lb + x)) : ∀ k sym, 1 ≤ sym → (sym + 1) * 2 ^ k ≤ 0x200 →
    Keeps R (literalPlain lb k sym)
  | 0, _, _, _ => Keeps.pure h.refl _
  | k + 1, sym, h1, h2 => by
    have := walk_here sym k
    refine Keeps.bind h.trans (h.cellDecision (hL sym h1 (by omega))) fun b => plain hL k _ (by omega) ?_
    have hb : b.toNat ≤ 1 := Bool.toNat_le b
    have : (2 * sym + b.toNat + 1) * 2 ^ k ≤ (2 * sym + 2) * 2 ^ k := Nat.mul_le_mul_right _ (by omega)
    have e : (2 * sym + 2) * 2 ^ k = (sym + 1) * 2 ^ (k + 1) := by ring
    omega

theorem matched {lb : Nat} (hL : ∀ x, 1 ≤ x → x < 0x300 → C (lb + x)) : ∀ k mb sym, 1 ≤ sym →
    (sym + 1) * 2 ^ k ≤ 0x200 → Keeps R (literalMatched lb k mb sym)
  | 0, _, _, _, _ => Keeps.pure h.refl _
  | k + 1, mb, sym, h1, h2 => by
    have hw := walk_here sym k
    have hm : (mb.testBit 7).toNat ≤ 1 := Bool.toNat_le _
    have hc : C (lb + (1 + (mb.testBit 7).toNat) <<< 8 + sym) := by
      rw [add_assoc, Nat.shiftLeft_eq]
      exact hL _ (by omega) (by omega)
    have hn : ∀ b : Bool, (2 * sym + b.toNat + 1) * 2 ^ k ≤ 0x200 := fun b => by
      have hb : b.toNat ≤ 1 := Bool.toNat_le b
      have : (2 * sym + b.toNat + 1) * 2 ^ k ≤ (2 * sym + 2) * 2 ^ k := Nat.mul_le_mul_right _ (by omega)
      have e : (2 * sym + 2) * 2 ^ k = (sym + 1) * 2 ^ (k + 1) := by ring
      omega
    refine Keeps.bind h.trans (h.cellDecision hc) fun b => Keeps.ite ?_ ?_
    · exact h.plain hL k _ (by omega) (hn b)
    · exact matched hL k _ _ (by omega) (hn b)

theorem literal {lb : Nat} (hL : ∀ x, 1 ≤ x → x < 0x300 → C (lb + x)) (st : Nat) : Keeps R (decodeLiteral lb st) := by
  refine Keeps.getBind fun s => Keeps.ite ?_ ?_ s
  · exact Keeps.bind h.trans (keeps_byteAt h.refl _) fun _ =>
      Keeps.bind h.trans (h.matched hL 8 _ 1 (by omega) (by omega)) fun _ => Keeps.pure h.refl _
  · exact Keeps.bind h.trans (h.plain hL 8 1 (by omega) (by omega)) fun _ => Keeps.pure h.refl _

variable (hM : ∀ a, 0x1B0 ≤ a → a < 0x744 → C a)
include hM

theorem len {l ps : Nat} (hl : l = lenBase ∨ l = repLenBase) (hp : ps < 16 ∨ ∀ a, C a) :
    Keeps R (lenDecode l ps) := by
  have hx : ∀ k x, x < 2 ^ 3 → C (l + (k + (8 * ps + x))) ∨ ps < 16 := fun k x _ => hp.elim .inr fun h => .inl (h _)
  have hc : ∀ x, x < 0x202 → C (l + x) := fun x hx => by
    rcases hl with rfl | rfl <;> refine hM _ ?_ ?_ <;> simp only [lenBase, repLenBase] <;> omega
  refine Keeps.bind h.trans (h.cellDecision (hc _ (by omega))) fun c => Keeps.ite ?_ (h.tree fun x h1 h2 => ?_)
  · refine Keeps.bind h.trans (h.cellDecision (hc _ (by omega))) fun c2 => Keeps.ite ?_ ?_
    · refine Keeps.bind h.trans (h.tree fun x h1 h2 => ?_) fun _ => Keeps.pure h.refl _
      rw [add_assoc]
      exact hc _ (by omega)
    · refine Keeps.bind h.trans (h.tree fun x h1 h2 => ?_) fun _ => Keeps.pure h.refl _
      rw [add_assoc, add_assoc]
      exact (hx 0x082 x h2).elim id fun hp => hc _ (by omega)
  · rw [add_assoc, add_assoc]
    exact (hx 0x002 x h2).elim id fun hp => hc _ (by omega)

theorem dist (i : Nat) : Keeps R (distDecode i) := by
  have hl : lenState i ≤ 3 := Nat.min_le_right _ _
  refine Keeps.bind h.trans (h.tree fun x h1 h2 => ?_) fun slot => ?_
  · refine hM _ ?_ ?_ <;> simp only [posSlotBase] <;> omega
  split
  · exact Keeps.pure h.refl _
  split
  · rename_i h4 h14
    refine Keeps.bind h.trans (h.rtree fun x h1 h2 => ?_) fun _ => Keeps.pure h.refl _
    have h4 : 4 ≤ slot := by omega
    have : 0x1B0 ≤ specPosBase + slotBase slot - slot + x ∧ specPosBase + slotBase slot - slot + x < 0x744 := by
      interval_cases slot <;> simp [specPosBase, slotBase, slotBits] at h2 ⊢ <;> omega
    exact hM _ this.1 this.2
  · refine Keeps.bind h.trans (h.direct _) fun _ =>
      Keeps.bind h.trans (h.rtree fun x h1 h2 => ?_) fun _ => Keeps.pure h.refl _
    refine hM _ ?_ ?_ <;> simp only [alignBase] <;> omega

theorem repLength (st : Nat) {ps : Nat} (hp : ps < 16 ∨ ∀ a, C a) (k : TokenKind) : Leads R Q (decRepLength st ps k) :=
  h.bindTo (h.len hM (.inr rfl) hp) fun i => h.bindTo (h.setFsm (repNext_le st)) fun _ => h.finish i k

theorem olderRep {st ps : Nat} (h1 : C (isRepG1Cell st)) (h2 : C (isRepG2Cell st))
    (hp : ps < 16 ∨ ∀ a, C a) :
    Leads R Q (decOlderRep st ps) := by
  refine h.bindTo (h.cellDecision h1) fun g1 => Leads.ite ?_ ?_
  · refine h.bindTo (h.cellDecision h2) fun g2 => Leads.ite ?_ ?_
    · exact h.bindTo (keeps_modify fun s => h.reps s _ _ _ _) fun _ => h.repLength hM _ hp _
    · exact h.bindTo (keeps_modify fun s => h.reps s _ _ _ _) fun _ => h.repLength hM _ hp _
  · exact h.bindTo (keeps_modify fun s => h.reps s _ _ _ _) fun _ => h.repLength hM _ hp _

theorem repToken {st ps : Nat} (h0 : C (isRepG0Cell st)) (h1 : C (isRepG1Cell st)) (h2 : C (isRepG2Cell st))
    (hg : C (isRep0LongCell st ps)) (hp : ps < 16 ∨ ∀ a, C a) : Leads R Q (decRepToken st ps) := by
  refine Leads.getBind fun s => ?_
  refine h.bindTo (Keeps.check h.refl _ _) (fun _ => ?_) s
  refine h.bindTo (h.cellDecision h0) fun g0 => Leads.ite (h.olderRep hM h1 h2 hp) ?_
  exact h.bindTo (h.cellDecision hg) fun long => Leads.ite (h.repLength hM _ hp _) (h.shortRep _)

theorem matchToken (st : Nat) {ps : Nat} (hp : ps < 16 ∨ ∀ a, C a) : Leads R Q (decMatchToken st ps) := by
  refine h.bindTo (keeps_modify fun s => h.reps s _ _ _ _) fun _ => ?_
  refine h.bindTo (h.len hM (.inl rfl) hp) fun i => h.bindTo (h.setFsm (matchNext_le st)) fun _ => ?_
  refine h.bindTo (h.dist hM i) fun d => ?_
  refine h.bindTo (keeps_modify fun s => h.reps s _ _ _ _) fun _ => ?_
  exact Leads.ite h.marker (h.finish i _)

end TokRel

/-- A token's decoding keeps a relation that its updates keep, if the cells of its position, state and literal context
are among `C`. -/
theorem TokRel.token (h : TokRel R Q C) {s : State} (hp : posState s < 16 ∨ ∀ a, C a) (hC : ∀ a, TokenCell s a → C a) :
    Ends decToken s (fun _ t => Q s t) (fun _ t => R s t) := by
  have hM : ∀ a, 0x1B0 ≤ a → a < 0x744 → C a := fun a h1 h2 => hC a (.inr (.inr (.inr (.inr (.inr (.inr (.inr ⟨h1, h2⟩)))))))
  unfold decToken
  rw [ends_bind, ends_get, ends_ite]
  split
  · exact h.doneReport (.inl rfl) s
  refine Ends.bind ((h.cellDecision (hC _ (.inl rfl)) s).and (decRel_context.cellDecision trivial s) |>.mono
    (fun _ _ h => h) fun _ _ h => h.1) fun m t ht => ?_
  obtain ⟨ht, hk⟩ := ht
  rw [ends_ite]
  split
  · refine (h.bindTo (h.cellDecision (hC _ (.inr (.inl rfl)))) (fun r => Leads.ite ?_ ?_) t : Ends _ t _ _).mono
      (fun _ u hu => h.comp _ _ _ ht hu) fun _ u hu => h.trans _ _ _ ht hu
    · exact h.repToken hM (hC _ (.inr (.inr (.inl rfl)))) (hC _ (.inr (.inr (.inr (.inl rfl)))))
        (hC _ (.inr (.inr (.inr (.inr (.inl rfl)))))) (hC _ (.inr (.inr (.inr (.inr (.inr (.inl rfl))))))) hp
    · exact h.matchToken hM _ hp
  · unfold decLiteralToken literalCoder
    rw [ends_bind, ends_bind, ends_get, ends_ite]
    split
    · rw [ends_pure, litState_congr hk.1 hk.2]
      refine (h.bindTo (h.literal (lb := literalBase (litState s)) (fun x h1 h2 => ?_) _) (fun b =>
        h.bindTo (h.setFsm (litNext_le s.fsm.isLt)) fun _ =>
          h.bindTo (h.append' b) fun _ => h.report _) t).mono
        (fun _ u hu => h.comp _ _ _ ht hu) fun _ u hu => h.trans _ _ _ ht hu
      exact hC _ (.inr (.inr (.inr (.inr (.inr (.inr (.inl ⟨by omega, by omega⟩)))))))
    · exact ht

/-- The same for a relation that any cell's update keeps. -/
theorem TokRel.anyToken (h : TokRel R Q fun _ => True) : Leads R Q decToken := fun _ =>
  h.token (.inr fun _ => trivial) fun _ _ => trivial

end Sys2Proof.Machine
end

