-- ==== Sys2Proof/Laws/Changes.lean ====
section
/-! SUPPORT. Frames as equations: the state with the fields that an operation may write blanked out. Two states with
equal blanks differ at most in those fields. -/

namespace Sys2Proof.Machine

/-- The state without what the encoder's arithmetic writes. -/
def State.lessEnc (s : State) : State :=
  { s with low := 0, range := 0, cache := 0, cacheSize := 0, sink := [], outCount := 0 }

/-- The state without what the encoder's decisions write. -/
def State.lessEncCells (s : State) : State := { s.lessEnc with pram := [] }

/-- The state without what the decoder's arithmetic writes. -/
def State.lessDec (s : State) : State := { s with range := 0, code := 0, source := [], inCount := 0 }

/-- The state without what the decoder's decisions write. -/
def State.lessDecCells (s : State) : State := { s.lessDec with pram := [] }

/-- The state without what the window operations write. -/
def State.lessWindow (s : State) : State := { s with window := [], sink := [], outCount := 0 }

/-- The state without what a token's decoding writes before it ends. -/
def State.lessTok (s : State) : State :=
  { s.lessDecCells with
    window := [], sink := [], outCount := 0, fsm := 0, rep0 := 0, rep1 := 0, rep2 := 0, rep3 := 0, eosSeen := false }

/-- The state without what a token's decoding writes. -/
def State.lessToken (s : State) : State := { s.lessTok with res := 0, mode := .idle }

variable {s t : State}

theorem eq_of_lessEnc (h : t.lessEnc = s.lessEnc) : t = { s with
    low := t.low, range := t.range, cache := t.cache, cacheSize := t.cacheSize, sink := t.sink,
    outCount := t.outCount } := by
  cases t; cases s; cases h; rfl

theorem eq_of_lessEncCells (h : t.lessEncCells = s.lessEncCells) : t = { s with
    low := t.low, range := t.range, cache := t.cache, cacheSize := t.cacheSize, sink := t.sink,
    outCount := t.outCount, pram := t.pram } := by
  cases t; cases s; cases h; rfl

theorem eq_of_lessDec (h : t.lessDec = s.lessDec) : t = { s with
    range := t.range, code := t.code, source := t.source, inCount := t.inCount } := by
  cases t; cases s; cases h; rfl

theorem eq_of_lessDecCells (h : t.lessDecCells = s.lessDecCells) : t = { s with
    range := t.range, code := t.code, source := t.source, inCount := t.inCount, pram := t.pram } := by
  cases t; cases s; cases h; rfl

theorem eq_of_lessWindow (h : t.lessWindow = s.lessWindow) : t = { s with
    window := t.window, sink := t.sink, outCount := t.outCount } := by
  cases t; cases s; cases h; rfl

theorem eq_of_lessToken (h : t.lessToken = s.lessToken) : t = { s with
    range := t.range, code := t.code, source := t.source, inCount := t.inCount, pram := t.pram, window := t.window,
    sink := t.sink, outCount := t.outCount, fsm := t.fsm, rep0 := t.rep0, rep1 := t.rep1, rep2 := t.rep2,
    rep3 := t.rep3, res := t.res, mode := t.mode, eosSeen := t.eosSeen } := by
  cases t; cases s; cases h; rfl

theorem encRel_lessEnc : EncRel (fun s t => t.lessEncCells = s.lessEncCells) (fun _ => True) where
  refl _ := rfl
  trans _ _ _ h h' := h'.trans h
  range _ _ := rfl
  low _ _ := rfl
  cache _ _ _ := rfl
  cell _ _ _ _ _ := rfl
  out _ _ := rfl

/-- The encoder's arithmetic writes no cell. -/
theorem encRel_arith : EncRel (fun s t => t.lessEnc = s.lessEnc) (fun _ => False) where
  refl _ := rfl
  trans _ _ _ h h' := h'.trans h
  range _ _ := rfl
  low _ _ := rfl
  cache _ _ _ := rfl
  cell _ _ _ h _ := h.elim
  out _ _ := rfl

theorem decRel_lessDec : DecRel (fun s t => t.lessDecCells = s.lessDecCells) (fun _ => True) where
  refl _ := rfl
  trans _ _ _ h h' := h'.trans h
  range _ _ := rfl
  code _ _ := rfl
  cell _ _ _ _ _ := rfl
  take _ _ _ _ := rfl

/-- The decoder's arithmetic writes no cell. -/
theorem decRel_arith : DecRel (fun s t => t.lessDec = s.lessDec) (fun _ => False) where
  refl _ := rfl
  trans _ _ _ h h' := h'.trans h
  range _ _ := rfl
  code _ _ := rfl
  cell _ _ _ h _ := h.elim
  take _ _ _ _ := rfl

theorem lessWindow_appended (s : State) (b : Byte) : (s.appended b).lessWindow = s.lessWindow := by
  unfold State.appended
  split <;> rfl

theorem lessTok_appended (s : State) (b : Byte) : (s.appended b).lessTok = s.lessTok := by
  unfold State.appended
  split <;> rfl

theorem tokRel_lessToken : TokRel (fun s t => t.lessTok = s.lessTok) (fun s t => t.lessToken = s.lessToken)
    (fun _ => True) where
  refl _ := rfl
  trans _ _ _ h h' := h'.trans h
  range _ _ := rfl
  code _ _ := rfl
  cell _ _ _ _ _ := rfl
  take _ _ _ _ := rfl
  fsm _ _ _ := rfl
  reps _ _ _ _ _ := rfl
  eos _ := rfl
  append := lessTok_appended
  comp s t u h h' := by
    have := congrArg (fun v : State => { v with res := 0, mode := .idle }) h
    exact h'.trans this
  res _ _ := rfl
  done _ _ _ := rfl

/-! ## Which cells change -/

/-- No cell outside `C` changes. -/
def OnlyCells (C : Nat → Prop) (s t : State) : Prop := ∀ a, ¬ C a → cellAt t a = cellAt s a

theorem OnlyCells.refl {C : Nat → Prop} (s : State) : OnlyCells C s s := fun _ _ => rfl

theorem OnlyCells.trans {C : Nat → Prop} (s t u : State) (h : OnlyCells C s t) (h' : OnlyCells C t u) :
    OnlyCells C s u := fun a ha => (h' a ha).trans (h a ha)

theorem OnlyCells.write {C : Nat → Prop} (s : State) (a : Nat) (v : Prob) (ha : C a) :
    OnlyCells C s (s.withPram (Memory.write s.pram a v)) := fun b hb => by
  unfold cellAt
  rw [State.withPram_pram, Memory.read_write_other (fun h : a = b => hb (h ▸ ha))]

theorem encRel_cells (C : Nat → Prop) : EncRel (OnlyCells C) C where
  refl := OnlyCells.refl
  trans := OnlyCells.trans
  range _ _ := OnlyCells.refl _
  low _ _ := OnlyCells.refl _
  cache _ _ _ := OnlyCells.refl _
  cell _ _ _ h _ := OnlyCells.write _ _ _ h
  out _ _ := OnlyCells.refl _

theorem decRel_cells (C : Nat → Prop) : DecRel (OnlyCells C) C where
  refl := OnlyCells.refl
  trans := OnlyCells.trans
  range _ _ := OnlyCells.refl _
  code _ _ := OnlyCells.refl _
  cell _ _ _ h _ := OnlyCells.write _ _ _ h
  take _ _ _ _ := OnlyCells.refl _

/-- Two relations that the encoder keeps, both at once. -/
theorem EncRel.and {R R' : State → State → Prop} {C : Nat → Prop} (h : EncRel R C) (h' : EncRel R' C) :
    EncRel (fun s t => R s t ∧ R' s t) C where
  refl s := ⟨h.refl s, h'.refl s⟩
  trans s t u k l := ⟨h.trans s t u k.1 l.1, h'.trans s t u k.2 l.2⟩
  range s v := ⟨h.range s v, h'.range s v⟩
  low s v := ⟨h.low s v, h'.low s v⟩
  cache s c n := ⟨h.cache s c n, h'.cache s c n⟩
  cell s a v k l := ⟨h.cell s a v k l, h'.cell s a v k l⟩
  out s b := ⟨h.out s b, h'.out s b⟩

theorem EncRel.mono {R : State → State → Prop} {C D : Nat → Prop} (h : EncRel R D) (hCD : ∀ a, C a → D a) :
    EncRel R C :=
  { h with cell := fun s a v k l => h.cell s a v (hCD a k) l }

/-- A token changes no cell but those of `C`, if it does not change its literal context by other means. -/
theorem tokRel_cells (C : Nat → Prop) : TokRel (OnlyCells C) (OnlyCells C) C where
  toDecRel := decRel_cells C
  fsm _ _ _ := OnlyCells.refl _
  reps _ _ _ _ _ := OnlyCells.refl _
  eos _ := OnlyCells.refl _
  append s b := by
    unfold State.appended
    split <;> exact OnlyCells.refl _
  comp := OnlyCells.trans
  res _ _ := OnlyCells.refl _
  done _ _ _ := OnlyCells.refl _

end Sys2Proof.Machine
end

