-- ==== Sys2Proof/Laws/Commute.lean ====
section
/-! SUPPORT. Updates of a field that a piece of pseudocode neither reads nor writes: running it after the update is the
same as updating after it, however it ends. -/

namespace Sys2Proof.Machine

variable {α β : Type}

/-- A run's end with its state changed by `f`. -/
def mapState (f : State → State) : EStateM.Result Stop State α → EStateM.Result Stop State α
  | .ok a t => .ok a (f t)
  | .error e t => .error e (f t)

/-- `y` after `f` does what `x` does, then `f`. -/
def Commutes (f : State → State) (x y : Cmd α) (s : State) : Prop := y (f s) = mapState f (x s)

variable {f : State → State}

theorem Commutes.pure (a : α) (s : State) : Commutes f (pure a) (pure a) s := rfl

theorem Commutes.raise (c : Cause) (s : State) : Commutes f (raise c : Cmd α) (raise c) s := rfl

theorem Commutes.stuck (e : Fault) (s : State) : Commutes f (stuck e : Cmd α) (stuck e) s := rfl

theorem Commutes.check (ok : Bool) (c : Cause) (s : State) : Commutes f (check ok c) (check ok c) s := by
  unfold Machine.check
  split
  · exact Commutes.pure _ s
  · exact Commutes.raise _ s

theorem Commutes.modify {g h : State → State} {s : State} (e : h (f s) = f (g s)) :
    Commutes f (modify g : Cmd PUnit) (modify h) s := by
  change EStateM.Result.ok _ (h (f s)) = EStateM.Result.ok _ (f (g s))
  rw [e]

theorem Commutes.put {s t u : State} (e : u = f t) : Commutes f (set t : Cmd PUnit) (set u) s := by
  subst e
  rfl

theorem Commutes.bind {x x' : Cmd α} {y y' : α → Cmd β} {s : State} (hx : Commutes f x x' s)
    (hy : ∀ a t, Commutes f (y a) (y' a) t) : Commutes f (x >>= y) (x' >>= y') s := by
  unfold Commutes at *
  rw [bind_run, bind_run, hx]
  cases x s with
  | ok a t => exact hy a t
  | error e t => rfl

/-- A bind whose second part may use the state the first one read. -/
theorem Commutes.getBind {y y' : State → Cmd β} {s : State} (hy : Commutes f (y s) (y' (f s)) s) :
    Commutes f ((get : Cmd State) >>= y) ((get : Cmd State) >>= y') s := by
  unfold Commutes at *
  rw [bind_run, bind_run]
  exact hy

theorem Commutes.setBind {t u : State} {y y' : PUnit → Cmd β} {s : State} (e : u = f t)
    (hy : Commutes f (y ⟨⟩) (y' ⟨⟩) t) : Commutes f ((set t : Cmd PUnit) >>= y) ((set u : Cmd PUnit) >>= y') s := by
  subst e
  exact hy

theorem Commutes.ite {p q : Prop} [Decidable p] [Decidable q] (h : p ↔ q) {x x' y y' : Cmd α} {s : State}
    (hx : Commutes f x x' s) (hy : Commutes f y y' s) :
    Commutes f (if p then x else y) (if q then x' else y') s := by
  by_cases hp : p
  · rw [if_pos hp, if_pos (h.1 hp)]; exact hx
  · rw [if_neg hp, if_neg fun hq => hp (h.2 hq)]; exact hy

theorem Commutes.runIf {b : Bool} {x x' : Cmd Unit} {s : State} (hx : Commutes f x x' s) :
    Commutes f (runIf b x) (runIf b x') s := by
  unfold Machine.runIf
  exact Commutes.ite Iff.rfl hx (Commutes.pure _ s)

theorem Commutes.repeatCmd {x : Cmd Unit} (hx : ∀ s, Commutes f x x s) : ∀ n s,
    Commutes f (repeatCmd n x) (repeatCmd n x) s
  | 0, s => Commutes.pure () s
  | n + 1, s => Commutes.bind (hx s) fun _ t => Commutes.repeatCmd hx n t

/-! ## The encoder -/

/-- An update of what the encoder's arithmetic neither reads nor writes. -/
structure EncApart (f : State → State) : Prop where
  reads : ∀ s, (f s).low = s.low ∧ (f s).range = s.range ∧ (f s).cache = s.cache ∧ (f s).cacheSize = s.cacheSize ∧
    sinkFails (f s) = sinkFails s
  range : ∀ s v, (f s).withRange v = f (s.withRange v)
  low : ∀ s v, (f s).withLow v = f (s.withLow v)
  cache : ∀ s c n, (f s).withCache c n = f (s.withCache c n)
  out : ∀ s b, (f s).delivered b = f (s.delivered b)

/-- An update of what reading and writing cells leaves alone. -/
structure CellsApart (f : State → State) : Prop where
  reads : ∀ s, (f s).pram = s.pram
  writes : ∀ s m, (f s).withPram m = f (s.withPram m)

theorem readCell_commutes (h : CellsApart f) (a : Nat) (s : State) : Commutes f (readCell a) (readCell a) s := by
  unfold readCell
  refine Commutes.getBind ?_
  rw [h.reads]
  exact Commutes.ite Iff.rfl (Commutes.pure _ s) (Commutes.stuck _ s)

theorem writeCell_commutes (h : CellsApart f) (a v : Nat) (s : State) :
    Commutes f (writeCell a v) (writeCell a v) s := by
  unfold writeCell
  refine Commutes.getBind ?_
  rw [h.reads]
  exact Commutes.ite Iff.rfl (Commutes.put (h.writes s _)) (Commutes.stuck _ s)

namespace EncApart

variable (h : EncApart f)
include h

theorem outWrite (b : Byte) (s : State) : Commutes f (outWrite b) (outWrite b) s := by
  refine Commutes.getBind ?_
  rw [(h.reads s).2.2.2.2]
  exact Commutes.ite Iff.rfl (Commutes.raise _ s) (Commutes.put (h.out s b))

theorem outWriteAll : ∀ l s, Commutes f (outWriteAll l) (outWriteAll l) s
  | [], s => Commutes.pure () s
  | b :: l, s => Commutes.bind (h.outWrite b s) fun _ t => outWriteAll l t

theorem shiftLow (s : State) : Commutes f shiftLow shiftLow s := by
  obtain ⟨h1, _, h3, h4, _⟩ := h.reads s
  refine Commutes.getBind ?_
  rw [h1]
  refine Commutes.bind (Commutes.runIf (Commutes.getBind ?_)) fun _ t => Commutes.modify ?_
  · have : pendingRun (f s) = pendingRun s := by simp only [pendingRun, h1, h3, h4]
    rw [this, h1]
    exact Commutes.bind (h.outWriteAll _ s) fun _ t => Commutes.modify (h.cache t _ _)
  · obtain ⟨_, _, k3, k4, _⟩ := h.reads t
    rw [k3, k4, h.cache, h.low]

theorem normalizeLoop : ∀ n s, Commutes f (encNormalizeLoop n) (encNormalizeLoop n) s
  | 0, s => Commutes.stuck _ s
  | n + 1, s => by
    refine Commutes.getBind ?_
    rw [(h.reads s).2.1]
    refine Commutes.ite Iff.rfl (Commutes.setBind (h.range s _) ?_) (Commutes.pure () s)
    exact Commutes.bind (h.shiftLow _) fun _ t => normalizeLoop n t

theorem bitCore (p : Nat) (bit : Bool) (s : State) : Commutes f (encodeBitCore p bit) (encodeBitCore p bit) s := by
  refine Commutes.bind (Commutes.modify ?_) fun _ t => Commutes.bind (h.normalizeLoop 4 t) fun _ u => Commutes.pure _ u
  obtain ⟨h1, h2, _⟩ := h.reads s
  unfold encSplit
  rw [h1, h2, h.low, h.range, h.range]
  split <;> rfl

theorem discard (p : Nat) (bit : Bool) (s : State) : Commutes f (encDiscard p bit) (encDiscard p bit) s :=
  Commutes.bind (h.bitCore p bit s) fun _ t => Commutes.pure _ t

theorem cellDecision (hc : CellsApart f) (a : Nat) (bit : Bool) (s : State) :
    Commutes f (encCell a bit) (encCell a bit) s :=
  Commutes.bind (readCell_commutes hc a s) fun p t =>
    Commutes.bind (h.bitCore p bit t) fun q u => writeCell_commutes hc a q u

theorem treeLoop (hc : CellsApart f) (base v : Nat) : ∀ k m s,
    Commutes f (treeEncodeLoop base v k m) (treeEncodeLoop base v k m) s
  | 0, _, s => Commutes.pure () s
  | k + 1, _, s => Commutes.bind (h.cellDecision hc _ _ s) fun _ t => treeLoop hc base v k _ t

end EncApart

/-! ## The decoder -/

/-- An update of what the decoder's arithmetic neither reads nor writes. -/
structure DecApart (f : State → State) : Prop where
  reads : ∀ s, (f s).range = s.range ∧ (f s).code = s.code ∧ (f s).source = s.source ∧ (f s).sourceEnd = s.sourceEnd
  range : ∀ s v, (f s).withRange v = f (s.withRange v)
  code : ∀ s v, (f s).withCode v = f (s.withCode v)
  take : ∀ s l, (f s).consumed l = f (s.consumed l)

namespace DecApart

variable (h : DecApart f)
include h

theorem inRead (c : Cause) (s : State) : Commutes f (inRead c) (inRead c) s := by
  refine Commutes.getBind ?_
  obtain ⟨_, _, h3, h4⟩ := h.reads s
  have : sourceStop (f s) c = sourceStop s c := by unfold sourceStop; rw [h4]
  rw [h3, this]
  cases s.source with
  | nil => exact Commutes.raise _ s
  | cons b rest => exact Commutes.setBind (h.take s rest) (Commutes.pure _ _)

theorem normalizeLoop : ∀ n s, Commutes f (decNormalizeLoop n) (decNormalizeLoop n) s
  | 0, s => Commutes.pure _ s
  | n + 1, s => by
    refine Commutes.getBind ?_
    rw [(h.reads s).1]
    refine Commutes.ite Iff.rfl (Commutes.setBind (h.range s _) ?_) (Commutes.pure () s)
    refine Commutes.bind (h.inRead _ _) fun b t => Commutes.bind (Commutes.modify ?_) fun _ u => normalizeLoop n u
    rw [(h.reads t).2.1, h.code]

theorem normalize (s : State) : Commutes f decNormalize decNormalize s := by
  refine Commutes.getBind ?_
  rw [(h.reads s).2.2.1]
  exact h.normalizeLoop _ s

theorem bitCore (p : Nat) (s : State) : Commutes f (decodeBitCore p) (decodeBitCore p) s := by
  refine Commutes.getBind ?_
  obtain ⟨h1, h2, _⟩ := h.reads s
  have hb : decBit p (f s) = decBit p s := by unfold decBit; rw [h1, h2]
  rw [hb]
  refine Commutes.setBind ?_ (Commutes.bind (h.normalize _) fun _ t => Commutes.pure _ t)
  unfold decSplit
  rw [hb, h1, h2, h.code, h.range, h.range]
  split <;> rfl

theorem cellDecision (hc : CellsApart f) (a : Nat) (s : State) : Commutes f (decCell a) (decCell a) s :=
  Commutes.bind (readCell_commutes hc a s) fun p t => Commutes.bind (h.bitCore p t) fun _ u =>
    Commutes.bind (writeCell_commutes hc a _ u) fun _ v => Commutes.pure _ v

theorem treeLoop (hc : CellsApart f) (base : Nat) : ∀ k m s,
    Commutes f (treeDecodeLoop base k m) (treeDecodeLoop base k m) s
  | 0, _, s => Commutes.pure _ s
  | k + 1, _, s => Commutes.bind (h.cellDecision hc _ s) fun _ t => treeLoop hc base k _ t

theorem rtreeLoop (hc : CellsApart f) (base : Nat) : ∀ j k m r s,
    Commutes f (rtreeDecodeLoop base j k m r) (rtreeDecodeLoop base j k m r) s
  | 0, _, _, _, s => Commutes.pure _ s
  | j + 1, _, _, _, s => Commutes.bind (h.cellDecision hc _ s) fun _ t => rtreeLoop hc base j _ _ _ t

theorem directLoop : ∀ k r s, Commutes f (decDirectLoop k r) (decDirectLoop k r) s
  | 0, _, s => Commutes.pure _ s
  | k + 1, r, s => by
    refine Commutes.getBind ?_
    obtain ⟨h1, h2, _⟩ := h.reads s
    rw [h1, h2]
    refine Commutes.setBind ?_ (Commutes.bind (h.normalize _) fun _ t => directLoop k _ t)
    unfold directSplit
    rw [h1, h2, h.code, h.range, h.range]
    split <;> rfl

end DecApart

theorem encApart_arg0 (v : Word) : EncApart fun s => s.withArg0 v :=
  ⟨fun _ => ⟨rfl, rfl, rfl, rfl, rfl⟩, fun _ _ => rfl, fun _ _ => rfl, fun _ _ _ => rfl, fun _ _ => rfl⟩

theorem encApart_arg1 (v : Word) : EncApart fun s => s.withArg1 v :=
  ⟨fun _ => ⟨rfl, rfl, rfl, rfl, rfl⟩, fun _ _ => rfl, fun _ _ => rfl, fun _ _ _ => rfl, fun _ _ => rfl⟩

theorem encApart_res (v : Word) : EncApart fun s => s.withRes v :=
  ⟨fun _ => ⟨rfl, rfl, rfl, rfl, rfl⟩, fun _ _ => rfl, fun _ _ => rfl, fun _ _ _ => rfl, fun _ _ => rfl⟩

theorem encApart_pram (m : Memory) : EncApart fun s => s.withPram m :=
  ⟨fun _ => ⟨rfl, rfl, rfl, rfl, rfl⟩, fun _ _ => rfl, fun _ _ => rfl, fun _ _ _ => rfl, fun _ _ => rfl⟩

theorem cellsApart_arg0 (v : Word) : CellsApart fun s => s.withArg0 v := ⟨fun _ => rfl, fun _ _ => rfl⟩

theorem cellsApart_arg1 (v : Word) : CellsApart fun s => s.withArg1 v := ⟨fun _ => rfl, fun _ _ => rfl⟩

theorem cellsApart_res (v : Word) : CellsApart fun s => s.withRes v := ⟨fun _ => rfl, fun _ _ => rfl⟩

theorem decApart_arg0 (v : Word) : DecApart fun s => s.withArg0 v :=
  ⟨fun _ => ⟨rfl, rfl, rfl, rfl⟩, fun _ _ => rfl, fun _ _ => rfl, fun _ _ => rfl⟩

theorem decApart_res (v : Word) : DecApart fun s => s.withRes v :=
  ⟨fun _ => ⟨rfl, rfl, rfl, rfl⟩, fun _ _ => rfl, fun _ _ => rfl, fun _ _ => rfl⟩

theorem decApart_pram (m : Memory) : DecApart fun s => s.withPram m :=
  ⟨fun _ => ⟨rfl, rfl, rfl, rfl⟩, fun _ _ => rfl, fun _ _ => rfl, fun _ _ => rfl⟩

/-! ## The window -/

/-- An update of what appending to the window and reading it leave alone. -/
structure WindowApart (f : State → State) : Prop where
  reads : ∀ s, (f s).mode = s.mode ∧ (f s).window = s.window ∧ (f s).dictSize = s.dictSize ∧ (f s).config = s.config ∧
    sinkFails (f s) = sinkFails s
  window : ∀ s w, (f s).withWindow w = f (s.withWindow w)
  out : ∀ s b, (f s).delivered b = f (s.delivered b)

namespace WindowApart

variable (h : WindowApart f)
include h

theorem append (b : Byte) (s : State) : Commutes f (windowAppend b) (windowAppend b) s := by
  refine Commutes.getBind ?_
  rw [(h.reads s).1]
  refine Commutes.bind (Commutes.runIf (Commutes.getBind ?_)) fun _ t => Commutes.modify ?_
  · rw [(h.reads s).2.2.2.2]
    exact Commutes.ite Iff.rfl (Commutes.raise _ s) (Commutes.put (h.out s b))
  · rw [(h.reads t).2.1, h.window]

theorem distance (d : Nat) (s : State) : Commutes f (checkDistance d) (checkDistance d) s := by
  obtain ⟨_, h2, h3, h4, _⟩ := h.reads s
  refine Commutes.getBind ?_
  have hp : posOf (f s) = posOf s := by unfold posOf; rw [h2]
  have hl : windowLimit (f s) = windowLimit s := by unfold windowLimit windowCap; rw [h3, h4]
  rw [hp, hl]
  exact Commutes.bind (Commutes.check _ _ s) fun _ t => Commutes.check _ _ t

theorem copy (d n : Nat) (s : State) : Commutes f (copyMatch d n) (copyMatch d n) s := by
  refine Commutes.bind (h.distance d s) fun _ t => Commutes.repeatCmd (fun u => Commutes.getBind ?_) n t
  have : windowByte (f u) d = windowByte u d := by unfold windowByte posOf; rw [(h.reads u).2.1]
  rw [this]
  exact h.append _ u

end WindowApart

/-- A command whose body commutes with `f` commutes with it whole. -/
theorem issue_commutes {modes : List Mode} {x y : Cmd Unit} {s : State} (hf : (f s).faulted = s.faulted)
    (hm : (f s).mode = s.mode) (ht : ∀ t c, (f t).takeFault c = f (t.takeFault c)) (h : Commutes f x y s) :
    issue modes y (f s) = mapNext f (issue modes x s) := by
  rcases issue_cases modes x s with ⟨k, e⟩ | ⟨k, km, e⟩ | ⟨k, km, e⟩
  · rw [e, issue_faulted (hf.trans k)]; rfl
  · rw [e, issue_wrong_mode (hf.trans k) (by rw [hm]; exact km), ht]; rfl
  · rw [e, issue_ready (hf.trans k) (by rw [hm]; exact km), h]
    cases x s with
    | ok a t => rfl
    | error e t =>
      cases e with
      | raise c => simp [mapState, conclude, mapNext, andThen, ht]
      | stuck w => rfl

end Sys2Proof.Machine
end

