-- ==== Sys2Proof/Laws/Numbers.lean ====
section
/-! SUPPORT. Byte strings as numbers (`numOf`, 20_memory.md R62), and the pending run as one. -/

namespace Sys2Proof.Machine

theorem numOf_foldl (l : List Byte) : ∀ n : Nat, l.foldl (fun n b => n * 256 + b.toNat) n = n * 256 ^ l.length + numOf l := by
  induction l with
  | nil => simp [numOf]
  | cons b l ih =>
    intro n
    simp only [numOf, List.foldl_cons, List.length_cons]
    rw [ih, ih]
    ring

@[simp] theorem numOf_nil : numOf [] = 0 := rfl

theorem numOf_append (l l' : List Byte) : numOf (l ++ l') = numOf l * 256 ^ l'.length + numOf l' := by
  conv_lhs => rw [numOf, List.foldl_append]
  exact numOf_foldl l' _

theorem numOf_cons (b : Byte) (l : List Byte) : numOf (b :: l) = b.toNat * 256 ^ l.length + numOf l := by
  have := numOf_append [b] l
  simpa [numOf] using this

theorem numOf_snoc (l : List Byte) (b : Byte) : numOf (l ++ [b]) = numOf l * 256 + b.toNat := by
  rw [numOf_append]; simp [numOf]

theorem numOf_ones (n : Nat) : numOf (List.replicate n 0xFF) + 1 = 256 ^ n := by
  induction n with
  | zero => rfl
  | succ n ih =>
    rw [List.replicate_succ, numOf_cons, List.length_replicate, pow_succ]
    have : (0xFF : Byte).toNat = 255 := rfl
    rw [this]
    omega

theorem numOf_zeros (n : Nat) : numOf (List.replicate n 0) = 0 := by
  induction n with
  | zero => rfl
  | succ n ih => rw [List.replicate_succ, numOf_cons, ih]; simp

theorem numOf_lt (l : List Byte) : numOf l < 256 ^ l.length := by
  induction l with
  | nil => simp
  | cons b l ih =>
    rw [numOf_cons, List.length_cons, pow_succ]
    have := b.isLt
    have : 1 ≤ 256 ^ l.length := Nat.one_le_pow _ _ (by omega)
    nlinarith

theorem pendingBytes_length {s : State} (h : 1 ≤ s.cacheSize) : (pendingBytes s).length = s.cacheSize := by
  simp [pendingBytes]; omega

/-- The pending run without a carry: CACHE followed by ones. -/
theorem numOf_pending (s : State) :
    numOf (pendingBytes s) + 1 = (s.cache.toNat + 1) * 256 ^ (s.cacheSize - 1) := by
  have h := numOf_ones (s.cacheSize - 1)
  unfold pendingBytes
  rw [numOf_cons, List.length_replicate, add_assoc, h]
  ring

end Sys2Proof.Machine
end

