-- ==== Sys2Proof/Laws/Shift.lean ====
section
/-! SUPPORT. `ShiftLow` and the encoder's renormalisation (40_range_coder.md R124, R125, R127): what they do when the sink
takes the bytes, that no carry is lost, and that the coded value is only rescaled. -/

namespace Sys2Proof.Machine

variable {s t u : State}

/-! ## One shift-out -/

/-- The state after `ShiftLow` on a sink that takes the bytes (R127). -/
def State.shifted (s : State) : State :=
  if runIsFinal s.low then
    (((s.deliveredAll (pendingRun s)).withCache (s.low.extractLsb' 24 8) 1).withLow
      (BitVec.ofNat 64 ((s.low.toNat &&& 0x00FFFFFF) <<< 8)))
  else
    (s.withCache s.cache (s.cacheSize + 1)).withLow (BitVec.ofNat 64 ((s.low.toNat &&& 0x00FFFFFF) <<< 8))

/-- What a shift-out needs: a pending byte, LOW within 33 bits, and no carry into a pending 0xFF. -/
structure ShiftOk (s : State) : Prop where
  cachePos : 1 ≤ s.cacheSize
  lowLt : s.low.toNat < 2 ^ 33
  noCarry : s.cache = 0xFF → s.low.toNat < 2 ^ 32

theorem pendingRun_length (h : 1 ≤ s.cacheSize) : (pendingRun s).length = s.cacheSize := by
  simp [pendingRun]; omega

theorem ends_shiftLow (h : 1 ≤ s.cacheSize) : Ends shiftLow s (fun _ t => t = s.shifted)
    (fun e t => e = .raise .ioErrorOut ∧ ¬ sinkTakes s.cacheSize s ∧ ∃ pre, t = s.deliveredAll pre) := by
  unfold shiftLow
  rw [ends_bind, ends_get, ends_bind, ends_runIf]
  split
  · rename_i hf
    unfold deliverRun
    rw [ends_bind, ends_get, ends_bind]
    by_cases hr : sinkTakes s.cacheSize s
    · have := outWriteAll_run (pendingRun s) (s := s) (by rwa [pendingRun_length h])
      unfold Ends
      rw [this]
      simp [State.shifted, hf]
      rfl
    · refine (ends_outWriteAll (pendingRun s) s).mono (fun _ t ht => ?_) fun e t ht => ⟨ht.1, hr, ht.2.choose, ht.2.choose_spec.2⟩
      subst ht
      simp [State.shifted, hf]
      rfl
  · rename_i hf
    simp [State.shifted, hf]

/-- A sink that fails inside the run takes the bytes before; CACHE, CACHE_SIZE and LOW are as they were (R127). -/
theorem shiftLow_fails {k : Nat} (h : 1 ≤ s.cacheSize) (hf : runIsFinal s.low = true) (hk : s.sinkFailAt = some k)
    (hlt : k < s.sink.length + s.cacheSize) :
    shiftLow s = .error (.raise .ioErrorOut) (s.deliveredAll ((pendingRun s).take (k - s.sink.length))) := by
  have := outWriteAll_fails (pendingRun s) (s := s) (by simp [pendingRun]) hk (by rwa [pendingRun_length h])
  unfold shiftLow
  rw [bind_run, get_run]
  simp only [runIf, hf, if_true]
  rw [bind_run]
  unfold deliverRun
  rw [bind_run, get_run]
  dsimp only
  rw [bind_run, this]

theorem lowByte_lt (n : Nat) : (n &&& 0x00FFFFFF) <<< 8 < 2 ^ 32 := by
  rw [Nat.shiftLeft_eq, show (0x00FFFFFF : Nat) = 2 ^ 24 - 1 from rfl, Nat.and_two_pow_sub_one_eq_mod]
  omega

theorem shifted_low (s : State) : s.shifted.low.toNat = s.low.toNat % 2 ^ 24 * 256 := by
  have h : (BitVec.ofNat 64 ((s.low.toNat &&& 0x00FFFFFF) <<< 8)).toNat = s.low.toNat % 2 ^ 24 * 256 := by
    have := lowByte_lt s.low.toNat
    rw [BitVec.toNat_ofNat, Nat.mod_eq_of_lt (by omega), Nat.shiftLeft_eq, show (0x00FFFFFF : Nat) = 2 ^ 24 - 1 from rfl,
      Nat.and_two_pow_sub_one_eq_mod]
  unfold State.shifted
  split <;> exact h

@[simp] theorem shifted_range (s : State) : s.shifted.range = s.range := by
  unfold State.shifted
  split <;> rfl

@[simp] theorem shifted_sinkFailAt (s : State) : s.shifted.sinkFailAt = s.sinkFailAt := by
  unfold State.shifted
  split <;> rfl

theorem shifted_lessEnc (s : State) : s.shifted.lessEnc = s.lessEnc := by
  unfold State.shifted
  split <;> simp only [State.lessEnc, State.withLow, State.withCache, State.deliveredAll]

theorem shifted_cachePos (s : State) : 1 ≤ s.shifted.cacheSize := by
  unfold State.shifted
  split
  · exact le_rfl
  · simp

/-- Each shift-out makes one more byte delivered or pending (R127). -/
theorem shifted_count (h : 1 ≤ s.cacheSize) :
    s.shifted.sink.length + s.shifted.cacheSize = s.sink.length + s.cacheSize + 1 := by
  unfold State.shifted
  split
  · simp [State.deliveredAll, pendingRun_length h]
  · simp; omega

theorem shifted_ok (s : State) : ShiftOk s.shifted where
  cachePos := shifted_cachePos s
  lowLt := by rw [shifted_low]; omega
  noCarry _ := by rw [shifted_low]; omega

theorem carryOf_eq (low : BitVec 64) : carryOf low = low.toNat / 2 ^ 32 % 2 := by
  simp [carryOf, Nat.shiftRight_eq_div_pow]

theorem lowTop_eq (low : BitVec 64) : (low.extractLsb' 24 8).toNat = low.toNat / 2 ^ 24 % 256 := by
  simp [Nat.shiftRight_eq_div_pow]

/-- The delivered run, as a number, is the pending one with the carry added: the carry never leaves the run. -/
theorem numOf_pendingRun (h : ShiftOk s) : numOf (pendingRun s) = numOf (pendingBytes s) + carryOf s.low := by
  have hc : carryOf s.low = 0 ∨ carryOf s.low = 1 := by rw [carryOf_eq]; omega
  rcases hc with hc | hc
  · simp [pendingRun, pendingBytes, hc]
  · have hp := numOf_pending s
    have hcache : s.cache.toNat ≠ 255 := by
      intro e
      have := h.noCarry (BitVec.eq_of_toNat_eq e)
      rw [carryOf_eq] at hc
      omega
    have hlt := s.cache.isLt
    have hz : BitVec.ofNat 8 (0xFF + 1) = (0 : Byte) := rfl
    unfold pendingRun
    rw [hc, numOf_cons, hz, numOf_zeros, List.length_replicate, hp, BitVec.toNat_ofNat, Nat.mod_eq_of_lt (by omega)]
    simp

/-- A shift-out multiplies the coded value by 256 and loses nothing. -/
theorem shifted_value (h : ShiftOk s) : codeValue s.shifted = codeValue s * 256 := by
  have hl := shifted_low s
  have hlt := h.lowLt
  by_cases hf : runIsFinal s.low = true
  · have hs : s.shifted.sink ++ pendingBytes s.shifted = (s.sink ++ pendingRun s) ++ [s.low.extractLsb' 24 8] := by
      simp [State.shifted, hf, State.deliveredAll, pendingBytes]
    have hn : numOf (s.sink ++ pendingRun s) = numOf (s.sink ++ pendingBytes s) + carryOf s.low := by
      rw [numOf_append, numOf_append, numOf_pendingRun h, pendingRun_length h.cachePos, pendingBytes_length h.cachePos]
      omega
    have hf' : s.low.toNat < 0xFF000000 ∨ 0x100000000 ≤ s.low.toNat := by simpa [runIsFinal] using hf
    unfold codeValue
    rw [hs, numOf_snoc, hn, hl, lowTop_eq, carryOf_eq]
    omega
  · have hf' : ¬ (s.low.toNat < 0xFF000000 ∨ 0x100000000 ≤ s.low.toNat) := by simpa [runIsFinal] using hf
    have hcs : s.cacheSize - 1 + 1 = s.cacheSize := Nat.sub_add_cancel h.cachePos
    have hs : s.shifted.sink ++ pendingBytes s.shifted = (s.sink ++ pendingBytes s) ++ [0xFF] := by
      simp only [State.shifted, hf, pendingBytes, Bool.false_eq_true, if_false]
      simp only [State.withLow_sink, State.withCache_sink, State.withLow_cache, State.withCache_cache,
        State.withLow_cacheSize, State.withCache_cacheSize, Nat.add_sub_cancel]
      rw [← hcs, List.replicate_succ', Nat.add_sub_cancel]
      simp
    unfold codeValue
    rw [hs, numOf_snoc, hl]
    have : (0xFF : Byte).toNat = 255 := rfl
    omega

/-! ## Flush -/

/-- `n` shift-outs in a row. -/
def State.shiftedTimes : Nat → State → State
  | 0, s => s
  | n + 1, s => State.shiftedTimes n s.shifted

theorem shiftedTimes_facts : ∀ (n : Nat) {s : State}, ShiftOk s →
    ShiftOk (s.shiftedTimes n) ∧ codeValue (s.shiftedTimes n) = codeValue s * 256 ^ n ∧
    (s.shiftedTimes n).sink.length + (s.shiftedTimes n).cacheSize = s.sink.length + s.cacheSize + n ∧
    (s.shiftedTimes n).lessEnc = s.lessEnc ∧ (s.shiftedTimes n).range = s.range
  | 0, _, h => ⟨h, by simp [State.shiftedTimes], rfl, rfl, rfl⟩
  | n + 1, s, h => by
    obtain ⟨h1, h2, h3, h4, h5⟩ := shiftedTimes_facts n (shifted_ok s)
    refine ⟨h1, ?_, ?_, h4.trans (shifted_lessEnc s), h5.trans (shifted_range s)⟩
    · change codeValue (s.shifted.shiftedTimes n) = _
      rw [h2, shifted_value h, pow_succ]; ring
    · change (s.shifted.shiftedTimes n).sink.length + (s.shifted.shiftedTimes n).cacheSize = _
      rw [h3, shifted_count h.cachePos]; omega

/-- A run of shift-outs, each of which the sink takes or the last of which it refuses. -/
theorem ends_shifts : ∀ (n : Nat) {s : State}, ShiftOk s → Ends (repeatCmd n shiftLow) s
    (fun _ t => t = s.shiftedTimes n)
    (fun e t => e = .raise .ioErrorOut ∧ 1 ≤ t.cacheSize ∧ 1 ≤ n ∧ ¬ sinkTakes (s.cacheSize + n - 1) s)
  | 0, _, _ => rfl
  | n + 1, s, h => by
    unfold repeatCmd
    rw [ends_bind]
    refine (ends_shiftLow h.cachePos).mono ?_ ?_
    · rintro _ t rfl
      refine (ends_shifts n (shifted_ok s)).mono (fun _ _ h => h) fun e t ht =>
        ⟨ht.1, ht.2.1, by omega, fun hs => ht.2.2.2 ?_⟩
      intro k hk
      rw [shifted_sinkFailAt] at hk
      have := hs k hk
      have hc := shifted_count h.cachePos
      have := ht.2.2.1
      omega
    · rintro e t ⟨he, hs, pre, rfl⟩
      refine ⟨he, h.cachePos, by omega, fun h' => hs fun k hk => ?_⟩
      have := h' k hk
      have := h.cachePos
      omega

theorem shiftedTimes_four_low (s : State) : (s.shiftedTimes 4).low.toNat = 0 := by
  simp only [State.shiftedTimes, shifted_low]
  omega

/-- Five shift-outs deliver every pending byte and LOW (R126, R133). -/
theorem flush_value (h : ShiftOk s) : numOf (s.shiftedTimes 5).sink = codeValue s ∧
    (s.shiftedTimes 5).sink.length = s.sink.length + s.cacheSize + 4 ∧
    (s.shiftedTimes 5).cacheSize = 1 ∧ (s.shiftedTimes 5).cache = 0 ∧ (s.shiftedTimes 5).low = 0 := by
  obtain ⟨h1, h2, h3, _, _⟩ := shiftedTimes_facts 4 h
  have hl := shiftedTimes_four_low s
  have e5 : s.shiftedTimes 5 = (s.shiftedTimes 4).shifted := rfl
  rw [e5]
  generalize s.shiftedTimes 4 = v at *
  have hlow : v.low = 0 := BitVec.eq_of_toNat_eq hl
  have hf : runIsFinal v.low = true := by rw [hlow]; decide
  have hc : carryOf v.low = 0 := by rw [hlow]; decide
  have hs : v.shifted.sink = v.sink ++ pendingRun v := by simp [State.shifted, hf, State.deliveredAll]
  refine ⟨?_, ?_, by simp [State.shifted, hf], ?_, ?_⟩
  · have hp : pendingRun v = pendingBytes v := by simp [pendingRun, pendingBytes, hc]
    rw [hs, hp]
    unfold codeValue at h2
    rw [hl] at h2
    unfold codeValue
    omega
  · rw [hs, List.length_append, pendingRun_length h1.cachePos]; omega
  · simp only [State.shifted, hf, if_true]
    rw [hlow]; rfl
  · apply BitVec.eq_of_toNat_eq
    rw [shifted_low, hl]; rfl

end Sys2Proof.Machine
end

