-- ==== Sys2Proof/Laws/Encode.lean ====
section
/-! SUPPORT. One encoder decision (40_range_coder.md R121 to R125, R131, R132): how often it renormalises, the coded
value it leaves, and that it keeps what the carry needs. -/

namespace Sys2Proof.Machine

variable {s t u : State}

/-- What the encoder's arithmetic keeps within a command: RANGE above 0 and LOW small enough for its carry. -/
structure EncOk (s : State) : Prop where
  cachePos : 1 ≤ s.cacheSize
  rangePos : 1 ≤ s.range.toNat
  lowRange : s.low.toNat + s.range.toNat < 2 ^ 33
  noCarry : s.cache = 0xFF → s.low.toNat + s.range.toNat ≤ 2 ^ 32

theorem EncOk.shiftOk (h : EncOk s) : ShiftOk s where
  cachePos := h.cachePos
  lowLt := by have := h.lowRange; omega
  noCarry hc := by have := h.noCarry hc; have := h.rangePos; omega

/-- Bytes appended to the sink and counted (10_state.md R41). -/
def SinkGrows (s t : State) : Prop := ∃ o, t.sink = s.sink ++ o ∧ t.outCount = s.outCount + o.length

/-- `k` renormalisations after the coded value grew by `d` and RANGE became `r`. -/
structure EncStep (d r k : Nat) (s t : State) : Prop where
  ok : EncOk t
  range : t.range.toNat = r * 256 ^ k
  value : codeValue t = (codeValue s + d) * 256 ^ k
  count : t.sink.length + t.cacheSize = s.sink.length + s.cacheSize + k
  quiet : k = 0 → t.cache = s.cache ∧ t.cacheSize = s.cacheSize ∧ t.low.toNat = s.low.toNat + d
  lowLt : 1 ≤ k → t.low.toNat < 2 ^ 32
  only : t.lessEnc = s.lessEnc

/-! ## Renormalisation (R124) -/

theorem shl8_toNat {r : Word} (h : r.toNat < 2 ^ 24) : (BitVec.ofNat 32 (r.toNat <<< 8)).toNat = r.toNat * 256 := by
  rw [BitVec.toNat_ofNat, Nat.shiftLeft_eq, Nat.mod_eq_of_lt (by omega)]

/-- The state one turn of `EncNormalize` leaves. -/
def State.scaled (s : State) : State := (s.withRange (BitVec.ofNat 32 (s.range.toNat <<< 8))).shifted

theorem codeValue_withRange (s : State) (v : Word) : codeValue (s.withRange v) = codeValue s := rfl

theorem runIsFinal_iff (low : BitVec 64) :
    runIsFinal low = true ↔ low.toNat < 0xFF000000 ∨ 0x100000000 ≤ low.toNat := by
  simp [runIsFinal]

theorem shifted_cache_ff (s : State) (h : s.shifted.cache = 0xFF) :
    s.cache = 0xFF ∧ ¬ runIsFinal s.low = true ∨ runIsFinal s.low = true ∧ s.low.toNat / 2 ^ 24 % 256 = 255 := by
  by_cases hf : runIsFinal s.low = true
  · refine .inr ⟨hf, ?_⟩
    simp only [State.shifted, hf, if_true, State.withLow_cache, State.withCache_cache] at h
    rw [← lowTop_eq, h]
    rfl
  · refine .inl ⟨?_, hf⟩
    simpa [State.shifted, hf] using h

theorem scaled_step (h : EncOk s) (hr : s.range.toNat < 2 ^ 24) : EncStep 0 s.range.toNat 1 s s.scaled := by
  have hs : ShiftOk (s.withRange (BitVec.ofNat 32 (s.range.toNat <<< 8))) :=
    ⟨h.cachePos, h.shiftOk.lowLt, h.shiftOk.noCarry⟩
  have hrange : s.scaled.range.toNat = s.range.toNat * 256 := by
    unfold State.scaled
    rw [shifted_range]
    exact shl8_toNat hr
  have hlow : s.scaled.low.toNat = s.low.toNat % 2 ^ 24 * 256 := shifted_low _
  refine ⟨⟨(shifted_ok _).cachePos, ?_, ?_, ?_⟩, by omega, ?_, ?_, by omega, fun _ => by omega, shifted_lessEnc _⟩
  · have := h.rangePos; omega
  · rw [hrange, hlow]; omega
  · intro hc
    have h1 := h.lowRange
    rw [hrange, hlow]
    rcases shifted_cache_ff _ hc with ⟨hcache, hf⟩ | ⟨hf, htop⟩
    · have := h.noCarry hcache
      have hf' : ¬ runIsFinal s.low = true := hf
      rw [runIsFinal_iff] at hf'
      omega
    · have hf' : runIsFinal s.low = true := hf
      rw [runIsFinal_iff] at hf'
      have htop' : s.low.toNat / 2 ^ 24 % 256 = 255 := htop
      omega
  · unfold State.scaled
    rw [shifted_value hs, codeValue_withRange]
    simp
  · exact shifted_count (s := s.withRange _) h.cachePos

theorem EncStep.refl (h : EncOk s) : EncStep 0 s.range.toNat 0 s s := ⟨h, by simp, by simp, rfl, fun _ => ⟨rfl, rfl, rfl⟩, by omega, rfl⟩

theorem EncStep.scaled {d r k k' : Nat} (h : EncStep d r k s t) (h' : EncStep 0 t.range.toNat k' t u) :
    EncStep d r (k + k') s u where
  ok := h'.ok
  range := by rw [h'.range, h.range, pow_add]; ring
  value := by rw [h'.value, h.value, pow_add]; ring
  count := by rw [h'.count, h.count]; omega
  quiet hk := by
    obtain ⟨h1, h2, h3⟩ := h.quiet (by omega)
    obtain ⟨k1, k2, k3⟩ := h'.quiet (by omega)
    exact ⟨k1.trans h1, k2.trans h2, by omega⟩
  lowLt hk := by
    by_cases hk' : 1 ≤ k'
    · exact h'.lowLt hk'
    · have := (h'.quiet (by omega)).2.2
      have := h.lowLt (by omega)
      omega
  only := h'.only.trans h.only

/-- `EncNormalize` ends, after at most `n` shift-outs, with RANGE at least 2^24 (R124, R125). -/
theorem ends_encNormalizeLoop : ∀ (n m : Nat) {s : State}, n ≤ m → EncOk s → 2 ^ 24 ≤ s.range.toNat * 256 ^ n →
    Ends (encNormalizeLoop (m + 1)) s
      (fun _ t => 2 ^ 24 ≤ t.range.toNat ∧ ∃ k ≤ n, EncStep 0 s.range.toNat k s t)
      (fun e t => e = .raise .ioErrorOut ∧ 1 ≤ t.cacheSize ∧ 1 ≤ n ∧ ¬ sinkTakes (s.cacheSize + n - 1) s)
  | n, m, s, hnm, h, hr => by
    unfold encNormalizeLoop
    rw [ends_bind, ends_get, ends_ite]
    by_cases hlt : s.range.toNat < top
    · rw [if_pos hlt]
      have hlt : s.range.toNat < 2 ^ 24 := hlt
      cases n with
      | zero => omega
      | succ n =>
        obtain ⟨m, rfl⟩ : ∃ m', m = m' + 1 := ⟨m - 1, by omega⟩
        rw [ends_bind, ends_set, ends_bind]
        have hstep := scaled_step h hlt
        have hcp : 1 ≤ (s.withRange (BitVec.ofNat 32 (s.range.toNat <<< 8))).cacheSize := h.cachePos
        refine (ends_shiftLow hcp).mono ?_ ?_
        · rintro _ t rfl
          have hr' : 2 ^ 24 ≤ s.scaled.range.toNat * 256 ^ n := by
            rw [hstep.range, pow_one, mul_assoc, ← pow_succ']; exact hr
          refine (ends_encNormalizeLoop n m (by omega) hstep.ok hr').mono ?_ ?_
          · rintro _ t ⟨h1, k, hk, hstep'⟩
            exact ⟨h1, 1 + k, by omega, hstep.scaled hstep'⟩
          · rintro e t ⟨h1, h2, h3, h4⟩
            refine ⟨h1, h2, by omega, fun hs => h4 fun j hj => ?_⟩
            have := hs j (by rw [← hj]; exact (shifted_sinkFailAt (s.withRange (BitVec.ofNat 32 (s.range.toNat <<< 8)))).symm)
            have := hstep.count
            omega
        · rintro e t ⟨he, hs, pre, rfl⟩
          refine ⟨he, h.cachePos, by omega, fun h' => hs fun j hj => ?_⟩
          have := h' j hj
          have := h.cachePos
          simp only [State.withRange_sink, State.withRange_cacheSize]
          omega
    · rw [if_neg hlt, ends_pure]
      have hlt : ¬ s.range.toNat < 2 ^ 24 := hlt
      exact ⟨by omega, 0, by omega, EncStep.refl h⟩

/-! ## One decision (R121 to R123) -/

/-- What an encoder command starts from: what `EncOk` says, renormalised. -/
structure EncLive (s : State) : Prop extends EncOk s where
  rangeGe : 2 ^ 24 ≤ s.range.toNat

theorem splitBound_eq (r : Word) (p : Nat) : splitBound r p = r.toNat / 2048 * p := by
  simp [splitBound, Nat.shiftRight_eq_div_pow]

/-- Both sides of a split are inside RANGE (R121, R125). -/
theorem splitBound_bounds {r : Word} {p : Nat} (hr : 2 ^ 24 ≤ r.toNat) (h1 : 1 ≤ p) (h2 : p ≤ 2047) :
    8192 * p ≤ splitBound r p ∧ splitBound r p + 8192 * (2048 - p) ≤ r.toNat := by
  rw [splitBound_eq]
  have hq : 8192 ≤ r.toNat / 2048 := by omega
  have hm : r.toNat / 2048 * 2048 ≤ r.toNat := Nat.div_mul_le_self _ _
  generalize r.toNat / 2048 = q at *
  obtain ⟨d, hd⟩ : ∃ d, d = 2048 - p := ⟨_, rfl⟩
  rw [← hd]
  have e : q * 2048 = q * p + q * d := by rw [← mul_add, hd]; congr 1; omega
  have := Nat.mul_le_mul_right p hq
  have := Nat.mul_le_mul_right d hq
  omega

/-- What a bit adds to the coded value: the bound for a 1, nothing for a 0 (R123). -/
def bitGain (r : Word) (p : Nat) (bit : Bool) : Nat := if bit then splitBound r p else 0

/-- The range a bit leaves before renormalisation (R123). -/
def bitRange (r : Word) (p : Nat) (bit : Bool) : Nat := if bit then r.toNat - splitBound r p else splitBound r p

theorem bitRange_ge {r : Word} {p : Nat} {bit : Bool} (hr : 2 ^ 24 ≤ r.toNat) (h1 : 1 ≤ p) (h2 : p ≤ 2047) :
    8192 * (if bit then 2048 - p else p) ≤ bitRange r p bit ∧ bitGain r p bit + bitRange r p bit ≤ r.toNat := by
  have := splitBound_bounds hr h1 h2
  unfold bitRange bitGain
  cases bit <;> simp <;> omega

theorem encSplit_facts (h : EncLive s) {p : Nat} (h1 : 1 ≤ p) (h2 : p ≤ 2047) (bit : Bool) :
    EncStep (bitGain s.range p bit) (bitRange s.range p bit) 0 s (encSplit p bit s) := by
  have hb := splitBound_bounds h.rangeGe h1 h2
  have hrl := s.range.isLt
  have hll := h.lowRange
  have hn := h.noCarry
  cases bit with
  | false =>
    have hr : (BitVec.ofNat 32 (splitBound s.range p)).toNat = splitBound s.range p := by
      rw [BitVec.toNat_ofNat, Nat.mod_eq_of_lt (by omega)]
    refine ⟨⟨h.cachePos, ?_, ?_, fun hc => ?_⟩, ?_, ?_, rfl, fun _ => ⟨rfl, rfl, ?_⟩, by omega, rfl⟩
    · simp [encSplit, hr]; omega
    · simp [encSplit, hr]; omega
    · have := hn (by simpa [encSplit] using hc); simp [encSplit, hr]; omega
    · simp [encSplit, hr, bitRange]
    · simp [encSplit, bitGain, codeValue_withRange]
    · simp [encSplit, bitGain]
  | true =>
    have hr : (BitVec.ofNat 32 (s.range.toNat - splitBound s.range p)).toNat = s.range.toNat - splitBound s.range p := by
      rw [BitVec.toNat_ofNat, Nat.mod_eq_of_lt (by omega)]
    have hl : (BitVec.ofNat 64 (s.low.toNat + splitBound s.range p)).toNat = s.low.toNat + splitBound s.range p := by
      rw [BitVec.toNat_ofNat, Nat.mod_eq_of_lt (by omega)]
    refine ⟨⟨h.cachePos, ?_, ?_, fun hc => ?_⟩, ?_, ?_, rfl, fun _ => ⟨rfl, rfl, ?_⟩, by omega, rfl⟩
    · simp only [encSplit, if_true, State.withRange_range, hr]; omega
    · simp only [encSplit, if_true, State.withRange_range, hr, State.withRange_low, State.withLow_low, hl]; omega
    · have := hn (by simpa [encSplit] using hc)
      simp only [encSplit, if_true, State.withRange_range, hr, State.withRange_low, State.withLow_low, hl]
      omega
    · simp [encSplit, hr, bitRange]
    · have : codeValue (encSplit p true s) = numOf (s.sink ++ pendingBytes s) * 2 ^ 32 +
          (BitVec.ofNat 64 (s.low.toNat + splitBound s.range p)).toNat := rfl
      rw [this, hl]
      simp [bitGain, codeValue]
      ring
    · simp only [encSplit, bitGain, if_true, State.withRange_low, State.withLow_low, hl]

/-- What `EncodeBitCore` leaves: the adapted probability, a renormalised range, and the coded value of the split (R123).
`n` bounds the shift-outs. -/
theorem ends_encodeBitCore (h : EncLive s) {p : Nat} (h1 : 1 ≤ p) (h2 : p ≤ 2047) (bit : Bool) {n : Nat} (hn : n ≤ 3)
    (hr : 2 ^ 24 ≤ bitRange s.range p bit * 256 ^ n) :
    Ends (encodeBitCore p bit) s
      (fun q t => q = adapt p bit ∧ EncLive t ∧
        ∃ k ≤ n, EncStep (bitGain s.range p bit) (bitRange s.range p bit) k s t)
      (fun e t => e = .raise .ioErrorOut ∧ 1 ≤ t.cacheSize ∧ 1 ≤ n ∧ ¬ sinkTakes (s.cacheSize + n - 1) s) := by
  have hs := encSplit_facts h h1 h2 bit
  have hr' : 2 ^ 24 ≤ (encSplit p bit s).range.toNat * 256 ^ n := by rw [hs.range]; simpa using hr
  unfold encodeBitCore encNormalize
  rw [ends_bind, ends_modify, ends_bind]
  refine (ends_encNormalizeLoop n 3 hn hs.ok hr').mono ?_ ?_
  · rintro _ t ⟨hge, k, hk, hstep⟩
    rw [ends_pure]
    refine ⟨rfl, ⟨hstep.ok, hge⟩, k, hk, ?_⟩
    simpa using hs.scaled hstep
  · rintro e t ⟨h1, h2, h3, h4⟩
    refine ⟨h1, h2, h3, fun h' => h4 ?_⟩
    have hc := hs.count
    intro j hj
    have hf : (encSplit p bit s).sinkFailAt = s.sinkFailAt := by
      have := congrArg State.sinkFailAt hs.only
      exact this
    have := h' j (by rw [← hj, hf])
    omega

/-- Every cell's decision renormalises at most once (R48.3 and R125). -/
theorem bitRange_once {r : Word} {p : Nat} {bit : Bool} (hr : 2 ^ 24 ≤ r.toNat) (h1 : 31 ≤ p) (h2 : p ≤ 2017) :
    2 ^ 24 ≤ bitRange r p bit * 256 ^ 1 := by
  have := (bitRange_ge (bit := bit) hr (by omega : 1 ≤ p) (by omega)).1
  cases bit <;> simp at this <;> omega

/-- Every decision renormalises at most twice (R132). -/
theorem bitRange_twice {r : Word} {p : Nat} {bit : Bool} (hr : 2 ^ 24 ≤ r.toNat) (h1 : 1 ≤ p) (h2 : p ≤ 2047) :
    2 ^ 24 ≤ bitRange r p bit * 256 ^ 2 := by
  have := (bitRange_ge (bit := bit) hr h1 h2).1
  cases bit <;> simp at this <;> omega

/-- An adapted cell stays within 31..2017 (41_probability_model.md R162). -/
theorem adapt_bounds {p : Nat} (h1 : 31 ≤ p) (h2 : p ≤ 2017) (bit : Bool) : 31 ≤ adapt p bit ∧ adapt p bit ≤ 2017 := by
  unfold adapt
  cases bit <;> simp [Nat.shiftRight_eq_div_pow] <;> omega

/-- An adapted probability stays within 1..2047 (R122). -/
theorem adapt_range {p : Nat} (h1 : 1 ≤ p) (h2 : p ≤ 2047) (bit : Bool) : 1 ≤ adapt p bit ∧ adapt p bit ≤ 2047 := by
  unfold adapt
  cases bit <;> simp [Nat.shiftRight_eq_div_pow] <;> omega

/-! ## Decisions with cells -/

/-- The probability RAM as the invariant has it (10_state.md R43, R48.3). -/
structure CellsOk (s : State) : Prop where
  wf : s.pram.wf = true
  range : cellsOk s.pram = true

theorem CellsOk.bounds (h : CellsOk s) (a : Nat) : 31 ≤ cellAt s a ∧ cellAt s a ≤ 2017 := cellsOk_read h.range a

theorem CellsOk.write (h : CellsOk s) {a v : Nat} (ha : cellValid a = true) (h1 : 31 ≤ v) (h2 : v ≤ 2017) :
    CellsOk (s.withPram (Memory.write s.pram a (BitVec.ofNat 11 v))) :=
  ⟨Memory.wf_write h.wf a _, cellsOk_write h.range ha h1 h2⟩

/-- A written cell reads back, the others as before. -/
theorem CellsOk.cellAt_write (h : CellsOk s) {a v : Nat} (hv : v ≤ 2017) (b : Nat) :
    cellAt (s.withPram (Memory.write s.pram a (BitVec.ofNat 11 v))) b = if b = a then v else cellAt s b := by
  unfold cellAt
  rw [State.withPram_pram, Memory.read_write h.wf]
  split
  · rw [BitVec.toNat_ofNat, Nat.mod_eq_of_lt (by omega)]
  · rfl

/-- What `PRAM[a] <- EncodeBitCore(PRAM[a], bit)` leaves (R131): one decision with the cell's probability, and the cell
adapted. -/
structure EncCellStep (a : Nat) (bit : Bool) (k : Nat) (s t : State) : Prop where
  live : EncLive t
  cells : CellsOk t
  range : t.range.toNat = bitRange s.range (cellAt s a) bit * 256 ^ k
  value : codeValue t = (codeValue s + bitGain s.range (cellAt s a) bit) * 256 ^ k
  count : t.sink.length + t.cacheSize = s.sink.length + s.cacheSize + k
  quiet : k = 0 → t.cache = s.cache ∧ t.cacheSize = s.cacheSize
  lowLt : 1 ≤ k → t.low.toNat < 2 ^ 32
  cell : ∀ b, cellAt t b = if b = a then adapt (cellAt s a) bit else cellAt s b
  only : t.lessEncCells = s.lessEncCells

theorem ends_encCell (h : EncLive s) (hc : CellsOk s) {a : Nat} (ha : cellValid a = true) (bit : Bool) :
    Ends (encCell a bit) s (fun _ t => ∃ k ≤ 1, EncCellStep a bit k s t)
      (fun e t => e = .raise .ioErrorOut ∧ 1 ≤ t.cacheSize ∧ ¬ sinkTakes s.cacheSize s) := by
  have hp := hc.bounds a
  unfold encCell
  rw [ends_bind, ends_readCell ha, ends_bind]
  refine (ends_encodeBitCore h (by omega) (by omega) bit (n := 1) (by omega)
    (bitRange_once h.rangeGe hp.1 hp.2)).mono ?_ ?_
  · rintro q t ⟨rfl, hlive, k, hk, hstep⟩
    rw [ends_writeCell ha]
    have hpram : t.pram = s.pram := by
      have := congrArg State.pram hstep.only
      exact this
    have hct : CellsOk t := ⟨hpram ▸ hc.wf, hpram ▸ hc.range⟩
    have hab := adapt_bounds hp.1 hp.2 bit
    have hat : ∀ b, cellAt t b = cellAt s b := fun b => by unfold cellAt; rw [hpram]
    refine ⟨k, hk, ⟨⟨hlive.cachePos, hlive.rangePos, hlive.lowRange, hlive.noCarry⟩, hlive.rangeGe⟩,
      hct.write ha hab.1 hab.2, hstep.range, hstep.value, hstep.count,
      fun hk => ⟨(hstep.quiet hk).1, (hstep.quiet hk).2.1⟩, hstep.lowLt, fun b => ?_, ?_⟩
    · rw [hct.cellAt_write hab.2, hat]
    · have := congrArg (fun u : State => { u with pram := [] }) hstep.only
      exact this
  · rintro e t ⟨h1, h2, _, h4⟩
    exact ⟨h1, h2, by simpa using h4⟩

end Sys2Proof.Machine
end

