-- ==== Sys2Proof/Laws/EncodeRuns.lean ====
section
/-! SUPPORT. Runs of encoder decisions: trees (41_probability_model.md R171), literals (42_symbol_fsm.md R210) and the end
marker (R211). -/

namespace Sys2Proof.Machine

variable {s t u : State}

/-- At most `n` shift-outs, with every cell and the range coder in order. -/
structure EncRun (n : Nat) (s t : State) : Prop where
  live : EncLive t
  cells : CellsOk t
  count : t.sink.length + t.cacheSize ≤ s.sink.length + s.cacheSize + n
  only : t.lessEncCells = s.lessEncCells

/-- A run of at most `n` shift-outs that the sink cut short. -/
structure EncCut (n : Nat) (s : State) (e : Stop) (t : State) : Prop where
  stop : e = .raise .ioErrorOut
  cachePos : 1 ≤ t.cacheSize
  cells : CellsOk t
  room : ¬ sinkTakes (s.cacheSize + n - 1) s
  pos : 1 ≤ n
  only : t.lessEncCells = s.lessEncCells

theorem lessEnc_cells (h : t.lessEnc = s.lessEnc) : t.lessEncCells = s.lessEncCells := by
  have := congrArg (fun u : State => { u with pram := [] }) h
  exact this

theorem EncRun.refl (h : EncLive s) (hc : CellsOk s) : EncRun 0 s s := ⟨h, hc, le_rfl, rfl⟩

theorem EncRun.trans {n m : Nat} (h : EncRun n s t) (h' : EncRun m t u) : EncRun (n + m) s u :=
  ⟨h'.live, h'.cells, by have := h.count; have := h'.count; omega, h'.only.trans h.only⟩

theorem EncRun.mono {n m : Nat} (h : EncRun n s t) (hnm : n ≤ m) : EncRun m s t :=
  ⟨h.live, h.cells, by have := h.count; omega, h.only⟩

theorem EncRun.sinkFailAt {n : Nat} (h : EncRun n s t) : t.sinkFailAt = s.sinkFailAt := by
  have := congrArg State.sinkFailAt h.only
  exact this

theorem EncCut.mono {n m : Nat} {e : Stop} (h : EncCut n s e t) (hnm : n ≤ m) : EncCut m s e t :=
  ⟨h.stop, h.cachePos, h.cells, fun hs => h.room fun k hk => by have := hs k hk; omega, by have := h.pos; omega, h.only⟩

theorem EncCut.after {n m : Nat} {e : Stop} (h : EncRun n s t) (h' : EncCut m t e u) : EncCut (n + m) s e u :=
  ⟨h'.stop, h'.cachePos, h'.cells, fun hs => h'.room fun k hk => by
    have := hs k (by rw [← hk, h.sinkFailAt])
    have := h.count
    have := h'.pos
    omega, by have := h'.pos; omega, h'.only.trans h.only⟩

/-- Two runs one after the other. -/
theorem Ends.encBind {α β : Type} {x : Cmd α} {f : α → Cmd β} {n m : Nat}
    (hx : Ends x s (fun _ t => EncRun n s t) (EncCut n s))
    (hf : ∀ a t, EncRun n s t → Ends (f a) t (fun _ u => EncRun m t u) (EncCut m t)) :
    Ends (x >>= f) s (fun _ u => EncRun (n + m) s u) (EncCut (n + m) s) := by
  rw [ends_bind]
  refine hx.mono (fun a t ht => ?_) fun e t ht => ht.mono (by omega)
  exact (hf a t ht).mono (fun _ u hu => ht.trans hu) fun e u hu => EncCut.after ht hu

theorem encCell_run (h : EncLive s) (hc : CellsOk s) {a : Nat} (ha : cellValid a = true) (bit : Bool) :
    Ends (encCell a bit) s (fun _ t => EncRun 1 s t) (EncCut 1 s) := by
  have hp := hc.bounds a
  have hk : Ends (encCell a bit) s (fun _ _ => True)
      (fun _ t => CellsOk t ∧ t.lessEncCells = s.lessEncCells) := by
    unfold encCell
    rw [ends_bind, ends_readCell ha, ends_bind]
    refine ((ends_encodeBitCore h (by omega) (by omega) bit (n := 1) (by omega)
      (bitRange_once h.rangeGe hp.1 hp.2)).and (encRel_arith.bitCore (cellAt s a) bit s)).mono (fun q t ht => ?_) ?_
    · rw [ends_writeCell ha]; trivial
    · rintro e t ⟨_, ht⟩
      have hpram : t.pram = s.pram := by
        have := congrArg State.pram ht
        exact this
      exact ⟨⟨hpram ▸ hc.wf, hpram ▸ hc.range⟩, lessEnc_cells ht⟩
  refine ((ends_encCell h hc ha bit).and hk).mono ?_ ?_
  · rintro _ t ⟨⟨k, hk, ht⟩, _⟩
    exact ⟨ht.live, ht.cells, by have := ht.count; omega, ht.only⟩
  · rintro e t ⟨⟨h1, h2, h3⟩, h4⟩
    exact ⟨h1, h2, h4.1, by simpa using h3, le_rfl, h4.2⟩

/-- A decision at probability one half renormalises at most once (R124). -/
theorem encDiscard_run (h : EncLive s) (hc : CellsOk s) (bit : Bool) :
    Ends (encDiscard 1024 bit) s (fun _ t => EncRun 1 s t) (EncCut 1 s) := by
  unfold encDiscard
  rw [ends_bind]
  refine ((ends_encodeBitCore h (by omega) (by omega) bit (n := 1) (by omega)
    (bitRange_once h.rangeGe (by omega) (by omega))).and (encRel_arith.bitCore 1024 bit s)).mono ?_ ?_
  · rintro q t ⟨⟨_, hl, k, hk, hs⟩, ht⟩
    have hpram : t.pram = s.pram := by
      have := congrArg State.pram ht
      exact this
    refine ⟨hl, ⟨hpram ▸ hc.wf, hpram ▸ hc.range⟩, by have := hs.count; omega, ?_⟩
    have := congrArg (fun u : State => { u with pram := [] }) ht
    exact this
  · rintro e t ⟨⟨h1, h2, _, h4⟩, ht⟩
    have hpram : t.pram = s.pram := by
      have := congrArg State.pram ht
      exact this
    exact ⟨h1, h2, ⟨hpram ▸ hc.wf, hpram ▸ hc.range⟩, by simpa using h4, le_rfl, lessEnc_cells ht⟩

theorem encDiscards_run (bit : Bool) : ∀ (n : Nat) {s : State}, EncLive s → CellsOk s →
    Ends (repeatCmd n (encDiscard 1024 bit)) s (fun _ t => EncRun n s t) (EncCut n s)
  | 0, _, h, hc => EncRun.refl h hc
  | n + 1, _, h, hc => by
    have := (encDiscard_run h hc bit).encBind (m := n) (f := fun _ => repeatCmd n (encDiscard 1024 bit))
      fun _ t ht => encDiscards_run bit n ht.live ht.cells
    rw [Nat.add_comm 1 n] at this
    exact this

theorem treeEncodeLoop_run (base v : Nat) : ∀ (k m : Nat) {s : State}, EncLive s → CellsOk s →
    (∀ x, m ≤ x → 2 * x < (m + 1) * 2 ^ k → cellValid (base + x) = true) →
    Ends (treeEncodeLoop base v k m) s (fun _ t => EncRun k s t) (EncCut k s)
  | 0, _, _, h, hc, _ => EncRun.refl h hc
  | k + 1, m, _, h, hc, hv => by
    have := (encCell_run h hc (hv m le_rfl (walk_here m k)) (v.testBit k)).encBind (m := k)
      (f := fun _ => treeEncodeLoop base v k (2 * m + (v.testBit k).toNat))
      fun _ t ht => treeEncodeLoop_run base v k _ ht.live ht.cells fun x h1 h2 => hv x (by omega) (walk_next h2)
    rw [Nat.add_comm 1 k] at this
    exact this

theorem treeEncode_run {base n : Nat} (v : Nat) (h : EncLive s) (hc : CellsOk s)
    (hv : ∀ x, 1 ≤ x → x < 2 ^ n → cellValid (base + x) = true) :
    Ends (treeEncode base n v) s (fun _ t => EncRun n s t) (EncCut n s) :=
  treeEncodeLoop_run base v n 1 h hc fun x h1 h2 => hv x h1 (by omega)

/-! ## Cells of the contexts (41_probability_model.md R165 to R168) -/

theorem posState_lt (h : propsValid s.props = true) : posState s < 16 := by
  have hpb : pbOf s.props ≤ 4 := by simp [propsValid] at h; omega
  unfold posState
  rw [Nat.shiftLeft_eq, one_mul, Nat.and_two_pow_sub_one_eq_mod]
  have : 2 ^ pbOf s.props ≤ 2 ^ 4 := Nat.pow_le_pow_right (by omega) hpb
  have := Nat.mod_lt (posOf s) (Nat.two_pow_pos (pbOf s.props))
  omega

theorem litState_lt (h : propsValid s.props = true) : litState s < 2 ^ 12 := by
  have hlc : lcOf s.props ≤ 8 := by simp [propsValid] at h; omega
  have hlp : lpOf s.props ≤ 4 := by simp [propsValid] at h; omega
  unfold litState
  rw [Nat.shiftLeft_eq, Nat.shiftLeft_eq, one_mul, Nat.and_two_pow_sub_one_eq_mod, Nat.shiftRight_eq_div_pow]
  have hb := (lastByte s).isLt
  have hm := Nat.mod_lt (posOf s) (Nat.two_pow_pos (lpOf s.props))
  generalize (lastByte s).toNat = b at *
  generalize posOf s % 2 ^ lpOf s.props = m at *
  generalize lcOf s.props = lc at *
  generalize lpOf s.props = lp at *
  interval_cases lc <;> interval_cases lp <;> omega

theorem cellValid_iff (a : Nat) :
    cellValid a = true ↔ a ≤ 0x3007FF ∧ (a < 0x323 ∨ 0x32F < a) ∧ (a < 0x744 ∨ 0x7FF < a) := by
  simp only [cellValid, Bool.and_eq_true, Bool.not_eq_true', Bool.and_eq_false_iff, decide_eq_true_eq,
    decide_eq_false_iff_not, not_le, and_assoc]

theorem litCell_valid (h : propsValid s.props = true) {x : Nat} (hx : x < 0x300) :
    cellValid (literalBase (litState s) + x) = true := by
  have := litState_lt h
  rw [cellValid_iff]
  unfold literalBase
  omega

theorem isMatchCell_valid (h : propsValid s.props = true) {st : Nat} (hs : st ≤ 11) :
    cellValid (isMatchCell st (posState s)) = true := by
  have := posState_lt h
  rw [cellValid_iff]
  unfold isMatchCell
  omega

theorem EncRun.litState {n : Nat} (h : EncRun n s t) : litState t = Machine.litState s :=
  litState_congr (by have := congrArg State.window h.only; exact this) (by have := congrArg State.props h.only; exact this)

theorem EncRun.props {n : Nat} (h : EncRun n s t) : t.props = s.props := by
  have := congrArg State.props h.only
  exact this

theorem EncRun.mode {n : Nat} (h : EncRun n s t) : t.mode = s.mode := by
  have := congrArg State.mode h.only
  exact this

/-- ENC_LITERAL's body: nine decisions, then STATE and the window (R210). -/
theorem encLiteral_run (h : EncLive s) (hc : CellsOk s) (hp : propsValid s.props = true) (hf : s.fsm.toNat ≤ 11)
    (hm : s.mode = .encode) (b : Byte) : Ends (encLiteral b) s
    (fun _ t => ∃ u, EncRun 9 s u ∧ t = (u.withFsm (litNext s.fsm.toNat)).withWindow (s.window ++ [b]))
    (EncCut 9 s) := by
  unfold encLiteral
  rw [ends_bind, ends_get, ends_bind]
  refine (encCell_run h hc (isMatchCell_valid hp hf) false).mono ?_ fun e t ht => ht.mono (by omega)
  intro _ t ht
  rw [ends_bind]
  unfold literalCoder
  rw [ends_bind, ends_get, ends_ite]
  have hlc : lcOf t.props ≤ 8 := by rw [ht.props]; simp [propsValid] at hp; omega
  rw [if_pos hlc, ends_pure, ht.litState, ends_bind]
  refine (treeEncode_run b.toNat ht.live ht.cells fun x h1 h2 => litCell_valid hp (by omega)).mono ?_
    fun e u hu => EncCut.after ht hu
  intro _ u hu
  rw [ends_bind]
  unfold setFsm
  rw [ends_modify]
  refine ends_windowAppend ?_ fun hd => ?_
  · refine ⟨u, ht.trans hu, ?_⟩
    have hum : (u.withFsm (litNext s.fsm.toNat)).mode ≠ .decode := by
      simp [(ht.trans hu).mode, hm]
    rw [State.appended_other hum]
    have : u.window = s.window := by
      have := congrArg State.window (ht.trans hu).only
      exact this
    simp [this]
  · simp [(ht.trans hu).mode, hm] at hd

/-- ENC_EOS's body: 42 decisions, then EOS_SEEN (R211). -/
theorem encEos_run (h : EncLive s) (hc : CellsOk s) (hp : propsValid s.props = true) (hf : s.fsm.toNat ≤ 11) :
    Ends encEos s (fun _ t => ∃ u, EncRun 42 s u ∧ t = u.sawEos) (EncCut 42 s) := by
  unfold encEos
  rw [ends_bind, ends_get]
  rw [ends_bind]
  refine (encCell_run h hc (isMatchCell_valid hp hf) true).mono ?_ fun e t ht => ht.mono (by omega)
  intro _ t ht
  rw [ends_bind]
  refine (encDiscard_run ht.live ht.cells false).mono ?_ fun e u hu => (EncCut.after ht hu).mono (by omega)
  intro _ u hu
  rw [ends_bind]
  refine (encDiscards_run false 4 hu.live hu.cells).mono ?_
    fun e v hv => (EncCut.after (ht.trans hu) hv).mono (by omega)
  intro _ v hv
  rw [ends_bind]
  refine (encDiscards_run true 6 hv.live hv.cells).mono ?_
    fun e w hw => (EncCut.after ((ht.trans hu).trans hv) hw).mono (by omega)
  intro _ w hw
  rw [ends_bind]
  refine (encDiscards_run true 30 hw.live hw.cells).mono ?_
    fun e x hx => (EncCut.after (((ht.trans hu).trans hv).trans hw) hx).mono (by omega)
  intro _ x hx
  exact ⟨x, (((ht.trans hu).trans hv).trans hw).trans hx, rfl⟩

end Sys2Proof.Machine
end

