-- ==== Sys2Proof/Laws/DecodeRuns.lean ====
section
/-! SUPPORT. Decoder decisions (40_range_coder.md R135 to R138, R141 to R143) and runs of them through trees
(41_probability_model.md R172, R173): what they consume, what they leave, when they are cut short. -/

namespace Sys2Proof.Machine

variable {s t u : State}

/-! ## Renormalisation (R135) -/

/-- `k` renormalisations after RANGE became `r` and CODE became `c`. -/
structure DecStep (r c k : Nat) (s t : State) : Prop where
  taken : ∃ l, s.source = l ++ t.source ∧ l.length = k ∧ t.code.toNat = (c * 256 ^ k + numOf l) % 2 ^ 32
  counted : t.inCount = s.inCount + k
  range : t.range.toNat = r * 256 ^ k
  only : t.lessDec = s.lessDec

theorem DecStep.refl (s : State) : DecStep s.range.toNat s.code.toNat 0 s s := by
  have := s.code.isLt
  exact ⟨⟨[], rfl, rfl, by simp; omega⟩, rfl, by simp, rfl⟩

/-- One turn of `DecNormalize` on a source byte. -/
def State.shiftedIn (s : State) (b : Byte) (rest : List Byte) : State :=
  ((s.withRange (BitVec.ofNat 32 (s.range.toNat <<< 8))).consumed rest).withCode
    (BitVec.ofNat 32 (s.code.toNat <<< 8 ||| b.toNat))

theorem shl8_or (c : Nat) (b : Byte) : c <<< 8 ||| b.toNat = c * 256 + b.toNat := by
  have := b.isLt
  rw [← Nat.shiftLeft_add_eq_or_of_lt (by omega), Nat.shiftLeft_eq]

theorem shiftedIn_lessDec {b : Byte} {rest : List Byte} : (s.shiftedIn b rest).lessDec = s.lessDec := by
  unfold State.shiftedIn State.withCode State.consumed State.withRange State.lessDec
  rfl

theorem sourceStop_congr (h : t.sourceEnd = s.sourceEnd) (c : Cause) : sourceStop t c = sourceStop s c := by
  unfold sourceStop; rw [h]

theorem shiftedIn_step {b : Byte} {rest : List Byte} (hs : s.source = b :: rest) (hr : s.range.toNat < 2 ^ 24) :
    DecStep s.range.toNat s.code.toNat 1 s (s.shiftedIn b rest) := by
  refine ⟨⟨[b], hs, rfl, ?_⟩, rfl, ?_, shiftedIn_lessDec⟩
  · simp only [State.shiftedIn, State.withCode_code, BitVec.toNat_ofNat, shl8_or]
    simp [numOf]
  · have := shl8_toNat hr
    simpa [State.shiftedIn] using this

theorem DecStep.trans {r c k k' : Nat} (h : DecStep r c k s t) (h' : DecStep t.range.toNat t.code.toNat k' t u) :
    DecStep r c (k + k') s u := by
  obtain ⟨l, h1, h2, h3⟩ := h.taken
  obtain ⟨l', h1', h2', h3'⟩ := h'.taken
  refine ⟨⟨l ++ l', by rw [h1, h1']; simp, by simp [h2, h2'], ?_⟩, ?_, ?_, h'.only.trans h.only⟩
  · rw [h3', h3, numOf_append, h2', Nat.add_mod, Nat.mul_mod, Nat.mod_mod, ← Nat.mul_mod, ← Nat.add_mod, pow_add]
    congr 1
    ring
  · rw [h'.counted, h.counted]; omega
  · rw [h'.range, h.range, pow_add]; ring

/-- A read cut the run short: the source had fewer than `n` bytes. -/
def DecCut (n : Nat) (s : State) (e : Stop) : Prop := e = .raise (sourceStop s .truncated) ∧ s.source.length < n

theorem ends_decNormalizeLoop : ∀ (n fuel : Nat) {s : State}, s.source.length + 2 ≤ fuel →
    2 ^ 24 ≤ s.range.toNat * 256 ^ n → Ends (decNormalizeLoop fuel) s
      (fun _ t => 2 ^ 24 ≤ t.range.toNat ∧ ∃ k ≤ n, DecStep s.range.toNat s.code.toNat k s t)
      (fun e _ => DecCut n s e)
  | n, fuel, s, hf, hr => by
    obtain ⟨fuel, rfl⟩ : ∃ f, fuel = f + 1 := ⟨fuel - 1, by omega⟩
    unfold decNormalizeLoop
    rw [ends_bind, ends_get, ends_ite]
    by_cases hlt : s.range.toNat < top
    · rw [if_pos hlt]
      have hlt : s.range.toNat < 2 ^ 24 := hlt
      cases n with
      | zero => omega
      | succ n =>
        rw [ends_bind, ends_set, ends_bind]
        refine ends_inRead (fun b rest hs => ?_) fun hs => ⟨by rw [sourceStop_congr (State.withRange_sourceEnd ..)], by
          have : s.source = [] := hs
          rw [this]; simp⟩
        rw [ends_bind, ends_modify]
        have hs : s.source = b :: rest := hs
        have hstep := shiftedIn_step hs hlt
        have hlen : s.source.length = rest.length + 1 := by rw [hs]; rfl
        have hr' : 2 ^ 24 ≤ (s.shiftedIn b rest).range.toNat * 256 ^ n := by
          rw [hstep.range, pow_one, mul_assoc, ← pow_succ']; exact hr
        change Ends _ (s.shiftedIn b rest) _ _
        refine (ends_decNormalizeLoop n fuel ?_ hr').mono ?_ ?_
        · change rest.length + 2 ≤ fuel
          omega
        · rintro _ t ⟨h1, k, hk, hstep'⟩
          exact ⟨h1, 1 + k, by omega, hstep.trans hstep'⟩
        · rintro e t ⟨h1, h2⟩
          rw [sourceStop_congr (s := s) (by simp [State.shiftedIn])] at h1
          refine ⟨h1, ?_⟩
          have h2 : rest.length < n := h2
          omega
    · rw [if_neg hlt, ends_pure]
      have hlt : ¬ s.range.toNat < 2 ^ 24 := hlt
      exact ⟨by omega, 0, by omega, DecStep.refl s⟩

theorem ends_decNormalize {n : Nat} (hr : 2 ^ 24 ≤ s.range.toNat * 256 ^ n) : Ends decNormalize s
    (fun _ t => 2 ^ 24 ≤ t.range.toNat ∧ ∃ k ≤ n, DecStep s.range.toNat s.code.toNat k s t)
    (fun e _ => DecCut n s e) := by
  unfold decNormalize
  rw [ends_bind, ends_get]
  exact ends_decNormalizeLoop n _ le_rfl hr

/-! ## One decision (R137, R141, R142) -/

theorem decSplit_facts (hr : 2 ^ 24 ≤ s.range.toNat) {p : Nat} (h1 : 1 ≤ p) (h2 : p ≤ 2047) :
    DecStep (bitRange s.range p (decBit p s)) (s.code.toNat - bitGain s.range p (decBit p s)) 0 s (decSplit p s) := by
  have hb := splitBound_bounds hr h1 h2
  have hrl := s.range.isLt
  have hcl := s.code.isLt
  cases hbit : decBit p s with
  | false =>
    refine ⟨⟨[], by simp [decSplit, hbit], rfl, ?_⟩, by simp [decSplit, hbit], ?_, by simp [decSplit, hbit]; rfl⟩
    · simp [decSplit, hbit, bitGain]; omega
    · simp [decSplit, hbit, bitRange]; omega
  | true =>
    have hle : splitBound s.range p ≤ s.code.toNat := by simpa [decBit] using hbit
    refine ⟨⟨[], by simp [decSplit, hbit], rfl, ?_⟩, by simp [decSplit, hbit], ?_, by simp [decSplit, hbit]; rfl⟩
    · simp [decSplit, hbit, bitGain]
    · simp [decSplit, hbit, bitRange]; omega

theorem DecStep.after {r c k : Nat} (h : DecStep r c 0 s t) (h' : DecStep t.range.toNat t.code.toNat k t u) :
    DecStep r c k s u := by simpa using h.trans h'

/-- `DecodeBitCore` (R137): the bit, the adapted probability, and at most `n` bytes consumed. -/
theorem ends_decodeBitCore (hr : 2 ^ 24 ≤ s.range.toNat) {p : Nat} (h1 : 1 ≤ p) (h2 : p ≤ 2047) {n : Nat}
    (hn : 2 ^ 24 ≤ bitRange s.range p (decBit p s) * 256 ^ n) :
    Ends (decodeBitCore p) s
      (fun q t => q = (decBit p s, adapt p (decBit p s)) ∧ 2 ^ 24 ≤ t.range.toNat ∧ ∃ k ≤ n,
        DecStep (bitRange s.range p (decBit p s)) (s.code.toNat - bitGain s.range p (decBit p s)) k s t)
      (fun e _ => DecCut n s e) := by
  have hs := decSplit_facts hr h1 h2
  obtain ⟨l, hl1, hl2, _⟩ := hs.taken
  have hl : l = [] := List.length_eq_zero_iff.1 hl2
  rw [hl, List.nil_append] at hl1
  unfold decodeBitCore
  rw [ends_bind, ends_get, ends_bind, ends_set, ends_bind]
  refine (ends_decNormalize (n := n) (by rw [hs.range]; simpa using hn)).mono ?_ ?_
  · rintro _ t ⟨hge, k, hk, hstep⟩
    exact ⟨rfl, hge, k, hk, hs.after hstep⟩
  · rintro e _ ⟨he, hlen⟩
    have hend : (decSplit p s).sourceEnd = s.sourceEnd := by
      have := congrArg State.sourceEnd hs.only
      exact this
    exact ⟨by rw [he, sourceStop_congr hend], by rw [hl1]; exact hlen⟩

/-- What `DecCell` leaves (R141): the decision with the cell's probability, and the cell adapted to the bit. -/
structure DecCellStep (a k : Nat) (s t : State) : Prop where
  rangeGe : 2 ^ 24 ≤ t.range.toNat
  cells : CellsOk t
  taken : ∃ l, s.source = l ++ t.source ∧ l.length = k ∧ t.code.toNat =
    ((s.code.toNat - bitGain s.range (cellAt s a) (decBit (cellAt s a) s)) * 256 ^ k + numOf l) % 2 ^ 32
  counted : t.inCount = s.inCount + k
  range : t.range.toNat = bitRange s.range (cellAt s a) (decBit (cellAt s a) s) * 256 ^ k
  cell : ∀ b, cellAt t b = if b = a then adapt (cellAt s a) (decBit (cellAt s a) s) else cellAt s b
  only : t.lessDecCells = s.lessDecCells

theorem lessDec_pram (h : t.lessDec = s.lessDec) : t.pram = s.pram := by
  have := congrArg State.pram h
  exact this

theorem lessDec_cells (h : t.lessDec = s.lessDec) : t.lessDecCells = s.lessDecCells := by
  have := congrArg (fun u : State => { u with pram := [] }) h
  exact this

theorem ends_decCell (hr : 2 ^ 24 ≤ s.range.toNat) (hc : CellsOk s) {a : Nat} (ha : cellValid a = true) :
    Ends (decCell a) s (fun bit t => bit = decBit (cellAt s a) s ∧ ∃ k ≤ 1, DecCellStep a k s t)
      (fun e t => DecCut 1 s e ∧ CellsOk t) := by
  have hp := hc.bounds a
  unfold decCell
  rw [ends_bind, ends_readCell ha, ends_bind]
  refine ((ends_decodeBitCore hr (by omega) (by omega) (n := 1) (bitRange_once hr hp.1 hp.2)).and
    (decRel_arith.bitCore (cellAt s a) s)).mono ?_ ?_
  · rintro q t ⟨⟨rfl, hge, k, hk, hstep⟩, _⟩
    rw [ends_bind, ends_writeCell ha, ends_pure]
    have hpram := lessDec_pram hstep.only
    have hct : CellsOk t := ⟨hpram ▸ hc.wf, hpram ▸ hc.range⟩
    have hab := adapt_bounds hp.1 hp.2 (decBit (cellAt s a) s)
    have hat : ∀ b, cellAt t b = cellAt s b := fun b => by unfold cellAt; rw [hpram]
    refine ⟨rfl, k, hk, hge, hct.write ha hab.1 hab.2, hstep.taken, hstep.counted, hstep.range, fun b => ?_, by
      have := lessDec_cells hstep.only
      exact this⟩
    rw [hct.cellAt_write hab.2, hat]
  · rintro e t ⟨h1, h2⟩
    have hpram := lessDec_pram h2
    exact ⟨h1, ⟨hpram ▸ hc.wf, hpram ▸ hc.range⟩⟩

/-! ## Runs of decisions -/

/-- The source's bytes taken, at most `n` of them, and counted (10_state.md R41). -/
def Takes (n : Nat) (s t : State) : Prop :=
  ∃ l, s.source = l ++ t.source ∧ l.length ≤ n ∧ t.inCount = s.inCount + l.length

/-- At most `n` bytes consumed, with every cell and the range in order. -/
structure DecRun (n : Nat) (s t : State) : Prop where
  rangeGe : 2 ^ 24 ≤ t.range.toNat
  cells : CellsOk t
  takes : Takes n s t
  only : t.lessDecCells = s.lessDecCells

theorem Takes.trans {n m : Nat} (h : Takes n s t) (h' : Takes m t u) : Takes (n + m) s u := by
  obtain ⟨l, h1, h2, h3⟩ := h
  obtain ⟨l', h1', h2', h3'⟩ := h'
  exact ⟨l ++ l', by rw [h1, h1']; simp, by simp; omega, by simp; omega⟩

theorem Takes.mono {n m : Nat} (h : Takes n s t) (hnm : n ≤ m) : Takes m s t := by
  obtain ⟨l, h1, h2, h3⟩ := h
  exact ⟨l, h1, by omega, h3⟩

theorem Takes.length {n : Nat} (h : Takes n s t) : s.source.length ≤ t.source.length + n := by
  obtain ⟨l, h1, h2, _⟩ := h
  rw [h1]; simp; omega

theorem DecRun.refl (hr : 2 ^ 24 ≤ s.range.toNat) (hc : CellsOk s) : DecRun 0 s s :=
  ⟨hr, hc, ⟨[], rfl, le_rfl, rfl⟩, rfl⟩

theorem DecRun.trans {n m : Nat} (h : DecRun n s t) (h' : DecRun m t u) : DecRun (n + m) s u :=
  ⟨h'.rangeGe, h'.cells, h.takes.trans h'.takes, h'.only.trans h.only⟩

theorem DecRun.mono {n m : Nat} (h : DecRun n s t) (hnm : n ≤ m) : DecRun m s t :=
  ⟨h.rangeGe, h.cells, h.takes.mono hnm, h.only⟩

theorem DecRun.sourceEnd {n : Nat} (h : DecRun n s t) : t.sourceEnd = s.sourceEnd := by
  have := congrArg State.sourceEnd h.only
  exact this

theorem DecCut.after {n m : Nat} {e : Stop} (ht : Takes n s t) (hse : t.sourceEnd = s.sourceEnd) (h' : DecCut m t e) :
    DecCut (n + m) s e := by
  refine ⟨by rw [h'.1]; simp [sourceStop, hse], ?_⟩
  have := ht.length
  have := h'.2
  omega

theorem DecCut.mono {n m : Nat} {e : Stop} (h : DecCut n s e) (hnm : n ≤ m) : DecCut m s e :=
  ⟨h.1, by have := h.2; omega⟩

/-- Two runs one after the other. -/
theorem Ends.decBind {α β : Type} {x : Cmd α} {f : α → Cmd β} {n m : Nat} {P : α → Prop} {Q : β → Prop}
    (hx : Ends x s (fun a t => P a ∧ DecRun n s t) (fun e t => DecCut n s e ∧ CellsOk t))
    (hf : ∀ a t, P a → DecRun n s t →
      Ends (f a) t (fun b u => Q b ∧ DecRun m t u) (fun e u => DecCut m t e ∧ CellsOk u)) :
    Ends (x >>= f) s (fun b u => Q b ∧ DecRun (n + m) s u) (fun e u => DecCut (n + m) s e ∧ CellsOk u) := by
  rw [ends_bind]
  refine hx.mono (fun a t ht => ?_) fun e t ht => ⟨ht.1.mono (by omega), ht.2⟩
  refine (hf a t ht.1 ht.2).mono (fun _ u hu => ⟨hu.1, ht.2.trans hu.2⟩) fun e u hu => ?_
  exact ⟨DecCut.after ht.2.takes ht.2.sourceEnd hu.1, hu.2⟩

theorem decCell_run (hr : 2 ^ 24 ≤ s.range.toNat) (hc : CellsOk s) {a : Nat} (ha : cellValid a = true) :
    Ends (decCell a) s (fun bit t => bit = decBit (cellAt s a) s ∧ DecRun 1 s t)
      (fun e t => DecCut 1 s e ∧ CellsOk t) := by
  refine (ends_decCell hr hc ha).mono ?_ fun _ _ h => h
  rintro bit t ⟨hb, k, hk, h⟩
  obtain ⟨l, h1, h2, _⟩ := h.taken
  exact ⟨hb, h.rangeGe, h.cells, ⟨l, h1, by omega, by rw [h.counted, h2]⟩, h.only⟩

/-- A walk of `k` decisions from node `m` ends at one of the `2^k` nodes below it. -/
theorem treeDecodeLoop_run (base : Nat) : ∀ (k m : Nat) {s : State}, 2 ^ 24 ≤ s.range.toNat → CellsOk s →
    (∀ x, m ≤ x → 2 * x < (m + 1) * 2 ^ k → cellValid (base + x) = true) →
    Ends (treeDecodeLoop base k m) s (fun v t => (m * 2 ^ k ≤ v ∧ v < (m + 1) * 2 ^ k) ∧ DecRun k s t)
      (fun e t => DecCut k s e ∧ CellsOk t)
  | 0, m, _, hr, hc, _ => ⟨by simp, DecRun.refl hr hc⟩
  | k + 1, m, _, hr, hc, hv => by
    have := Ends.decBind (m := k) (f := fun bit => treeDecodeLoop base k (2 * m + bit.toNat))
      (Q := fun v => m * 2 ^ (k + 1) ≤ v ∧ v < (m + 1) * 2 ^ (k + 1))
      (decCell_run hr hc (hv m le_rfl (walk_here m k)))
      fun bit t _ ht => (treeDecodeLoop_run base k (2 * m + bit.toNat) ht.rangeGe ht.cells
        fun x h1 h2 => hv x (by omega) (walk_next h2)).mono (fun v u hu => ⟨?_, hu.2⟩) fun _ _ h => h
    · rw [Nat.add_comm 1 k] at this
      exact this
    · have hb : bit.toNat ≤ 1 := Bool.toNat_le bit
      obtain ⟨⟨h1, h2⟩, _⟩ := hu
      have e1 : m * 2 ^ (k + 1) = 2 * m * 2 ^ k := by ring
      have e2 : (m + 1) * 2 ^ (k + 1) = (2 * m + 2) * 2 ^ k := by ring
      have := Nat.mul_le_mul_right (2 ^ k) (show 2 * m ≤ 2 * m + bit.toNat by omega)
      have := Nat.mul_le_mul_right (2 ^ k) (show 2 * m + bit.toNat + 1 ≤ 2 * m + 2 by omega)
      omega

theorem treeDecode_run {base n : Nat} (hr : 2 ^ 24 ≤ s.range.toNat) (hc : CellsOk s)
    (hv : ∀ x, 1 ≤ x → x < 2 ^ n → cellValid (base + x) = true) :
    Ends (treeDecode base n) s (fun v t => v < 2 ^ n ∧ DecRun n s t) (fun e t => DecCut n s e ∧ CellsOk t) := by
  unfold treeDecode
  rw [ends_bind]
  refine (treeDecodeLoop_run base n 1 hr hc fun x h1 h2 => hv x h1 (by omega)).mono ?_ fun _ _ h => h
  rintro m t ⟨⟨h1, h2⟩, ht⟩
  rw [ends_pure]
  exact ⟨by omega, ht⟩

/-- The reverse walk builds a value below `2^n`. -/
theorem rtreeDecodeLoop_run (base : Nat) : ∀ (j k m r : Nat) {s : State}, r < 2 ^ k → 2 ^ 24 ≤ s.range.toNat → CellsOk s →
    (∀ x, m ≤ x → 2 * x < (m + 1) * 2 ^ j → cellValid (base + x) = true) →
    Ends (rtreeDecodeLoop base j k m r) s (fun v t => v < 2 ^ (k + j) ∧ DecRun j s t)
      (fun e t => DecCut j s e ∧ CellsOk t)
  | 0, _, _, _, _, hk, hr, hc, _ => ⟨hk, DecRun.refl hr hc⟩
  | j + 1, k, m, r, _, hk, hr, hc, hv => by
    have := Ends.decBind (m := j) (f := fun bit => rtreeDecodeLoop base j (k + 1) (2 * m + bit.toNat) (r ||| bit.toNat <<< k))
      (Q := fun v => v < 2 ^ (k + (j + 1)))
      (decCell_run hr hc (hv m le_rfl (walk_here m j)))
      fun bit t _ ht => (rtreeDecodeLoop_run base j (k + 1) (2 * m + bit.toNat) (r ||| bit.toNat <<< k) ?_ ht.rangeGe ht.cells
        fun x h1 h2 => hv x (by omega) (walk_next h2)).mono (fun v u hu => ⟨?_, hu.2⟩) fun _ _ h => h
    · rw [Nat.add_comm 1 j] at this
      exact this
    · refine Nat.or_lt_two_pow (lt_of_lt_of_le hk (Nat.pow_le_pow_right (by omega) (by omega))) ?_
      have hb : bit.toNat ≤ 1 := Bool.toNat_le bit
      rw [Nat.shiftLeft_eq, pow_succ, mul_comm]
      have := Nat.two_pow_pos k
      nlinarith
    · have : k + (j + 1) = k + 1 + j := by omega
      rw [this]; exact hu.1

theorem rtreeDecode_run {base n : Nat} (hr : 2 ^ 24 ≤ s.range.toNat) (hc : CellsOk s)
    (hv : ∀ x, 1 ≤ x → x < 2 ^ n → cellValid (base + x) = true) :
    Ends (rtreeDecode base n) s (fun v t => v < 2 ^ n ∧ DecRun n s t) (fun e t => DecCut n s e ∧ CellsOk t) := by
  have := rtreeDecodeLoop_run base n 0 1 0 (s := s) (by simp) hr hc fun x h1 h2 => hv x h1 (by omega)
  simpa [rtreeDecode] using this

/-! ## Direct bits (R138, R143) -/

/-- The bit one direct step decodes (R138). -/
def directBit (s : State) : Bool := decide (s.range.toNat >>> 1 ≤ s.code.toNat)

theorem directSplit_facts (s : State) :
    DecStep (s.range.toNat / 2) (s.code.toNat - if directBit s then s.range.toNat / 2 else 0) 0 s (directSplit s) := by
  have hrl := s.range.isLt
  have hcl := s.code.isLt
  have e : s.range.toNat >>> 1 = s.range.toNat / 2 := by simp [Nat.shiftRight_eq_div_pow]
  by_cases h : s.range.toNat / 2 ≤ s.code.toNat
  · refine ⟨⟨[], by simp [directSplit, e, h], rfl, ?_⟩, by simp [directSplit, e, h], ?_, by simp [directSplit, e, h]; rfl⟩
    · simp [directSplit, e, h, directBit]
    · simp [directSplit, e, h]; omega
  · refine ⟨⟨[], by simp [directSplit, e, h], rfl, ?_⟩, by simp [directSplit, e, h], ?_, by simp [directSplit, e, h]; rfl⟩
    · simp [directSplit, e, h, directBit]; omega
    · simp [directSplit, e, h]; omega

/-- One direct bit consumes at most one byte. -/
theorem ends_direct (hr : 2 ^ 24 ≤ s.range.toNat) : Ends (do set (directSplit s); decNormalize) s
    (fun _ t => 2 ^ 24 ≤ t.range.toNat ∧ ∃ k ≤ 1, DecStep (s.range.toNat / 2)
      (s.code.toNat - if directBit s then s.range.toNat / 2 else 0) k s t) (fun e _ => DecCut 1 s e) := by
  have hs := directSplit_facts s
  obtain ⟨l, hl1, hl2, _⟩ := hs.taken
  have hl : l = [] := List.length_eq_zero_iff.1 hl2
  rw [hl, List.nil_append] at hl1
  rw [ends_bind, ends_set]
  refine (ends_decNormalize (n := 1) (by rw [hs.range]; omega)).mono ?_ ?_
  · rintro _ t ⟨hge, k, hk, hstep⟩
    exact ⟨hge, k, hk, hs.after hstep⟩
  · rintro e _ ⟨he, hlen⟩
    have hend : (directSplit s).sourceEnd = s.sourceEnd := by
      have := congrArg State.sourceEnd hs.only
      exact this
    exact ⟨by rw [he, sourceStop_congr hend], by rw [hl1]; exact hlen⟩

theorem decDirectLoop_run : ∀ (k r : Nat) {s : State}, 2 ^ 24 ≤ s.range.toNat → CellsOk s →
    Ends (decDirectLoop k r) s (fun v t => (r * 2 ^ k ≤ v ∧ v < (r + 1) * 2 ^ k) ∧ DecRun k s t)
      (fun e t => DecCut k s e ∧ CellsOk t)
  | 0, r, _, hr, hc => ⟨by simp, DecRun.refl hr hc⟩
  | k + 1, r, s, hr, hc => by
    have hx : Ends (do set (directSplit s); decNormalize) s (fun _ t => True ∧ DecRun 1 s t)
        (fun e t => DecCut 1 s e ∧ CellsOk t) := by
      have hk : Keeps (fun s t => t.lessDec = s.lessDec) decNormalize := decRel_arith.normalize
      have hk' : Ends (do set (directSplit s); decNormalize) s (fun _ t => t.lessDec = s.lessDec)
          (fun _ t => t.lessDec = s.lessDec) := by
        rw [ends_bind, ends_set]
        exact (hk (directSplit s)).mono (fun _ t ht => ht.trans (directSplit_facts s).only)
          fun _ t ht => ht.trans (directSplit_facts s).only
      refine ((ends_direct hr).and hk').mono ?_ ?_
      · rintro _ t ⟨⟨hge, k, hk, hstep⟩, hp⟩
        obtain ⟨l, h1, h2, _⟩ := hstep.taken
        exact ⟨trivial, hge, ⟨lessDec_pram hp ▸ hc.wf, lessDec_pram hp ▸ hc.range⟩,
          ⟨l, h1, by omega, by rw [hstep.counted, h2]⟩, lessDec_cells hp⟩
      · rintro e t ⟨h1, hp⟩
        exact ⟨h1, lessDec_pram hp ▸ hc.wf, lessDec_pram hp ▸ hc.range⟩
    have := Ends.decBind (m := k) (P := fun _ => True)
      (f := fun _ => decDirectLoop k (2 * r + (directBit s).toNat))
      (Q := fun v => r * 2 ^ (k + 1) ≤ v ∧ v < (r + 1) * 2 ^ (k + 1)) hx
      fun _ t _ ht => (decDirectLoop_run k (2 * r + (directBit s).toNat) ht.rangeGe ht.cells).mono
        (fun v u hu => ⟨?_, hu.2⟩) fun _ _ h => h
    · rw [Nat.add_comm 1 k] at this
      unfold decDirectLoop
      rw [ends_bind, ends_get]
      rw [bind_assoc] at this
      exact this
    · have hb : (directBit s).toNat ≤ 1 := Bool.toNat_le _
      obtain ⟨⟨h1, h2⟩, _⟩ := hu
      have e1 : r * 2 ^ (k + 1) = 2 * r * 2 ^ k := by ring
      have e2 : (r + 1) * 2 ^ (k + 1) = (2 * r + 2) * 2 ^ k := by ring
      have := Nat.mul_le_mul_right (2 ^ k) (show 2 * r ≤ 2 * r + (directBit s).toNat by omega)
      have := Nat.mul_le_mul_right (2 ^ k) (show 2 * r + (directBit s).toNat + 1 ≤ 2 * r + 2 by omega)
      omega

theorem decDirect_run (n : Nat) (hr : 2 ^ 24 ≤ s.range.toNat) (hc : CellsOk s) :
    Ends (decDirect n) s (fun v t => v < 2 ^ n ∧ DecRun n s t) (fun e t => DecCut n s e ∧ CellsOk t) := by
  refine (decDirectLoop_run n 0 hr hc).mono (fun v t h => ⟨by have := h.1.2; simpa using this, h.2⟩) fun _ _ h => h

end Sys2Proof.Machine
end

