-- ==== Sys2Proof/Laws/ExecFrame.lean ====
section
/-! SUPPORT. What each command leaves alone, once for all of them: the state without what the command may write is as
before, separately for a command that completes and for one cut short by a fault. -/

namespace Sys2Proof.Machine

/-- The state without what a command may write before a fault cuts it short. -/
def faultBlank : Instr → State → State
  | .rcEncBit _, s | .rcEncTree _, s | .encEos, s => s.lessEncCells
  | .rcEncBitNa _, s | .rcEncFlush, s => s.lessEnc
  | .encLiteral _, s => { s.lessEncCells with fsm := 0 }
  | .rcDecInit, s | .rcDecBitNa, s | .rcDecDirect _, s => s.lessDec
  | .rcDecBit, s | .rcDecTree _, s | .rcDecRtree _, s => s.lessDecCells
  | .decToken, s => s.lessTok
  | .dwPush _, s | .dwCopy, s => s.lessWindow
  | .hdrWrite, s => { s with sink := [], outCount := 0 }
  | .hdrRead, s => { s with source := [], inCount := 0 }
  | .nop, s | .sessionReset, s | .rcEncInit, s | .rcDecFinished, s | .pmInit, s | .cellRead, s | .dwReset, s
  | .dwByteAt, s | .dwLast, s | .propsValidate, s => s

/-- The state without what a command that completes may write. -/
def doneBlank : Instr → State → State
  | .rcEncInit, s => { s with low := 0, range := 0, cache := 0, cacheSize := 0, mode := .idle }
  | .rcEncBit _, s | .rcEncTree _, s => s.lessEncCells
  | .rcEncBitNa _, s => { s.lessEnc with res := 0 }
  | .rcEncFlush, s => { s.lessEnc with mode := .idle }
  | .encLiteral _, s => { s.lessEncCells with fsm := 0, window := [] }
  | .encEos, s => { s.lessEncCells with eosSeen := false }
  | .rcDecInit, s => { s.lessDec with mode := .idle }
  | .rcDecBit, s | .rcDecTree _, s | .rcDecRtree _, s => { s.lessDecCells with res := 0 }
  | .rcDecBitNa, s | .rcDecDirect _, s => { s.lessDec with res := 0 }
  | .rcDecFinished, s | .cellRead, s | .dwByteAt, s | .dwLast, s => { s with res := 0 }
  | .decToken, s => s.lessToken
  | .pmInit, s => { s with pram := [] }
  | .dwReset, s => { s with window := [] }
  | .dwPush _, s | .dwCopy, s => s.lessWindow
  | .hdrWrite, s => { s with sink := [], outCount := 0 }
  | .hdrRead, s => { s with source := [], inCount := 0, props := 0, dictSize := 0, usize := 0, policy := 0 }
  | .nop, s | .propsValidate, s => s
  | .sessionReset, _ => State.reset

/-- The two states agree on what `f` leaves. -/
def Same (f : State → State) (s t : State) : Prop := f t = f s

theorem Same.refl {f : State → State} (s : State) : Same f s s := rfl

theorem Same.trans {f : State → State} (s t u : State) (h : Same f s t) (h' : Same f t u) : Same f s u :=
  Eq.trans h' h

/-- What agrees on `f` agrees on a coarser `g`. -/
theorem Same.coarser {f g : State → State} (hfg : ∀ s, g (f s) = g s) {s t : State} (h : Same f s t) : Same g s t := by
  unfold Same at *
  rw [← hfg t, h, hfg s]

/-- The ways a command can go that R323 lists: refused while FAULTED, completed, or cut short. -/
def Went (i : Instr) (s t : State) : Prop :=
  (s.faulted = true ∧ t = s) ∨ (s.faulted = false ∧ Same (doneBlank i) s t) ∨
    (s.faulted = false ∧ ∃ u c, Same (faultBlank i) s u ∧ t = u.takeFault c)

variable {s t : State} {α β : Type} {f g : State → State}

theorem issue_went {i : Instr} {modes : List Mode} {body : Cmd Unit}
    (h : Leads (Same (faultBlank i)) (Same (doneBlank i)) body) (e : issue modes body s = .next t) : Went i s t := by
  rcases issue_cases modes body s with ⟨hf, h'⟩ | ⟨hf, _, h'⟩ | ⟨hf, _, h'⟩
  · rw [h'] at e; cases e; exact .inl ⟨hf, rfl⟩
  · rw [h'] at e; cases e; exact .inr (.inr ⟨hf, s, _, Same.refl _, rfl⟩)
  · rw [h'] at e
    refine conclude_ends (P := fun o => o = .next t → Went i s t) ?_ e
    refine (h s).mono (fun _ u hu hh => ?_) fun st u hu => ?_
    · cases hh; exact .inr (.inl ⟨hf, hu⟩)
    · cases st with
      | raise c => intro hh; cases hh; exact .inr (.inr ⟨hf, u, c, hu, rfl⟩)
      | stuck f => intro hh; cases hh

/-- A body that only keeps a blank. -/
theorem Keeps.leads {x : Cmd α} (h : Keeps (Same f) x) : Leads (Same f) (Same f) x := h

/-- A bind in which the first part keeps the blank `f`, the second leads to the coarser blank `g`. -/
theorem Leads.then (hfg : ∀ s, g (f s) = g s) {x : Cmd α} {y : α → Cmd β} (hx : Keeps (Same f) x)
    (hy : ∀ a, Leads (Same f) (Same g) (y a)) : Leads (Same f) (Same g) (x >>= y) :=
  Leads.bind Same.trans (fun s t u h h' => Same.trans s t u (Same.coarser hfg h) h') hx hy

/-- A last update of what `g` leaves out. -/
theorem leads_modify {h : State → State} (hg : ∀ s, g (h s) = g s) : Leads (Same f) (Same g) (modify h : Cmd PUnit) :=
  fun s => hg s

theorem keeps_initChecks : Keeps (Same f) initChecks :=
  Keeps.getBind fun s => Keeps.bind Same.trans (Keeps.check Same.refl _ _) (fun _ => Keeps.check Same.refl _ _) s

theorem keeps_requireNoEos : Keeps (Same f) requireNoEos := Keeps.getBind fun s => Keeps.check Same.refl _ _ s

theorem sameEnc : EncRel (Same State.lessEnc) (fun _ => False) := encRel_arith
theorem sameEncCells : EncRel (Same State.lessEncCells) (fun _ => True) := encRel_lessEnc
theorem sameDec : DecRel (Same State.lessDec) (fun _ => False) := decRel_arith
theorem sameDecCells : DecRel (Same State.lessDecCells) (fun _ => True) := decRel_lessDec
theorem sameTok : TokRel (Same State.lessTok) (Same State.lessToken) (fun _ => True) := tokRel_lessToken

/-! ## The bodies that are not one coder operation and an update -/

theorem readLE_keeps (hf : ∀ (s : State) b rest, s.source = b :: rest → Same f s (s.consumed rest)) : ∀ n k v,
    Keeps (Same f) (readLE n k v)
  | 0, _, _ => Keeps.pure Same.refl _
  | n + 1, _, _ => Keeps.bind Same.trans (keeps_inRead Same.refl hf _) fun _ => readLE_keeps hf n _ _

theorem readSize_keeps (hf : ∀ (s : State) b rest, s.source = b :: rest → Same f s (s.consumed rest)) (pol : Nat)
    (us : BitVec 64) (pr : Bool) : Keeps (Same f) (readSize pol us pr) := by
  unfold readSize
  refine Keeps.ite ?_ (Keeps.pure Same.refl _)
  exact Keeps.bind Same.trans (readLE_keeps hf 8 0 0)
    fun v => Keeps.ite (Keeps.pure Same.refl _) (Keeps.pure Same.refl _)

theorem readHeader_leads : Leads (Same (faultBlank .hdrRead)) (Same (doneBlank .hdrRead)) readHeader := by
  have hfg : ∀ s, doneBlank .hdrRead (faultBlank .hdrRead s) = doneBlank .hdrRead s := fun _ => rfl
  have hf : ∀ (s : State) b rest, s.source = b :: rest → Same (faultBlank .hdrRead) s (s.consumed rest) :=
    fun _ _ _ _ => rfl
  refine Leads.getBind fun s => ?_
  refine Leads.then hfg (Keeps.check Same.refl _ _) (fun _ => ?_) s
  refine Leads.then hfg (keeps_inRead Same.refl hf _) fun p => ?_
  refine Leads.then hfg (Keeps.check Same.refl _ _) fun _ => ?_
  refine Leads.then hfg (readLE_keeps hf 4 0 0) fun ds => ?_
  exact Leads.then hfg (readSize_keeps hf _ _ _) fun _ => leads_modify fun _ => rfl

theorem encLiteral_leads (b : Byte) : Leads (Same (faultBlank (.encLiteral b))) (Same (doneBlank (.encLiteral b)))
    (encLiteral b) := by
  have hfg : ∀ s, doneBlank (.encLiteral b) (faultBlank (.encLiteral b) s) = doneBlank (.encLiteral b) s := fun _ => rfl
  have hc : ∀ s, faultBlank (.encLiteral b) s.lessEncCells = faultBlank (.encLiteral b) s := fun _ => rfl
  have up : ∀ {γ : Type} {x : Cmd γ}, Keeps (Same State.lessEncCells) x → Keeps (Same (faultBlank (.encLiteral b))) x :=
    fun h s => (h s).mono (fun _ _ h => Same.coarser hc h) fun _ _ h => Same.coarser hc h
  unfold encLiteral
  refine Leads.getBind fun s => ?_
  refine Leads.then hfg (up (sameEncCells.cellDecision trivial _)) (fun _ => ?_) s
  refine Leads.then hfg ?_ fun lb => ?_
  · exact Keeps.getBind fun u => Keeps.ite (Keeps.pure Same.refl _) (Keeps.stuck Same.refl _) u
  refine Leads.then hfg (up (sameEncCells.treeLoop _ _ 8 1 fun _ _ _ => trivial)) fun _ => ?_
  refine Leads.then hfg (keeps_modify fun s => rfl) fun _ => fun u => ?_
  refine ends_windowAppend ?_ fun _ _ => Same.refl _
  unfold State.appended
  split <;> rfl

theorem encEos_leads : Leads (Same (faultBlank .encEos)) (Same (doneBlank .encEos)) encEos := by
  have hfg : ∀ s, doneBlank .encEos (faultBlank .encEos s) = doneBlank .encEos s := fun _ => rfl
  have hd : ∀ p bit, Keeps (Same (faultBlank .encEos)) (encDiscard p bit) := fun p bit => sameEncCells.discard p bit
  have hr : ∀ n p bit, Keeps (Same (faultBlank .encEos)) (repeatCmd n (encDiscard p bit)) := fun n p bit =>
    Keeps.repeatCmd Same.refl Same.trans (hd p bit) n
  unfold encEos
  refine Leads.getBind fun s => ?_
  refine Leads.then hfg (sameEncCells.cellDecision trivial _) (fun _ => ?_) s
  refine Leads.then hfg (hd _ _) fun _ => ?_
  refine Leads.then hfg (hr _ _ _) fun _ => ?_
  refine Leads.then hfg (hr _ _ _) fun _ => ?_
  exact Leads.then hfg (hr _ _ _) fun _ => leads_modify fun _ => rfl

theorem decToken_leads : Leads (Same State.lessTok) (Same State.lessToken) decToken :=
  sameTok.anyToken

theorem doneBlank_faultBlank (i : Instr) (s : State) : doneBlank i (faultBlank i s) = doneBlank i s := by
  cases i <;> rfl

/-- A bind in a command's body: the first part keeps what an unfinished command keeps. -/
theorem wentThen (i : Instr) {x : Cmd α} {y : α → Cmd β} (hx : Keeps (Same (faultBlank i)) x)
    (hy : ∀ a, Leads (Same (faultBlank i)) (Same (doneBlank i)) (y a)) :
    Leads (Same (faultBlank i)) (Same (doneBlank i)) (x >>= y) := Leads.then (doneBlank_faultBlank i) hx hy

theorem encoderStart_done (s : State) : doneBlank .rcEncInit (encoderStart s) = doneBlank .rcEncInit s := by
  simp only [doneBlank, encoderStart, State.withLow, State.withRange, State.withCache, State.withMode]

/-! ## All commands -/

/-- Every command goes one of these ways. -/
theorem exec_went {i : Instr} (hi : i ≠ .sessionReset) (e : exec i s = .next t) : Went i s t := by
  cases i with
  | sessionReset => exact absurd rfl hi
  | nop => refine issue_went ?_ e; exact Keeps.pure Same.refl ()
  | rcEncInit =>
    refine issue_went ?_ e
    exact wentThen _ keeps_initChecks fun _ => leads_modify encoderStart_done
  | rcEncBit bit =>
    refine issue_went ?_ e
    exact Keeps.bind Same.trans (keeps_cellOperand Same.refl) fun a => sameEncCells.cellDecision trivial bit
  | rcEncBitNa bit =>
    refine issue_went ?_ e
    exact wentThen _ (keeps_probOperand Same.refl) fun p =>
      wentThen _ (sameEnc.bitCore p bit) fun q => leads_modify fun _ => rfl
  | rcEncTree n =>
    refine issue_went ?_ e
    exact Keeps.getBind fun s => Keeps.bind Same.trans (Keeps.check Same.refl _ _)
      (fun _ => sameEncCells.treeLoop _ _ n 1 fun _ _ _ => trivial) s
  | rcEncFlush =>
    refine issue_went ?_ e
    exact wentThen _ (Keeps.repeatCmd Same.refl Same.trans sameEnc.shiftLow 5)
      fun _ => leads_modify fun _ => rfl
  | rcDecInit =>
    refine issue_went ?_ e
    exact wentThen _ keeps_initChecks
      fun _ => wentThen _ sameDec.init fun _ => leads_modify fun _ => rfl
  | rcDecBit =>
    refine issue_went ?_ e
    exact wentThen _ (keeps_cellOperand Same.refl)
      fun a => wentThen _ (sameDecCells.cellDecision trivial) fun _ => leads_modify fun _ => rfl
  | rcDecBitNa =>
    refine issue_went ?_ e
    exact wentThen _ (keeps_probOperand Same.refl)
      fun p => wentThen _ (sameDec.bitCore p) fun _ => leads_modify fun _ => rfl
  | rcDecDirect n =>
    refine issue_went ?_ e
    exact wentThen _ (Keeps.check Same.refl _ _)
      fun _ => wentThen _ (sameDec.direct n) fun _ => leads_modify fun _ => rfl
  | rcDecTree n =>
    refine issue_went ?_ e
    exact wentThen _ (keeps_treeBaseOperand Same.refl n)
      fun b => wentThen _ (sameDecCells.tree fun _ _ _ => trivial) fun _ => leads_modify fun _ => rfl
  | rcDecRtree n =>
    refine issue_went ?_ e
    exact wentThen _ (keeps_treeBaseOperand Same.refl n)
      fun b => wentThen _ (sameDecCells.rtree fun _ _ _ => trivial) fun _ => leads_modify fun _ => rfl
  | rcDecFinished => refine issue_went ?_ e; exact leads_modify fun _ => rfl
  | pmInit => refine issue_went ?_ e; exact leads_modify fun _ => rfl
  | cellRead =>
    refine issue_went ?_ e
    exact wentThen _ (keeps_cellOperand Same.refl)
      fun a => wentThen _ (keeps_readCell Same.refl a) fun _ => leads_modify fun _ => rfl
  | encLiteral b =>
    refine issue_went ?_ e
    exact wentThen _ keeps_requireNoEos fun _ => encLiteral_leads b
  | encEos => refine issue_went ?_ e; exact wentThen _ keeps_requireNoEos fun _ => encEos_leads
  | decToken => refine issue_went ?_ e; exact decToken_leads
  | dwReset => refine issue_went ?_ e; exact leads_modify fun _ => rfl
  | dwPush b => refine issue_went ?_ e; exact keeps_windowAppend Same.refl lessWindow_appended b
  | dwByteAt =>
    refine issue_went ?_ e
    refine Leads.getBind fun s => ?_
    refine wentThen .dwByteAt (keeps_byteAt Same.refl _) (fun b => ?_) s
    exact leads_modify fun _ => rfl
  | dwLast => refine issue_went ?_ e; exact leads_modify fun _ => rfl
  | dwCopy =>
    refine issue_went ?_ e
    exact Keeps.getBind fun s => keeps_copyMatch Same.refl Same.trans lessWindow_appended _ _ s
  | propsValidate =>
    refine issue_went ?_ e
    exact Keeps.getBind fun s => Keeps.check Same.refl _ _ s
  | hdrWrite =>
    refine issue_went ?_ e
    have ho : ∀ s b, Same (faultBlank .hdrWrite) s (s.delivered b) := fun _ _ => rfl
    exact Keeps.getBind fun s => Keeps.bind Same.trans (Keeps.check Same.refl _ _)
      (fun _ => keeps_outWriteAll Same.refl Same.trans ho _) s
  | hdrRead => refine issue_went ?_ e; exact readHeader_leads

end Sys2Proof.Machine
end

