-- ==== Sys2Proof/Laws/Growth.lean ====
section
/-! SUPPORT. What only ever grows: the source is taken from the front, the sink and the window are appended to, and the
counters count exactly that (10_state.md R41, R48.6; 43_dictionary_window.md R260, R264). -/

namespace Sys2Proof.Machine

variable {s t u : State}

/-- Source bytes taken, sink bytes given, window bytes appended, each counted; in DECODE the sink gets the window's new
bytes. -/
def Grows (s t : State) : Prop :=
  ∃ taken given new, s.source = taken ++ t.source ∧ t.inCount = s.inCount + taken.length ∧
    t.sink = s.sink ++ given ∧ t.outCount = s.outCount + given.length ∧ t.window = s.window ++ new ∧
    (s.mode = .decode → new = given) ∧ t.mode = s.mode

theorem Grows.refl (s : State) : Grows s s := ⟨[], [], [], by simp⟩

theorem Grows.trans (s t u : State) (h : Grows s t) (h' : Grows t u) : Grows s u := by
  obtain ⟨a, b, c, h1, h2, h3, h4, h5, h6, h7⟩ := h
  obtain ⟨a', b', c', h1', h2', h3', h4', h5', h6', h7'⟩ := h'
  refine ⟨a ++ a', b ++ b', c ++ c', ?_, ?_, ?_, ?_, ?_, fun hm => ?_, h7'.trans h7⟩
  · rw [h1, h1', List.append_assoc]
  · rw [h2', h2, List.length_append]; omega
  · rw [h3', h3, List.append_assoc]
  · rw [h4', h4, List.length_append]; omega
  · rw [h5', h5, List.append_assoc]
  · rw [h6 hm, h6' (h7.trans hm)]

/-- An update of anything else. -/
theorem Grows.of_same (hs : t.source = s.source) (hi : t.inCount = s.inCount) (hk : t.sink = s.sink)
    (ho : t.outCount = s.outCount) (hw : t.window = s.window) (hm : t.mode = s.mode) : Grows s t :=
  ⟨[], [], [], by simp [*]⟩

theorem Grows.consumed {b : Byte} {rest : List Byte} (h : s.source = b :: rest) : Grows s (s.consumed rest) :=
  ⟨[b], [], [], by simp [h, State.consumed]⟩

theorem Grows.appended (s : State) (b : Byte) : Grows s (s.appended b) := by
  by_cases h : s.mode = .decode
  · rw [State.appended_decode h]
    exact ⟨[], [b], [b], by simp [State.delivered, State.withWindow]⟩
  · rw [State.appended_other h]
    exact ⟨[], [], [b], by simp [State.withWindow, h]⟩

/-- Growth outside DECODE, where the sink does not follow the window. -/
def GrowsOutside (s t : State) : Prop := s.mode ≠ .decode → Grows s t

theorem Grows.mode_eq (h : Grows s t) : t.mode = s.mode := by
  obtain ⟨_, _, _, _, _, _, _, _, _, h⟩ := h
  exact h

theorem GrowsOutside.refl (s : State) : GrowsOutside s s := fun _ => Grows.refl s

theorem GrowsOutside.trans (s t u : State) (h : GrowsOutside s t) (h' : GrowsOutside t u) : GrowsOutside s u :=
  fun hm => Grows.trans _ _ _ (h hm) (h' ((h hm).mode_eq ▸ hm))

theorem GrowsOutside.delivered (s : State) (b : Byte) : GrowsOutside s (s.delivered b) :=
  fun hm => ⟨[], [b], [], by simp [State.delivered, hm]⟩

theorem GrowsOutside.appended (s : State) (b : Byte) : GrowsOutside s (s.appended b) := fun _ => Grows.appended s b

theorem encRel_grows : EncRel GrowsOutside (fun _ => True) where
  refl := GrowsOutside.refl
  trans := GrowsOutside.trans
  range _ _ := GrowsOutside.refl _
  low _ _ := GrowsOutside.refl _
  cache _ _ _ := GrowsOutside.refl _
  cell _ _ _ _ _ := GrowsOutside.refl _
  out := GrowsOutside.delivered

theorem decRel_grows : DecRel Grows (fun _ => True) where
  refl := Grows.refl
  trans := Grows.trans
  range _ _ := Grows.refl _
  code _ _ := Grows.refl _
  cell _ _ _ _ _ := Grows.refl _
  take _ _ _ h := Grows.consumed h

/-- Growth but for MODE and RES, and MODE as a token leaves it. -/
def TokenGrows (s t : State) : Prop :=
  ∃ u, Grows s u ∧ t.source = u.source ∧ t.inCount = u.inCount ∧ t.sink = u.sink ∧ t.outCount = u.outCount ∧
    t.window = u.window ∧ (t.mode = s.mode ∨ t.mode = .done ∧ (t.res = 0 ∨ t.res = 8))

theorem tokRel_grows : TokRel Grows TokenGrows (fun _ => True) where
  toDecRel := decRel_grows
  fsm _ _ _ := Grows.refl _
  reps _ _ _ _ _ := Grows.refl _
  eos _ := Grows.refl _
  append := Grows.appended
  comp s t u h h' := by
    obtain ⟨v, hv, h1, h2, h3, h4, h5, h6⟩ := h'
    have hm : t.mode = s.mode := h.mode_eq
    exact ⟨v, Grows.trans _ _ _ h hv, h1, h2, h3, h4, h5, by rwa [hm] at h6⟩
  res s v := ⟨s, Grows.refl s, rfl, rfl, rfl, rfl, rfl, .inl rfl⟩
  done s v hv := ⟨s, Grows.refl s, rfl, rfl, rfl, rfl, rfl, .inr ⟨rfl, hv⟩⟩

end Sys2Proof.Machine
end

