-- ==== Sys2Proof/Laws/Header.lean ====
section
/-! SUPPORT. Little-endian fields of the header (44_header.md R293, R294, R296) and the USIZE_PRESENT bit (R30). -/

namespace Sys2Proof.Machine

theorem bytesLE_length : ∀ n v, (bytesLE n v).length = n
  | 0, _ => rfl
  | n + 1, v => by simp [bytesLE, bytesLE_length n]

theorem numOf_bytesLE : ∀ n v, numOf (bytesLE n v).reverse = v % 256 ^ n
  | 0, v => by simp [bytesLE, numOf]; omega
  | n + 1, v => by
    rw [bytesLE, List.reverse_cons, numOf_append, numOf_bytesLE n, Nat.shiftRight_eq_div_pow]
    simp [numOf]
    rw [pow_succ', Nat.mod_mul]
    ring

/-- `n` source bytes taken and counted, `rest` left. -/
def State.took (s : State) (n : Nat) (rest : List Byte) : State := { s with source := rest, inCount := s.inCount + n }

/-- A field that the source holds whole is read as its little-endian number. -/
theorem readLE_run : ∀ (l : List Byte) (k v : Nat) (s : State) (rest : List Byte), s.source = l ++ rest → v < 256 ^ k →
    readLE l.length k v s = .ok (v + numOf l.reverse * 256 ^ k) (s.took l.length rest)
  | [], k, v, s, rest, h, hv => by
    have h : s.source = rest := h
    subst h
    simp [readLE, numOf, State.took]
    rfl
  | b :: l, k, v, s, rest, h, hv => by
    have hb := b.isLt
    rw [List.length_cons, readLE, bind_run, inRead_cons (by simpa using h)]
    simp only
    have e : v ||| b.toNat <<< (8 * k) = v + b.toNat * 256 ^ k := by
      rw [Nat.lor_comm, ← Nat.shiftLeft_add_eq_or_of_lt (by rw [pow_mul]; exact hv), Nat.shiftLeft_eq, pow_mul]
      norm_num
      ring
    rw [e, readLE_run l (k + 1) _ (s.consumed (l ++ rest)) rest rfl]
    · rw [List.reverse_cons, numOf_append]
      simp [numOf, State.took, State.consumed]
      constructor
      · ring
      · omega
    · rw [pow_succ]
      have : 0 < 256 ^ k := by positivity
      nlinarith

/-- A field that the source cuts short consumes what is left and raises. -/
theorem readLE_short : ∀ (n k v : Nat) (s : State), s.source.length < n →
    readLE n k v s = .error (.raise (sourceStop s .headerTooShort)) (s.took s.source.length [])
  | 0, _, _, _, h => by omega
  | n + 1, k, v, s, h => by
    rw [readLE, bind_run]
    rcases hs : s.source with _ | ⟨b, rest⟩
    · rw [inRead_nil hs]
      simp [State.took]
      cases s
      simp_all
    · rw [inRead_cons hs]
      simp only
      rw [readLE_short n _ _ _ (by rw [hs] at h; simp at h; change rest.length < n; omega)]
      simp [State.took, State.consumed, sourceStop]
      exact ⟨rfl, by omega⟩

theorem getElem_bit8 : ∀ i (hi : i < 32), (0x00000100 : Word)[i] = decide (i = 8) := by decide

theorem getLsbD_setUsizePresent (p : Word) (b : Bool) : (setUsizePresent p b).getLsbD 8 = b := by
  unfold setUsizePresent
  split <;> simp_all

/-- USIZE_PRESENT set to what it is. -/
theorem setUsizePresent_same (p : Word) : setUsizePresent p (usizePresent p) = p := by
  unfold setUsizePresent usizePresent
  by_cases h : p.getLsbD 8 = true
  · rw [if_pos h]
    ext i hi
    rw [BitVec.getElem_or, getElem_bit8 i hi]
    by_cases h8 : i = 8
    · subst h8; rw [← BitVec.getLsbD_eq_getElem, h]; rfl
    · simp [h8]
  · rw [if_neg h]
    ext i hi
    rw [BitVec.getElem_and, BitVec.getElem_not, getElem_bit8 i hi]
    by_cases h8 : i = 8
    · subst h8; rw [← BitVec.getLsbD_eq_getElem, (by simpa using h : p.getLsbD 8 = false)]; rfl
    · simp [h8]

end Sys2Proof.Machine
end

