-- ==== Sys2Proof/Laws/Tokens.lean ====
section
/-! SUPPORT. What DEC_TOKEN can do (42_symbol_fsm.md R220 to R227): literals, lengths, distances, the copy, and one
case per token kind. -/

namespace Sys2Proof.Machine

variable {s t u : State}

/-! ## Copies (43_dictionary_window.md R264, R267) -/

/-- `n` bytes copied from distance `d`, one at a time. -/
def State.copied (d : Nat) : Nat → State → State
  | 0, s => s
  | n + 1, s => State.copied d n (s.appended (windowByte s d))

theorem appended_mode (s : State) (b : Byte) : (s.appended b).mode = s.mode := by
  unfold State.appended; split <;> rfl

theorem appended_lessWindow (s : State) (b : Byte) : (s.appended b).lessWindow = s.lessWindow := lessWindow_appended s b

theorem appended_sinkFailAt (s : State) (b : Byte) : (s.appended b).sinkFailAt = s.sinkFailAt := by
  have := congrArg State.sinkFailAt (appended_lessWindow s b)
  exact this

theorem copied_lessWindow (d : Nat) : ∀ (n : Nat) (s : State), (s.copied d n).lessWindow = s.lessWindow
  | 0, _ => rfl
  | n + 1, s => (copied_lessWindow d n _).trans (appended_lessWindow s _)

theorem copied_posOf (d : Nat) : ∀ (n : Nat) (s : State), posOf (s.copied d n) = posOf s + n
  | 0, _ => rfl
  | n + 1, s => by
    change posOf ((s.appended _).copied d n) = _
    rw [copied_posOf d n, posOf_appended]
    omega

/-- A copy appends `n` bytes, each the byte `d` back from its place, in DECODE also to the sink; nothing else changes
(R267). -/
theorem copied_spec (d : Nat) : ∀ (n : Nat) (s : State), 1 ≤ d → d ≤ posOf s → ∃ l, l.length = n ∧
    (s.copied d n).window = s.window ++ l ∧
    (∀ j < n, (s.window ++ l)[posOf s + j]? = (s.window ++ l)[posOf s + j - d]?) ∧
    s.copied d n = { s with
      window := s.window ++ l, sink := if s.mode = .decode then s.sink ++ l else s.sink,
      outCount := if s.mode = .decode then s.outCount + l.length else s.outCount }
  | 0, s, _, _ => ⟨[], rfl, by simp [State.copied], by simp, by simp [State.copied]⟩
  | n + 1, s, h1, h2 => by
    obtain ⟨l, e1, e2, e3, e4⟩ := copied_spec d n (s.appended (windowByte s d)) h1 (by rw [posOf_appended]; omega)
    have hm := appended_mode s (windowByte s d)
    rw [posOf_appended] at e3
    rw [State.appended_window] at e2 e3
    refine ⟨windowByte s d :: l, by simp [e1], ?_, fun j hj => ?_, ?_⟩
    · change ((s.appended _).copied d n).window = _
      rw [e2]; simp
    · rw [List.append_cons]
      cases j with
      | zero =>
        have hw : windowByte s d = s.window.getD (posOf s - d) 0 := rfl
        unfold posOf at *
        have hL : (s.window ++ [windowByte s d] ++ l)[s.window.length]? = some (windowByte s d) := by simp
        have hR : (s.window ++ [windowByte s d] ++ l)[s.window.length - d]? = s.window[s.window.length - d]? := by
          rw [List.append_assoc, List.getElem?_append_left (by omega)]
        rw [Nat.add_zero, hL, hR, hw]
        simp [List.getElem?_eq_getElem (show s.window.length - d < s.window.length by omega)]
      | succ j =>
        have := e3 j (by omega)
        rw [show posOf s + (j + 1) = posOf s + 1 + j by omega]
        exact this
    · change (s.appended _).copied d n = _
      rw [e4, hm]
      by_cases h : s.mode = .decode
      · rw [State.appended_decode h]
        simp [h, State.delivered, State.withWindow, Nat.add_assoc, Nat.add_comm]
      · rw [State.appended_other h]
        simp [h, State.withWindow]

theorem sinkFails_not_takes (h : sinkFails s = true) {n : Nat} (hn : 1 ≤ n) : ¬ sinkTakes n s := by
  intro ht
  unfold sinkFails at h
  cases hk : s.sinkFailAt with
  | none => simp [hk] at h
  | some k =>
    have := ht k hk
    simp [hk] at h
    omega

theorem ends_copyBytes (d : Nat) : ∀ (n : Nat) (s : State), Ends (repeatCmd n (copyByte d)) s
    (fun _ t => t = s.copied d n)
    (fun e t => e = .raise .ioErrorOut ∧ s.mode = .decode ∧ ¬ sinkTakes n s ∧ ∃ j < n, t = s.copied d j)
  | 0, _ => rfl
  | n + 1, s => by
    unfold repeatCmd
    rw [ends_bind]
    unfold copyByte
    rw [ends_bind, ends_get]
    refine ends_windowAppend ?_ fun hm hs => ⟨rfl, hm, sinkFails_not_takes hs (by omega), 0, by omega, rfl⟩
    refine (ends_copyBytes d n _).mono (fun _ _ h => h) ?_
    rintro e t ⟨h1, h2, h3, j, hj, h4⟩
    rw [appended_mode] at h2
    refine ⟨h1, h2, fun hs => h3 fun k hk => ?_, j + 1, by omega, h4⟩
    rw [appended_sinkFailAt] at hk
    have := hs k hk
    rw [State.appended_decode h2]
    simp
    omega

/-- `CheckDistance` stopped it (R263, R227). -/
def DistCut (d : Nat) (s : State) (e : Stop) : Prop :=
  e = .raise .distBeyondOutput ∧ (d = 0 ∨ posOf s < d) ∨
  e = .raise .distBeyondDict ∧ d ≤ posOf s ∧ windowLimit s < d

theorem ends_distance {d : Nat} {Q : Unit → State → Prop} {E : Stop → State → Prop} (hq : Readable s d → Q () s)
    (he : ∀ e, DistCut d s e → E e s) : Ends (checkDistance d) s Q E :=
  ends_checkDistance hq fun c hc => he _ (hc.imp (fun h => ⟨by rw [h.1], h.2⟩) fun h => ⟨by rw [h.1], h.2⟩)

theorem ends_copyMatch (d n : Nat) (s : State) : Ends (copyMatch d n) s
    (fun _ t => Readable s d ∧ t = s.copied d n)
    (fun e t => DistCut d s e ∧ t = s ∨
      e = .raise .ioErrorOut ∧ s.mode = .decode ∧ ¬ sinkTakes n s ∧ ∃ j < n, t = s.copied d j) := by
  unfold copyMatch
  rw [ends_bind]
  refine ends_distance (fun hr => ?_) fun e he => .inl ⟨he, rfl⟩
  exact (ends_copyBytes d n s).mono (fun _ t h => ⟨hr, h⟩) fun e t h => .inr h

/-! ## Literals (R223) -/

theorem literalPlain_run {lb : Nat} : ∀ (k sym : Nat) {s : State}, 2 ^ 24 ≤ s.range.toNat → CellsOk s → 1 ≤ sym →
    (sym + 1) * 2 ^ k ≤ 0x200 → (∀ x, x < 0x300 → cellValid (lb + x) = true) →
    Ends (literalPlain lb k sym) s (fun _ t => True ∧ DecRun k s t) (fun e t => DecCut k s e ∧ CellsOk t)
  | 0, _, _, hr, hc, _, _, _ => ⟨trivial, DecRun.refl hr hc⟩
  | k + 1, sym, _, hr, hc, h1, h2, hv => by
    have hw := walk_here sym k
    have := Ends.decBind (m := k) (f := fun bit => literalPlain lb k (2 * sym + bit.toNat))
      (Q := fun _ => True) (decCell_run hr hc (hv sym (by omega)))
      fun bit t _ ht => literalPlain_run k (2 * sym + bit.toNat) ht.rangeGe ht.cells (by omega) ?_ hv
    · rw [Nat.add_comm 1 k] at this
      exact this
    · have hb : bit.toNat ≤ 1 := Bool.toNat_le bit
      have : (2 * sym + bit.toNat + 1) * 2 ^ k ≤ (2 * sym + 2) * 2 ^ k := Nat.mul_le_mul_right _ (by omega)
      have e : (2 * sym + 2) * 2 ^ k = (sym + 1) * 2 ^ (k + 1) := by ring
      omega

theorem literalMatched_run {lb : Nat} : ∀ (k mb sym : Nat) {s : State}, 2 ^ 24 ≤ s.range.toNat → CellsOk s → 1 ≤ sym →
    (sym + 1) * 2 ^ k ≤ 0x200 → (∀ x, x < 0x300 → cellValid (lb + x) = true) →
    Ends (literalMatched lb k mb sym) s (fun _ t => True ∧ DecRun k s t) (fun e t => DecCut k s e ∧ CellsOk t)
  | 0, _, _, _, hr, hc, _, _, _ => ⟨trivial, DecRun.refl hr hc⟩
  | k + 1, mb, sym, _, hr, hc, h1, h2, hv => by
    have hw := walk_here sym k
    have hm : (mb.testBit 7).toNat ≤ 1 := Bool.toNat_le _
    have hcell : cellValid (lb + (1 + (mb.testBit 7).toNat) <<< 8 + sym) = true := by
      rw [add_assoc, Nat.shiftLeft_eq]
      exact hv _ (by omega)
    have hn : ∀ b : Bool, (2 * sym + b.toNat + 1) * 2 ^ k ≤ 0x200 := fun b => by
      have hb : b.toNat ≤ 1 := Bool.toNat_le b
      have : (2 * sym + b.toNat + 1) * 2 ^ k ≤ (2 * sym + 2) * 2 ^ k := Nat.mul_le_mul_right _ (by omega)
      have e : (2 * sym + 2) * 2 ^ k = (sym + 1) * 2 ^ (k + 1) := by ring
      omega
    have := Ends.decBind (m := k)
      (f := fun bit => if bit != mb.testBit 7 then literalPlain lb k (2 * sym + bit.toNat)
        else literalMatched lb k (mb <<< 1 &&& 0xFF) (2 * sym + bit.toNat))
      (Q := fun _ => True) (decCell_run hr hc hcell) fun bit t _ ht => by
        split
        · exact literalPlain_run k _ ht.rangeGe ht.cells (by omega) (hn bit) hv
        · exact literalMatched_run k _ _ ht.rangeGe ht.cells (by omega) (hn bit) hv
    rw [Nat.add_comm 1 k] at this
    exact this

/-- `DecodeLiteral` (R223): eight decisions; a match state reads the window first. -/
theorem decodeLiteral_run {lb st : Nat} (hr : 2 ^ 24 ≤ s.range.toNat) (hc : CellsOk s)
    (hv : ∀ x, x < 0x300 → cellValid (lb + x) = true) : Ends (decodeLiteral lb st) s (fun _ t => DecRun 8 s t)
    (fun e t => (DecCut 8 s e ∨ (7 ≤ st ∧ ¬ Readable s (s.rep0.toNat + 1) ∧
      DistCut (s.rep0.toNat + 1) s e ∧ t = s)) ∧ CellsOk t) := by
  unfold decodeLiteral
  rw [ends_bind, ends_get, ends_ite]
  split
  · rename_i hst
    rw [ends_bind]
    by_cases hrd : Readable s (s.rep0.toNat + 1)
    · rw [ends_of_run (byteAt_run hrd), ends_bind]
      refine (literalMatched_run 8 _ 1 hr hc le_rfl (by omega) hv).mono (fun _ t h => h.2) fun e t h => ⟨.inl h.1, h.2⟩
    · unfold byteAt
      rw [ends_bind]
      exact ends_distance (fun h => absurd h hrd) fun e he => ⟨.inr ⟨hst, hrd, he, rfl⟩, hc⟩
  · rw [ends_bind]
    exact (literalPlain_run 8 1 hr hc le_rfl (by omega) hv).mono (fun _ t h => h.2) fun e t h => ⟨.inl h.1, h.2⟩

/-! ## Lengths and distances (R224, R225) -/

theorem lowCell_valid {a : Nat} (h1 : 0x1B0 ≤ a) (h2 : a < 0x744) (h3 : a < 0x323 ∨ 0x32F < a) : cellValid a = true := by
  rw [cellValid_iff]
  omega

theorem lenDecode_run {l ps : Nat} (hl : l = lenBase ∨ l = repLenBase) (hps : ps < 16) (hr : 2 ^ 24 ≤ s.range.toNat)
    (hc : CellsOk s) : Ends (lenDecode l ps) s (fun i t => i ≤ 271 ∧ DecRun 10 s t)
    (fun e t => DecCut 10 s e ∧ CellsOk t) := by
  have hv : ∀ x, x < 0x202 → cellValid (l + x) = true := fun x hx => by
    rcases hl with rfl | rfl <;> refine lowCell_valid ?_ ?_ ?_ <;> simp only [lenBase, repLenBase] <;> omega
  unfold lenDecode
  rw [ends_bind]
  refine (decCell_run hr hc (hv _ (by omega))).mono ?_ fun e t h => ⟨h.1.mono (by omega), h.2⟩
  rintro c t ⟨-, ht⟩
  rw [ends_ite]
  split
  · rw [ends_bind]
    refine (decCell_run ht.rangeGe ht.cells (hv _ (by omega))).mono ?_
      fun e u h => ⟨(DecCut.after ht.takes ht.sourceEnd h.1).mono (by omega), h.2⟩
    rintro c2 u ⟨-, hu⟩
    have htu := ht.trans hu
    rw [ends_ite]
    split
    · rw [ends_bind]
      refine (treeDecode_run (n := 8) htu.rangeGe htu.cells fun x h1 h2 => ?_).mono ?_
        fun e v h => ⟨DecCut.after htu.takes htu.sourceEnd h.1, h.2⟩
      · rw [add_assoc]; exact hv _ (by omega)
      · rintro i v ⟨hi, hv'⟩
        rw [ends_pure]
        exact ⟨by omega, htu.trans hv'⟩
    · rw [ends_bind]
      refine (treeDecode_run (n := 3) htu.rangeGe htu.cells fun x h1 h2 => ?_).mono ?_
        fun e v h => ⟨(DecCut.after htu.takes htu.sourceEnd h.1).mono (by omega), h.2⟩
      · rw [add_assoc, add_assoc]; exact hv _ (by omega)
      · rintro i v ⟨hi, hv'⟩
        rw [ends_pure]
        exact ⟨by omega, (htu.trans hv').mono (by omega)⟩
  · refine (treeDecode_run (n := 3) ht.rangeGe ht.cells fun x h1 h2 => ?_).mono ?_
      fun e v h => ⟨(DecCut.after ht.takes ht.sourceEnd h.1).mono (by omega), h.2⟩
    · rw [add_assoc, add_assoc]; exact hv _ (by omega)
    · rintro i v ⟨hi, hv'⟩
      exact ⟨by omega, (ht.trans hv').mono (by omega)⟩

theorem distDecode_run (i : Nat) (hr : 2 ^ 24 ≤ s.range.toNat) (hc : CellsOk s) :
    Ends (distDecode i) s (fun _ t => DecRun 36 s t) (fun e t => DecCut 36 s e ∧ CellsOk t) := by
  have hl : lenState i ≤ 3 := Nat.min_le_right _ _
  unfold distDecode
  rw [ends_bind]
  refine (treeDecode_run (n := 6) hr hc fun x h1 h2 => ?_).mono ?_ fun e t h => ⟨h.1.mono (by omega), h.2⟩
  · refine lowCell_valid ?_ ?_ ?_ <;> simp only [posSlotBase] <;> omega
  rintro slot t ⟨hslot, ht⟩
  rw [ends_ite]
  split
  · exact ht.mono (by omega)
  rename_i h4
  rw [ends_ite]
  split
  · rename_i h14
    rw [ends_bind]
    refine (rtreeDecode_run (n := slotBits slot) ht.rangeGe ht.cells fun x h1 h2 => ?_).mono ?_
      fun e v h => ⟨(DecCut.after ht.takes ht.sourceEnd h.1).mono ?_, h.2⟩
    · have h4 : 4 ≤ slot := by omega
      have : 0x1B0 ≤ specPosBase + slotBase slot - slot + x ∧ specPosBase + slotBase slot - slot + x < 0x323 := by
        interval_cases slot <;> simp [specPosBase, slotBase, slotBits] at h2 ⊢ <;> omega
      exact lowCell_valid this.1 (by omega) (.inl this.2)
    · rintro low v ⟨_, hv⟩
      rw [ends_pure]
      refine (ht.trans hv).mono ?_
      unfold slotBits
      rw [Nat.shiftRight_eq_div_pow]
      omega
    · unfold slotBits
      rw [Nat.shiftRight_eq_div_pow]
      omega
  · have hnd : slotBits slot - 4 ≤ 26 := by
      unfold slotBits
      rw [Nat.shiftRight_eq_div_pow]
      omega
    rw [ends_bind]
    refine (decDirect_run (slotBits slot - 4) ht.rangeGe ht.cells).mono ?_
      fun e v h => ⟨(DecCut.after ht.takes ht.sourceEnd h.1).mono (by omega), h.2⟩
    rintro high v ⟨_, hv⟩
    have htv := ht.trans hv
    rw [ends_bind]
    refine (rtreeDecode_run (n := 4) htv.rangeGe htv.cells fun x h1 h2 => ?_).mono ?_
      fun e w h => ⟨(DecCut.after htv.takes htv.sourceEnd h.1).mono (by omega), h.2⟩
    · refine lowCell_valid ?_ ?_ ?_ <;> simp only [alignBase] <;> omega
    · rintro low w ⟨_, hw⟩
      exact (htv.trans hw).mono (by omega)

/-! ## Tokens (R220) -/

/-- The state without what the decisions and registers of a token write: the window, the sink and MODE stay. -/
def State.lessRegs (s : State) : State :=
  { s.lessDecCells with fsm := 0, rep0 := 0, rep1 := 0, rep2 := 0, rep3 := 0, res := 0, eosSeen := false }

/-- The four reps, REP0 first. -/
def State.reps (s : State) : Word × Word × Word × Word := (s.rep0, s.rep1, s.rep2, s.rep3)

/-- Midway through a token: at most `n` bytes consumed, STATE and the reps as given, nothing copied yet. -/
structure TokMid (n f : Nat) (r : Word × Word × Word × Word) (s u : State) : Prop where
  rangeGe : 2 ^ 24 ≤ u.range.toNat
  cells : CellsOk u
  takes : Takes n s u
  fsm : u.fsm.toNat = f
  reps : u.reps = r
  eos : u.eosSeen = s.eosSeen
  only : u.lessRegs = s.lessRegs

/-- When a token can be cut short by a cause (R220, R221, R227, R228): for want of bytes, of the sink, or by the check the
cause names, before which nothing was appended. -/
def TokWhy (n : Nat) (s t : State) : Cause → Prop
  | .truncated | .ioErrorIn => s.source.length < n
  | .ioErrorOut => ¬ sinkTakes 273 s
  | .distBeyondOutput => t.window = s.window ∧ posOf s < t.rep0.toNat + 1
  | .distBeyondDict => t.window = s.window ∧ t.rep0.toNat + 1 ≤ posOf s ∧ windowLimit s < t.rep0.toNat + 1
  | .repOnEmpty => t.window = s.window ∧ posOf s = 0
  | .sizeMismatch => t.window = s.window ∧ t.rep0 = 0xFFFFFFFF ∧ knownSize s ≠ none
  | .eosCodeNonzero => t.window = s.window ∧ t.rep0 = 0xFFFFFFFF ∧ knownSize s = none ∧ t.code ≠ 0
  | .eosTrailing => t.window = s.window ∧ t.rep0 = 0xFFFFFFFF ∧ knownSize s = none ∧ t.code = 0 ∧
      eosTrailingPolicy s.policy = true ∧ t.source ≠ []
  | .matchPastSize => t.window = s.window ∧ ∃ k, knownSize s = some k ∧ k < posOf s + 273
  | .headerTooShort | .invalidProperties | .illegalCommand | .illegalOperand | .sequenceError | .dictTooLarge
  | .invalidConfig => False

/-- A token cut short: a cause of R220's, with its condition. -/
structure TokCut (n : Nat) (s : State) (e : Stop) (t : State) : Prop where
  cells : CellsOk t
  short : s.source.length ≤ t.source.length + n
  cause : ∃ c, e = .raise c ∧ TokWhy n s t c

variable {n m f : Nat} {r : Word × Word × Word × Word}

theorem DecRun.lessRegs (h : DecRun n s t) : t.lessRegs = s.lessRegs := by
  have := congrArg (fun u : State => { u with
    fsm := 0, rep0 := 0, rep1 := 0, rep2 := 0, rep3 := 0, res := 0, eosSeen := false }) h.only
  exact this

theorem DecRun.fsm (h : DecRun n s t) : t.fsm = s.fsm := by
  have := congrArg State.fsm h.only
  exact this

theorem DecRun.reps (h : DecRun n s t) : t.reps = s.reps := by
  have := congrArg State.reps h.only
  exact this

theorem DecRun.eosSeen (h : DecRun n s t) : t.eosSeen = s.eosSeen := by
  have := congrArg State.eosSeen h.only
  exact this

theorem DecRun.mid (h : DecRun n s t) : TokMid n s.fsm.toNat s.reps s t :=
  ⟨h.rangeGe, h.cells, h.takes, by rw [h.fsm], h.reps, h.eosSeen, h.lessRegs⟩

theorem TokMid.run (h : TokMid n f r s t) (h' : DecRun m t u) : TokMid (n + m) f r s u :=
  ⟨h'.rangeGe, h'.cells, h.takes.trans h'.takes, by rw [h'.fsm, h.fsm], by rw [h'.reps, h.reps],
    by rw [h'.eosSeen, h.eos], h'.lessRegs.trans h.only⟩

theorem TokMid.setFsm (h : TokMid n f r s t) {g : Nat} (hg : g ≤ 11) : TokMid n g r s (t.withFsm g) :=
  ⟨h.rangeGe, ⟨h.cells.wf, h.cells.range⟩, h.takes, by simp [State.withFsm]; omega, h.reps, h.eos, h.only⟩

theorem TokMid.setReps (h : TokMid n f r s t) (a b c d : Word) : TokMid n f (a, b, c, d) s (t.withReps a b c d) :=
  ⟨h.rangeGe, ⟨h.cells.wf, h.cells.range⟩, h.takes, h.fsm, rfl, h.eos, h.only⟩

theorem TokMid.mono (h : TokMid n f r s t) (hnm : n ≤ m) : TokMid m f r s t :=
  ⟨h.rangeGe, h.cells, h.takes.mono hnm, h.fsm, h.reps, h.eos, h.only⟩

theorem TokMid.field {α : Type} (h : TokMid n f r s t) (g : State → α) (hg : ∀ u : State, g u.lessRegs = g u) :
    g t = g s := by
  rw [← hg t, ← hg s, h.only]

theorem TokMid.sourceEnd (h : TokMid n f r s t) : t.sourceEnd = s.sourceEnd := h.field State.sourceEnd fun _ => rfl

theorem TokMid.readable (h : TokMid n f r s t) (d : Nat) : Readable t d ↔ Readable s d := by
  have hw : t.window = s.window := h.field State.window fun _ => rfl
  have hd : t.dictSize = s.dictSize := h.field State.dictSize fun _ => rfl
  have hc : t.config = s.config := h.field State.config fun _ => rfl
  simp [Readable, posOf, windowLimit, windowCap, hw, hd, hc]

theorem TokMid.sinkTakes (h : TokMid n f r s t) (k : Nat) : sinkTakes k t ↔ Machine.sinkTakes k s := by
  have h1 : t.sink = s.sink := h.field State.sink fun _ => rfl
  have h2 : t.sinkFailAt = s.sinkFailAt := h.field State.sinkFailAt fun _ => rfl
  simp [Machine.sinkTakes, h1, h2]

theorem TokMid.short (h : TokMid n f r s t) (hn : n ≤ 48) : s.source.length ≤ t.source.length + 48 := by
  have := h.takes.length
  omega

theorem DecCut.tok {e : Stop} (h : DecCut n s e) (hc : CellsOk t) (hn : n ≤ 48) : TokCut 48 s e t := by
  obtain ⟨he, hlen⟩ := h
  refine ⟨hc, by omega, ?_⟩
  unfold sourceStop at he
  split at he
  · exact ⟨_, he, show s.source.length < 48 by omega⟩
  · exact ⟨_, he, show s.source.length < 48 by omega⟩

theorem TokMid.cut {e : Stop} (h : TokMid n f r s t) (h' : DecCut m t e) (hc : CellsOk u) (hn : n + m ≤ 48) :
    TokCut 48 s e u := (DecCut.after h.takes h.sourceEnd h').tok hc hn

/-- The size check of a match or rep (R220, R227). -/
def FitsSize (s : State) (len : Nat) : Prop := ∀ n, knownSize s = some n → posOf s + len ≤ n

/-- How a token ends that raises nothing: one case per kind (R220, R226), each with the state `u` its decisions left. -/
inductive TokenEnd (s : State) : State → Prop
  | size (h : knownSize s = some (posOf s)) : TokenEnd s ((s.withMode .done).withRes TokenKind.endBySize.code)
  | lit (u : State) (b : Byte) (h : TokMid 9 (litNext s.fsm.toNat) s.reps s u) :
      TokenEnd s ((u.appended b).withRes TokenKind.lit.code)
  | shortRep (u : State) (h : TokMid 48 (shortRepNext s.fsm.toNat) s.reps s u) (hp : posOf s ≠ 0)
      (hr : Readable s (s.rep0.toNat + 1)) :
      TokenEnd s ((u.appended (windowByte s (s.rep0.toNat + 1))).withRes TokenKind.shortRep.code)
  | rep (u : State) (i : Nat) (k : TokenKind) (r : Word × Word × Word × Word)
      (h : TokMid 48 (repNext s.fsm.toNat) r s u) (hp : posOf s ≠ 0) (hi : i ≤ 271)
      (hk : (k = .rep0 ∧ r = s.reps) ∨ (k = .rep1 ∧ r = (s.rep1, s.rep0, s.rep2, s.rep3)) ∨
        (k = .rep2 ∧ r = (s.rep2, s.rep0, s.rep1, s.rep3)) ∨ (k = .rep3 ∧ r = (s.rep3, s.rep0, s.rep1, s.rep2)))
      (hf : FitsSize s (i + 2)) (hr : Readable s (r.1.toNat + 1)) :
      TokenEnd s ((u.copied (r.1.toNat + 1) (i + 2)).withRes k.code)
  | newMatch (u : State) (i : Nat) (d : Word) (h : TokMid 48 (matchNext s.fsm.toNat) (d, s.rep0, s.rep1, s.rep2) s u)
      (hi : i ≤ 271) (hd : d ≠ 0xFFFFFFFF) (hf : FitsSize s (i + 2)) (hr : Readable s (d.toNat + 1)) :
      TokenEnd s ((u.copied (d.toNat + 1) (i + 2)).withRes TokenKind.newMatch.code)
  | eos (u : State) (h : TokMid 48 (matchNext s.fsm.toNat) (0xFFFFFFFF, s.rep0, s.rep1, s.rep2) s u)
      (hk : knownSize s = none) (hc : u.code = 0) (ht : eosTrailingPolicy s.policy = true → u.source = []) :
      TokenEnd s ((u.sawEos.withMode .done).withRes TokenKind.eos.code)

theorem CellsOk.congr (h : CellsOk s) (hp : t.pram = s.pram) : CellsOk t := ⟨hp ▸ h.wf, hp ▸ h.range⟩

theorem lessWindow_pram (h : t.lessWindow = s.lessWindow) : t.pram = s.pram := by
  have := congrArg State.pram h
  exact this

theorem TokMid.knownSize (h : TokMid n f r s t) : knownSize t = Machine.knownSize s := by
  have h1 : t.policy = s.policy := h.field State.policy fun _ => rfl
  have h2 : t.usize = s.usize := h.field State.usize fun _ => rfl
  simp [Machine.knownSize, h1, h2]

theorem TokMid.posOf (h : TokMid n f r s t) : posOf t = Machine.posOf s := by
  have : t.window = s.window := h.field State.window fun _ => rfl
  simp [Machine.posOf, this]

/-- A check of the distance REP0 + 1 that stops a token: nothing was appended. -/
theorem TokMid.distCut {e : Stop} (h : TokMid n f r s u) (hn : n ≤ 48) (he : DistCut (r.1.toNat + 1) u e) :
    TokCut 48 s e u := by
  have hw : u.window = s.window := h.field State.window fun _ => rfl
  have hl : windowLimit u = windowLimit s := h.field windowLimit fun _ => rfl
  have hr0 : u.rep0 = r.1 := by rw [← h.reps]; rfl
  rcases he with ⟨rfl, hd⟩ | ⟨rfl, hd⟩
  · refine ⟨h.cells, h.short hn, _, rfl, hw, ?_⟩
    rw [h.posOf] at hd
    rw [hr0]; omega
  · refine ⟨h.cells, h.short hn, _, rfl, hw, ?_⟩
    rw [h.posOf, hl] at hd
    rw [hr0]; exact hd

/-- The end of a match or rep token (R220): the size check, the copy, RES. -/
theorem finishMatch_run (h : TokMid 48 f r s u) {i : Nat} (hi : i ≤ 271) (k : TokenKind) : Ends (finishMatch i k) u
    (fun _ t => FitsSize s (i + 2) ∧ Readable s (r.1.toNat + 1) ∧
      t = (u.copied (r.1.toNat + 1) (i + 2)).withRes k.code) (fun e t => TokCut 48 s e t) := by
  have hr0 : u.rep0 = r.1 := by rw [← h.reps]; rfl
  unfold finishMatch
  rw [ends_bind, ends_get, ends_bind]
  refine Ends.check (fun hfit => ?_) fun hfit => ⟨h.cells, h.short le_rfl, _, rfl, h.field State.window fun _ => rfl, ?_⟩
  swap
  · rw [h.knownSize, h.posOf] at hfit
    cases hk : Machine.knownSize s with
    | none => simp [hk] at hfit
    | some k => exact ⟨k, rfl, by simp [hk] at hfit; omega⟩
  rw [ends_bind, hr0]
  refine (ends_copyMatch (r.1.toNat + 1) (i + 2) u).mono ?_ ?_
  · rintro _ t ⟨hr, rfl⟩
    refine ⟨fun len hlen => ?_, (h.readable _).1 hr, rfl⟩
    rw [h.knownSize, hlen] at hfit
    rw [h.posOf] at hfit
    simpa using hfit
  · rintro e t (⟨hc, rfl⟩ | ⟨he, _, hs, j, _, rfl⟩)
    · exact h.distCut le_rfl hc
    · refine ⟨h.cells.congr (lessWindow_pram (copied_lessWindow _ _ _)), ?_, _, he, fun hs' => hs ?_⟩
      · rw [show (u.copied (r.1.toNat + 1) j).source = u.source by
          have := congrArg State.source (copied_lessWindow (r.1.toNat + 1) j u)
          exact this]
        exact h.short le_rfl
      rw [h.sinkTakes]
      intro k hk
      have := hs' k hk
      omega

/-- A LIT token after its is_match decision (R220, R223). -/
theorem decLiteralToken_run (h : TokMid 1 s.fsm.toNat s.reps s u) (hp : propsValid s.props = true) :
    Ends (decLiteralToken s.fsm.toNat) u (fun _ t => TokenEnd s t) (fun e t => TokCut 48 s e t) := by
  have hprops : u.props = s.props := h.field State.props fun _ => rfl
  have hpu : propsValid u.props = true := by rw [hprops]; exact hp
  unfold decLiteralToken
  rw [ends_bind]
  unfold literalCoder
  have hlc : lcOf u.props ≤ 8 := by simp [propsValid] at hpu; omega
  rw [ends_bind, ends_get, ends_ite, if_pos hlc, ends_pure, ends_bind]
  refine (decodeLiteral_run h.rangeGe h.cells fun x hx => litCell_valid hpu hx).mono ?_ ?_
  · intro b t ht
    have hm := (h.run ht).setFsm (litNext_le s.fsm.isLt)
    rw [ends_bind]
    unfold setFsm
    rw [ends_modify, ends_bind]
    refine ends_windowAppend ?_ fun _ hs => ?_
    · exact TokenEnd.lit _ b hm
    · refine ⟨hm.cells, hm.short (by omega), _, rfl, fun hs' => ?_⟩
      rw [← hm.sinkTakes] at hs'
      exact sinkFails_not_takes hs (by omega) hs'
  · rintro e t ⟨hc | ⟨_, _, hc, rfl⟩, hcells⟩
    · exact h.cut hc hcells (by omega)
    · rw [show t.rep0 = s.rep0 from congrArg Prod.fst h.reps] at hc
      exact h.distCut (by omega) hc

/-- A SHORTREP token after its decisions (R220). -/
theorem decShortRep_run (h : TokMid n f s.reps s u) (hn : n ≤ 48) (hp : posOf s ≠ 0) :
    Ends (decShortRep s.fsm.toNat) u (fun _ t => TokenEnd s t) (fun e t => TokCut 48 s e t) := by
  have hm := (h.setFsm (shortRepNext_le s.fsm.toNat)).mono hn
  have hrep : (u.withFsm (shortRepNext s.fsm.toNat)).rep0 = s.rep0 := congrArg Prod.fst hm.reps
  have hwin : windowByte (u.withFsm (shortRepNext s.fsm.toNat)) (s.rep0.toNat + 1) = windowByte s (s.rep0.toNat + 1) :=
    hm.field (fun v => windowByte v (s.rep0.toNat + 1)) fun _ => rfl
  unfold decShortRep setFsm
  rw [ends_bind, ends_modify, ends_bind, ends_get, ends_bind, hrep]
  by_cases hr : Readable s (s.rep0.toNat + 1)
  · rw [ends_of_run (byteAt_run ((hm.readable _).2 hr)), ends_bind, hwin]
    refine ends_windowAppend (TokenEnd.shortRep _ hm hp hr) fun _ hs => ?_
    refine ⟨hm.cells, hm.short le_rfl, _, rfl, fun hs' => ?_⟩
    rw [← hm.sinkTakes] at hs'
    exact sinkFails_not_takes hs (by omega) hs'
  · unfold byteAt
    rw [ends_bind]
    exact ends_distance (fun h' => absurd ((hm.readable _).1 h') hr) fun e he => hm.distCut le_rfl he

/-- The length of a rep token, STATE and the copy (R220). -/
theorem decRepLength_run (h : TokMid n f r s u) (hn : n + 10 ≤ 48) (hp : posOf s ≠ 0) (hv : propsValid s.props = true)
    (k : TokenKind)
    (hk : (k = .rep0 ∧ r = s.reps) ∨ (k = .rep1 ∧ r = (s.rep1, s.rep0, s.rep2, s.rep3)) ∨
      (k = .rep2 ∧ r = (s.rep2, s.rep0, s.rep1, s.rep3)) ∨ (k = .rep3 ∧ r = (s.rep3, s.rep0, s.rep1, s.rep2))) :
    Ends (decRepLength s.fsm.toNat (posState s) k) u (fun _ t => TokenEnd s t) (fun e t => TokCut 48 s e t) := by
  unfold decRepLength
  rw [ends_bind]
  refine (lenDecode_run (.inr rfl) (posState_lt hv) h.rangeGe h.cells).mono ?_ fun e t ht => h.cut ht.1 ht.2 hn
  rintro i t ⟨hi, ht⟩
  rw [ends_bind]
  unfold setFsm
  rw [ends_modify]
  have hm := ((h.run ht).setFsm (repNext_le s.fsm.toNat)).mono hn
  refine (finishMatch_run hm hi k).mono ?_ fun _ _ h => h
  rintro _ v ⟨hf, hr, rfl⟩
  exact TokenEnd.rep _ i k r hm hp hi hk hf hr

/-- A REP1, REP2 or REP3 token after IS_REP_G0 = 1 (R217, R220). -/
theorem decOlderRep_run (h : TokMid 3 s.fsm.toNat s.reps s u) (hp : posOf s ≠ 0) (hv : propsValid s.props = true)
    (hs : s.fsm.toNat ≤ 11) : Ends (decOlderRep s.fsm.toNat (posState s)) u (fun _ t => TokenEnd s t)
    (fun e t => TokCut 48 s e t) := by
  have hg1 : cellValid (isRepG1Cell s.fsm.toNat) = true := by rw [cellValid_iff]; unfold isRepG1Cell; omega
  have hg2 : cellValid (isRepG2Cell s.fsm.toNat) = true := by rw [cellValid_iff]; unfold isRepG2Cell; omega
  unfold decOlderRep
  rw [ends_bind]
  refine (decCell_run h.rangeGe h.cells hg1).mono ?_ fun e t ht => h.cut ht.1 ht.2 (by omega)
  rintro g1 t ⟨-, ht⟩
  have h1 := h.run ht
  rw [ends_ite]
  split
  · rw [ends_bind]
    refine (decCell_run h1.rangeGe h1.cells hg2).mono ?_ fun e v hv => h1.cut hv.1 hv.2 (by omega)
    rintro g2 v ⟨-, hv'⟩
    have h2 := h1.run hv'
    have hreps := h2.reps
    have e0 : v.rep0 = s.rep0 := congrArg Prod.fst hreps
    have e1 : v.rep1 = s.rep1 := congrArg (fun x => x.2.1) hreps
    have e2 : v.rep2 = s.rep2 := congrArg (fun x => x.2.2.1) hreps
    have e3 : v.rep3 = s.rep3 := congrArg (fun x => x.2.2.2) hreps
    rw [ends_ite]
    split
    · rw [ends_bind, ends_modify]
      unfold frontRep3
      rw [e0, e1, e2, e3]
      exact decRepLength_run (h2.setReps _ _ _ _) (by omega) hp hv _ (.inr (.inr (.inr ⟨rfl, rfl⟩)))
    · rw [ends_bind, ends_modify]
      unfold frontRep2
      rw [e0, e1, e2, e3]
      exact decRepLength_run (h2.setReps _ _ _ _) (by omega) hp hv _ (.inr (.inr (.inl ⟨rfl, rfl⟩)))
  · have hreps := h1.reps
    have e0 : t.rep0 = s.rep0 := congrArg Prod.fst hreps
    have e1 : t.rep1 = s.rep1 := congrArg (fun x => x.2.1) hreps
    have e2 : t.rep2 = s.rep2 := congrArg (fun x => x.2.2.1) hreps
    have e3 : t.rep3 = s.rep3 := congrArg (fun x => x.2.2.2) hreps
    rw [ends_bind, ends_modify]
    unfold frontRep1
    rw [e0, e1, e2, e3]
    exact decRepLength_run (h1.setReps _ _ _ _) (by omega) hp hv _ (.inr (.inl ⟨rfl, rfl⟩))

/-- A rep token after IS_REP = 1 (R220). -/
theorem decRepToken_run (h : TokMid 2 s.fsm.toNat s.reps s u) (hv : propsValid s.props = true)
    (hs : s.fsm.toNat ≤ 11) : Ends (decRepToken s.fsm.toNat (posState s)) u (fun _ t => TokenEnd s t)
    (fun e t => TokCut 48 s e t) := by
  have hps := posState_lt hv
  have hg0 : cellValid (isRepG0Cell s.fsm.toNat) = true := by rw [cellValid_iff]; unfold isRepG0Cell; omega
  have hlong : cellValid (isRep0LongCell s.fsm.toNat (posState s)) = true := by
    rw [cellValid_iff]; unfold isRep0LongCell; omega
  unfold decRepToken
  rw [ends_bind, ends_get, ends_bind]
  refine Ends.check (fun hpos => ?_) fun hpos =>
    ⟨h.cells, h.short (by omega), _, rfl, h.field State.window fun _ => rfl, by rw [h.posOf] at hpos; simpa using hpos⟩
  have hp : posOf s ≠ 0 := by rw [h.posOf] at hpos; simpa using hpos
  rw [ends_bind]
  refine (decCell_run h.rangeGe h.cells hg0).mono ?_ fun e t ht => h.cut ht.1 ht.2 (by omega)
  rintro g0 t ⟨-, ht⟩
  have h0 := h.run ht
  rw [ends_ite]
  split
  · exact decOlderRep_run h0 hp hv hs
  · rw [ends_bind]
    refine (decCell_run h0.rangeGe h0.cells hlong).mono ?_ fun e v hv => h0.cut hv.1 hv.2 (by omega)
    rintro long v ⟨-, hv'⟩
    have h1 := h0.run hv'
    rw [ends_ite]
    split
    · exact decRepLength_run h1 (by omega) hp hv _ (.inl ⟨rfl, rfl⟩)
    · exact decShortRep_run h1 (by omega) hp

/-- The end marker (R221). -/
theorem endMarker_run (h : TokMid 48 (matchNext s.fsm.toNat) (0xFFFFFFFF, s.rep0, s.rep1, s.rep2) s u) :
    Ends endMarker u (fun _ t => TokenEnd s t) (fun e t => TokCut 48 s e t) := by
  have hc : CellsOk u.sawEos := h.cells.congr rfl
  have hks : knownSize u.sawEos = knownSize s := h.knownSize
  have hpol : u.policy = s.policy := h.field State.policy fun _ => rfl
  unfold endMarker
  rw [ends_bind, ends_modify, ends_bind, ends_get, ends_bind]
  have hw : u.window = s.window := h.field State.window fun _ => rfl
  have h0 : u.rep0 = 0xFFFFFFFF := congrArg Prod.fst h.reps
  refine Ends.check (fun h1 => ?_) fun h1 => ⟨hc, h.short le_rfl, _, rfl, hw, h0, ?_⟩
  swap
  · rw [hks] at h1
    intro hn
    rw [hn] at h1
    cases h1
  have h1' : knownSize s = none := by rw [hks] at h1; simpa using h1
  rw [ends_bind]
  refine Ends.check (fun h2 => ?_) fun h2 =>
    ⟨hc, h.short le_rfl, _, rfl, hw, h0, h1', fun hn => by simp [show u.code = 0 from hn] at h2⟩
  rw [ends_bind]
  refine Ends.check (fun h3 => ?_) fun h3 => ⟨hc, h.short le_rfl, _, rfl, hw, h0, h1', by simpa using h2, ?_⟩
  swap
  · rw [show u.sawEos.policy = s.policy from hpol] at h3
    simp only [Bool.or_eq_false_iff, Bool.not_eq_false'] at h3
    exact ⟨h3.1, fun hn => by simp [inAtEnd, show u.source = [] from hn] at h3⟩
  refine TokenEnd.eos u h ?_ ?_ fun ht => ?_
  · rw [hks] at h1; simpa using h1
  · simpa using h2
  · have : eosTrailingPolicy u.sawEos.policy = true := by
      change eosTrailingPolicy u.policy = true
      rw [hpol]; exact ht
    rw [this] at h3
    have h3 : inAtEnd u.sawEos = true := by simpa using h3
    simpa [inAtEnd] using h3

/-- A MATCH token after IS_REP = 0 (R216, R220, R225). -/
theorem decMatchToken_run (h : TokMid 2 s.fsm.toNat s.reps s u) (hv : propsValid s.props = true) :
    Ends (decMatchToken s.fsm.toNat (posState s)) u (fun _ t => TokenEnd s t) (fun e t => TokCut 48 s e t) := by
  have hreps := h.reps
  have e0 : u.rep0 = s.rep0 := congrArg Prod.fst hreps
  have e1 : u.rep1 = s.rep1 := congrArg (fun x => x.2.1) hreps
  have e2 : u.rep2 = s.rep2 := congrArg (fun x => x.2.2.1) hreps
  unfold decMatchToken
  rw [ends_bind, ends_modify, ends_bind, e0, e1, e2]
  have h0 := h.setReps s.rep0 s.rep0 s.rep1 s.rep2
  refine (lenDecode_run (.inl rfl) (posState_lt hv) h0.rangeGe h0.cells).mono ?_
    fun e t ht => h0.cut ht.1 ht.2 (by omega)
  rintro i t ⟨hi, ht⟩
  rw [ends_bind]
  unfold setFsm
  rw [ends_modify, ends_bind]
  have h1 := (h0.run ht).setFsm (matchNext_le s.fsm.toNat)
  refine (distDecode_run i h1.rangeGe h1.cells).mono ?_ fun e v hv => h1.cut hv.1 hv.2 (by omega)
  rintro d v hv'
  have h2 := h1.run hv'
  have hreps' := h2.reps
  have e1' : v.rep1 = s.rep0 := congrArg (fun x => x.2.1) hreps'
  have e2' : v.rep2 = s.rep1 := congrArg (fun x => x.2.2.1) hreps'
  have e3' : v.rep3 = s.rep2 := congrArg (fun x => x.2.2.2) hreps'
  rw [ends_bind, ends_modify, e1', e2', e3', ends_ite]
  have h3 := h2.setReps d s.rep0 s.rep1 s.rep2
  split
  · rename_i hd
    rw [hd] at h3 ⊢
    exact endMarker_run (h3.mono (by omega))
  · rename_i hd
    have h3' := h3.mono (show 2 + 10 + 36 ≤ 48 by omega)
    refine (finishMatch_run h3' hi .newMatch).mono ?_ fun _ _ h => h
    rintro _ w ⟨hf, hr, rfl⟩
    exact TokenEnd.newMatch _ i d h3' hi hd hf hr

/-- DEC_TOKEN's body (R220): one of the token kinds, or a cause of R220's. -/
theorem decToken_run (hr : 2 ^ 24 ≤ s.range.toNat) (hc : CellsOk s) (hv : propsValid s.props = true)
    (hs : s.fsm.toNat ≤ 11) : Ends decToken s (fun _ t => TokenEnd s t) (fun e t => TokCut 48 s e t) := by
  have hrep : cellValid (isRepCell s.fsm.toNat) = true := by rw [cellValid_iff]; unfold isRepCell; omega
  unfold decToken
  rw [ends_bind, ends_get, ends_ite]
  split
  · exact TokenEnd.size ‹_›
  rw [ends_bind]
  refine (decCell_run hr hc (isMatchCell_valid hv hs)).mono ?_ fun e t ht => ht.1.tok ht.2 (by omega)
  rintro isMatch t ⟨-, ht⟩
  rw [ends_ite]
  split
  · rw [ends_bind]
    refine (decCell_run ht.rangeGe ht.cells hrep).mono ?_ fun e v hv => ht.mid.cut hv.1 hv.2 (by omega)
    rintro isRep v ⟨-, hv'⟩
    have hm := ht.mid.run hv'
    rw [ends_ite]
    split
    · exact decRepToken_run hm hv hs
    · exact decMatchToken_run hm hv
  · exact decLiteralToken_run ht.mid hv

end Sys2Proof.Machine
end

