-- ==== Sys2Proof/Laws/Invariant.lean ====
section
/-! SUPPORT. The invariant of 10_state.md R48 carried over the shared operations: a fault, RES, a window append, and a
coder's own fields. -/

namespace Sys2Proof.Machine

variable {s t : State}

/-- A fault taken from a well shaped state (60_exceptions.md R321). -/
theorem takeFault_inv (h : s.Shape) (c : Cause) : (s.takeFault c).Inv :=
  ⟨⟨h.pramWf, h.cells, h.fsmLe, h.cachePos, h.propsMasked, h.policyMasked, fun h => (by cases h), h.configWf, h.propsOk,
    h.capFits, h.encodeFsm, h.idleFresh, h.encoderFresh⟩, fun h => by cases h⟩

theorem withRes_inv (v : Word) (h : s.Shape ∧ s.Live) : (s.withRes v).Shape ∧ (s.withRes v).Live := by
  obtain ⟨h, l⟩ := h
  exact ⟨⟨h.pramWf, h.cells, h.fsmLe, h.cachePos, h.propsMasked, h.policyMasked, h.faultClear, h.configWf, h.propsOk,
    h.capFits, h.encodeFsm, h.idleFresh, h.encoderFresh⟩, ⟨l.rangeGe, l.lowRange, l.noCarryIntoFF, l.matchReadable⟩⟩

/-- What the encoder may write keeps the shape. -/
theorem encode_shape (hs : s.Shape) (hm : s.mode = .encode) (only : t.lessEncCells = s.lessEncCells) (hc : CellsOk t)
    (hp : 1 ≤ t.cacheSize) : t.Shape := by
  obtain ⟨l, r, c, n, k, o, p, rfl⟩ : ∃ l r c n k o p, t = { s with
      low := l, range := r, cache := c, cacheSize := n, sink := k, outCount := o, pram := p } :=
    ⟨_, _, _, _, _, _, _, eq_of_lessEncCells only⟩
  exact ⟨hc.wf, hc.range, hs.fsmLe, hp, hs.propsMasked, hs.policyMasked, hs.faultClear, hs.configWf, hs.propsOk,
    hs.capFits, hs.encodeFsm, fun h => (by cases hm.symm.trans h),
    fun h => by rcases h with h | h <;> cases hm.symm.trans h⟩

/-- What the decoder may write keeps the shape. -/
theorem decode_shape (hs : s.Shape) (hm : s.mode = .decode) (only : t.lessDecCells = s.lessDecCells) (hc : CellsOk t) :
    t.Shape := by
  obtain ⟨r, c, k, n, p, rfl⟩ : ∃ r c k n p, t = { s with
      range := r, code := c, source := k, inCount := n, pram := p } := ⟨_, _, _, _, _, eq_of_lessDecCells only⟩
  exact ⟨hc.wf, hc.range, hs.fsmLe, hs.cachePos, hs.propsMasked, hs.policyMasked, hs.faultClear, hs.configWf, hs.propsOk,
    hs.capFits, hs.encodeFsm, fun h => (by cases hm.symm.trans h), hs.encoderFresh⟩

theorem decode_live (hl : s.Live) (hs : s.Shape) (hm : s.mode = .decode) (only : t.lessDecCells = s.lessDecCells)
    (hr : 2 ^ 24 ≤ t.range.toNat) : t.Live := by
  obtain ⟨r, c, k, n, p, rfl⟩ : ∃ r c k n p, t = { s with
      range := r, code := c, source := k, inCount := n, pram := p } := ⟨_, _, _, _, _, eq_of_lessDecCells only⟩
  obtain ⟨h1, h2, h3⟩ := hs.encoderFresh (.inr hm)
  have := r.isLt
  refine ⟨hr, ?_, fun h => ?_, hl.matchReadable⟩
  · change s.low.toNat + r.toNat < _
    rw [h1]
    simp
    omega
  · rw [show s.cache = _ from h] at h2
    cases h2

/-- A byte appended to the window (43_dictionary_window.md R264). -/
theorem appended_inv (b : Byte) (h : s.Shape ∧ s.Live) : (s.appended b).Shape ∧ (s.appended b).Live := by
  obtain ⟨h, l⟩ := h
  by_cases hw : s.mode = .decode
  · rw [State.appended_decode hw]
    refine ⟨⟨h.pramWf, h.cells, h.fsmLe, h.cachePos, h.propsMasked, h.policyMasked, h.faultClear, h.configWf, h.propsOk,
      h.capFits, h.encodeFsm, h.idleFresh, h.encoderFresh⟩, ⟨l.rangeGe, l.lowRange, l.noCarryIntoFF, fun h1 h2 => ?_⟩⟩
    obtain ⟨k1, k2⟩ := l.matchReadable h1 h2
    refine ⟨?_, k2⟩
    simp [posOf] at *
    omega
  · rw [State.appended_other hw]
    exact ⟨⟨h.pramWf, h.cells, h.fsmLe, h.cachePos, h.propsMasked, h.policyMasked, h.faultClear, h.configWf, h.propsOk,
      h.capFits, h.encodeFsm, h.idleFresh, h.encoderFresh⟩,
      ⟨l.rangeGe, l.lowRange, l.noCarryIntoFF, fun h1 _ => absurd h1 hw⟩⟩

end Sys2Proof.Machine
end

