-- ==== Sys2Proof/Laws/Operands.lean ====
section
/-! SUPPORT. The operand forms once each: what a legal operand gives (30_encoding.md R82), and the three ways of
`CheckDistance` (43_dictionary_window.md R263). -/

namespace Sys2Proof.Machine

variable {s : State}

theorem cellOperand_run (h : cellValid s.arg0.toNat = true) : cellOperand s = .ok s.arg0.toNat s := by
  simp only [cellOperand, bind_run, get_run, check, h]
  rfl

theorem probOperand_run (h1 : 1 ≤ s.arg0.toNat) (h2 : s.arg0.toNat ≤ 2047) : probOperand s = .ok s.arg0.toNat s := by
  simp only [probOperand, bind_run, get_run, check, h1, h2]
  rfl

theorem treeBaseOperand_run {n : Nat} (h : treeOperandsLegal n s.arg0.toNat 0 = true) :
    treeBaseOperand n s = .ok s.arg0.toNat s := by
  simp only [treeBaseOperand, bind_run, get_run, check, h]
  rfl

/-- A tree is legal when its depth and value are and every node is a valid cell (41_probability_model.md R175). -/
theorem treeOperandsLegal_iff {n base v : Nat} : treeOperandsLegal n base v = true ↔
    1 ≤ n ∧ n ≤ 8 ∧ v < 2 ^ n ∧ ∀ x, 1 ≤ x → x < 2 ^ n → cellValid (base + x) = true := by
  simp only [treeOperandsLegal, Bool.and_eq_true, decide_eq_true_eq, List.all_eq_true, List.mem_range, and_assoc]
  refine and_congr_right fun _ => and_congr_right fun _ => and_congr_right fun _ => ⟨fun h x h1 h2 => ?_, fun h k hk => ?_⟩
  · have := h (x - 1) (by omega)
    rwa [show base + 1 + (x - 1) = base + x by omega] at this
  · have := h (k + 1) (by omega) (by omega)
    rwa [show base + (k + 1) = base + 1 + k by omega] at this

theorem treeOperandsLegal_cells {n base v : Nat} (h : treeOperandsLegal n base v = true) :
    ∀ x, 1 ≤ x → x < 2 ^ n → cellValid (base + x) = true := (treeOperandsLegal_iff.1 h).2.2.2

/-- `CheckDistance` passes a readable distance, and names the fault of any other. -/
theorem checkDistance_cases (d : Nat) (s : State) :
    (Readable s d ∧ checkDistance d s = .ok () s) ∨
    ((d = 0 ∨ posOf s < d) ∧ checkDistance d s = .error (.raise .distBeyondOutput) s) ∨
    (1 ≤ d ∧ d ≤ posOf s ∧ windowLimit s < d ∧ checkDistance d s = .error (.raise .distBeyondDict) s) := by
  by_cases h : d = 0 ∨ posOf s < d
  · refine .inr (.inl ⟨h, ?_⟩)
    have hb : (d != 0 && decide (d ≤ posOf s)) = false := by
      rcases h with h | h
      · simp [h]
      · simp only [Bool.and_eq_false_iff, decide_eq_false_iff_not]
        omega
    simp only [checkDistance, bind_run, get_run, check, hb]
    rfl
  · have hb : (d != 0 && decide (d ≤ posOf s)) = true := by
      simp only [Bool.and_eq_true, bne_iff_ne, ne_eq, decide_eq_true_eq]
      omega
    by_cases h' : d ≤ windowLimit s
    · exact .inl ⟨⟨by omega, by omega, h'⟩, checkDistance_run ⟨by omega, by omega, h'⟩⟩
    · refine .inr (.inr ⟨by omega, by omega, by omega, ?_⟩)
      simp only [checkDistance, bind_run, get_run, check, hb, h', decide_false]
      rfl

end Sys2Proof.Machine
end

