-- ==== Sys2Proof/Laws/PerInstr.lean ====
section
/-! SUPPORT. One fact about every command as syntax: a well-formed command's word lies in its row of the opcode map
(30_encoding.md R81, R83). -/

namespace Sys2Proof.Laws.EncodingRow

open Sys2Proof

/-- The command's row stands in the opcode map, and its word passes that row's test. -/
def Statement (i : Instr) : Prop := i.wf = true → i.row ∈ opcodeRows ∧ i.row.matches (encode i) = true

theorem nop : Statement .nop := by unfold Statement; decide
theorem sessionReset : Statement .sessionReset := by unfold Statement; decide
theorem rcEncInit : Statement .rcEncInit := by unfold Statement; decide
theorem rcEncBit (bit : Bool) : Statement (.rcEncBit bit) := by unfold Statement; revert bit; decide
theorem rcEncBitNa (bit : Bool) : Statement (.rcEncBitNa bit) := by unfold Statement; revert bit; decide
theorem rcEncTree (n : Nat) : Statement (.rcEncTree n) := by
  intro h
  have h : n < 16 := by simpa [Instr.wf] using h
  interval_cases n <;> decide
theorem rcEncFlush : Statement .rcEncFlush := by unfold Statement; decide
theorem rcDecInit : Statement .rcDecInit := by unfold Statement; decide
theorem rcDecBit : Statement .rcDecBit := by unfold Statement; decide
theorem rcDecBitNa : Statement .rcDecBitNa := by unfold Statement; decide
theorem rcDecDirect (n : Nat) : Statement (.rcDecDirect n) := by
  intro h
  have h : n < 64 := by simpa [Instr.wf] using h
  interval_cases n <;> decide
theorem rcDecTree (n : Nat) : Statement (.rcDecTree n) := by
  intro h
  have h : n < 16 := by simpa [Instr.wf] using h
  interval_cases n <;> decide
theorem rcDecRtree (n : Nat) : Statement (.rcDecRtree n) := by
  intro h
  have h : n < 16 := by simpa [Instr.wf] using h
  interval_cases n <;> decide
theorem rcDecFinished : Statement .rcDecFinished := by unfold Statement; decide
theorem pmInit : Statement .pmInit := by unfold Statement; decide
theorem cellRead : Statement .cellRead := by unfold Statement; decide
theorem encLiteral (b : Byte) : Statement (.encLiteral b) := by
  refine fun _ => ⟨by simp only [Instr.row]; decide, ?_⟩
  have hb := b.isLt
  simp only [encode, Instr.opcode, Instr.imm, Instr.row]
  generalize b.toNat = n at *
  interval_cases n <;> rfl
theorem encEos : Statement .encEos := by unfold Statement; decide
theorem decToken : Statement .decToken := by unfold Statement; decide
theorem dwReset : Statement .dwReset := by unfold Statement; decide
theorem dwPush (b : Byte) : Statement (.dwPush b) := by
  refine fun _ => ⟨by simp only [Instr.row]; decide, ?_⟩
  have hb := b.isLt
  simp only [encode, Instr.opcode, Instr.imm, Instr.row]
  generalize b.toNat = n at *
  interval_cases n <;> rfl
theorem dwByteAt : Statement .dwByteAt := by unfold Statement; decide
theorem dwLast : Statement .dwLast := by unfold Statement; decide
theorem dwCopy : Statement .dwCopy := by unfold Statement; decide
theorem propsValidate : Statement .propsValidate := by unfold Statement; decide
theorem hdrWrite : Statement .hdrWrite := by unfold Statement; decide
theorem hdrRead : Statement .hdrRead := by unfold Statement; decide

end Sys2Proof.Laws.EncodingRow
end

