-- ==== Sys2Proof/Laws/Runs.lean ====
section
/-! SUPPORT. Runs of host accesses (30_encoding.md R88), one access at a time. -/

namespace Sys2Proof.Machine

theorem perform_cons (x : Access) (l : List Access) (s : State) :
    perform (x :: l) s = andThen (access x s) (perform l) := by
  rw [perform]
  cases access x s <;> rfl

theorem perform_append : ∀ (a b : List Access) (s : State), perform (a ++ b) s = andThen (perform a s) (perform b)
  | [], _, _ => rfl
  | x :: a, b, s => by
    rw [List.cons_append, perform_cons, perform_cons]
    cases access x s with
    | next t => exact perform_append a b t
    | fault f => rfl
    | refused r => rfl

theorem andThen_perform_nil (o : Host.Outcome State Fault Refusal) : andThen o (perform []) = o := by cases o <;> rfl

theorem access_write_cmd (w : Word) (s : State) : access (.write cmdAddr w) s = command w s := rfl

theorem access_write_arg0 (v : Word) (s : State) : access (.write 0x20 v) s = .next (s.withArg0 v) := rfl

/-- A word that decodes runs its command (10_state.md R33). -/
theorem command_ok {w : Word} {i : Instr} (h : decode w = .ok i) (s : State) : command w s = exec i s := by
  unfold command
  rw [h]

end Sys2Proof.Machine
end

