-- ==== Sys2Proof/Laws/SinkFail.lean ====
section
/-! SUPPORT. A sink that fails (10_state.md R46, 60_exceptions.md R322): pseudocode run on it does what it does on one that
never fails up to the byte that fails, and there it raises IO_ERROR(OUT) with exactly the bytes before it delivered. -/

namespace Sys2Proof.Machine

variable {α β : Type} {k : Nat} {s : State}

/-- The sink fails at byte `k`. -/
def State.failAt (k : Nat) (s : State) : State := { s with sinkFailAt := some k }

/-- The state a run ends in. -/
def endOf : EStateM.Result Stop State α → State
  | .ok _ t => t
  | .error _ t => t

/-- `y` on the sink that fails at byte `k` does what `x` does on one that never fails, up to that byte. -/
def Cuts (k : Nat) (x y : Cmd α) (s : State) : Prop :=
  s.sinkFailAt = none → (endOf (x s)).sinkFailAt = none ∧ s.sink <+: (endOf (x s)).sink ∧
    (s.sink.length ≤ k →
      ((endOf (x s)).sink.length ≤ k → y (s.failAt k) = mapState (State.failAt k) (x s)) ∧
      (k < (endOf (x s)).sink.length →
        ∃ u, y (s.failAt k) = .error (.raise .ioErrorOut) u ∧ u.sink = (endOf (x s)).sink.take k))

/-- Pseudocode that leaves the sink alone. -/
theorem Cuts.of_commutes {x y : Cmd α} (h : Commutes (State.failAt k) x y s) (hs : (endOf (x s)).sink = s.sink)
    (hf : (endOf (x s)).sinkFailAt = s.sinkFailAt) : Cuts k x y s := fun h0 =>
  ⟨hf.trans h0, by rw [hs], fun hl => ⟨fun _ => h, fun h1 => by rw [hs] at h1; omega⟩⟩

theorem Keeps.endOf {R : State → State → Prop} {x : Cmd α} (h : Keeps R x) (s : State) : R s (Machine.endOf (x s)) := by
  have := h s
  unfold Ends at this
  split at this <;> rename_i e <;> rw [e] <;> exact this

theorem Cuts.bind {x x' : Cmd α} {y y' : α → Cmd β} (hx : Cuts k x x' s) (hy : ∀ a t, Cuts k (y a) (y' a) t) :
    Cuts k (x >>= y) (x' >>= y') s := by
  intro h0
  obtain ⟨h1, h2, h3⟩ := hx h0
  rw [bind_run, bind_run]
  cases e : x s with
  | error er t =>
    rw [e] at h1 h2 h3
    refine ⟨h1, h2, fun hl => ⟨fun h4 => ?_, fun h4 => ?_⟩⟩
    · rw [(h3 hl).1 h4]; rfl
    · obtain ⟨u, h5, h6⟩ := (h3 hl).2 h4
      exact ⟨u, by rw [h5], h6⟩
  | ok a t =>
    rw [e] at h1 h2 h3
    obtain ⟨h4, h5, h6⟩ := hy a t h1
    refine ⟨h4, h2.trans h5, fun hl => ?_⟩
    by_cases hk : t.sink.length ≤ k
    · rw [(h3 hl).1 hk]
      exact h6 hk
    · obtain ⟨u, h7, h8⟩ := (h3 hl).2 (by change k < t.sink.length; omega)
      have hlen : t.sink.length ≤ (endOf (y a t)).sink.length := h5.length_le
      refine ⟨fun h9 => by change (endOf (y a t)).sink.length ≤ k at h9; omega, fun _ => ⟨u, by rw [h7], ?_⟩⟩
      rw [h8]
      obtain ⟨l, h9⟩ := h5
      change t.sink.take k = (endOf (y a t)).sink.take k
      rw [← h9, List.take_append_of_le_length (by omega)]

theorem Cuts.getBind {y y' : State → Cmd β} (h : Cuts k (y s) (y' (s.failAt k)) s) :
    Cuts k ((get : Cmd State) >>= y) ((get : Cmd State) >>= y') s := h

theorem Cuts.pure (a : α) (s : State) : Cuts k (pure a) (pure a) s := Cuts.of_commutes (Commutes.pure a s) rfl rfl

theorem Cuts.raise (c : Cause) (s : State) : Cuts k (raise c : Cmd α) (raise c) s :=
  Cuts.of_commutes (Commutes.raise c s) rfl rfl

theorem Cuts.stuck (e : Fault) (s : State) : Cuts k (stuck e : Cmd α) (stuck e) s :=
  Cuts.of_commutes (Commutes.stuck e s) rfl rfl

theorem Cuts.check (ok : Bool) (c : Cause) (s : State) : Cuts k (check ok c) (check ok c) s := by
  unfold Machine.check
  cases ok
  · exact Cuts.raise c s
  · exact Cuts.pure () s

/-- An update that neither reads nor writes the sink. -/
theorem Cuts.modify {g h : State → State} (e : h (s.failAt k) = (g s).failAt k) (hs : (g s).sink = s.sink)
    (hf : (g s).sinkFailAt = s.sinkFailAt) : Cuts k (modify g : Cmd PUnit) (modify h) s :=
  Cuts.of_commutes (Commutes.modify e) hs hf

theorem Cuts.setBind {t : State} {y y' : PUnit → Cmd β} {u : State} (e : u = t.failAt k) (hs : t.sink = s.sink)
    (hf : t.sinkFailAt = s.sinkFailAt) (hy : Cuts k (y ⟨⟩) (y' ⟨⟩) t) :
    Cuts k ((set t : Cmd PUnit) >>= y) ((set u : Cmd PUnit) >>= y') s := by
  subst e
  intro h0
  have := hy (hf.trans h0)
  rw [hs] at this
  exact this

theorem Cuts.ite {p : Prop} [Decidable p] {x x' y y' : Cmd α} (hx : Cuts k x x' s) (hy : Cuts k y y' s) :
    Cuts k (if p then x else y) (if p then x' else y') s := by
  split
  · exact hx
  · exact hy

theorem Cuts.runIf {b : Bool} {x x' : Cmd Unit} (hx : Cuts k x x' s) : Cuts k (runIf b x) (runIf b x') s :=
  Cuts.ite hx (Cuts.pure () s)

theorem Cuts.repeatCmd {x : Cmd Unit} (hx : ∀ s, Cuts k x x s) : ∀ n s, Cuts k (repeatCmd n x) (repeatCmd n x) s
  | 0, s => Cuts.pure () s
  | n + 1, s => Cuts.bind (hx s) fun _ t => Cuts.repeatCmd hx n t

/-! ## The sink -/

theorem outWrite_cuts (b : Byte) (s : State) : Cuts k (outWrite b) (outWrite b) s := by
  intro h0
  have e : outWrite b s = .ok () (s.delivered b) := by
    unfold outWrite
    rw [bind_run, get_run]
    simp only [sinkFails, h0, Bool.false_eq_true, if_false]
    rfl
  rw [e]
  refine ⟨h0, ⟨[b], rfl⟩, fun hl => ⟨fun h => ?_, fun h => ⟨s.failAt k, ?_, ?_⟩⟩⟩
  · have hk : s.sink.length + 1 ≤ k := by simpa [endOf] using h
    have : sinkFails (s.failAt k) = false := by
      change decide (k ≤ s.sink.length) = false
      rw [decide_eq_false_iff_not]; omega
    unfold outWrite
    rw [bind_run, get_run]
    simp only [this, Bool.false_eq_true, if_false]
    rfl
  · have hk : k < s.sink.length + 1 := by simpa [endOf] using h
    have : sinkFails (s.failAt k) = true := by
      change decide (k ≤ s.sink.length) = true
      rw [decide_eq_true_iff]; omega
    unfold outWrite
    rw [bind_run, get_run]
    simp only [this, if_true]
    rfl
  · have hk : k < s.sink.length + 1 := by simpa [endOf] using h
    have : k = s.sink.length := by omega
    change s.sink = (s.sink ++ [b]).take k
    rw [this, List.take_left']
    rfl

theorem outWriteAll_cuts : ∀ l s, Cuts k (outWriteAll l) (outWriteAll l) s
  | [], s => Cuts.pure () s
  | b :: l, s => Cuts.bind (outWrite_cuts b s) fun _ t => outWriteAll_cuts l t

/-! ## The encoder -/

theorem failAt_cells : CellsApart (State.failAt k) := ⟨fun _ => rfl, fun _ _ => rfl⟩

theorem failAt_dec : DecApart (State.failAt k) :=
  ⟨fun _ => ⟨rfl, rfl, rfl, rfl⟩, fun _ _ => rfl, fun _ _ => rfl, fun _ _ => rfl⟩

theorem readCell_cuts (a : Nat) (s : State) : Cuts k (readCell a) (readCell a) s := by
  have h := (keeps_readCell (R := fun s t => t = s) (fun _ => rfl) a).endOf s
  exact Cuts.of_commutes (readCell_commutes failAt_cells a s) (by rw [h]) (by rw [h])

theorem writeCell_cuts (a v : Nat) (s : State) : Cuts k (writeCell a v) (writeCell a v) s := by
  have h := (keeps_writeCell (R := fun s t => t.sink = s.sink ∧ t.sinkFailAt = s.sinkFailAt) (fun _ => ⟨rfl, rfl⟩)
    (a := a) (v := v) fun _ _ => ⟨rfl, rfl⟩).endOf s
  exact Cuts.of_commutes (writeCell_commutes failAt_cells a v s) h.1 h.2

theorem shiftLow_cuts (s : State) : Cuts k shiftLow shiftLow s := by
  refine Cuts.getBind (Cuts.bind (Cuts.runIf (Cuts.getBind ?_)) fun _ t => Cuts.modify rfl rfl rfl)
  exact Cuts.bind (outWriteAll_cuts _ s) fun _ t => Cuts.modify rfl rfl rfl

theorem encNormalizeLoop_cuts : ∀ n s, Cuts k (encNormalizeLoop n) (encNormalizeLoop n) s
  | 0, s => Cuts.stuck _ s
  | n + 1, s => by
    refine Cuts.getBind (Cuts.ite ?_ (Cuts.pure () s))
    exact Cuts.setBind rfl rfl rfl (Cuts.bind (shiftLow_cuts _) fun _ t => encNormalizeLoop_cuts n t)

theorem encodeBitCore_cuts (p : Nat) (bit : Bool) (s : State) : Cuts k (encodeBitCore p bit) (encodeBitCore p bit) s := by
  refine Cuts.bind (Cuts.modify ?_ ?_ ?_) fun _ t => Cuts.bind (encNormalizeLoop_cuts 4 t) fun _ u => Cuts.pure _ u
  all_goals
    unfold encSplit
    split <;> rfl

theorem encCell_cuts (a : Nat) (bit : Bool) (s : State) : Cuts k (encCell a bit) (encCell a bit) s :=
  Cuts.bind (readCell_cuts a s) fun p t => Cuts.bind (encodeBitCore_cuts p bit t) fun q u => writeCell_cuts a q u

theorem encDiscard_cuts (p : Nat) (bit : Bool) (s : State) : Cuts k (encDiscard p bit) (encDiscard p bit) s :=
  Cuts.bind (encodeBitCore_cuts p bit s) fun _ t => Cuts.pure _ t

theorem treeEncodeLoop_cuts (base v : Nat) : ∀ n m s, Cuts k (treeEncodeLoop base v n m) (treeEncodeLoop base v n m) s
  | 0, _, s => Cuts.pure () s
  | n + 1, _, s => Cuts.bind (encCell_cuts _ _ s) fun _ t => treeEncodeLoop_cuts base v n _ t

theorem literalCoder_cuts (s : State) : Cuts k literalCoder literalCoder s :=
  Cuts.getBind (Cuts.ite (Cuts.pure _ s) (Cuts.stuck _ s))

theorem windowAppend_cuts (b : Byte) (s : State) : Cuts k (windowAppend b) (windowAppend b) s :=
  Cuts.getBind (Cuts.bind (Cuts.runIf (outWrite_cuts b s)) fun _ _ => Cuts.modify rfl rfl rfl)

theorem encLiteral_cuts (b : Byte) (s : State) : Cuts k (encLiteral b) (encLiteral b) s := by
  refine Cuts.getBind (Cuts.bind (encCell_cuts _ _ s) fun _ t => Cuts.bind (literalCoder_cuts t) fun lb u => ?_)
  refine Cuts.bind (treeEncodeLoop_cuts lb _ 8 1 u) fun _ v => Cuts.bind (Cuts.modify rfl rfl rfl) fun _ w => ?_
  exact windowAppend_cuts b w

theorem encEos_cuts (s : State) : Cuts k encEos encEos s := by
  refine Cuts.getBind (Cuts.bind (encCell_cuts _ _ s) fun _ t => Cuts.bind (encDiscard_cuts _ _ t) fun _ u => ?_)
  refine Cuts.bind (Cuts.repeatCmd (encDiscard_cuts _ _) _ u) fun _ u => ?_
  refine Cuts.bind (Cuts.repeatCmd (encDiscard_cuts _ _) _ u) fun _ u => ?_
  exact Cuts.bind (Cuts.repeatCmd (encDiscard_cuts _ _) _ u) fun _ u => Cuts.modify rfl rfl rfl

/-! ## The decoder and the window -/

/-- A run of decisions touches no sink. -/
theorem Cuts.of_decoder {x : Cmd α} (h : Commutes (State.failAt k) x x s) (hk : Keeps (Same State.lessDecCells) x) :
    Cuts k x x s := by
  have e := hk.endOf s
  have h1 := congrArg State.sink e
  have h2 := congrArg State.sinkFailAt e
  exact Cuts.of_commutes h h1 h2

theorem decCell_cuts (a : Nat) (s : State) : Cuts k (decCell a) (decCell a) s :=
  Cuts.of_decoder (failAt_dec.cellDecision failAt_cells a s) (sameDecCells.cellDecision trivial)

theorem treeDecode_cuts (base n : Nat) (s : State) : Cuts k (treeDecode base n) (treeDecode base n) s :=
  Cuts.of_decoder (Commutes.bind (failAt_dec.treeLoop failAt_cells base n 1 s) fun _ t => Commutes.pure _ t)
    (sameDecCells.tree fun _ _ _ => trivial)

theorem rtreeDecode_cuts (base n : Nat) (s : State) : Cuts k (rtreeDecode base n) (rtreeDecode base n) s :=
  Cuts.of_decoder (failAt_dec.rtreeLoop failAt_cells base n 0 1 0 s) (sameDecCells.rtree fun _ _ _ => trivial)

theorem decDirect_cuts (n : Nat) (s : State) : Cuts k (decDirect n) (decDirect n) s :=
  Cuts.of_decoder (failAt_dec.directLoop n 0 s) (sameDecCells.direct n)

theorem inRead_cuts (c : Cause) (s : State) : Cuts k (inRead c) (inRead c) s := by
  have h := (keeps_inRead (R := fun s t => t.sink = s.sink ∧ t.sinkFailAt = s.sinkFailAt) (fun _ => ⟨rfl, rfl⟩)
    (fun _ _ _ _ => ⟨rfl, rfl⟩) c).endOf s
  exact Cuts.of_commutes (failAt_dec.inRead c s) h.1 h.2

theorem checkDistance_cuts (d : Nat) (s : State) : Cuts k (checkDistance d) (checkDistance d) s :=
  Cuts.getBind (Cuts.bind (Cuts.check _ _ s) fun _ t => Cuts.check _ _ t)

theorem byteAt_cuts (d : Nat) (s : State) : Cuts k (byteAt d) (byteAt d) s :=
  Cuts.bind (checkDistance_cuts d s) fun _ t => Cuts.getBind (Cuts.pure (windowByte t d) t)

theorem copyMatch_cuts (d n : Nat) (s : State) : Cuts k (copyMatch d n) (copyMatch d n) s :=
  Cuts.bind (checkDistance_cuts d s) fun _ t =>
    Cuts.repeatCmd (fun u => Cuts.getBind (windowAppend_cuts (windowByte u d) u)) n t

/-! ## Tokens -/

theorem literalPlain_cuts (lb : Nat) : ∀ n sym s, Cuts k (literalPlain lb n sym) (literalPlain lb n sym) s
  | 0, _, s => Cuts.pure _ s
  | n + 1, _, s => Cuts.bind (decCell_cuts _ s) fun _ t => literalPlain_cuts lb n _ t

theorem literalMatched_cuts (lb : Nat) : ∀ n mb sym s,
    Cuts k (literalMatched lb n mb sym) (literalMatched lb n mb sym) s
  | 0, _, _, s => Cuts.pure _ s
  | n + 1, _, _, s => Cuts.bind (decCell_cuts _ s) fun _ t =>
      Cuts.ite (literalPlain_cuts lb n _ t) (literalMatched_cuts lb n _ _ t)

theorem decodeLiteral_cuts (lb st : Nat) (s : State) : Cuts k (decodeLiteral lb st) (decodeLiteral lb st) s := by
  refine Cuts.getBind (Cuts.ite ?_ ?_)
  · exact Cuts.bind (byteAt_cuts _ s) fun _ t => Cuts.bind (literalMatched_cuts lb 8 _ 1 t) fun _ u => Cuts.pure _ u
  · exact Cuts.bind (literalPlain_cuts lb 8 1 s) fun _ u => Cuts.pure _ u

theorem lenDecode_cuts (l ps : Nat) (s : State) : Cuts k (lenDecode l ps) (lenDecode l ps) s := by
  refine Cuts.bind (decCell_cuts _ s) fun _ t => Cuts.ite ?_ (treeDecode_cuts _ _ t)
  refine Cuts.bind (decCell_cuts _ t) fun _ u => Cuts.ite ?_ ?_
  · exact Cuts.bind (treeDecode_cuts _ _ u) fun _ v => Cuts.pure _ v
  · exact Cuts.bind (treeDecode_cuts _ _ u) fun _ v => Cuts.pure _ v

theorem distDecode_cuts (i : Nat) (s : State) : Cuts k (distDecode i) (distDecode i) s := by
  refine Cuts.bind (treeDecode_cuts _ _ s) fun _ t => Cuts.ite (Cuts.pure _ t) (Cuts.ite ?_ ?_)
  · exact Cuts.bind (rtreeDecode_cuts _ _ t) fun _ u => Cuts.pure _ u
  · exact Cuts.bind (decDirect_cuts _ t) fun _ u => Cuts.bind (rtreeDecode_cuts _ _ u) fun _ v => Cuts.pure _ v

theorem report_cuts (kind : TokenKind) (s : State) : Cuts k (report kind) (report kind) s := Cuts.modify rfl rfl rfl

theorem setFsm_cuts (n : Nat) (s : State) : Cuts k (setFsm n) (setFsm n) s := Cuts.modify rfl rfl rfl

theorem finishMatch_cuts (i : Nat) (kind : TokenKind) (s : State) :
    Cuts k (finishMatch i kind) (finishMatch i kind) s :=
  Cuts.getBind (Cuts.bind (Cuts.check _ _ s) fun _ t => Cuts.bind (copyMatch_cuts _ _ t) fun _ u => report_cuts kind u)

theorem endMarker_cuts (s : State) : Cuts k endMarker endMarker s := by
  refine Cuts.bind (Cuts.modify rfl rfl rfl) fun _ t => Cuts.getBind (Cuts.bind (Cuts.check _ _ t) fun _ u => ?_)
  refine Cuts.bind (Cuts.check _ _ u) fun _ v => Cuts.bind (Cuts.check _ _ v) fun _ w => ?_
  exact Cuts.bind (Cuts.modify rfl rfl rfl) fun _ x => report_cuts _ x

theorem decRepLength_cuts (st ps : Nat) (kind : TokenKind) (s : State) :
    Cuts k (decRepLength st ps kind) (decRepLength st ps kind) s :=
  Cuts.bind (lenDecode_cuts _ _ s) fun _ t => Cuts.bind (setFsm_cuts _ t) fun _ u => finishMatch_cuts _ _ u

theorem decShortRep_cuts (st : Nat) (s : State) : Cuts k (decShortRep st) (decShortRep st) s :=
  Cuts.bind (setFsm_cuts _ s) fun _ t => Cuts.getBind (Cuts.bind (byteAt_cuts _ t) fun _ u =>
    Cuts.bind (windowAppend_cuts _ u) fun _ v => report_cuts _ v)

theorem decOlderRep_cuts (st ps : Nat) (s : State) : Cuts k (decOlderRep st ps) (decOlderRep st ps) s := by
  refine Cuts.bind (decCell_cuts _ s) fun _ t => Cuts.ite ?_ ?_
  · refine Cuts.bind (decCell_cuts _ t) fun _ u => Cuts.ite ?_ ?_
    · exact Cuts.bind (Cuts.modify rfl rfl rfl) fun _ v => decRepLength_cuts _ _ _ v
    · exact Cuts.bind (Cuts.modify rfl rfl rfl) fun _ v => decRepLength_cuts _ _ _ v
  · exact Cuts.bind (Cuts.modify rfl rfl rfl) fun _ v => decRepLength_cuts _ _ _ v

theorem decRepToken_cuts (st ps : Nat) (s : State) : Cuts k (decRepToken st ps) (decRepToken st ps) s := by
  refine Cuts.getBind (Cuts.bind (Cuts.check _ _ s) fun _ t => Cuts.bind (decCell_cuts _ t) fun _ u => ?_)
  refine Cuts.ite (decOlderRep_cuts st ps u) (Cuts.bind (decCell_cuts _ u) fun _ v => ?_)
  exact Cuts.ite (decRepLength_cuts _ _ _ v) (decShortRep_cuts st v)

theorem decMatchToken_cuts (st ps : Nat) (s : State) : Cuts k (decMatchToken st ps) (decMatchToken st ps) s := by
  refine Cuts.bind (Cuts.modify rfl rfl rfl) fun _ t => Cuts.bind (lenDecode_cuts _ _ t) fun i u => ?_
  refine Cuts.bind (setFsm_cuts _ u) fun _ v => Cuts.bind (distDecode_cuts i v) fun d w => ?_
  exact Cuts.bind (Cuts.modify rfl rfl rfl) fun _ x => Cuts.ite (endMarker_cuts x) (finishMatch_cuts _ _ x)

theorem decToken_cuts (s : State) : Cuts k decToken decToken s := by
  refine Cuts.getBind (Cuts.ite ?_ ?_)
  · exact Cuts.bind (Cuts.modify rfl rfl rfl) fun _ t => report_cuts _ t
  refine Cuts.bind (decCell_cuts _ s) fun _ t => Cuts.ite ?_ ?_
  · exact Cuts.bind (decCell_cuts _ t) fun _ u => Cuts.ite (decRepToken_cuts _ _ u) (decMatchToken_cuts _ _ u)
  · refine Cuts.bind (literalCoder_cuts t) fun lb u => Cuts.bind (decodeLiteral_cuts lb _ u) fun b v => ?_
    exact Cuts.bind (setFsm_cuts _ v) fun _ w => Cuts.bind (windowAppend_cuts b w) fun _ x => report_cuts _ x

/-- A command on the sink that fails at byte `k`. -/
theorem issue_cuts {modes : List Mode} {body : Cmd Unit} (h : ∀ s, Cuts k body body s) {u : State}
    (hk : s.sinkFailAt = some k) (hl : s.sink.length ≤ k)
    (e : issue modes body { s with sinkFailAt := none } = .next u) :
    (u.sink.length ≤ k → issue modes body s = .next (u.failAt k)) ∧
    (k < u.sink.length → ∃ t : State, issue modes body s = .next (t.takeFault .ioErrorOut) ∧ t.sink = u.sink.take k) := by
  have hs : ({ s with sinkFailAt := none } : State).failAt k = s := by
    unfold State.failAt
    rw [← hk]
  generalize hv : ({ s with sinkFailAt := none } : State) = v at *
  have h0 : v.sinkFailAt = none := by rw [← hv]
  have hsink : v.sink = s.sink := by rw [← hv]
  rw [← hs]
  rw [← hsink] at hl
  have hfm : (v.failAt k).faulted = v.faulted ∧ (v.failAt k).mode = v.mode := ⟨rfl, rfl⟩
  rcases issue_cases modes body v with ⟨f, h'⟩ | ⟨f, m, h'⟩ | ⟨f, m, h'⟩
  · rw [h'] at e
    cases e
    exact ⟨fun _ => issue_faulted f, fun h => by omega⟩
  · rw [h'] at e
    cases e
    exact ⟨fun _ => issue_wrong_mode f m, fun h => by change k < v.sink.length at h; omega⟩
  · rw [h'] at e
    rw [issue_ready (s := v.failAt k) f m]
    obtain ⟨_, _, h3⟩ := h v h0
    obtain ⟨h4, h5⟩ := h3 hl
    cases hb : body v with
    | ok a t =>
      rw [hb] at e h4 h5
      cases e
      refine ⟨fun hu => by rw [h4 hu]; rfl, fun hu => ?_⟩
      obtain ⟨w, h6, h7⟩ := h5 hu
      exact ⟨w, by rw [h6]; rfl, h7⟩
    | error er t =>
      cases er with
      | stuck f => rw [hb] at e; cases e
      | raise c =>
        rw [hb] at e h4 h5
        cases e
        refine ⟨fun hu => by rw [h4 hu]; rfl, fun hu => ?_⟩
        obtain ⟨w, h6, h7⟩ := h5 hu
        exact ⟨w, by rw [h6]; rfl, h7⟩

end Sys2Proof.Machine
end

