-- ==== Sys2Proof/Laws/TokenCommands.lean ====
section
/-! SUPPORT. A token's pieces as sequences of commands (42_symbol_fsm.md R220 to R225): each piece of DEC_TOKEN's
pseudocode comes out as the commands for it do, but for what the commands leave in ARG0, ARG1 and RES. -/

namespace Sys2Proof.Machine

variable {α β : Type} {u : State} {o : Host.Outcome State Fault Refusal}

/-- The three registers a sequence of commands uses, written. -/
def State.regs (s : State) (a b r : Word) : State := ((s.withArg0 a).withArg1 b).withRes r

/-! ## Coming out as commands do -/

/-- The outcome `o` is what the run of `x` from `u` is: `Q` of its value and state where it ends with one; where it raises,
the fault taken, but for ARG0, ARG1 and RES. -/
def ComesTo (Q : α → State → Host.Outcome State Fault Refusal → Prop) (x : Cmd α) (o : Host.Outcome State Fault Refusal)
    (u : State) : Prop :=
  match x u with
  | .ok v t => Q v t o
  | .error (.raise c) t => ∃ a b r, o = .next ((t.regs a b r).takeFault c)
  | .error (.stuck f) _ => o = .fault f

/-- Where it ends with a value the token goes on, and RES holds a word that `val` relates to the value. -/
def Comes (x : Cmd α) (val : α → Word → Prop) (o : Host.Outcome State Fault Refusal) (u : State) : Prop :=
  ComesTo (fun v t o => t.faulted = false ∧ t.mode = .decode ∧ ∃ a b w, val v w ∧ o = .next (t.regs a b w)) x o u

/-- The same at a token's end, which writes RES itself. -/
def ComesEnd (x : Cmd Unit) (o : Host.Outcome State Fault Refusal) (u : State) : Prop :=
  ComesTo (fun _ t o => ∃ a b, o = .next (t.regs a b t.res)) x o u

/-- RES holds the number. -/
def IsNumber (v : Nat) (w : Word) : Prop := w = BitVec.ofNat 32 v

/-- RES holds the bit. -/
def IsBit (b : Bool) (w : Word) : Prop := w = BitVec.ofNat 32 b.toNat

theorem ifRuns_fault {h : State → Host.Outcome State Fault Refusal} (t : State) (c : Cause) :
    ifRuns (.next (t.takeFault c)) h = .next (t.takeFault c) := rfl

theorem ifRuns_runs {h : State → Host.Outcome State Fault Refusal} {t : State} (hf : t.faulted = false) :
    ifRuns (.next t) h = h t := by
  simp [ifRuns, andThen, hf]

theorem Comes.bind {x : Cmd α} {y : α → Cmd β} {val : α → Word → Prop}
    {Q : β → State → Host.Outcome State Fault Refusal → Prop} {h : State → Host.Outcome State Fault Refusal}
    (hx : Comes x val o u) (hy : ∀ v t, x u = .ok v t → t.faulted = false → t.mode = .decode → ∀ a b w, val v w →
      ComesTo Q (y v) (h (t.regs a b w)) t) : ComesTo Q (x >>= y) (ifRuns o h) u := by
  unfold Comes ComesTo at hx
  unfold ComesTo
  rw [bind_run]
  split at hx
  · rename_i v t e
    obtain ⟨hf, hm, a, b, w, hw, rfl⟩ := hx
    rw [ifRuns_runs (t := t.regs a b w) hf, e]
    exact hy v t e hf hm a b w hw
  · rename_i c t e
    obtain ⟨a, b, r, rfl⟩ := hx
    rw [e]
    exact ⟨a, b, r, rfl⟩
  · rename_i f t e
    rw [hx, e]; rfl

theorem ComesEnd.get {y : State → Cmd Unit} (h : ComesEnd (y u) o u) : ComesEnd ((get : Cmd State) >>= y) o u := h

theorem ComesEnd.modify {g : State → State} {y : Unit → Cmd Unit} (h : ComesEnd (y ()) o (g u))  :
    ComesEnd ((modify g : Cmd Unit) >>= y) o u := h

theorem ComesEnd.check {ok : Bool} {c : Cause} {y : Unit → Cmd Unit} (h : ok = true → ComesEnd (y ()) o u)
    (h' : ok = false → ∃ a b r, o = .next ((u.regs a b r).takeFault c)) : ComesEnd (check ok c >>= y) o u := by
  cases ok with
  | true => exact h rfl
  | false => exact h' rfl

/-- A value computed from another, with the word to go with it. -/
theorem Comes.map {x : Cmd α} {val : α → Word → Prop} {val' : β → Word → Prop} (hx : Comes x val o u) (g : α → β)
    (hg : ∀ v w, val v w → val' (g v) w) : Comes (x >>= fun v => pure (g v)) val' o u := by
  unfold Comes ComesTo at hx ⊢
  rw [bind_run]
  split at hx
  · rename_i e
    obtain ⟨hf, hm, a, b, w, hw, rfl⟩ := hx
    rw [e]
    exact ⟨hf, hm, a, b, w, hg _ _ hw, rfl⟩
  · rename_i e
    rw [e]; exact hx
  · rename_i e
    rw [e]; exact hx

/-- A number in RES raised by `n`. -/
theorem comes_addRes {n v : Nat} {a b w : Word} (hf : u.faulted = false) (hm : u.mode = .decode) (hw : IsNumber v w)
    {y : β} {val : β → Word → Prop} (hy : val y (BitVec.ofNat 32 (v + n))) :
    Comes (pure y) val (addRes n (u.regs a b w)) u := by
  refine ⟨hf, hm, a, b, _, hy, ?_⟩
  have : w = BitVec.ofNat 32 v := hw
  rw [this, BitVec.ofNat_add]
  rfl

/-! ## The commands -/

theorem decApart_regs (a b r : Word) : DecApart fun s => s.regs a b r :=
  ⟨fun _ => ⟨rfl, rfl, rfl, rfl⟩, fun _ _ => rfl, fun _ _ => rfl, fun _ _ => rfl⟩

theorem cellsApart_regs (a b r : Word) : CellsApart fun s => s.regs a b r := ⟨fun _ => rfl, fun _ _ => rfl⟩

theorem windowApart_regs (a b r : Word) : WindowApart fun s => s.regs a b r :=
  ⟨fun _ => ⟨rfl, rfl, rfl, rfl, rfl⟩, fun _ _ => rfl, fun _ _ => rfl⟩

/-- A command's body: a decision or run of them whose value goes to RES. -/
theorem comes_conclude {x : Cmd α} {toRes : α → Word} {val : α → Word → Prop} {a b r : Word}
    (hx : Commutes (fun s => s.regs a b r) x x u) (hk : Keeps (Same State.lessDecCells) x) (hf : u.faulted = false)
    (hm : u.mode = .decode) (hv : ∀ v, val v (toRes v)) :
    Comes x val (conclude ((x >>= fun v => (modify fun t => t.withRes (toRes v) : Cmd Unit)) (u.regs a b r))) u := by
  have fr := hk u
  unfold Ends at fr
  unfold Commutes at hx
  unfold Comes ComesTo
  rw [bind_run, hx]
  split at fr
  · rename_i v t e
    rw [e]
    have h1 := congrArg State.faulted fr
    have h2 := congrArg State.mode fr
    exact ⟨Eq.trans h1 hf, Eq.trans h2 hm, a, b, toRes v, hv v, rfl⟩
  · rename_i e' t e
    rw [e]
    cases e' with
    | raise c => exact ⟨a, b, r, rfl⟩
    | stuck f => rfl

theorem cellValid_lt {a : Nat} (h : cellValid a = true) : a < 2 ^ 32 := by
  rw [cellValid_iff] at h; omega

theorem exec_inDecode {body : Cmd Unit} {s : State} (hf : s.faulted = false) (hm : s.mode = .decode) :
    issue [.decode] body s = conclude (body s) := issue_ready hf (by rw [hm]; rfl)

variable {x y r : Word}

theorem comes_decCell {a : Nat} (ha : cellValid a = true) (hf : u.faulted = false) (hm : u.mode = .decode) :
    Comes (decCell a) IsBit (runAt .rcDecBit a (u.regs x y r)) u := by
  have e : (BitVec.ofNat 32 a).toNat = a := by rw [BitVec.toNat_ofNat, Nat.mod_eq_of_lt (cellValid_lt ha)]
  have := comes_conclude (toRes := fun b : Bool => BitVec.ofNat 32 b.toNat) (val := IsBit)
    ((decApart_regs (BitVec.ofNat 32 a) y r).cellDecision (cellsApart_regs _ _ _) a u)
    (sameDecCells.cellDecision trivial) hf hm fun _ => rfl
  refine Eq.mp (congrArg (fun o => Comes _ _ o u) ?_) this
  refine Eq.symm ((exec_inDecode (s := u.regs (BitVec.ofNat 32 a) y r) hf hm).trans ?_)
  rw [bind_run, cellOperand_run (by change cellValid (BitVec.ofNat 32 a).toNat = true; rw [e]; exact ha)]
  change conclude ((decCell (BitVec.ofNat 32 a).toNat >>= _) _) = _
  rw [e]

theorem treeBase_run {base n : Nat} (hb : base < 2 ^ 32) (hl : treeOperandsLegal n base 0 = true) :
    treeBaseOperand n (u.regs (BitVec.ofNat 32 base) y r) = .ok base (u.regs (BitVec.ofNat 32 base) y r) := by
  have e : (u.regs (BitVec.ofNat 32 base) y r).arg0.toNat = base := by
    change (BitVec.ofNat 32 base).toNat = base
    rw [BitVec.toNat_ofNat, Nat.mod_eq_of_lt hb]
  rw [treeBaseOperand_run (by rw [e]; exact hl), e]

theorem comes_tree {base n : Nat} (hb : base < 2 ^ 32) (hl : treeOperandsLegal n base 0 = true) (hf : u.faulted = false)
    (hm : u.mode = .decode) : Comes (treeDecode base n) IsNumber (runAt (.rcDecTree n) base (u.regs x y r)) u := by
  have := comes_conclude (toRes := fun v => BitVec.ofNat 32 v) (val := IsNumber)
    (Commutes.bind ((decApart_regs (BitVec.ofNat 32 base) y r).treeLoop (cellsApart_regs _ _ _) base n 1 u)
      fun m t => Commutes.pure (m - 2 ^ n) t)
    (sameDecCells.tree (base := base) (n := n) fun _ _ _ => trivial) hf hm fun _ => rfl
  refine Eq.mp (congrArg (fun o => Comes _ _ o u) ?_) this
  refine Eq.symm ((exec_inDecode (s := u.regs (BitVec.ofNat 32 base) y r) hf hm).trans ?_)
  rw [bind_run, treeBase_run hb hl]
  rfl

theorem comes_rtree {base n : Nat} (hb : base < 2 ^ 32) (hl : treeOperandsLegal n base 0 = true) (hf : u.faulted = false)
    (hm : u.mode = .decode) : Comes (rtreeDecode base n) IsNumber (runAt (.rcDecRtree n) base (u.regs x y r)) u := by
  have := comes_conclude (toRes := fun v => BitVec.ofNat 32 v) (val := IsNumber)
    ((decApart_regs (BitVec.ofNat 32 base) y r).rtreeLoop (cellsApart_regs _ _ _) base n 0 1 0 u)
    (sameDecCells.rtree (base := base) (n := n) fun _ _ _ => trivial) hf hm fun _ => rfl
  refine Eq.mp (congrArg (fun o => Comes _ _ o u) ?_) this
  refine Eq.symm ((exec_inDecode (s := u.regs (BitVec.ofNat 32 base) y r) hf hm).trans ?_)
  rw [bind_run, treeBase_run hb hl]
  rfl

theorem comes_direct {n : Nat} (h1 : 1 ≤ n) (h2 : n ≤ 32) (hf : u.faulted = false) (hm : u.mode = .decode) :
    Comes (decDirect n) IsNumber (exec (.rcDecDirect n) (u.regs x y r)) u := by
  have := comes_conclude (toRes := fun v => BitVec.ofNat 32 v) (val := IsNumber)
    ((decApart_regs x y r).directLoop n 0 u) (sameDecCells.direct n) hf hm fun _ => rfl
  refine Eq.mp (congrArg (fun o => Comes _ _ o u) ?_) this
  refine Eq.symm ((exec_inDecode (s := u.regs x y r) hf hm).trans ?_)
  have : directCountLegal n = true := by simp [directCountLegal, h1, h2]
  rw [bind_run, this]
  rfl

theorem IsBit.zero {b : Bool} {w : Word} (h : IsBit b w) : w = 0 ↔ b = false := by
  subst h
  cases b <;> decide

theorem IsBit.toNat {b : Bool} {w : Word} (h : IsBit b w) : w.toNat = b.toNat := by
  subst h
  cases b <;> rfl

/-! ## Lengths and distances (R224, R225) -/

/-- A tree's walk ends at a node below the one it starts from. -/
theorem treeDecodeLoop_bounds (base : Nat) : ∀ k m s,
    Ends (treeDecodeLoop base k m) s (fun v _ => m * 2 ^ k ≤ v ∧ v < (m + 1) * 2 ^ k) (fun _ _ => True)
  | 0, m, s => ⟨by simp, by simp⟩
  | k + 1, m, s => by
    unfold treeDecodeLoop
    rw [ends_bind]
    refine Ends.mono (Q := fun _ _ => True) (E := fun _ _ => True) (by unfold Ends; cases decCell (base + m) s <;> trivial)
      (fun b t _ => ?_) fun _ _ _ => trivial
    refine (treeDecodeLoop_bounds base k (2 * m + b.toNat) t).mono (fun v _ h => ?_) fun _ _ _ => trivial
    have hb := Bool.toNat_le b
    have e1 : (2 * m + b.toNat) * 2 ^ k = m * 2 ^ (k + 1) + b.toNat * 2 ^ k := by ring
    have e2 : (2 * m + b.toNat + 1) * 2 ^ k = m * 2 ^ (k + 1) + b.toNat * 2 ^ k + 2 ^ k := by ring
    have e3 : (m + 1) * 2 ^ (k + 1) = m * 2 ^ (k + 1) + 2 ^ k + 2 ^ k := by ring
    have : b.toNat * 2 ^ k ≤ 1 * 2 ^ k := Nat.mul_le_mul_right _ hb
    omega

theorem treeDecode_lt {base n v : Nat} {t : State} (h : treeDecode base n u = .ok v t) : v < 2 ^ n := by
  have b : Ends (treeDecode base n) u (fun v _ => v < 2 ^ n) (fun _ _ => True) := by
    unfold treeDecode
    rw [ends_bind]
    refine (treeDecodeLoop_bounds base n 1 u).mono (fun m _ hm => ?_) fun _ _ _ => trivial
    rw [ends_pure]; omega
  exact (ends_of_run h).1 b

/-- The length field (R224). -/
theorem comes_length {l ps : Nat} (hl : l = 0x340 ∨ l = 0x542) (hps : ps < 16) (hf : u.faulted = false)
    (hm : u.mode = .decode) : Comes (lenDecode l ps) IsNumber (lengthRun l ps (u.regs x y r)) u := by
  have hv : ∀ z, z < 0x202 → cellValid (l + z) = true := fun z hz => by rw [cellValid_iff]; omega
  have leg : ∀ k n, 1 ≤ n → n ≤ 8 → k + 2 ^ n ≤ 0x202 → treeOperandsLegal n (l + k) 0 = true := fun k n h1 h2 h3 =>
    treeOperandsLegal_iff.2 ⟨h1, h2, Nat.two_pow_pos n, fun z h4 h5 => by rw [add_assoc]; exact hv _ (by omega)⟩
  have leg' : ∀ k, k + 8 * ps + 8 ≤ 0x202 → treeOperandsLegal 3 (l + k + 8 * ps) 0 = true := fun k hk => by
    rw [add_assoc]; exact leg _ 3 (by omega) (by omega) (by omega)
  unfold lenDecode lengthRun
  refine (comes_decCell (hv 0 (by omega)) hf hm).bind fun c t _ hf hm a b w hw => ?_
  have hz : (t.regs a b w).res = 0 ↔ c = false := hw.zero
  cases c with
  | false =>
    rw [if_pos (hz.2 rfl)]
    exact comes_tree (by omega) (leg' 2 (by omega)) hf hm
  | true =>
    rw [if_pos rfl, if_neg (show ¬ (t.regs a b w).res = 0 by rw [hz]; decide)]
    refine (comes_decCell (hv 1 (by omega)) hf hm).bind fun c t _ hf hm a b w hw => ?_
    have hz : (t.regs a b w).res = 0 ↔ c = false := hw.zero
    cases c with
    | false =>
      rw [if_pos (hz.2 rfl)]
      refine (comes_tree (by omega) (leg' 0x082 (by omega)) hf hm).bind fun v t _ hf hm a b w hw => ?_
      exact comes_addRes hf hm hw (by rw [Nat.add_comm]; rfl)
    | true =>
      rw [if_pos rfl, if_neg (show ¬ (t.regs a b w).res = 0 by rw [hz]; decide)]
      refine (comes_tree (by omega) (leg 0x102 8 (by omega) (by omega) (by omega)) hf hm).bind
        fun v t _ hf hm a b w hw => ?_
      exact comes_addRes hf hm hw (by rw [Nat.add_comm]; rfl)

theorem lenDecode_le {l ps i : Nat} {t : State} (h : lenDecode l ps u = .ok i t) : i ≤ 271 := by
  unfold lenDecode at h
  rw [bind_run] at h
  split at h
  · split at h
    · rw [bind_run] at h
      split at h
      · split at h
        all_goals
          rw [bind_run] at h
          split at h
          · rename_i e
            have := treeDecode_lt e
            cases h
            omega
          · cases h
      · cases h
    · have := treeDecode_lt h
      omega
  · cases h

theorem slotBits_eq (slot : Nat) : slotBits slot = slot / 2 - 1 := by simp [slotBits, Nat.shiftRight_eq_div_pow]

theorem slotBase_eq (slot : Nat) : slotBase slot = slotStart slot := by
  unfold slotBase slotStart
  rw [slotBits_eq, Nat.shiftLeft_eq, show slot &&& 1 = slot % 2 from Nat.and_one_is_mod slot]
  have : slot % 2 = 0 ∨ slot % 2 = 1 := by omega
  rcases this with h | h <;> rw [h] <;> rfl

theorem isNumber_toNat {v : Nat} {w : Word} (h : IsNumber v w) (hv : v < 2 ^ 32) : w.toNat = v := by
  rw [h, BitVec.toNat_ofNat, Nat.mod_eq_of_lt hv]

/-- RES holds the word. -/
def IsWord (d : Word) (w : Word) : Prop := w = d

/-- The distance field (R225). -/
theorem comes_distance (i : Nat) (hf : u.faulted = false) (hm : u.mode = .decode) :
    Comes (distDecode i) IsWord (distanceRun i (u.regs x y r)) u := by
  have hv : ∀ z, 0x1B0 ≤ z → z < 0x323 ∨ 0x330 ≤ z ∧ z < 0x744 → cellValid z = true := fun z h1 h2 => by
    rw [cellValid_iff]; omega
  have hmin : min i 3 ≤ 3 := Nat.min_le_right _ _
  unfold distDecode distanceRun
  refine (comes_tree (by unfold posSlotBase lenState; omega) (treeOperandsLegal_iff.2 ⟨by omega, by omega, by omega,
    fun z h1 h2 => ?_⟩) hf hm).bind fun slot t e hf hm a b w hw => ?_
  · unfold posSlotBase lenState
    exact hv _ (by omega) (by omega)
  have hs : slot < 64 := treeDecode_lt e
  have hwn : w.toNat = slot := isNumber_toNat hw (by omega)
  have hres : (t.regs a b w).res.toNat = slot := hwn
  rw [hres, slotBase_eq slot, slotBits_eq]
  split
  · exact ⟨hf, hm, a, b, w, hw, rfl⟩
  split
  · refine (comes_rtree ?_ ?_ hf hm).bind fun v t _ hf hm a b w hw => ?_
    · have : slotStart slot < 2 ^ 20 := by unfold slotStart; interval_cases slot <;> omega
      unfold specPosBase; omega
    · refine treeOperandsLegal_iff.2 ⟨by omega, by omega, Nat.two_pow_pos _, fun z h1 h2 => ?_⟩
      refine hv _ ?_ (.inl ?_) <;> interval_cases slot <;> simp [specPosBase, slotStart] at h2 ⊢ <;> omega
    · exact comes_addRes hf hm hw (by rw [Nat.add_comm]; rfl)
  · rw [show slot / 2 - 1 - 4 = slot / 2 - 5 by omega]
    refine (comes_direct (by omega) (by omega) hf hm).bind fun high t _ hf hm a b w hw => ?_
    have hh : (t.regs a b w).res.toNat = high % 2 ^ 32 := by
      have hw : w = BitVec.ofNat 32 high := hw
      change w.toNat = _
      rw [hw, BitVec.toNat_ofNat]
    refine (comes_rtree (by unfold alignBase; omega) (treeOperandsLegal_iff.2 ⟨by omega, by omega, by omega,
      fun z h1 h2 => hv _ (by unfold alignBase; omega) (.inr (by unfold alignBase; omega))⟩) hf hm).bind
        fun low t _ hf hm a b w hw => ?_
    refine comes_addRes hf hm hw ?_
    rw [hh]
    change BitVec.ofNat 32 _ = BitVec.ofNat 32 _
    apply BitVec.eq_of_toNat_eq
    rw [BitVec.toNat_ofNat, BitVec.toNat_ofNat, Nat.shiftLeft_eq]
    omega

/-! ## Literals (R223) -/

/-- RES holds the number of a literal's last node less 256. -/
def IsNode (sym : Nat) (w : Word) : Prop := w = BitVec.ofNat 32 (sym - 0x100)

theorem literalPlain_eq (lb : Nat) : ∀ k sym, literalPlain lb k sym = treeDecodeLoop lb k sym
  | 0, _ => rfl
  | k + 1, sym => by
    unfold literalPlain treeDecodeLoop
    exact congrArg _ (funext fun _ => literalPlain_eq lb k _)

theorem sym_next {sym k : Nat} (b : Bool) (h : (sym + 1) * 2 ^ (k + 1) ≤ 0x200) :
    (2 * sym + b.toNat + 1) * 2 ^ k ≤ 0x200 := by
  have hb : b.toNat ≤ 1 := Bool.toNat_le b
  have : (2 * sym + b.toNat + 1) * 2 ^ k ≤ (2 * sym + 2) * 2 ^ k := Nat.mul_le_mul_right _ (by omega)
  have e : (2 * sym + 2) * 2 ^ k = (sym + 1) * 2 ^ (k + 1) := by ring
  omega

theorem sym_here {sym k : Nat} (h : (sym + 1) * 2 ^ (k + 1) ≤ 0x200) : sym < 0x100 := by
  have := walk_here sym k
  omega

theorem comes_plain {lb : Nat} (hv : ∀ z, z < 0x300 → cellValid (lb + z) = true) : ∀ (k sym : Nat) {u : State}
    {x y r : Word}, (sym + 1) * 2 ^ k ≤ 0x200 → u.faulted = false → u.mode = .decode →
    Comes (literalPlain lb k sym) IsNode (literalWalk lb k sym (u.regs x y r)) u
  | 0, _, _, x, y, _, _, hf, hm => ⟨hf, hm, x, y, _, rfl, rfl⟩
  | k + 1, sym, _, _, _, _, hs, hf, hm => by
    refine (comes_decCell (hv sym (by have := sym_here hs; omega)) hf hm).bind fun c t _ hf hm a b w hw => ?_
    rw [show (t.regs a b w).res.toNat = c.toNat from hw.toNat]
    exact comes_plain hv k _ (sym_next c hs) hf hm

/-- What is left of the match byte, shifted up: its bit 7 is bit `k - 1` of the byte. -/
def LeftOf (mb : Byte) (k left : Nat) : Prop := ∀ i < k, left.testBit (7 - i) = mb.getLsbD (k - 1 - i)

theorem LeftOf.next {mb : Byte} {k left : Nat} (hk : k + 1 ≤ 8) (h : LeftOf mb (k + 1) left) :
    LeftOf mb k (left <<< 1 &&& 0xFF) := by
  intro i hi
  have e := h (i + 1) (by omega)
  rw [show k + 1 - 1 - (i + 1) = k - 1 - i by omega] at e
  rw [← e, Nat.testBit_and, Nat.testBit_shiftLeft, show (0xFF : Nat) = 2 ^ 8 - 1 from rfl, Nat.testBit_two_pow_sub_one]
  have h1 : 7 - i ≥ 1 := by omega
  have h2 : 7 - i < 8 := by omega
  rw [show 7 - (i + 1) = 7 - i - 1 by omega]
  simp [h1, h2]

theorem comes_matched {lb : Nat} (hv : ∀ z, z < 0x300 → cellValid (lb + z) = true) (mb : Byte) : ∀ (k left sym : Nat)
    {u : State} {x y r : Word}, k ≤ 8 → LeftOf mb k left → (sym + 1) * 2 ^ k ≤ 0x200 → u.faulted = false →
    u.mode = .decode → Comes (literalMatched lb k left sym) IsNode (matchedWalk lb mb k sym (u.regs x y r)) u
  | 0, _, _, _, x, y, _, _, _, _, hf, hm => ⟨hf, hm, x, y, _, rfl, rfl⟩
  | k + 1, left, sym, _, x, y, r, hk, hl, hs, hf, hm => by
    have hsym := sym_here hs
    have h7 : left.testBit 7 = mb.getLsbD k := by simpa using hl 0 (by omega)
    have hcell : lb + (1 + (left.testBit 7).toNat) <<< 8 + sym = lb + (if mb.getLsbD k then 0x200 else 0x100) + sym := by
      rw [h7]; cases mb.getLsbD k <;> rfl
    unfold literalMatched matchedWalk
    dsimp only
    rw [hcell]
    refine (comes_decCell (by rw [add_assoc]; exact hv _ (by split <;> omega)) hf hm).bind
      fun c t _ hf hm a b w hw => ?_
    rw [show (t.regs a b w).res.toNat = c.toNat from hw.toNat]
    rw [h7]
    have hn := sym_next c hs
    by_cases hc : c = mb.getLsbD k
    · rw [if_neg (by simp [hc]), if_pos (by rw [hc])]
      exact comes_matched hv mb k _ _ (by omega) (hl.next hk) hn hf hm
    · rw [if_pos (by simpa using hc), if_neg (by revert hc; cases c <;> cases mb.getLsbD k <;> simp)]
      exact comes_plain hv k _ hn hf hm

/-- RES holds the byte. -/
def IsByte (b : Byte) (w : Word) : Prop := w.setWidth 8 = b

theorem IsNode.byte {sym : Nat} {w : Word} (h : IsNode sym w) : IsByte (BitVec.ofNat 8 (sym - 0x100)) w := by
  have h : w = BitVec.ofNat 32 (sym - 0x100) := h
  unfold IsByte
  rw [h]
  apply BitVec.eq_of_toNat_eq
  simp only [BitVec.toNat_setWidth, BitVec.toNat_ofNat]
  omega

/-! ## Copies (R227) -/

theorem execDwCopy_run {d n : Nat} (hd : d < 2 ^ 32) (hn : n < 2 ^ 32) (hf : u.faulted = false) (hm : u.mode = .decode) :
    exec .dwCopy (u.regs (BitVec.ofNat 32 d) (BitVec.ofNat 32 n) r) =
      conclude (mapState (fun s => s.regs (BitVec.ofNat 32 d) (BitVec.ofNat 32 n) r) (copyMatch d n u)) := by
  have e : ∀ k : Nat, k < 2 ^ 32 → (BitVec.ofNat 32 k).toNat = k := fun k hk => by
    rw [BitVec.toNat_ofNat, Nat.mod_eq_of_lt hk]
  have h1 : exec .dwCopy (u.regs (BitVec.ofNat 32 d) (BitVec.ofNat 32 n) r) = conclude ((do
      let t ← get
      copyMatch t.arg0.toNat t.arg1.toNat : Cmd Unit) (u.regs (BitVec.ofNat 32 d) (BitVec.ofNat 32 n) r)) :=
    issue_ready (s := u.regs (BitVec.ofNat 32 d) (BitVec.ofNat 32 n) r) hf
      (by change [Mode.idle, .encode, .decode].contains u.mode = true; rw [hm]; rfl)
  have h2 : Commutes _ (copyMatch d n) (copyMatch d n) u :=
    (windowApart_regs (BitVec.ofNat 32 d) (BitVec.ofNat 32 n) r).copy d n u
  rw [h1, bind_run, get_run]
  change conclude (copyMatch (BitVec.ofNat 32 d).toNat (BitVec.ofNat 32 n).toNat _) = _
  rw [e d hd, e n hn, h2]

/-- A copy at REP0 + 1 and the kind in RES. -/
theorem comes_copy (n : Nat) (hn : n < 2 ^ 32) (k : TokenKind) (hf : u.faulted = false) (hm : u.mode = .decode) :
    ComesEnd (do copyMatch (u.rep0.toNat + 1) n; report k) (copyRun n k.code (u.regs x y r)) u := by
  have hkeep := keeps_copyMatch (R := fun s t => t.lessWindow = s.lessWindow) (fun _ => rfl)
    (fun _ _ _ h h' => h'.trans h) (fun s b => lessWindow_appended s b) (u.rep0.toNat + 1) n u
  have hlim : windowLimit u < 2 ^ 32 := by
    have := u.dictSize.isLt
    have hmin : Config.minDict < 2 ^ 32 := by decide
    unfold windowLimit windowCap
    omega
  rcases checkDistance_cases (u.rep0.toNat + 1) u with ⟨hr, _⟩ | ⟨h, e⟩ | ⟨_, h1, h2, e⟩
  · have hc : copyRun n k.code (u.regs x y r) = ifRuns
        (exec .dwCopy (u.regs (BitVec.ofNat 32 (u.rep0.toNat + 1)) (BitVec.ofNat 32 n) r))
        fun t => .next (t.withRes k.code) := by
      have h1 : ¬ posOf (u.regs x y r) < (u.regs x y r).rep0.toNat + 1 := by
        have := hr.2.1
        change ¬ posOf u < u.rep0.toNat + 1
        omega
      have h2 : ¬ windowLimit (u.regs x y r) < (u.regs x y r).rep0.toNat + 1 := by
        have := hr.2.2
        change ¬ windowLimit u < u.rep0.toNat + 1
        omega
      unfold copyRun
      rw [if_neg h1, if_neg h2]
      rfl
    have := execDwCopy_run (r := r) (d := u.rep0.toNat + 1) (n := n) (by have := hr.2.2; omega) hn hf hm
    unfold ComesEnd ComesTo
    rw [hc, this, bind_run]
    unfold Ends at hkeep
    cases hc : copyMatch (u.rep0.toNat + 1) n u with
    | ok v t =>
      rw [hc] at hkeep
      have h1 := congrArg State.faulted hkeep
      have h1 : t.faulted = false := Eq.trans h1 hf
      exact ⟨_, _, ifRuns_runs (t := t.regs _ _ r) h1⟩
    | error e t =>
      cases e with
      | raise c => exact ⟨_, _, r, rfl⟩
      | stuck f => rfl
  · have h : posOf (u.regs x y r) < (u.regs x y r).rep0.toNat + 1 := by
      change posOf u < u.rep0.toNat + 1
      omega
    unfold ComesEnd ComesTo copyRun
    rw [if_pos h]
    simp only [copyMatch, bind_run, e]
    exact ⟨x, y, r, rfl⟩
  · have h : ¬ posOf (u.regs x y r) < (u.regs x y r).rep0.toNat + 1 := by
      change ¬ posOf u < u.rep0.toNat + 1
      omega
    unfold ComesEnd ComesTo copyRun
    rw [if_neg h, if_pos (show windowLimit (u.regs x y r) < (u.regs x y r).rep0.toNat + 1 from h2)]
    simp only [copyMatch, bind_run, e]
    exact ⟨x, y, r, rfl⟩

/-- The end of a match or rep token: its size check, the copy, RES (R220, R227). -/
theorem comes_finish {i : Nat} (hi : i ≤ 271) (k : TokenKind) (hf : u.faulted = false) (hm : u.mode = .decode) :
    ComesEnd (finishMatch i k) (sizedCopyRun (i + 2) k.code (u.regs x y r)) u := by
  have hk : knownSize (u.regs x y r) = knownSize u := rfl
  have hp : posOf (u.regs x y r) = posOf u := rfl
  have hcopy := comes_copy (x := x) (y := y) (r := r) (i + 2) (by omega) k hf hm
  unfold finishMatch sizedCopyRun
  rw [hk, hp]
  refine ComesEnd.get (ComesEnd.check (fun h => ?_) fun h => ?_)
  · rw [if_neg]
    · exact hcopy
    · revert h
      cases knownSize u <;> simp
  · rw [if_pos]
    · exact ⟨x, y, r, rfl⟩
    · revert h
      cases knownSize u <;> simp

/-! ## Tokens (R220) -/

/-- The length of a rep token, STATE, and the copy. -/
theorem comes_repLength {st ps : Nat} (hps : ps < 16) (k : TokenKind) (hf : u.faulted = false) (hm : u.mode = .decode) :
    ComesEnd (decRepLength st ps k) (repLengthRun st ps k.code (u.regs x y r)) u := by
  refine (comes_length (.inr rfl) hps hf hm).bind fun i t e hf hm a b w hw => ?_
  have hi := lenDecode_le e
  have hw : (t.regs a b w).res.toNat = i := isNumber_toNat hw (by omega)
  have hfsm : { t.regs a b w with fsm := if st < 7 then 8 else 11 } = (t.withFsm (repNext st)).regs a b w := by
    unfold repNext State.withFsm
    split <;> rfl
  rw [hw, hfsm]
  exact comes_finish (u := t.withFsm (repNext st)) hi k hf hm

/-- A REP1, REP2 or REP3 token after IS_REP_G0 = 1 (R217). -/
theorem comes_olderRep {st ps : Nat} (hst : st ≤ 11) (hps : ps < 16) (hf : u.faulted = false) (hm : u.mode = .decode) :
    ComesEnd (decOlderRep st ps) (ifRuns (runAt .rcDecBit (0x0D8 + st) (u.regs x y r)) fun u =>
      if u.res = 0 then repLengthRun st ps 5 { u with rep0 := u.rep1, rep1 := u.rep0 }
      else ifRuns (runAt .rcDecBit (0x0E4 + st) u) fun v =>
        if v.res = 0 then repLengthRun st ps 6 { v with rep0 := v.rep2, rep1 := v.rep0, rep2 := v.rep1 }
        else repLengthRun st ps 7 { v with rep0 := v.rep3, rep1 := v.rep0, rep2 := v.rep1, rep3 := v.rep2 }) u := by
  have hv : ∀ z, 0x0C0 ≤ z → z < 0x1B0 → cellValid z = true := fun z h1 h2 => by rw [cellValid_iff]; omega
  refine (comes_decCell (hv _ (by unfold isRepG1Cell; omega) (by unfold isRepG1Cell; omega)) hf hm).bind fun g1 t _ hf hm a b w hw => ?_
  have hz : (t.regs a b w).res = 0 ↔ g1 = false := hw.zero
  cases g1 with
  | false =>
    rw [if_pos (hz.2 rfl)]
    exact comes_repLength (u := frontRep1 t) hps .rep1 hf hm
  | true =>
    rw [if_pos rfl, if_neg (show ¬ (t.regs a b w).res = 0 by rw [hz]; decide)]
    refine (comes_decCell (hv _ (by unfold isRepG2Cell; omega) (by unfold isRepG2Cell; omega)) hf hm).bind fun g2 t _ hf hm a b w hw => ?_
    have hz : (t.regs a b w).res = 0 ↔ g2 = false := hw.zero
    cases g2 with
    | false =>
      rw [if_pos (hz.2 rfl)]
      exact comes_repLength (u := frontRep2 t) hps .rep2 hf hm
    | true =>
      rw [if_pos rfl, if_neg (show ¬ (t.regs a b w).res = 0 by rw [hz]; decide)]
      exact comes_repLength (u := frontRep3 t) hps .rep3 hf hm

/-- One byte copied is one byte read and appended. -/
theorem copyOne_eq (d : Nat) : copyMatch d 1 = (do let b ← byteAt d; windowAppend b) := by
  funext s
  unfold copyMatch byteAt
  rw [bind_run, bind_run, bind_run]
  cases checkDistance d s with
  | error e t => rfl
  | ok v t =>
    dsimp only
    unfold repeatCmd repeatCmd copyByte
    rw [bind_run, bind_run, get_run, bind_run, get_run]
    dsimp only
    change _ = windowAppend (windowByte t d) t
    cases windowAppend (windowByte t d) t <;> rfl

/-- A rep token after IS_REP = 1. -/
theorem comes_rep {st ps : Nat} (hst : st ≤ 11) (hps : ps < 16) (hf : u.faulted = false) (hm : u.mode = .decode) :
    ComesEnd (decRepToken st ps) (repRun st ps (u.regs x y r)) u := by
  have hv : ∀ z, 0x0C0 ≤ z → z < 0x1B0 → cellValid z = true := fun z h1 h2 => by rw [cellValid_iff]; omega
  have hp : posOf (u.regs x y r) = posOf u := rfl
  unfold decRepToken repRun
  rw [hp]
  refine ComesEnd.get (ComesEnd.check (fun h0 => ?_) fun h0 => ?_)
  swap
  · rw [if_pos (by simpa using h0)]
    exact ⟨x, y, r, rfl⟩
  rw [if_neg (by simpa using h0)]
  refine (comes_decCell (hv _ (by unfold isRepG0Cell; omega) (by unfold isRepG0Cell; omega)) hf hm).bind
    fun g0 t _ hf hm a b w hw => ?_
  have hz : (t.regs a b w).res = 0 ↔ g0 = false := hw.zero
  cases g0 with
  | true =>
    rw [if_pos rfl, if_neg (show ¬ (t.regs a b w).res = 0 by rw [hz]; decide)]
    exact comes_olderRep hst hps hf hm
  | false =>
    rw [if_neg (by decide), if_pos (hz.2 rfl)]
    refine (comes_decCell (hv _ (by unfold isRep0LongCell; omega) (by unfold isRep0LongCell; omega)) hf hm).bind
      fun long t _ hf hm a b w hw => ?_
    have hz : (t.regs a b w).res = 0 ↔ long = false := hw.zero
    cases long with
    | true =>
      rw [if_pos rfl, if_neg (show ¬ (t.regs a b w).res = 0 by rw [hz]; decide)]
      exact comes_repLength hps .rep0 hf hm
    | false =>
      rw [if_neg (by decide), if_pos (hz.2 rfl)]
      have hfsm : { t.regs a b w with fsm := if st < 7 then 9 else 11 } = (t.withFsm (shortRepNext st)).regs a b w := by
        unfold shortRepNext State.withFsm
        split <;> rfl
      rw [hfsm]
      have hx : decShortRep st = (do
          setFsm (shortRepNext st)
          let s ← get
          copyMatch (s.rep0.toNat + 1) 1
          report .shortRep) := by
        unfold decShortRep
        refine congrArg _ (funext fun _ => congrArg _ (funext fun s => ?_))
        rw [copyOne_eq, bind_assoc]
      rw [hx]
      exact comes_copy (u := t.withFsm (shortRepNext st)) 1 (by omega) .shortRep hf hm

/-- The end marker (R221). -/
theorem comes_marker : ComesEnd endMarker (endMarkerRun (u.regs x y r)) u := by
  have hks : knownSize (u.regs x y r) = knownSize u := rfl
  have hk : knownSize u.sawEos = knownSize u := rfl
  unfold endMarker endMarkerRun
  rw [hks]
  refine ComesEnd.modify (ComesEnd.get (ComesEnd.check (fun h1 => ?_) fun h1 => ?_))
  swap
  · rw [if_pos (by rw [hk] at h1; intro h; rw [h] at h1; cases h1)]
    exact ⟨x, y, r, rfl⟩
  rw [if_neg (by rw [hk] at h1; simpa using h1)]
  refine ComesEnd.check (fun h2 => ?_) fun h2 => ?_
  swap
  · rw [if_pos (show (u.regs x y r).code ≠ 0 from fun h => by simp [show u.code = 0 from h] at h2)]
    exact ⟨x, y, r, rfl⟩
  rw [if_neg (show ¬ (u.regs x y r).code ≠ 0 from not_not.2 (show u.code = 0 by simpa using h2))]
  have hp : eosTrailingPolicy u.sawEos.policy = u.policy.getLsbD 12 := rfl
  have hs : inAtEnd u.sawEos = u.source.isEmpty := rfl
  rw [hp, hs]
  refine ComesEnd.check (fun h3 => ?_) fun h3 => ?_
  · rw [if_neg (show ¬ ((u.regs x y r).policy.getLsbD 12 = true ∧ (u.regs x y r).source ≠ []) from fun ⟨h4, h5⟩ => by
      rw [show u.policy.getLsbD 12 = true from h4] at h3; exact h5 (show u.source = [] by simpa using h3))]
    exact ⟨x, y, rfl⟩
  · rw [if_pos (show (u.regs x y r).policy.getLsbD 12 = true ∧ (u.regs x y r).source ≠ [] from
      show u.policy.getLsbD 12 = true ∧ u.source ≠ [] by simpa using h3)]
    exact ⟨x, y, r, rfl⟩

/-- A MATCH token after IS_REP = 0 (R216). -/
theorem comes_match {st ps : Nat} (hps : ps < 16) (hf : u.faulted = false) (hm : u.mode = .decode) :
    ComesEnd (decMatchToken st ps) (matchRun st ps (u.regs x y r)) u := by
  have hreps : { u.regs x y r with rep1 := (u.regs x y r).rep0, rep2 := (u.regs x y r).rep1, rep3 := (u.regs x y r).rep2 } =
      (u.withReps u.rep0 u.rep0 u.rep1 u.rep2).regs x y r := rfl
  unfold decMatchToken matchRun
  rw [hreps]
  have hlen := comes_length (u := u.withReps u.rep0 u.rep0 u.rep1 u.rep2) (x := x) (y := y) (r := r) (l := lenBase)
    (.inl rfl) hps hf hm
  refine ComesEnd.modify (Comes.bind hlen fun i t e hf hm a b w hw => ?_)
  have hi := lenDecode_le e
  have hw : (t.regs a b w).res.toNat = i := isNumber_toNat hw (by omega)
  have hfsm : { t.regs a b w with fsm := if st < 7 then 7 else 10 } = (t.withFsm (matchNext st)).regs a b w := by
    unfold matchNext State.withFsm
    split <;> rfl
  rw [hw, hfsm]
  have hdist := comes_distance (u := t.withFsm (matchNext st)) (x := a) (y := b) (r := w) i hf hm
  refine ComesEnd.modify (Comes.bind hdist fun d v _ hf hm a b w hw => ?_)
  have hw : w = d := hw
  subst hw
  refine ComesEnd.modify ?_
  by_cases h : w = 0xFFFFFFFF
  · rw [if_pos h, if_pos (show (v.regs a b w).res = 0xFFFFFFFF from h)]
    exact comes_marker (u := v.withReps w v.rep1 v.rep2 v.rep3)
  · rw [if_neg h, if_neg (show ¬ (v.regs a b w).res = 0xFFFFFFFF from h)]
    exact comes_finish (u := v.withReps w v.rep1 v.rep2 v.rep3) hi .newMatch hf hm

/-- The end of a LIT token: STATE and DW_PUSH. -/
theorem comes_literalEnd (st : Nat) {b : Byte} {w : Word} (hw : IsByte b w) (hf : u.faulted = false)
    (hm : u.mode = .decode) : ComesEnd (do setFsm (litNext st); windowAppend b; report .lit)
      (literalEnd st (u.regs x y w)) u := by
  have hfsm : { u.regs x y w with fsm := BitVec.ofNat 4 (if st < 4 then 0 else if st < 10 then st - 3 else st - 6) } =
      (u.withFsm (litNext st)).regs x y w := rfl
  have hb : (u.regs x y w).res.setWidth 8 = b := hw
  unfold literalEnd
  rw [hfsm, hb]
  refine ComesEnd.modify ?_
  generalize hv : u.withFsm (litNext st) = v
  have hf : v.faulted = false := by rw [← hv]; exact hf
  have hm : v.mode = .decode := by rw [← hv]; exact hm
  have h1 : exec (.dwPush b) (v.regs x y w) = conclude (windowAppend b (v.regs x y w)) :=
    issue_ready (s := v.regs x y w) hf
      (by change [Mode.idle, .encode, .decode].contains v.mode = true; rw [hm]; rfl)
  have h2 : Commutes _ (windowAppend b) (windowAppend b) v := (windowApart_regs x y w).append b v
  have hkeep := keeps_windowAppend (R := fun s t => t.lessWindow = s.lessWindow) (fun _ => rfl)
    (fun s b => lessWindow_appended s b) b v
  rw [h1, h2]
  unfold ComesEnd ComesTo
  rw [bind_run]
  unfold Ends at hkeep
  cases hc : windowAppend b v with
  | ok z t =>
    rw [hc] at hkeep
    have h1 := congrArg State.faulted hkeep
    have h1 : t.faulted = false := Eq.trans h1 hf
    exact ⟨x, y, ifRuns_runs (t := t.regs x y w) h1⟩
  | error e t =>
    cases e with
    | raise c => exact ⟨x, y, w, rfl⟩
    | stuck f => rfl

/-- A LIT token after IS_MATCH (R220, R223). -/
theorem comes_literal {st : Nat} (hp : propsValid u.props = true) (hr : 7 ≤ st → Readable u (u.rep0.toNat + 1))
    (hf : u.faulted = false) (hm : u.mode = .decode) :
    ComesEnd (decLiteralToken st) (literalRun st (u.regs x y r)) u := by
  have hlc : lcOf u.props ≤ 8 := by simp [propsValid] at hp; omega
  have hv : ∀ z, z < 0x300 → cellValid (literalBase (litState u) + z) = true := fun z hz => litCell_valid hp hz
  have hcoder : literalCoder u = .ok (literalBase (litState u)) u := by
    unfold literalCoder
    rw [bind_run, get_run]
    dsimp only
    rw [if_pos hlc]
    rfl
  have hbyte : Comes (decodeLiteral (literalBase (litState u)) st) IsByte
      (if st < 7 then runAt (.rcDecTree 8) (literalBase (litState u)) (u.regs x y r)
        else matchedWalk (literalBase (litState u)) (windowByte u (u.rep0.toNat + 1)) 8 1 (u.regs x y r)) u := by
    unfold decodeLiteral
    by_cases h7 : 7 ≤ st
    · rw [if_neg (by omega)]
      change Comes (if 7 ≤ st then _ else _) _ _ u
      rw [if_pos h7]
      have := Comes.map (comes_matched hv (windowByte u (u.rep0.toNat + 1)) 8 (windowByte u (u.rep0.toNat + 1)).toNat 1
        (x := x) (y := y) (r := r) le_rfl (fun i hi => rfl) (by omega) hf hm) (fun sym => BitVec.ofNat 8 (sym - 0x100))
        (val' := IsByte) fun sym w hw => IsNode.byte hw
      unfold Comes ComesTo at this ⊢
      rw [bind_run, byteAt_run (hr h7)]
      exact this
    · rw [if_pos (by omega)]
      change Comes (if 7 ≤ st then _ else _) _ _ u
      rw [if_neg h7, literalPlain_eq]
      have ht := comes_tree (x := x) (y := y) (r := r) (n := 8) (cellValid_lt (hv 0 (by omega)))
        (treeOperandsLegal_iff.2 ⟨by omega, by omega, by omega, fun z h1 h2 => hv z (by omega)⟩) hf hm
      have := Comes.map ht (BitVec.ofNat 8) (val' := IsByte) fun v w hw => by
        have hw : w = BitVec.ofNat 32 v := hw
        unfold IsByte
        rw [hw]
        apply BitVec.eq_of_toNat_eq
        simp only [BitVec.toNat_setWidth, BitVec.toNat_ofNat]
        omega
      unfold treeDecode at this
      rw [bind_assoc] at this
      exact this
  have : ComesEnd (do
      let b ← decodeLiteral (literalBase (litState u)) st
      setFsm (litNext st)
      windowAppend b
      report .lit) (literalRun st (u.regs x y r)) u :=
    Comes.bind hbyte fun b t _ hf hm a c w hw => comes_literalEnd st hw hf hm
  unfold decLiteralToken
  unfold ComesEnd ComesTo at this ⊢
  rw [bind_run, hcoder]
  exact this

/-- What came out of a token's commands, as DEC_TOKEN leaves it. -/
theorem asToken_comes {x : Cmd Unit} {s : State} (hx : ComesEnd x o u)
    (hk : Ends x u (fun _ t => t.faulted = false ∧ t.arg0 = s.arg0 ∧ t.arg1 = s.arg1)
      (fun _ t => t.arg0 = s.arg0 ∧ t.arg1 = s.arg1 ∧ t.res = s.res)) : asToken s o = conclude (x u) := by
  unfold ComesEnd ComesTo at hx
  unfold Ends at hk
  split at hx
  · rename_i v t e
    obtain ⟨a, b, rfl⟩ := hx
    rw [e] at hk
    obtain ⟨h1, h2, h3⟩ := hk
    rw [e]
    change Host.Outcome.next { t.regs a b t.res with
      arg0 := s.arg0, arg1 := s.arg1, res := if t.faulted then s.res else t.res } = .next t
    rw [h1, ← h2, ← h3]
    rfl
  · rename_i c t e
    obtain ⟨a, b, r, rfl⟩ := hx
    rw [e] at hk
    obtain ⟨h1, h2, h3⟩ := hk
    rw [e]
    change Host.Outcome.next { (t.regs a b r).takeFault c with arg0 := s.arg0, arg1 := s.arg1, res := s.res } =
      .next (t.takeFault c)
    rw [← h1, ← h2, ← h3]
    rfl
  · rename_i f t e
    rw [e, hx]
    rfl

end Sys2Proof.Machine
end

