-- ==== Sys2Proof/Tests/Slice0.lean ====
section
/-! SUPPORT. Tests whose expected values are the spec's (its examples, 95_test_vectors.md, or its rules by hand), and for
every obligation with hypotheses a state that meets them. -/

namespace Sys2Proof.Tests

open Sys2Proof Sys2Proof.Machine

/-! ## States -/

/-- The outcome is a next state that passes `p`. -/
def gives (o : Host.Outcome State Fault Refusal) (p : State → Bool) : Bool :=
  match o with
  | .next t => p t
  | _ => false

/-- Bytes from numbers. -/
def bytes (l : List Nat) : List Byte := l.map (BitVec.ofNat 8)

/-- After RC_ENC_INIT from power-on (40_range_coder.md R130). -/
def encS : State := { State.reset with mode := .encode }

/-- After RC_DEC_INIT from power-on on five bytes that load `c`, with `l` after them (R140). -/
def decS (c : Word) (l : List Nat) : State :=
  { State.reset with mode := .decode, code := c, inCount := 5, source := bytes l }

/-- From power-on, with these bytes at the source. -/
def srcS (l : List Nat) : State := { State.reset with source := bytes l }

/-- From power-on, with this window. -/
def winS (l : List Nat) : State := { State.reset with window := bytes l }

/-- Power-on, then faulted with ILLEGAL_COMMAND. -/
def faultS : State := State.reset.takeFault .illegalCommand

/-- A session that is over. -/
def doneS : State := { State.reset with mode := .done }

/-- A sink that fails at index `k`. -/
def failAt (k : Nat) (s : State) : State := { s with sinkFailAt := some k }

/-- FAULT reads `v`, and nothing else changed. -/
def faultsWith (v : Word) (o : Host.Outcome State Fault Refusal) (s : State) : Bool :=
  gives o fun t => faultWord t == v && t == { s with faulted := true, faultCode := t.faultCode, faultSub := t.faultSub }

/-! ## Well-formedness: a term of each count that its immediate field cannot hold (30_encoding.md R81) -/

theorem test_wf_enc_tree : (Instr.rcEncTree 16).wf = false := by decide
theorem test_wf_dec_tree : (Instr.rcDecTree 16).wf = false := by decide
theorem test_wf_dec_rtree : (Instr.rcDecRtree 16).wf = false := by decide
theorem test_wf_dec_direct : (Instr.rcDecDirect 64).wf = false := by decide

/-! ## Decoding: words written out from R80, R81 and the opcode column of R83 (`opcode << 24 | imm`) -/

theorem test_decode_system : decode 0b00000000000000000000000000000000 = .ok .nop ∧
    decode 0b00000001000000000000000000000000 = .ok .sessionReset := by decide

theorem test_decode_encoder : decode 0b00010000000000000000000000000000 = .ok .rcEncInit ∧
    decode 0b00010001000000000000000000000001 = .ok (.rcEncBit true) ∧
    decode 0b00010010000000000000000000000000 = .ok (.rcEncBitNa false) ∧
    decode 0b00010011000000000000000000001000 = .ok (.rcEncTree 8) ∧
    decode 0b00010100000000000000000000000000 = .ok .rcEncFlush := by decide

theorem test_decode_decoder : decode 0b00100000000000000000000000000000 = .ok .rcDecInit ∧
    decode 0b00100001000000000000000000000000 = .ok .rcDecBit ∧
    decode 0b00100010000000000000000000000000 = .ok .rcDecBitNa ∧
    decode 0b00100011000000000000000000100000 = .ok (.rcDecDirect 32) ∧
    decode 0b00100100000000000000000000000011 = .ok (.rcDecTree 3) ∧
    decode 0b00100101000000000000000000000100 = .ok (.rcDecRtree 4) ∧
    decode 0b00100110000000000000000000000000 = .ok .rcDecFinished := by decide

theorem test_decode_model_and_symbols : decode 0b00110000000000000000000000000000 = .ok .pmInit ∧
    decode 0b00110001000000000000000000000000 = .ok .cellRead ∧
    decode 0b01000000000000000000000001100001 = .ok (.encLiteral 0x61) ∧
    decode 0b01000001000000000000000000000000 = .ok .encEos ∧
    decode 0b01000010000000000000000000000000 = .ok .decToken := by decide

theorem test_decode_window_and_header : decode 0b01010000000000000000000000000000 = .ok .dwReset ∧
    decode 0b01010001000000000000000011111111 = .ok (.dwPush 0xFF) ∧
    decode 0b01010010000000000000000000000000 = .ok .dwByteAt ∧
    decode 0b01010011000000000000000000000000 = .ok .dwLast ∧
    decode 0b01010100000000000000000000000000 = .ok .dwCopy ∧
    decode 0b01100000000000000000000000000000 = .ok .propsValidate ∧
    decode 0b01100001000000000000000000000000 = .ok .hdrWrite ∧
    decode 0b01100010000000000000000000000000 = .ok .hdrRead := by decide

/-- V-E: a reserved opcode, and reserved IMM bits (R84, R86). -/
theorem test_decode_reserved : decode 0x7F000000 = .error .reservedOpcode ∧ decode 0x00000001 = .error .reservedImm ∧
    decode 0x01000001 = .error .reservedImm ∧ decode 0x13000010 = .error .reservedImm := by decide

theorem test_table_word : decodeTableWord 32 0x13000008 = some (.rcEncTree 8) ∧ decodeTableWord 32 0x7F000000 = none := by
  decide

/-- R87's form of a command word. -/
theorem test_encode : encode (.rcDecDirect 32) = 0x23000020 ∧ encode (.encLiteral 0x61) = 0x40000061 := by decide

/-! ## The port and a step -/

/-- The word of ENC_LITERAL in IDLE runs as the first command after power-on: it faults SEQUENCE_ERROR (R323). -/
theorem test_step_first_command :
    faultsWith 0x12 (step (State.reset.withFetchWord 32 0x40000061)) State.reset = true := by decide

/-- V-E: ID, a reserved word and an unaligned address. -/
theorem test_port_reads : readPort State.reset 0x00 = 0x4C5A4D41 ∧ readPort State.reset 0x74 = 0 ∧
    readPort State.reset 0x02 = 0 ∧ readPort faultS 0x04 = 0x10 ∧ readPort faultS 0x08 = 0x10 := by decide

/-- V-E: the masks of PROPS and POLICY. -/
theorem test_port_masks : gives (writePort 0x0C 0xFFFFFFFF State.reset) (fun t => readPort t 0x0C == 0x000F0F0F) = true ∧
    gives (writePort 0x1C 0xFFFFFFFF State.reset) (fun t => readPort t 0x1C == 0x00001113) = true := by decide

/-- V-E: a configuration write outside IDLE. -/
theorem test_port_config_mode : faultsWith 0x12 (writePort 0x0C 0 encS) encS = true := by decide

/-- V-E: a reserved opcode, and the inexact SESSION_RESET word twice, the second time refused. -/
theorem test_illegal_command : faultsWith 0x10 (command 0x7F000000 State.reset) State.reset = true ∧
    gives (command 0x01000001 faultS) (fun t => t == faultS) = true := by decide

/-! ## System -/

theorem test_nop : gives (exec .nop doneS) (fun t => t == doneS) = true := by decide

/-- R341 after a fault: the window and the counts go, ARG0 stays. -/
theorem test_session_reset : gives (exec .sessionReset { faultS with window := bytes [1], arg0 := 7, inCount := 3 })
    (fun t => t == { State.reset with arg0 := 7 }) = true := by decide

/-! ## Range coder -/

/-- V-E: lc = 9 is refused before the encoder starts. -/
theorem test_enc_init : faultsWith 0x02 (exec .rcEncInit { State.reset with props := 9 }) { State.reset with props := 9 } =
    true := by decide

/-- V-E: DICT_TOO_LARGE. -/
theorem test_enc_init_dict : gives (exec .rcEncInit { State.reset with config := ⟨0x100000⟩ })
    (fun t => faultWord t == 0x13 && t.mode == .idle) = true := by decide

/-- V-RC-1, row p = 1024, bit 1, on cell 0xC0. -/
theorem test_enc_bit : gives (exec (.rcEncBit true) { encS with arg0 := 0xC0 }) (fun t =>
    t.range == 0x800003FF && t.low == 0x7FFFFC00 && cellAt t 0xC0 == 992 && t.sink == [] && t.cacheSize == 1) = true := by
  decide

/-- V-E: a cell in a hole. -/
theorem test_enc_bit_hole : faultsWith 0x11 (exec (.rcEncBit true) { encS with arg0 := 0x323 })
    { encS with arg0 := 0x323 } = true := by decide

/-- V-RC-1, row p = 2047, bit 1: the byte is deferred. -/
theorem test_enc_bit_na_defers : gives (exec (.rcEncBitNa true) { encS with arg0 := 2047 }) (fun t =>
    t.range == 0x2007FE00 && t.low == 0xDFF80100 && t.res == 1984 && t.sink == [] && t.cacheSize == 2) = true := by decide

/-- V-RC-7, step 3: two renormalisations. -/
theorem test_enc_bit_na_twice : gives (exec (.rcEncBitNa false) { encS with arg0 := 1, range := 0x03FFFF00 })
    (fun t => t.range == 0x7FFF0000 && t.sink == [0, 0] && t.res == 64) = true := by decide

/-- V-RC-3, the last row: a carry through two pending FFs. -/
theorem test_shift_low_carry : (match shiftLow { encS with low := 0x1309FCE00, cache := 7, cacheSize := 3 } with
    | .ok _ t => t.sink == [8, 0, 0] && t.low == 0x9FCE0000 && t.cache == 0x30 && t.cacheSize == 1
    | .error _ _ => false) = true := by decide

/-- V-RC-3, its first row: the byte is deferred. -/
theorem test_shift_low_defers : (match shiftLow { encS with low := 0xFFA2CD00, cache := 0xCA } with
    | .ok _ t => t.sink == [] && t.low == 0xA2CD0000 && t.cache == 0xCA && t.cacheSize == 2
    | .error _ _ => false) = true := by decide

/-- V-TREE: the flush of `RANGE = 0x20000000, LOW = 0xBFFFFC00`. -/
theorem test_enc_flush : gives (exec .rcEncFlush { encS with low := 0xBFFFFC00, range := 0x20000000 })
    (fun t => t.sink == bytes [0, 0xBF, 0xFF, 0xFC, 0] && t.mode == .done && t.outCount == 5) = true := by decide

/-- V-RC-4. -/
theorem test_enc_flush_reset : gives (exec .rcEncFlush encS) (fun t => t.sink == [0, 0, 0, 0, 0]) = true := by decide

/-- V-RC-5, the first byte discarded whatever its value (D9). -/
theorem test_dec_init : gives (exec .rcDecInit (srcS [0x33, 0x7F, 0xE0, 0x01, 0x02])) (fun t =>
    t.code == 0x7FE00102 && t.range == 0xFFFFFFFF && t.inCount == 5 && t.mode == .decode) = true := by decide

/-- R140: five bytes are needed. -/
theorem test_dec_init_short : gives (exec .rcDecInit (srcS [0, 1, 2, 3])) (fun t =>
    faultWord t == 0x103 && t.inCount == 4 && t.code == 0 && t.mode == .idle) = true := by decide

/-- V-RC-5, row `00 80 00 00 00`. -/
theorem test_dec_bit : gives (exec .rcDecBit { decS 0x80000000 [] with arg0 := 0xC0 }) (fun t =>
    t.res == 1 && t.range == 0x800003FF && t.code == 0x400 && cellAt t 0xC0 == 992 && t.inCount == 5) = true := by decide

/-- V-RC-5, row `00 7F E0 00 00`. -/
theorem test_dec_bit_below : gives (exec .rcDecBit { decS 0x7FE00000 [] with arg0 := 0xC0, res := 5 }) (fun t =>
    t.res == 0 && t.range == 0x7FFFFC00 && t.code == 0x7FE00000 && cellAt t 0xC0 == 1056) = true := by decide

/-- P3b, the NA bit. -/
theorem test_dec_bit_na : gives (exec .rcDecBitNa { decS 0x0F7C2000 [] with range := 0x1EF84000, arg0 := 0x400 })
    (fun t => t.res == 0x03E00001 && t.range == 0x0F7C2000 && t.code == 0) = true := by decide

/-- V-RC-6, row `00 FF FF FF FE 00 00 00 00`, n = 32. -/
theorem test_dec_direct : gives (exec (.rcDecDirect 32) (decS 0xFFFFFFFE [0, 0, 0, 0])) (fun t =>
    t.res == 0xFF000006 && t.range == 0xFFFFFF00 && t.code == 0x600 && t.inCount == 9) = true := by decide

/-- V-RC-6, its last row. -/
theorem test_dec_direct_33 : faultsWith 0x11 (exec (.rcDecDirect 33) (decS 1 [])) (decS 1 []) = true := by decide

/-- V-TREE: CODE is 0 once the body is used up, and not before. -/
theorem test_dec_finished : gives (exec .rcDecFinished (decS 0 [])) (fun t => t.res == 1) = true ∧
    gives (exec .rcDecFinished (decS 0x400 [])) (fun t => t.res == 0) = true := by decide

/-! ## Probability model -/

/-- V-PM-1. -/
theorem test_adapt : adapt 31 false = 94 ∧ adapt 31 true = 31 ∧ adapt 63 true = 62 ∧ adapt 1985 false = 1986 ∧
    adapt 2017 false = 2017 ∧ adapt 2017 true = 1954 := by decide

/-- V-TREE. -/
theorem test_enc_tree : gives (exec (.rcEncTree 3) { encS with arg0 := 0x342, arg1 := 6 }) (fun t =>
    t.range == 0x20000000 && t.low == 0xBFFFFC00 && t.pram == [(0x343, 992), (0x345, 992), (0x349, 1056)]) = true := by
  decide

/-- V-TREE, the hole and the boundary below it. -/
theorem test_enc_tree_hole : gives (exec (.rcEncTree 1) { encS with arg0 := 0x322 }) (fun t => faultWord t == 0x11) = true ∧
    gives (exec (.rcEncTree 1) { encS with arg0 := 0x321 }) (fun t => t.pram == [(0x322, 1056)]) = true := by decide

/-- V-TREE. -/
theorem test_dec_tree : gives (exec (.rcDecTree 3) { decS 0xBFFFFC00 [] with arg0 := 0x342 }) (fun t =>
    t.res == 6 && t.code == 0 && t.pram == [(0x343, 992), (0x345, 992), (0x349, 1056)]) = true := by decide

/-- V-TREE. -/
theorem test_dec_rtree : gives (exec (.rcDecRtree 3) { decS 0xBFFFFC00 [] with arg0 := 0x342 }) (fun t =>
    t.res == 3 && t.code == 0 && t.pram == [(0x343, 992), (0x345, 992), (0x349, 1056)]) = true := by decide

/-- R179: DW state is kept, cells go back to 1024. -/
theorem test_pm_init : gives (exec .pmInit { winS [5] with pram := [(0xC0, 992)] })
    (fun t => cellAt t 0xC0 == 1024 && t.window == [5]) = true := by decide

/-- V-CELL, the last valid cell. -/
theorem test_cell_read : gives (exec .cellRead { State.reset with arg0 := 0x3007FF }) (fun t => t.res == 1024) = true := by
  decide

/-- V-CELL, the first address past it, and the ends of the holes. -/
theorem test_cell_read_invalid : [0x300800, 0x323, 0x32F, 0x744, 0x7FF, 0xFFFFFFFF].all (fun a =>
    gives (exec .cellRead { State.reset with arg0 := a }) fun t => faultWord t == 0x11) = true := by decide

/-- The canonical form of the probability RAM: rising, and no cell listed at 1024. -/
theorem test_memory_wf : Memory.wf [(3, 992), (3, 961)] = false ∧ Memory.wf [(4, 992), (3, 961)] = false ∧
    Memory.wf [(3, 1024)] = false ∧ Memory.write [(3, 992)] 3 1024 = [] ∧
    Memory.write [(3, 992)] 2 31 = [(2, 31), (3, 992)] := by decide

/-! ## Symbols -/

/-- V-FSM, rows 3, 9 and 10. -/
theorem test_fsm_tables : [3, 9, 10].map litNext = [0, 6, 4] ∧ [3, 9, 10].map matchNext = [7, 10, 10] ∧
    [3, 9, 10].map repNext = [8, 11, 11] ∧ [3, 9, 10].map shortRepNext = [9, 11, 11] := by decide

/-- P1's cells after ENC_LITERAL 0x61: the flag, and the walk 0, 1, 1, 0, 0, 0, 0, 1 through coder 0. -/
theorem test_enc_literal : gives (exec (.encLiteral 0x61) encS) (fun t => t.window == [0x61] && t.fsm == 0 &&
    cellAt t 0 == 1056 && cellAt t 0x801 == 1056 && cellAt t 0x802 == 992 && cellAt t 0x805 == 992 &&
    cellAt t 0x80B == 1056 && cellAt t 0x8B0 == 992) = true := by decide +kernel

/-- V-E: a literal after the end marker. -/
theorem test_enc_literal_after_eos : faultsWith 0x12 (exec (.encLiteral 0x41) { encS with eosSeen := true })
    { encS with eosSeen := true } = true := by decide

/-- V-ENC, the empty input of unknown size: the encoder stands at its body `00 83 FF FB FF FF C0 00 00 00`, of which the
flush still owes the pending bytes and four of LOW (R128). -/
theorem test_enc_eos : gives (exec .encEos encS) (fun t => t.eosSeen && t.pram == [(0, 992)] && t.window == [] &&
    t.sink.length + t.cacheSize == 6 &&
    codeValue t == numOf (bytes [0, 0x83, 0xFF, 0xFB, 0xFF, 0xFF, 0xC0, 0, 0, 0])) = true := by decide +kernel

/-- P5, token 3: MATCH d = 2, len 6. -/
theorem test_dec_token_match : gives (exec .decToken { decS 0x2404C793 [0xFB, 0xDF, 0xFF, 0xFF, 0xF8, 0x42, 0, 0] with
    range := 0x40000000, inCount := 20, window := bytes [0x61, 0x62] }) (fun t => t.res == 2 && t.fsm == 7 &&
    t.rep0 == 1 && t.range == 0x04000000 && t.code == 0x00C793FB && t.inCount == 21 &&
    t.window == bytes [0x61, 0x62, 0x61, 0x62, 0x61, 0x62, 0x61, 0x62]) = true := by decide +kernel

/-- P5, token 4: LIT 63 by the matched walk. -/
theorem test_dec_token_matched_literal : gives (exec .decToken { decS 0x00C793FB [0xDF, 0xFF, 0xFF, 0xF8, 0x42, 0, 0] with
    range := 0x04000000, inCount := 21, fsm := 7, rep0 := 1, pram := [(0x11B1, 1056)],
    window := bytes [0x61, 0x62, 0x61, 0x62, 0x61, 0x62, 0x61, 0x62] }) (fun t => t.res == 1 && t.fsm == 4 &&
    t.range == 0x01F00000 && t.code == 0x0183FBDF && t.inCount == 22 && lastByte t == 0x63) = true := by decide +kernel

/-! ## Window -/

theorem test_dw_reset : gives (exec .dwReset (winS [0x41])) (fun t => t.window == []) = true := by decide

/-- R264: in DECODE the sink is written first, and its failure keeps the byte out of the window. -/
theorem test_dw_push : gives (exec (.dwPush 0x62) { winS [0x61] with mode := .decode })
    (fun t => t.window == [0x61, 0x62] && t.sink == [0x62]) = true ∧
    faultsWith 0x204 (exec (.dwPush 0x62) (failAt 0 { winS [0x61] with mode := .decode }))
      (failAt 0 { winS [0x61] with mode := .decode }) = true := by decide

/-- V-WIN. -/
theorem test_dw_byte_at : gives (exec .dwByteAt { winS [0x61, 0x62, 0x63, 0x62, 0x63, 0x62, 0x63, 0x62] with arg0 := 3 })
    (fun t => t.res == 0x62) = true := by decide

/-- V-WIN. -/
theorem test_dw_byte_at_past : gives (exec .dwByteAt { winS [1, 2, 3, 4, 5, 6, 7, 8] with arg0 := 9 })
    (fun t => faultWord t == 0x203) = true ∧
    gives (exec .dwByteAt { winS [1] with arg0 := 0 }) (fun t => faultWord t == 0x203) = true := by decide

/-- V-WIN. -/
theorem test_dw_last : gives (exec .dwLast { winS [0x61, 0x62] with res := 9 }) (fun t => t.res == 0x62) = true ∧
    gives (exec .dwLast { State.reset with res := 9 }) (fun t => t.res == 0) = true := by decide

/-- V-WIN, P4. -/
theorem test_dw_copy : gives (exec .dwCopy { winS [0x61, 0x62, 0x63] with arg0 := 2, arg1 := 5 })
    (fun t => t.window == bytes [0x61, 0x62, 0x63, 0x62, 0x63, 0x62, 0x63, 0x62] && t.sink == []) = true := by decide

/-- V-WIN: the distance is checked even when nothing is copied. -/
theorem test_dw_copy_none : gives (exec .dwCopy { State.reset with arg0 := 1, arg1 := 0 })
    (fun t => faultWord t == 0x203) = true := by decide

/-! ## Properties and header -/

/-- V-HDR. -/
theorem test_props_validate : [0x00000009, 0x00000500, 0x00050000, 0x000F0F0F].all (fun p =>
      gives (exec .propsValidate { State.reset with props := p }) fun t => faultWord t == 0x02) = true ∧
    gives (exec .propsValidate { State.reset with props := 0x00040408 }) (fun t => faultWord t == 0) = true := by decide

/-- R294's table: a known size, and the largest props byte with the size omitted. -/
theorem test_hdr_write : gives (exec .hdrWrite { State.reset with policy := 0x100, usize := 3 })
      (fun t => t.sink == bytes [0x5D, 0, 0, 0x80, 0, 3, 0, 0, 0, 0, 0, 0, 0]) = true ∧
    gives (exec .hdrWrite { State.reset with policy := 0x10, props := 0x00040408 })
      (fun t => t.sink == bytes [0xE0, 0, 0, 0x80, 0]) = true := by decide

/-- V-E: a sink that fails at byte 2. -/
theorem test_hdr_write_fails : gives (exec .hdrWrite (failAt 2 State.reset))
    (fun t => faultWord t == 0x204 && t.sink == [0x5D, 0]) = true := by decide

/-- R297: a dictionary below 0x1000 is raised, and size 5 is known. -/
theorem test_hdr_read : gives (exec .hdrRead (srcS [0x5D, 0, 1, 0, 0, 5, 0, 0, 0, 0, 0, 0, 0])) (fun t =>
    t.props == 0x00020003 && t.dictSize == 0x1000 && t.usize == 5 && t.policy == 0x100 && t.inCount == 13) = true := by
  decide

/-- V-E: a source error after one byte; and `5D 00 00` with PROPS unchanged. -/
theorem test_hdr_read_short : gives (exec .hdrRead { srcS [0x5D] with sourceEnd := .error })
      (fun t => faultWord t == 0x104 && t.inCount == 1) = true ∧
    gives (exec .hdrRead (srcS [0, 0, 0])) (fun t => faultWord t == 0x01 && t.props == 0x00020003) = true := by decide

/-! ## Witnesses: states and operands that meet the hypotheses of each obligation, clause by clause -/

theorem sinkTakes_of {n k : Nat} {s : State} (h : s.sinkFailAt = some k) (hk : s.sink.length + n ≤ k) : sinkTakes n s :=
  fun j hj => by rw [h] at hj; cases hj; exact hk

theorem not_sinkTakes_of {n k : Nat} {s : State} (h : s.sinkFailAt = some k) (hk : k < s.sink.length + n) :
    ¬ sinkTakes n s := fun h' => absurd (h' k h) (by omega)

/-- In ENCODE on the last cell of the address range, with a sink that fails at its second byte. -/
def encCellS : State := failAt 1 { encS with arg0 := 0x3007FF, arg1 := 1, pram := [(0x3007FF, 992)] }

/-- In ENCODE with a sink that fails at index `k`. -/
def encFailS (k : Nat) : State := failAt k { encS with arg0 := 2047 }

/-- In DECODE on the last cell before the second hole. -/
def decCellS (l : List Nat) : State := { decS 0x80000000 l with arg0 := 0x743, pram := [(0x743, 992)] }

/-- The same at the least RANGE, where a decision needs a byte. -/
def decLowS (l : List Nat) : State := { decCellS l with range := 0x01000000, code := 0 }

/-- In ENCODE at the least RANGE, where a decision shifts out, with a sink that fails at index `k`. -/
def encLowS (k : Nat) : State := failAt k { encS with arg0 := 7, range := 0x01000000 }

/-- In DECODE with four bytes of history and reps 1, 2, 3 and 0. -/
def decHistS (c : Word) : State := { decS c [0, 0, 0, 0, 0, 0, 0, 0, 0] with
  window := bytes [1, 2, 3, 4], sink := bytes [1, 2, 3, 4], outCount := 4, rep0 := 1, rep1 := 2, rep2 := 3, rep3 := 0 }

/-- The token of P5's row 6: an end marker. -/
def decEosS : State := { decS 0x0FFBDFFF [0xFF, 0xF8, 0x42, 0, 0] with
  range := 0x1F000000, inCount := 23, fsm := 9, rep0 := 1, pram := [(0x340, 1056), (0x353, 992)],
  window := bytes [0x61, 0x62, 0x61, 0x62, 0x61, 0x62, 0x61, 0x62, 0x63, 0x62] }

/-- In DECODE with 48 bytes left and a sink that fails at once. -/
def dec48S : State := failAt 0 (decS 0 (List.replicate 48 0))

theorem reset_inv : State.reset.Inv := ⟨by constructor <;> decide, fun _ => by constructor <;> decide⟩
theorem encS_inv : encS.Inv := ⟨by constructor <;> decide, fun _ => by constructor <;> decide⟩
theorem encCellS_inv : encCellS.Inv := ⟨by constructor <;> decide, fun _ => by constructor <;> decide⟩
theorem encFailS_inv_2 : (encFailS 2).Inv := ⟨by constructor <;> decide, fun _ => by constructor <;> decide⟩
theorem encFailS_inv_5 : (encFailS 5).Inv := ⟨by constructor <;> decide, fun _ => by constructor <;> decide⟩
theorem encFailS_inv_9 : (encFailS 9).Inv := ⟨by constructor <;> decide, fun _ => by constructor <;> decide⟩
theorem encFailS_inv_42 : (encFailS 42).Inv := ⟨by constructor <;> decide, fun _ => by constructor <;> decide⟩
theorem encLowS_inv_0 : (encLowS 0).Inv := ⟨by constructor <;> decide, fun _ => by constructor <;> decide⟩
theorem encLowS_inv_1 : (encLowS 1).Inv := ⟨by constructor <;> decide, fun _ => by constructor <;> decide⟩
theorem decCellS_inv : (decCellS [7]).Inv := ⟨by constructor <;> decide, fun _ => by constructor <;> decide⟩
theorem decLowS_inv : (decLowS []).Inv := ⟨by constructor <;> decide, fun _ => by constructor <;> decide⟩
theorem decLowTreeS_inv : ({ decLowS [] with arg0 := 0 } : State).Inv :=
  ⟨by constructor <;> decide, fun _ => by constructor <;> decide⟩
theorem decTreeS_inv : ({ decS 0 [1, 2, 3, 4, 5, 6, 7, 8] with arg0 := 0x644 } : State).Inv :=
  ⟨by constructor <;> decide, fun _ => by constructor <;> decide⟩
theorem decNaS_inv : ({ decS 0 [1, 2] with arg0 := 2047 } : State).Inv :=
  ⟨by constructor <;> decide, fun _ => by constructor <;> decide⟩
theorem decDirectS_inv : (decS 0 (List.replicate 32 0)).Inv :=
  ⟨by constructor <;> decide, fun _ => by constructor <;> decide⟩
theorem decHistS_inv : (decHistS 0).Inv := ⟨by constructor <;> decide, fun _ => by constructor <;> decide⟩
theorem decMatchS_inv : ({ decHistS 0 with fsm := 7 } : State).Inv :=
  ⟨by constructor <;> decide, fun _ => by constructor <;> decide⟩
theorem decEosS_inv : decEosS.Inv := ⟨by constructor <;> decide, fun _ => by constructor <;> decide⟩
theorem dec48S_inv : dec48S.Inv := ⟨by constructor <;> decide, fun _ => by constructor <;> decide⟩

theorem witness_DecodeOfEncode : (Instr.rcEncTree 15).wf = true ∧ (Instr.rcDecTree 0).wf = true ∧
    (Instr.rcDecRtree 15).wf = true ∧ (Instr.rcDecDirect 63).wf = true ∧ (Instr.encLiteral 0xFF).wf = true := by decide

theorem witness_DecodesExactlyByRows : decode 0x2300003F = .ok (.rcDecDirect 63) ∧
    ⟨0x23000000, 0xFFFFFFC0⟩ ∈ opcodeRows ∧ OpRow.matches ⟨0x23000000, 0xFFFFFFC0⟩ 0x2300003F = true := by decide

theorem witness_IllegalCommandWord : (∀ r ∈ opcodeRows, r.matches 0x23000040 = false) ∧ State.reset.faulted = false ∧
    faultS.faulted = true ∧ (0x01000001 : Word) ≠ 0x01000000 := by decide

theorem witness_StepRunsDecodedCommand : ({ State.reset with hostQueue := [.write cmdAddr 0x53000000] } : State).hostQueue =
    .write cmdAddr 0x53000000 :: [] ∧ decode 0x53000000 = .ok .dwLast := by decide

theorem witness_StepPerformsNextAccess : ({ State.reset with hostQueue := [.read 0x7F] } : State).hostQueue = [.read 0x7F] ∧
    ({ State.reset with hostQueue := [.write 0x7C 1] } : State).hostQueue = [.write 0x7C 1] ∧ State.reset.hostQueue = [] := by
  decide

theorem witness_PortMap : (0x73 : PortAddr).toNat % 4 ≠ 0 ∧ 0x74 ≤ (0x74 : PortAddr).toNat ∧
    (0x28 : PortAddr) ∉ [(0x0C : PortAddr), 0x10, 0x14, 0x18, 0x1C, 0x20, 0x24, 0x2C] := by decide

theorem witness_ConfigurationWrites : (0x0C : PortAddr) ∈ [(0x0C : PortAddr), 0x10, 0x14, 0x18, 0x1C] ∧
    (0x1C : PortAddr) ∈ [(0x0C : PortAddr), 0x10, 0x14, 0x18, 0x1C] ∧ faultS.faulted = true ∧
    encS.faulted = false ∧ encS.mode ≠ .idle ∧ State.reset.faulted = false ∧ State.reset.mode = .idle := by decide

theorem witness_OperandRegisters : ∃ t, exec .cellRead { State.reset with arg0 := 0xC0, arg1 := 7 } = .next t :=
  ⟨_, rfl⟩

theorem witness_SessionResetEffects : opcodeField 0x01000001 = 0x01 ∧ immField 0x01000001 ≠ 0 ∧
    opcodeField 0x01FFFFFF = 0x01 ∧ immField 0x01FFFFFF ≠ 0 := by decide

theorem witness_NopDoesNothing : opcodeField 0x00000001 = 0x00 ∧ immField 0x00000001 ≠ 0 ∧ State.reset.faulted = false := by
  decide

theorem witness_FaultingCommandKeeps : State.reset.faulted = false ∧
    ∃ t, exec (.rcEncBit true) State.reset = .next t ∧ t.faulted = true := ⟨rfl, _, rfl, by decide⟩

theorem witness_WhileFaulted : faultS.faulted = true ∧ Instr.decToken ≠ .sessionReset ∧
    ∃ t, access (.write 0x2C 0x01000001) faultS = .next t ∧ Access.write 0x2C 0x01000001 ≠ .write 0x2C 0x01000000 :=
  ⟨rfl, by decide, _, rfl, by decide⟩

theorem witness_OnlySessionResetRecovers : faultS.faulted = true ∧
    ∃ t, access (.write 0x2C 0x01000000) faultS = .next t ∧ t.faulted = false := ⟨rfl, _, rfl, rfl⟩

theorem witness_WrongModeFaults : State.reset.faulted = false ∧ State.reset.mode ∉ modesOf .decToken ∧
    doneS.mode ∉ modesOf (.dwPush 0) ∧ encS.mode ∉ modesOf .hdrRead ∧ Ready .encode { encS with eosSeen := true } :=
  ⟨rfl, by decide, by decide, by decide, rfl, rfl⟩

/-- Each operand just outside its range, in a mode of its command. -/
theorem witness_IllegalOperandFaults : encS.mode ∈ modesOf (.rcEncBit true) ∧ (decS 0 []).mode ∈ modesOf .rcDecBit ∧
    State.reset.mode ∈ modesOf .cellRead ∧ cellValid (0x300800 : Word).toNat = false ∧
    (encS.mode ∈ modesOf (.rcEncBitNa true) ∧ encS.arg0.toNat < 1) ∧
    ((decS 0 []).mode ∈ modesOf .rcDecBitNa ∧ 2047 < (2048 : Word).toNat) ∧
    ((decS 0 []).mode ∈ modesOf (.rcDecDirect 33) ∧ 32 < 33) ∧
    (encS.mode ∈ modesOf (.rcEncTree 8) ∧ 2 ^ 8 ≤ (256 : Word).toNat) ∧
    ((decS 0 []).mode ∈ modesOf (.rcDecTree 9) ∧ 8 < 9) ∧ (decS 0 []).mode ∈ modesOf (.rcDecRtree 1) ∧
    (1 ≤ 1 ∧ 1 < 2 ^ 1 ∧ cellValid ((0x322 : Word).toNat + 1) = false) := by decide

/-- One transition of each of the five kinds, with both ends of a decode. -/
theorem witness_ModeTransitions :
    (∃ t, exec .rcEncInit State.reset = .next t ∧ t.mode ≠ State.reset.mode) ∧
    (∃ t, exec .rcDecInit (srcS [0, 1, 2, 3, 4]) = .next t ∧ t.mode ≠ (srcS [0, 1, 2, 3, 4]).mode) ∧
    (∃ t, exec .rcEncFlush encS = .next t ∧ t.mode ≠ encS.mode) ∧
    (∃ t, exec .decToken { decS 0 [] with policy := 0x100 } = .next t ∧ t.mode ≠ (decS 0 []).mode) ∧
    (∃ t, exec .sessionReset doneS = .next t ∧ t.mode ≠ doneS.mode) :=
  ⟨⟨_, rfl, by decide⟩, ⟨_, rfl, by decide⟩, ⟨_, rfl, by decide⟩, ⟨_, rfl, by decide⟩, ⟨_, rfl, by decide⟩⟩

theorem witness_ResultRegisterWriters : (∃ t, exec .cellRead State.reset = .next t ∧ t.res ≠ State.reset.res) ∧
    ∃ t, exec .sessionReset { State.reset with res := 5 } = .next t := ⟨⟨_, rfl, by decide⟩, _, rfl⟩

/-- The header read changes the configuration; a faulting one does not; a token changes STATE and the reps. -/
theorem witness_RegisterWriters :
    (∃ t, exec .hdrRead (srcS [0x5D, 0, 0]) = .next t ∧ t.faulted = true) ∧
    gives (exec .decToken (decHistS 0x80000000)) (fun t => t.fsm != 0 && t.rep0 != 1) = true ∧
    (∃ t, exec .sessionReset { doneS with rep3 := 1, eosSeen := true } = .next t ∧ t.rep3 ≠ 1 ∧ t.eosSeen ≠ true) :=
  ⟨⟨_, rfl, by decide⟩, by decide +kernel, _, rfl, by decide, by decide⟩

theorem witness_CellWriters :
    (∃ t, exec .rcDecBit (decCellS [7]) = .next t ∧ cellAt t 0x743 ≠ cellAt (decCellS [7]) 0x743) ∧
    (∃ t, access (.write 0x2C 0x21000000) (decCellS [7]) = .next t ∧ cellAt t 0x743 ≠ cellAt (decCellS [7]) 0x743) ∧
    ∃ t, exec .rcDecBitNa { decS 0 [1, 2] with arg0 := 2047 } = .next t :=
  ⟨⟨_, rfl, by decide⟩, ⟨_, rfl, by decide⟩, _, rfl⟩

/-- Also a sink that fails right after the byte a command delivers, and one that fails at it. -/
theorem witness_StreamAccounting :
    (∃ t, exec (.dwPush 9) (decS 0 []) = .next t ∧ t.window ≠ (decS 0 []).window) ∧
    (∃ t, exec .dwReset (winS [1]) = .next t ∧ t.window ≠ (winS [1]).window ∧ t.faulted = false) ∧
    (∃ t, exec .sessionReset doneS = .next t) ∧
    (failAt 0 (decS 0 [])).sink.length ≤ 0 ∧
    ∃ u, exec (.dwPush 9) { failAt 0 (decS 0 []) with sinkFailAt := none } = .next u ∧ 0 < u.sink.length ∧
      u.sink.length ≤ 1 :=
  ⟨⟨_, rfl, by decide⟩, ⟨_, rfl, by decide, rfl⟩, ⟨_, rfl⟩, by decide, _, rfl, by decide, by decide⟩

theorem witness_AdaptationRange : 31 ≤ 2048 ∧ 2017 ≤ 2048 ∧ 31 ≤ 31 ∧ 2017 ≤ 2017 ∧ 2048 ≤ 2048 := by decide

/-- The boundary values of LOW, with a sink that fails right after the run, and one that fails at its last byte. -/
theorem witness_ShiftOut : [(0xFEFFFFFF : BitVec 64), 0xFF000000, 0xFFFFFFFF, 0x100000000, 0x1FFFFFFFF].all
      (fun l => l.toNat < 2 ^ 33) = true ∧
    (∀ l, 1 ≤ ({ encFailS 3 with low := l, cacheSize := 3 } : State).cacheSize ∧
      sinkTakes 3 { encFailS 3 with low := l, cacheSize := 3 }) ∧
    (encFailS 2).sinkFailAt = some 2 ∧ 2 < (encFailS 2).sink.length + 3 :=
  ⟨by decide, fun _ => ⟨(by decide : 1 ≤ 3), sinkTakes_of (k := 3) rfl (by decide : 0 + 3 ≤ 3)⟩, rfl, by decide⟩

theorem witness_EncInitStarts : Ready .idle State.reset ∧ propsValid State.reset.props = true ∧
    windowCap { State.reset with config := ⟨0x800000⟩ } ≤ 0x800000 ∧ propsValid 9 = false ∧
    0x7FFFFF < windowCap { State.reset with config := ⟨0x7FFFFF⟩ } := by unfold Ready; decide +kernel

/-- With room on the sink; and at the least RANGE on a sink that fails at once. -/
theorem witness_EncBitCodes : (Ready .encode encCellS ∧ encCellS.Inv ∧ cellValid encCellS.arg0.toNat = true ∧
      sinkTakes encCellS.cacheSize encCellS) ∧
    Ready .encode (encLowS 0) ∧ (encLowS 0).Inv ∧ cellValid (encLowS 0).arg0.toNat = true ∧
    (encLowS 0).range.toNat / 2048 * cellAt (encLowS 0) (encLowS 0).arg0.toNat = 2 ^ 23 ∧
    ∃ e u, shiftLow { encLowS 0 with low := (encLowS 0).low + BitVec.ofNat 64 0, range := BitVec.ofNat 32 (2 ^ 23 * 256) } =
      .error (.raise e) u :=
  ⟨⟨⟨rfl, rfl⟩, encCellS_inv, by decide, sinkTakes_of rfl (by decide)⟩, ⟨rfl, rfl⟩, encLowS_inv_0, by decide, by decide,
    _, _, rfl⟩

/-- With room on the sink; and at probability 7 and the least RANGE, where the part is 57344, on a sink that fails at the
first ShiftLow, and on one that fails at the second. -/
theorem witness_EncBitNaCodes : (Ready .encode (encFailS 2) ∧ (encFailS 2).Inv ∧ 1 ≤ (encFailS 2).arg0.toNat ∧
      (encFailS 2).arg0.toNat ≤ 2047 ∧ sinkTakes ((encFailS 2).cacheSize + 1) (encFailS 2)) ∧
    (∀ k, Ready .encode (encLowS k)) ∧ (encLowS 0).Inv ∧ (encLowS 1).Inv ∧
    (encLowS 0).range.toNat / 2048 * (encLowS 0).arg0.toNat = 57344 ∧
    (∃ e v, shiftLow { encLowS 0 with low := (encLowS 0).low + BitVec.ofNat 64 0, range := BitVec.ofNat 32 (57344 * 256) } =
      .error (.raise e) v) ∧
    ∃ e u v, shiftLow { encLowS 1 with low := (encLowS 1).low + BitVec.ofNat 64 0, range := BitVec.ofNat 32 (57344 * 256) } =
        .ok () u ∧
      shiftLow { u with range := BitVec.ofNat 32 (57344 * 65536) } = .error (.raise e) v :=
  ⟨⟨⟨rfl, rfl⟩, encFailS_inv_2, by decide, by decide, sinkTakes_of rfl (by decide)⟩, fun _ => ⟨rfl, rfl⟩, encLowS_inv_0,
    encLowS_inv_1, by decide, ⟨_, _, rfl⟩, _, _, _, rfl, rfl⟩

/-- With room on the sink; and on one that fails at the third ShiftLow. -/
theorem witness_EncFlushDelivers : (Ready .encode (encFailS 5) ∧ (encFailS 5).Inv ∧
      sinkTakes ((encFailS 5).cacheSize + 4) (encFailS 5)) ∧
    Ready .encode (encFailS 2) ∧ (encFailS 2).Inv ∧
    ∃ e u v, repeatCmd 2 shiftLow (encFailS 2) = .ok () u ∧ shiftLow u = .error (.raise e) v :=
  ⟨⟨⟨rfl, rfl⟩, encFailS_inv_5, sinkTakes_of rfl (by decide)⟩, ⟨rfl, rfl⟩, encFailS_inv_2, _, _, _, rfl, rfl⟩

theorem witness_DecInitLoads : Ready .idle (srcS [0, 1, 2, 3, 4]) ∧ propsValid (srcS [0, 1, 2, 3, 4]).props = true ∧
    windowCap (srcS [0, 1, 2, 3, 4]) ≤ (srcS [0, 1, 2, 3, 4]).config.pMaxDict ∧
    (srcS [0, 1, 2, 3, 4]).source = 0 :: 1 :: 2 :: 3 :: 4 :: [] ∧ Ready .idle (srcS [0, 1, 2, 3]) ∧
    (srcS [0, 1, 2, 3]).source.length < 5 ∧ propsValid 0x00050000 = false ∧
    0x7FFFFF < windowCap { State.reset with config := ⟨0x7FFFFF⟩ } := by unfold Ready; decide +kernel

/-- With a byte left; and at the least RANGE with none, where the decision needs one. -/
theorem witness_DecBitDecodes : (Ready .decode (decCellS [7]) ∧ (decCellS [7]).Inv ∧
      cellValid (decCellS [7]).arg0.toNat = true ∧ 1 ≤ (decCellS [7]).source.length) ∧
    (Ready .decode (decLowS []) ∧ (decLowS []).Inv ∧ (decLowS []).source = [] ∧
      (decLowS []).range.toNat / 2048 * cellAt (decLowS []) (decLowS []).arg0.toNat < 2 ^ 24 ∧
      ¬ (decLowS []).range.toNat / 2048 * cellAt (decLowS []) (decLowS []).arg0.toNat ≤ (decLowS []).code.toNat) :=
  ⟨⟨⟨rfl, rfl⟩, decCellS_inv, by decide, by decide⟩, ⟨rfl, rfl⟩, decLowS_inv, rfl, by decide, by decide⟩

theorem witness_DecBitNaDecodes : Ready .decode { decS 0 [1, 2] with arg0 := 2047 } ∧
    ({ decS 0 [1, 2] with arg0 := 2047 } : State).Inv ∧ 1 ≤ (2047 : Word).toNat ∧ (2047 : Word).toNat ≤ 2047 ∧
    2 ≤ (decS 0 [1, 2]).source.length := ⟨⟨rfl, rfl⟩, decNaS_inv, by decide, by decide, by decide⟩

theorem witness_DecDirectDecodes : Ready .decode (decS 0 (List.replicate 32 0)) ∧ (decS 0 (List.replicate 32 0)).Inv ∧
    32 ≤ (decS 0 (List.replicate 32 0)).source.length ∧ 31 + 1 ≤ 32 := ⟨⟨rfl, rfl⟩, decDirectS_inv, by decide, by decide⟩

theorem witness_DecFinishedTestsCode : Ready .decode (decS 0 []) ∧ State.reset.faulted = false ∧
    State.reset.mode ≠ .decode := by unfold Ready; decide

/-- One decision at each extreme probability, encoded; and a reader of its body. -/
theorem witness_MirrorProperty : (∀ x ∈ [((1 : Word), false), (2047, true)], 1 ≤ x.1.toNat ∧ x.1.toNat ≤ 2047) ∧
    Ready .idle State.reset ∧ propsValid State.reset.props = true ∧
    windowCap State.reset ≤ State.reset.config.pMaxDict ∧ State.reset.sink = [] ∧ State.reset.sinkFailAt = none ∧
    gives (perform (encodeDecisions [(1, false), (2047, true)]) State.reset) (fun t => t.mode == .done) = true ∧
    ∀ l, Ready .idle { State.reset with source := l } ∧ ({ State.reset with source := l } : State).source = l :=
  ⟨by simp, ⟨rfl, rfl⟩, rfl, by decide, rfl, rfl, by decide +kernel, fun _ => ⟨⟨rfl, rfl⟩, rfl⟩⟩

theorem witness_EncTreeEncodes : Ready .encode (encFailS 2) ∧ (encFailS 2).Inv ∧
    treeOperandsLegal 2 (encFailS 2).arg0.toNat (encFailS 2).arg1.toNat = true ∧
    sinkTakes ((encFailS 2).cacheSize + 2 - 1) (encFailS 2) ∧ treeOperandsLegal 8 0x644 255 = true :=
  ⟨⟨rfl, rfl⟩, encFailS_inv_2, by decide, sinkTakes_of rfl (by decide), by decide +kernel⟩

theorem witness_DecTreeIsBits : Ready .decode { decS 0 [] with arg0 := 0x644 } ∧
    treeOperandsLegal 8 (0x644 : Word).toNat 0 = true := ⟨⟨rfl, rfl⟩, by decide +kernel⟩

/-- A run that completes, and one that faults for want of a byte. -/
theorem witness_RtreeReversesBits :
    gives (exec (.rcDecTree 8) { decS 0 [1, 2, 3, 4, 5, 6, 7, 8] with arg0 := 0x644 }) (fun t => !t.faulted) = true ∧
    Ready .decode { decLowS [] with arg0 := 0 } ∧ ({ decLowS [] with arg0 := 0 } : State).Inv ∧
    treeOperandsLegal 1 (0 : Word).toNat 0 = true ∧
    gives (exec (.rcDecTree 1) { decLowS [] with arg0 := 0 }) (fun t => t.faulted) = true :=
  ⟨by decide +kernel, ⟨rfl, rfl⟩, decLowTreeS_inv, by decide, by decide +kernel⟩

theorem witness_DecTreesComplete : Ready .decode { decS 0 [1, 2, 3, 4, 5, 6, 7, 8] with arg0 := 0x644 } ∧
    ({ decS 0 [1, 2, 3, 4, 5, 6, 7, 8] with arg0 := 0x644 } : State).Inv ∧
    treeOperandsLegal 8 (0x644 : Word).toNat 0 = true ∧ 8 ≤ (decS 0 [1, 2, 3, 4, 5, 6, 7, 8]).source.length :=
  ⟨⟨rfl, rfl⟩, decTreeS_inv, by decide +kernel, by decide⟩

theorem witness_CellCommands : Ready .idle State.reset ∧ doneS.faulted = false ∧ cellValid (0x3007FF : Word).toNat = true ∧
    cellValid (0 : Word).toNat = true := by unfold Ready; decide

theorem witness_CellMemory : Memory.wf [(0, 31), (0x3007FF, 2017)] = true ∧ Memory.wf [] = true ∧
    ∀ a, Memory.read [(0, 31)] a = Memory.read [(0, 31)] a := ⟨by decide, by decide, fun _ => rfl⟩

theorem witness_EncLiteralEncodes : Ready .encode (encFailS 9) ∧ (encFailS 9).Inv ∧ (encFailS 9).eosSeen = false ∧
    sinkTakes ((encFailS 9).cacheSize + 8) (encFailS 9) :=
  ⟨⟨rfl, rfl⟩, encFailS_inv_9, rfl, sinkTakes_of rfl (by decide)⟩

theorem witness_EncEosEncodes : Ready .encode (encFailS 42) ∧ (encFailS 42).Inv ∧ (encFailS 42).eosSeen = false ∧
    sinkTakes ((encFailS 42).cacheSize + 41) (encFailS 42) :=
  ⟨⟨rfl, rfl⟩, encFailS_inv_42, rfl, sinkTakes_of rfl (by decide)⟩

theorem witness_DecTokenEndsBySize : Ready .decode { decS 5 [] with policy := 0x100 } ∧
    knownSize { decS 5 [] with policy := 0x100 } = some (posOf { decS 5 [] with policy := 0x100 }) := by
  unfold Ready; decide

/-- After a literal, and after a match, where the matched walk stands. -/
theorem witness_DecTokenLiteral : (Ready .decode (decHistS 0) ∧ (decHistS 0).Inv ∧
      knownSize (decHistS 0) ≠ some (posOf (decHistS 0)) ∧
      (decHistS 0).code.toNat < (decHistS 0).range.toNat / 2048 *
        cellAt (decHistS 0) (isMatchCell (decHistS 0).fsm.toNat (posState (decHistS 0))) ∧
      (decHistS 0).fsm.toNat < 7 ∧ 9 ≤ (decHistS 0).source.length ∧ sinkTakes 1 (failAt 5 (decHistS 0))) ∧
    Ready .decode { decHistS 0 with fsm := 7 } ∧ ({ decHistS 0 with fsm := 7 } : State).Inv ∧
    knownSize { decHistS 0 with fsm := 7 } ≠ some (posOf { decHistS 0 with fsm := 7 }) ∧
    (decHistS 0).code.toNat < (decHistS 0).range.toNat / 2048 *
      cellAt { decHistS 0 with fsm := 7 } (isMatchCell 7 (posState { decHistS 0 with fsm := 7 })) :=
  ⟨⟨⟨rfl, rfl⟩, decHistS_inv, by decide, by decide, by decide, by decide, sinkTakes_of rfl (by decide)⟩, ⟨rfl, rfl⟩,
    decMatchS_inv, by decide, by decide⟩

/-- A completed token of each of the nine kinds; the code values of kinds 3 to 7 are chosen by the intervals of the flag
decisions at p = 1024. -/
theorem witness_DecTokenByKind :
    gives (exec .decToken { decS 0 [] with policy := 0x100 }) (fun t => !t.faulted && t.res == 0) = true ∧
    [((0 : Word), (1 : Word)), (0x80000000, 2), (0xC4000000, 3), (0xD0400000, 4), (0xE1000000, 5), (0xF1000000, 6),
      (0xF9000000, 7)].all (fun x => gives (exec .decToken (decHistS x.1)) fun t => !t.faulted && t.res == x.2) = true ∧
    Ready .decode (decHistS 0) ∧ (decHistS 0).Inv ∧
    decEosS.Inv ∧ gives (exec .decToken decEosS) (fun t => !t.faulted && t.res == 8) = true :=
  ⟨by decide +kernel, by decide +kernel, ⟨rfl, rfl⟩, decHistS_inv, decEosS_inv, by decide +kernel⟩

/-- The state after the decisions, where each completes with the bit beside it. -/
def decided : List (Nat × Bool) → State → Option State
  | [], s => some s
  | (a, bit) :: rest, s =>
    match runAt .rcDecBit a s with
    | .next t => if t.faulted = false ∧ t.res.toNat = bit.toNat then decided rest t else none
    | _ => none

theorem decides_of {u : State} : ∀ {l : List (Nat × Bool)} {s : State}, decided l s = some u → Decides l s u
  | [], _, h => by cases h; rfl
  | (a, bit) :: rest, s, h => by
    unfold decided at h
    split at h
    · rename_i t e
      split at h
      · rename_i ht
        exact ⟨t, e, ht.1, ht.2, decides_of h⟩
      · cases h
    · cases h

theorem next_of_gives {o : Host.Outcome State Fault Refusal} {p : State → Bool} (h : gives o p = true) :
    ∃ t, o = .next t ∧ p t = true := by
  cases o <;> first | exact ⟨_, rfl, h⟩ | cases h

/-- The decisions are made, then `f` gives a state that passes `p`. -/
theorem decides_then {l : List (Nat × Bool)} {s : State} {f : State → Host.Outcome State Fault Refusal}
    {p : State → State → Bool} (h : (decided l s).any (fun u => gives (f u) (p u)) = true) :
    ∃ u v, Decides l s u ∧ f u = .next v ∧ p u v = true := by
  cases e : decided l s with
  | none => rw [e] at h; cases h
  | some u =>
    rw [e] at h
    obtain ⟨v, h1, h2⟩ := next_of_gives h
    exact ⟨u, v, decides_of e, h1, h2⟩

/-- A SHORTREP's decisions, each older rep's with a length, a MATCH's with a length and a distance, and those of the end
marker of P5's row 6; with history four bytes long every rep is readable. -/
theorem witness_DecTokenKindsComplete :
    (∀ c, Ready .decode (decHistS c) ∧ knownSize (decHistS c) = none ∧ posState (decHistS c) = 0 ∧
      (decHistS c).fsm = 0 ∧ sinkTakes 273 (decHistS c) ∧ Readable (decHistS c) 1 ∧ Readable (decHistS c) 2 ∧
      Readable (decHistS c) 3 ∧ Readable (decHistS c) 4) ∧
    (∃ u, Decides [(0, true), (0x0C0, true), (0x0CC, false), (0x0F0, false)] (decHistS 0xC4000000) u) ∧
    (∀ x ∈ [((0xD0400000 : Word), (1 : Word), (2 : Word), (3 : Word), (0 : Word), [(0x0CC, false), (0x0F0, true)]),
        (0xE1000000, 2, 1, 3, 0, [(0x0CC, true), (0x0D8, false)]),
        (0xF1000000, 3, 1, 2, 0, [(0x0CC, true), (0x0D8, true), (0x0E4, false)]),
        (0xF9000000, 0, 1, 2, 3, [(0x0CC, true), (0x0D8, true), (0x0E4, true)])],
      ∃ u v, Decides ((0, true) :: (0x0C0, true) :: x.2.2.2.2.2) (decHistS x.1) u ∧
        lengthRun 0x542 0 { u with rep0 := x.2.1, rep1 := x.2.2.1, rep2 := x.2.2.2.1, rep3 := x.2.2.2.2.1 } = .next v ∧
        (!v.faulted && decide (v.res.toNat ≤ 271)) = true) ∧
    (∃ u v, Decides [(0, true), (0x0C0, false)] (decHistS 0x80000000) u ∧
      lengthRun 0x340 0 { u with rep1 := 1, rep2 := 2, rep3 := 3 } = .next v ∧
      (!v.faulted && gives (distanceRun v.res.toNat { v with fsm := 7 }) fun w =>
        !w.faulted && w.res != 0xFFFFFFFF && decide (w.res.toNat + 1 ≤ 4)) = true) ∧
    (decEosS.Inv ∧ Ready .decode decEosS ∧ knownSize decEosS = none ∧ decEosS.policy.getLsbD 12 = false) ∧
    ∃ u v, Decides [(9 * 16 + posState decEosS, true), (0x0C0 + 9, false)] decEosS u ∧
      lengthRun 0x340 (posState decEosS) { u with rep1 := decEosS.rep0, rep2 := decEosS.rep1, rep3 := decEosS.rep2 } =
        .next v ∧
      (!v.faulted && gives (distanceRun v.res.toNat { v with fsm := 10 }) fun w =>
        !w.faulted && w.res == 0xFFFFFFFF && w.code == 0) = true := by
  refine ⟨fun c => ⟨⟨rfl, rfl⟩, ?_, ?_, rfl, (fun k h => by cases h), ?_⟩, ?_, ?_, ?_,
    ⟨decEosS_inv, ⟨rfl, rfl⟩, by decide, by decide⟩, ?_⟩
  · change knownSize (decHistS 0) = none
    decide
  · change posState (decHistS 0) = 0
    decide
  · change Readable (decHistS 0) 1 ∧ Readable (decHistS 0) 2 ∧ Readable (decHistS 0) 3 ∧ Readable (decHistS 0) 4
    unfold Readable
    decide
  · obtain ⟨u, _, h, _⟩ := decides_then (l := [(0, true), (0x0C0, true), (0x0CC, false), (0x0F0, false)])
      (s := decHistS 0xC4000000) (f := .next) (p := fun _ _ => true) (by decide +kernel)
    exact ⟨u, h⟩
  · intro x hx
    refine decides_then (f := fun u => lengthRun 0x542 0 { u with
      rep0 := x.2.1, rep1 := x.2.2.1, rep2 := x.2.2.2.1, rep3 := x.2.2.2.2.1 })
      (p := fun _ v => !v.faulted && decide (v.res.toNat ≤ 271)) ?_
    revert x
    decide +kernel
  · exact decides_then (f := fun u => lengthRun 0x340 0 { u with rep1 := 1, rep2 := 2, rep3 := 3 })
      (p := fun _ v => !v.faulted && gives (distanceRun v.res.toNat { v with fsm := 7 }) fun w =>
        !w.faulted && w.res != 0xFFFFFFFF && decide (w.res.toNat + 1 ≤ 4)) (by decide +kernel)
  · exact decides_then (f := fun u => lengthRun 0x340 (posState decEosS) { u with
        rep1 := decEosS.rep0, rep2 := decEosS.rep1, rep3 := decEosS.rep2 })
      (p := fun _ v => !v.faulted && gives (distanceRun v.res.toNat { v with fsm := 10 }) fun w =>
        !w.faulted && w.res == 0xFFFFFFFF && w.code == 0) (by decide +kernel)

/-- With room for nothing at the sink the token faults IO_ERROR(OUT); and with 48 bytes left a check of its own faults it:
a rep on an empty window, a distance past POS, a length past the size, and the end marker with a size, with CODE not 0
and with bytes after it. -/
theorem witness_DecTokenNeedsAtMost48 : (Ready .decode dec48S ∧ dec48S.Inv ∧ 48 ≤ dec48S.source.length ∧
      ¬ sinkTakes 273 dec48S ∧ gives (exec .decToken dec48S) (fun t => t.faulted) = true) ∧
    [(decS 0xC0000000 (List.replicate 48 0), (0x0403 : Word)), (decS 0x80000000 (List.replicate 48 0), 0x0203),
      ({ decHistS 0x80000000 with source := List.replicate 48 0, policy := 0x100, usize := 5 }, 0x0703),
      ({ decEosS with source := decEosS.source ++ List.replicate 43 0, policy := 0x100, usize := 11 }, 0x0603),
      ({ decEosS with source := bytes [0xFF, 0xF8, 0x42, 0, 1] ++ List.replicate 43 0 }, 0x0503),
      ({ decEosS with source := decEosS.source ++ List.replicate 43 0, policy := 0x1000 }, 0x0803)].all
        (fun x => decide (48 ≤ x.1.source.length) && gives (exec .decToken x.1) fun t => faultWord t == x.2) = true :=
  ⟨⟨⟨rfl, rfl⟩, dec48S_inv, by decide, not_sinkTakes_of rfl (by decide), by decide +kernel⟩, by decide +kernel⟩

theorem witness_DecTokenCells : decEosS.Inv ∧ gives (exec .decToken decEosS) (fun _ => true) = true ∧
    ¬ TokenCell decEosS 0x744 := ⟨decEosS_inv, by decide +kernel, by unfold TokenCell; decide +kernel⟩

theorem witness_WindowResetAndPush : Ready .idle (winS [1]) ∧ encS.mode = .encode ∧ (decS 0 []).faulted = false ∧
    sinkTakes 1 (failAt 1 (decS 0 [])) ∧ ¬ sinkTakes 1 (failAt 0 (decS 0 [])) :=
  ⟨⟨rfl, rfl⟩, rfl, rfl, sinkTakes_of rfl (by decide), not_sinkTakes_of rfl (by decide)⟩

/-- The distances 1, the window's length, one past it, and one past the limit. -/
theorem witness_WindowReads :
    (1 ≤ (4 : Word).toNat ∧ (4 : Word).toNat ≤ (winS [1, 2, 3, 4]).window.length ∧
      (4 : Word).toNat ≤ windowLimit (winS [1, 2, 3, 4])) ∧
    (winS [1, 2, 3, 4]).window.length < (5 : Word).toNat ∧
    ((0x1001 : Word).toNat ≤ (List.replicate 0x1001 (0 : Byte)).length ∧
      windowLimit { State.reset with dictSize := 0, window := List.replicate 0x1001 0 } < (0x1001 : Word).toNat) ∧
    State.reset.window = [] ∧ (winS [1, 2]).window = [1] ++ [2] := by decide +kernel

theorem witness_CopyRepeats : Readable { winS [1, 2] with arg0 := 2 } (2 : Word).toNat ∧
    sinkTakes 3 (failAt 3 (decS 0 [])) ∧ (decS 0 []).mode ≠ .done ∧ ¬ Readable (winS [1, 2]) (3 : Word).toNat ∧
    ¬ Readable (winS [1, 2]) (0 : Word).toNat :=
  ⟨by unfold Readable; decide, sinkTakes_of rfl (by decide), by decide, by unfold Readable; decide,
    by unfold Readable; decide⟩

theorem witness_PropertiesCheck : propsValid 0x00040408 = true ∧ propsValid 0x00000500 = false ∧
    State.reset.faulted = false := by decide

theorem witness_HeaderWritten : Ready .idle State.reset ∧ propsValid State.reset.props = true ∧
    sinkTakes 13 (failAt 13 State.reset) ∧ (0x10 : Word).getLsbD 4 = true ∧ propsValid 0x00050000 = false ∧
    (failAt 12 State.reset).sinkFailAt = some 12 ∧ 12 < (failAt 12 State.reset).sink.length + (5 + 8) :=
  ⟨⟨rfl, rfl⟩, rfl, sinkTakes_of rfl (by decide), by decide, by decide, rfl, by decide⟩

/-- A whole header under READ; SKIP's five bytes; the reserved policy; byte 225; and a cut header. -/
theorem witness_HeaderRead :
    (Ready .idle (srcS [224, 0, 16, 0, 0, 1, 2, 3, 4, 5, 6, 7, 8, 9]) ∧
      (srcS [224, 0, 16, 0, 0, 1, 2, 3, 4, 5, 6, 7, 8, 9]).source =
        (224 :: [0, 16, 0, 0]) ++ [1, 2, 3, 4, 5, 6, 7, 8] ++ [9] ∧
      (0x000 : Word).extractLsb' 0 2 ≠ 3 ∧ (224 : Byte).toNat < 225) ∧
    (0x002 : Word).extractLsb' 0 2 = 2 ∧ (0x003 : Word).extractLsb' 0 2 = 3 ∧ 225 ≤ (225 : Byte).toNat ∧
    (Ready .idle (srcS [224, 0, 16, 0]) ∧ (∀ p rest, (srcS [224, 0, 16, 0]).source = p :: rest → p.toNat < 225) ∧
      (srcS [224, 0, 16, 0]).source.length < 5) :=
  ⟨by unfold Ready; decide, by decide, by decide, by decide, ⟨rfl, rfl⟩, fun p r h => by cases h; decide, by decide⟩

theorem witness_HeaderRoundTrip : Ready .idle State.reset ∧ propsValid State.reset.props = true ∧
    State.reset.props &&& 0x000F0F0F = State.reset.props ∧ State.reset.policy.getLsbD 4 = false ∧ State.reset.sink = [] ∧
    sinkTakes 13 (failAt 13 State.reset) ∧ State.reset.policy.extractLsb' 0 2 = 0 ∧
    ∀ l, Ready .idle { State.reset with source := l } ∧ ({ State.reset with source := l } : State).source = l :=
  ⟨⟨rfl, rfl⟩, by decide, by decide, by decide, rfl, sinkTakes_of rfl (by decide), by decide,
    fun _ => ⟨⟨rfl, rfl⟩, rfl⟩⟩

theorem witness_StepKeepsInv : (encCellS.withQueue [.write cmdAddr 0x11000001]).Inv ∧
    (faultS.withQueue [.write cmdAddr 0x01000000]).Inv ∧
    gives (step (encCellS.withQueue [.write cmdAddr 0x11000001])) (fun t => t != encCellS) = true ∧
    gives (step (faultS.withQueue [.write cmdAddr 0x01000000])) (fun t => t != faultS) = true :=
  ⟨⟨by constructor <;> decide, fun _ => by constructor <;> decide⟩, ⟨by constructor <;> decide, fun h => by cases h⟩,
    by decide +kernel, by decide +kernel⟩

theorem witness_StepNeverStops : decEosS.Inv ∧ encS.Inv ∧ State.reset.Inv := ⟨decEosS_inv, encS_inv, reset_inv⟩

end Sys2Proof.Tests
end

section
/-! PROOFS. A step whose access writes a command word to CMD (10_state.md R33). -/

namespace Sys2Proof.Machine

variable {s t u v : State}

/-! ## A step's command -/

theorem step_cmd {w : Word} {rest : List Access} {i : Instr} (hq : s.hostQueue = .write cmdAddr w :: rest)
    (hd : decode w = .ok i) : step s = exec i { s with hostQueue := rest } := by
  unfold step hostStep
  rw [hq]
  exact command_ok hd _

theorem withFetchWord_toNat (s : State) (w : Word) :
    s.withFetchWord 32 w.toNat = { s with hostQueue := .write cmdAddr w :: s.hostQueue } := by
  unfold State.withFetchWord queueCommand
  rw [Nat.mod_eq_of_lt w.isLt, BitVec.ofNat_toNat, BitVec.setWidth_eq]
  rfl

/-- Settles O5: the step performs the write to CMD, which runs the decoded command. -/
theorem stepRunsDecodedCommand : Obligations.StepRunsDecodedCommand := by
  refine ⟨fun s w rest i hq hd => step_cmd hq hd, fun s w i hd => ?_⟩
  rw [withFetchWord_toNat, step_cmd rfl hd]

end Sys2Proof.Machine
end

section
/-! PROOFS. DEC_TOKEN (42_symbol_fsm.md R220 to R228): its body as the commands for it, what each kind of token has done when it
completes, and what a token takes and how it is cut short. -/

namespace Sys2Proof.Machine

variable {s t u v : State}

/-! ## DEC_TOKEN as commands (42_symbol_fsm.md R220) -/

theorem isMatchCell_eq (st ps : Nat) : isMatchCell st ps = st * 16 + ps := by
  unfold isMatchCell
  omega

/-- In a match state the byte REP0 + 1 back can be read (R223). -/
theorem State.Live.readable (h : s.Live) (hm : s.mode = .decode) (h7 : 7 ≤ s.fsm.toNat) :
    Readable s (s.rep0.toNat + 1) :=
  ⟨by omega, h.matchReadable hm h7⟩

/-- DEC_TOKEN's body comes out as its decisions made with commands. -/
theorem comes_token (hr : Ready .decode s) (hi : s.Inv) : ComesEnd decToken (tokenRun s) s := by
  obtain ⟨hf, hm⟩ := hr
  obtain ⟨hs, hl⟩ := hi
  have hl := hl hf
  have hv : propsValid s.props = true := hs.propsOk (by rw [hm]; decide)
  have hst := hs.fsmLe
  have hps := posState_lt hv
  unfold decToken tokenRun
  refine ComesEnd.get ?_
  by_cases hk : knownSize s = some (posOf s)
  · rw [if_pos hk, if_pos hk]
    exact ⟨s.arg0, s.arg1, rfl⟩
  rw [if_neg hk, if_neg hk, ← isMatchCell_eq]
  refine (comes_decCell (x := s.arg0) (y := s.arg1) (r := s.res) (isMatchCell_valid hv hst) hf hm).bind
    fun isMatch t e hft hmt a b w hw => ?_
  have hz : (t.regs a b w).res = 0 ↔ isMatch = false := hw.zero
  cases isMatch with
  | false =>
    have hts : t.lessDecCells = s.lessDecCells :=
      (ends_of_run e).1 ((sameDecCells.cellDecision (a := isMatchCell s.fsm.toNat (posState s)) trivial) s)
    obtain ⟨r, c, k, n, p, rfl⟩ : ∃ r c k n p, t = { s with
        range := r, code := c, source := k, inCount := n, pram := p } := ⟨_, _, _, _, _, eq_of_lessDecCells hts⟩
    rw [if_neg (by decide), if_pos (hz.2 rfl)]
    exact comes_literal hv (hl.readable hm) hft hmt
  | true =>
    rw [if_pos rfl, if_neg (show ¬ (t.regs a b w).res = 0 by rw [hz]; decide)]
    refine (comes_decCell (by rw [cellValid_iff]; unfold isRepCell; omega) hft hmt).bind
      fun isRep t _ hf hm a b w hw => ?_
    have hz : (t.regs a b w).res = 0 ↔ isRep = false := hw.zero
    cases isRep with
    | false =>
      rw [if_neg (by decide), if_pos (hz.2 rfl)]
      exact comes_match hps hf hm
    | true =>
      rw [if_pos rfl, if_neg (show ¬ (t.regs a b w).res = 0 by rw [hz]; decide)]
      exact comes_rep hst hps hf hm

/-- A field that the blank `f` leaves is the same in states that agree on `f`. -/
theorem Same.field {α : Type} {f : State → State} (h : Same f s t) (g : State → α) (hg : ∀ u, g (f u) = g u) :
    g t = g s := by
  rw [← hg t, ← hg s, h]

/-- DEC_TOKEN is its decisions made one by one with commands, whatever happens on the way. -/
theorem exec_decToken_eq (hr : Ready .decode s) (hi : s.Inv) : exec .decToken s = asToken s (tokenRun s) := by
  refine (exec_inDecode hr.1 hr.2).trans (asToken_comes (comes_token hr hi) ?_).symm
  refine (decToken_leads s).mono (fun _ t h => ?_) fun _ t h => ?_
  · exact ⟨(h.field State.faulted fun _ => rfl).trans hr.1, h.field State.arg0 fun _ => rfl,
      h.field State.arg1 fun _ => rfl⟩
  · exact ⟨h.field State.arg0 fun _ => rfl, h.field State.arg1 fun _ => rfl, h.field State.res fun _ => rfl⟩

/-! ## How DEC_TOKEN ends -/

/-- DEC_TOKEN completes as one of the token kinds, or takes the fault that cut it short. -/
theorem exec_decToken_ends (hr : Ready .decode s) (hi : s.Inv) :
    (∃ t, exec .decToken s = .next t ∧ t.faulted = false ∧ TokenEnd s t) ∨
    ∃ c t, exec .decToken s = .next (t.takeFault c) ∧ Grows s t ∧ TokCut 48 s (.raise c) t := by
  obtain ⟨hf, hm⟩ := hr
  obtain ⟨hs, hl⟩ := hi
  have hrun := decToken_run (hl hf).rangeGe ⟨hs.pramWf, hs.cells⟩ (hs.propsOk (by rw [hm]; decide)) hs.fsmLe
  rw [show exec .decToken s = conclude (decToken s) from exec_inDecode hf hm]
  refine conclude_ends (P := fun o => (∃ t, o = .next t ∧ t.faulted = false ∧ TokenEnd s t) ∨
    ∃ c t, o = .next (t.takeFault c) ∧ Grows s t ∧ TokCut 48 s (.raise c) t) ?_
  refine ((hrun.and (decToken_leads s)).and (tokRel_grows.anyToken s)).mono ?_ ?_
  · rintro _ t ⟨⟨ht, hsame⟩, -⟩
    exact .inl ⟨t, rfl, (hsame.field State.faulted fun _ => rfl).trans hf, ht⟩
  · rintro e t ⟨⟨ht, -⟩, hg⟩
    obtain ⟨c, rfl, -⟩ := ht.cause
    exact .inr ⟨c, t, rfl, hg, ht⟩

/-! ## What a completed token has done -/

theorem Takes.congr {n : Nat} (h : Takes n s u) (hs : t.source = u.source) (hi : t.inCount = u.inCount) :
    Takes n s t := by
  obtain ⟨l, h1, h2, h3⟩ := h
  exact ⟨l, by rw [hs, h1], h2, by rw [hi, h3]⟩

theorem Takes.withRes {n : Nat} {w : Word} (h : Takes n s u) (hw : t.lessWindow = u.lessWindow) :
    Takes n s (t.withRes w) :=
  h.congr (Same.field (f := State.lessWindow) hw State.source fun _ => rfl)
    (Same.field (f := State.lessWindow) hw State.inCount fun _ => rfl)

/-- A token that completes takes at most 48 bytes (R228). -/
theorem TokenEnd.takes (h : TokenEnd s t) : Takes 48 s t := by
  cases h with
  | size hk => exact ⟨[], rfl, by simp, rfl⟩
  | lit u b h => exact (h.takes.mono (by omega)).withRes (lessWindow_appended u b)
  | shortRep u h hp hr => exact h.takes.withRes (lessWindow_appended u _)
  | rep u i k r h hp hi hk hf hr => exact h.takes.withRes (copied_lessWindow _ _ u)
  | newMatch u i d h hi hd hf hr => exact h.takes.withRes (copied_lessWindow _ _ u)
  | eos u h hk hc ht => exact h.takes

theorem TokMid.window {n f : Nat} {r : Word × Word × Word × Word} (h : TokMid n f r s u) : u.window = s.window :=
  h.field State.window fun _ => rfl

theorem TokMid.sink {n f : Nat} {r : Word × Word × Word × Word} (h : TokMid n f r s u) : u.sink = s.sink :=
  h.field State.sink fun _ => rfl

theorem TokMid.mode {n f : Nat} {r : Word × Word × Word × Word} (h : TokMid n f r s u) : u.mode = s.mode :=
  h.field State.mode fun _ => rfl

theorem TokMid.eachRep {n f : Nat} {a b c d : Word} (h : TokMid n f (a, b, c, d) s u) :
    u.rep0 = a ∧ u.rep1 = b ∧ u.rep2 = c ∧ u.rep3 = d := by
  simpa [State.reps] using h.reps

/-- A copy in DECODE appends its bytes to window and sink, each the byte `d` back from its place, and changes nothing else
(43_dictionary_window.md R267). -/
theorem copied_decode {d : Nat} (hm : u.mode = .decode) (hr : Readable u d) (len : Nat) : ∃ l, l.length = len ∧
    (∀ j < l.length, (u.window ++ l)[posOf u + j]? = (u.window ++ l)[posOf u + j - d]?) ∧
    u.copied d len = { u with
      window := u.window ++ l, sink := u.sink ++ l, outCount := u.outCount + l.length } := by
  obtain ⟨l, h1, -, h3, h4⟩ := copied_spec d len u hr.1 hr.2.1
  rw [if_pos hm, if_pos hm] at h4
  exact ⟨l, h1, fun j hj => h3 j (h1 ▸ hj), h4⟩

/-- What a token that copies `len` bytes at REP0 + 1 has done when it completes with RES `w`, STATE `f` and the reps. -/
structure CopyDone (len f : Nat) (r0 r1 r2 r3 w : Word) (s t : State) (l : List Byte) : Prop where
  length : l.length = len
  window : t.window = s.window ++ l
  sink : t.sink = s.sink ++ l
  mode : t.mode = .decode
  repeats : ∀ j < l.length, t.window[posOf s + j]? = t.window[posOf s + j - (t.rep0.toNat + 1)]?
  readable : Readable s (t.rep0.toNat + 1)
  res : t.res = w
  fsm : t.fsm.toNat = f
  rep0 : t.rep0 = r0
  rep1 : t.rep1 = r1
  rep2 : t.rep2 = r2
  rep3 : t.rep3 = r3

theorem TokMid.copyDone {n f : Nat} {r0 r1 r2 r3 : Word} (h : TokMid n f (r0, r1, r2, r3) s u) (hm : s.mode = .decode)
    (hr : Readable s (r0.toNat + 1)) (len : Nat) (w : Word) :
    ∃ l, CopyDone len f r0 r1 r2 r3 w s ((u.copied (r0.toNat + 1) len).withRes w) l := by
  obtain ⟨h0, h1, h2, h3⟩ := h.eachRep
  obtain ⟨l, hlen, hrep, e⟩ := copied_decode (h.mode.trans hm) ((h.readable _).2 hr) len
  rw [h.window, h.posOf] at hrep
  rw [e]
  subst h0
  exact ⟨l, hlen, congrArg (· ++ l) h.window, congrArg (· ++ l) h.sink, h.mode.trans hm, by rwa [← h.window] at hrep, hr,
    rfl, h.fsm, rfl, h1, h2, h3⟩

theorem posOf_append {l : List Byte} (hw : t.window = s.window ++ l) : posOf t = posOf s + l.length := by
  simp [posOf, hw]

/-- Before the known size is reached one byte fits. -/
theorem fitsOne (hk : knownSize s ≠ some (posOf s)) (n : Nat) (hn : knownSize s = some n) (hle : posOf s ≤ n) :
    posOf s + 1 ≤ n := by
  rcases Nat.lt_or_eq_of_le hle with h | h
  · exact h
  · exact absurd (h ▸ hn) hk

/-- At the known size DEC_TOKEN ends the session and does nothing else (R222). -/
theorem exec_decToken_size (hr : Ready .decode s) (hk : knownSize s = some (posOf s)) :
    exec .decToken s = .next ((s.withMode .done).withRes 0) := by
  refine (exec_inDecode hr.1 hr.2).trans ?_
  unfold decToken
  rw [bind_run, get_run]
  dsimp only
  rw [if_pos hk]
  rfl

/-- Settles O47: the first clause by the comparison of each piece of DEC_TOKEN with its commands, the second by the kinds a
token can end as. -/
theorem decTokenByKind : Obligations.DecTokenByKind := by
  intro s hr hi
  refine ⟨exec_decToken_eq hr hi, fun t et ht => ?_⟩
  have hm := hr.2
  by_cases hk : knownSize s = some (posOf s)
  · cases et.symm.trans (exec_decToken_size hr hk)
    refine ⟨[], by simp, by simp, fun n _ hle => hle, .inl ⟨rfl, rfl, rfl, hk⟩⟩
  have hend : TokenEnd s t := by
    rcases exec_decToken_ends hr hi with ⟨t', e, -, h⟩ | ⟨c, t', e, -, -⟩
    · cases et.symm.trans e
      exact h
    · cases et.symm.trans e
      cases ht
  cases hend with
  | size h => exact absurd h hk
  | lit u b h =>
    obtain ⟨h0, h1, h2, h3⟩ := h.eachRep
    rw [State.appended_decode (h.mode.trans hm)]
    have hw : u.window ++ [b] = s.window ++ [b] := by rw [h.window]
    exact ⟨[b], hw, congrArg (· ++ [b]) h.sink, fun n hn hle => (posOf_append hw).trans_le (fitsOne hk n hn hle),
      .inr (.inl ⟨rfl, rfl, h.mode.trans hm, h.fsm, h0, h1, h2, h3⟩)⟩
  | shortRep u h hp hr =>
    obtain ⟨l, c⟩ := h.copyDone hm hr 1 3
    have hw : windowByte u (s.rep0.toNat + 1) = windowByte s (s.rep0.toNat + 1) :=
      h.field (fun v => windowByte v (s.rep0.toNat + 1)) fun _ => rfl
    have hlen := c.length
    rw [← hw]
    exact ⟨l, c.window, c.sink,
      fun n hn hle => (posOf_append c.window).trans_le (hlen ▸ fitsOne hk n hn hle),
      .inr (.inr (.inr ⟨c.mode, c.repeats, by have := hr.2.1; omega, c.readable,
        .inr (.inl ⟨c.res, hlen, c.fsm, c.rep0, c.rep1, c.rep2, c.rep3⟩)⟩))⟩
  | rep u i k r h hp hi hk' hf hr =>
    obtain ⟨r0, r1, r2, r3⟩ := r
    obtain ⟨l, c⟩ := h.copyDone hm hr (i + 2) k.code
    have hlen := c.length
    refine ⟨l, c.window, c.sink, fun n hn _ => (posOf_append c.window).trans_le (hlen ▸ hf n hn),
      .inr (.inr (.inr ⟨c.mode, c.repeats, by have := hr.2.1; omega, c.readable,
        .inr (.inr ⟨by omega, by omega, c.fsm, ?_⟩)⟩))⟩
    rcases hk' with ⟨rfl, hr⟩ | ⟨rfl, hr⟩ | ⟨rfl, hr⟩ | ⟨rfl, hr⟩ <;> cases hr
    · exact .inl ⟨c.res, c.rep0, c.rep1, c.rep2, c.rep3⟩
    · exact .inr (.inl ⟨c.res, c.rep0, c.rep1, c.rep2, c.rep3⟩)
    · exact .inr (.inr (.inl ⟨c.res, c.rep0, c.rep1, c.rep2, c.rep3⟩))
    · exact .inr (.inr (.inr ⟨c.res, c.rep0, c.rep1, c.rep2, c.rep3⟩))
  | newMatch u i d h hi hd hf hr =>
    obtain ⟨l, c⟩ := h.copyDone hm hr (i + 2) 2
    have hlen := c.length
    exact ⟨l, c.window, c.sink, fun n hn _ => (posOf_append c.window).trans_le (hlen ▸ hf n hn),
      .inr (.inr (.inr ⟨c.mode, c.repeats, by have := hr.2.1; omega, c.readable,
        .inl ⟨c.res, by omega, by omega, c.fsm, c.rep0.symm ▸ hd, c.rep1, c.rep2, c.rep3⟩⟩))⟩
  | eos u h hk' hc hs =>
    obtain ⟨h0, h1, h2, h3⟩ := h.eachRep
    have hn : ∀ n, knownSize s ≠ some n := fun n => by rw [hk']; simp
    exact ⟨[], h.window.trans (List.append_nil _).symm, h.sink.trans (List.append_nil _).symm,
      fun n h _ => absurd h (hn n),
      .inr (.inr (.inl ⟨rfl, rfl, rfl, rfl, h.fsm, h0, h1, h2, h3, hc, hk', hs⟩))⟩

/-! ## Faults of DEC_TOKEN -/

/-- Nothing appended in DECODE is nothing delivered (43_dictionary_window.md R264). -/
theorem Grows.sink_eq (h : Grows s t) (hm : s.mode = .decode) (hw : t.window = s.window) : t.sink = s.sink := by
  obtain ⟨taken, given, new, -, -, hs, -, hw', hnew, -⟩ := h
  rw [hw'] at hw
  have hnil : new = [] := List.append_right_eq_self.1 hw
  rw [hs, ← hnew hm, hnil, List.append_nil]

/-- Settles O49: a token that completes or is cut short has taken at most 48 bytes, and what can cut it short says why. -/
theorem decTokenNeedsAtMost48 : Obligations.DecTokenNeedsAtMost48 := by
  intro s hr hi h48
  rcases exec_decToken_ends hr hi with ⟨t, e, hf, h⟩ | ⟨c, t, e, hg, hc⟩
  · obtain ⟨taken, h1, h2, -⟩ := h.takes
    exact ⟨t, taken, e, h1, h2, fun h => by rw [hf] at h; cases h⟩
  have hsink := hg.sink_eq hr.2
  obtain ⟨taken, -, -, htaken, -⟩ := hg
  have hlen : taken.length ≤ 48 := by
    have := hc.short
    rw [htaken, List.length_append] at this
    omega
  refine ⟨t.takeFault c, taken, e, htaken, hlen, fun _ => ?_⟩
  obtain ⟨c', hcc, hwhy⟩ := hc.cause
  cases hcc
  cases c with
  | truncated | ioErrorIn => exact absurd hwhy (Nat.not_lt.2 h48)
  | ioErrorOut => exact .inl ⟨rfl, rfl, hwhy⟩
  | distBeyondOutput =>
    obtain ⟨hw, h⟩ := hwhy
    exact .inr ⟨rfl, hw, hsink hw, .inl ⟨rfl, h⟩⟩
  | distBeyondDict =>
    obtain ⟨hw, h⟩ := hwhy
    exact .inr ⟨rfl, hw, hsink hw, .inr (.inl ⟨rfl, h⟩)⟩
  | repOnEmpty =>
    obtain ⟨hw, h⟩ := hwhy
    exact .inr ⟨rfl, hw, hsink hw, .inr (.inr (.inl ⟨rfl, h⟩))⟩
  | eosCodeNonzero =>
    obtain ⟨hw, h⟩ := hwhy
    exact .inr ⟨rfl, hw, hsink hw, .inr (.inr (.inr (.inl ⟨rfl, h⟩)))⟩
  | sizeMismatch =>
    obtain ⟨hw, h⟩ := hwhy
    exact .inr ⟨rfl, hw, hsink hw, .inr (.inr (.inr (.inr (.inl ⟨rfl, h⟩))))⟩
  | matchPastSize =>
    obtain ⟨hw, h⟩ := hwhy
    exact .inr ⟨rfl, hw, hsink hw, .inr (.inr (.inr (.inr (.inr (.inl ⟨rfl, h⟩)))))⟩
  | eosTrailing =>
    obtain ⟨hw, h⟩ := hwhy
    exact .inr ⟨rfl, hw, hsink hw, .inr (.inr (.inr (.inr (.inr (.inr ⟨rfl, h⟩)))))⟩
  | headerTooShort | invalidProperties | illegalCommand | illegalOperand | sequenceError | dictTooLarge | invalidConfig =>
    exact hwhy.elim

end Sys2Proof.Machine
end

section
/-! PROOFS. Which decisions give which token (42_symbol_fsm.md R220), and that it completes. -/

namespace Sys2Proof.Machine

variable {s t u v w x : State} {o : Host.Outcome State Fault Refusal}

/-! ## What a decision made with commands leaves alone -/

/-- The state without what the decoder's commands write, and ARG0 and ARG1, which they are given. -/
def State.lessPiece (s : State) : State := { s.lessDecCells with arg0 := 0, arg1 := 0, res := 0 }

/-- The same without STATE and the reps. -/
def State.lessMid (s : State) : State := { s.lessPiece with fsm := 0, rep0 := 0, rep1 := 0, rep2 := 0, rep3 := 0 }

theorem eq_of_lessMid (h : Same State.lessMid s t) : t = { s with
    range := t.range, code := t.code, source := t.source, inCount := t.inCount, pram := t.pram, arg0 := t.arg0,
    arg1 := t.arg1, res := t.res, fsm := t.fsm, rep0 := t.rep0, rep1 := t.rep1, rep2 := t.rep2, rep3 := t.rep3 } := by
  cases t; cases s; cases h; rfl

/-- Midway through a token's commands: STATE and the reps as given, and only what a decision writes changed beside. -/
structure Midway (s x : State) (f : BitVec 4) (r0 r1 r2 r3 : Word) : Prop where
  only : Same State.lessMid s x
  fsm : x.fsm = f
  rep0 : x.rep0 = r0
  rep1 : x.rep1 = r1
  rep2 : x.rep2 = r2
  rep3 : x.rep3 = r3

variable {f : BitVec 4} {r0 r1 r2 r3 : Word}

theorem Midway.quiet (h : Midway s x f r0 r1 r2 r3) (h' : Same State.lessPiece x v) : Midway s v f r0 r1 r2 r3 where
  only := Same.trans _ _ _ h.only (h'.coarser (g := State.lessMid) fun _ => rfl)
  fsm := (h'.field State.fsm fun _ => rfl).trans h.fsm
  rep0 := (h'.field State.rep0 fun _ => rfl).trans h.rep0
  rep1 := (h'.field State.rep1 fun _ => rfl).trans h.rep1
  rep2 := (h'.field State.rep2 fun _ => rfl).trans h.rep2
  rep3 := (h'.field State.rep3 fun _ => rfl).trans h.rep3

theorem Same.midway (h : Same State.lessPiece s x) : Midway s x s.fsm s.rep0 s.rep1 s.rep2 s.rep3 :=
  Midway.quiet ⟨Same.refl s, rfl, rfl, rfl, rfl, rfl⟩ h

theorem Midway.setFsm (h : Midway s x f r0 r1 r2 r3) (g : BitVec 4) : Midway s { x with fsm := g } g r0 r1 r2 r3 :=
  ⟨h.only, rfl, h.rep0, h.rep1, h.rep2, h.rep3⟩

theorem Midway.setRep0 (h : Midway s x f r0 r1 r2 r3) (r : Word) : Midway s { x with rep0 := r } f r r1 r2 r3 :=
  ⟨h.only, h.fsm, rfl, h.rep1, h.rep2, h.rep3⟩

theorem Midway.setReps (h : Midway s x f r0 r1 r2 r3) (a b c d : Word) : Midway s (x.withReps a b c d) f a b c d :=
  ⟨h.only, h.fsm, rfl, rfl, rfl, rfl⟩

theorem Midway.ready (h : Midway s x f r0 r1 r2 r3) (hs : Ready .decode s) : Ready .decode x :=
  ⟨(h.only.field State.faulted fun _ => rfl).trans hs.1, (h.only.field State.mode fun _ => rfl).trans hs.2⟩

theorem Midway.pos {d : Nat} (h : Midway s x f r0 r1 r2 r3) (hr : Readable s d) : posOf x ≠ 0 := by
  rw [h.only.field posOf fun _ => rfl]
  have := hr.1.trans hr.2.1
  omega

theorem Midway.readable (h : Midway s x f r0 r1 r2 r3) (d : Nat) : Readable x d = Readable s d :=
  h.only.field (fun y => Readable y d) fun _ => rfl

/-- Where `o` came out without a fault, only what a decision writes has changed since `s`. -/
def Quiet (s : State) (o : Host.Outcome State Fault Refusal) : Prop :=
  ∀ t, o = .next t → t.faulted = false → Same State.lessPiece s t

theorem Quiet.exec {i : Instr} (hi : i ≠ .sessionReset) (hb : ∀ s, (doneBlank i s).lessPiece = s.lessPiece) (s : State) :
    Quiet s (exec i s) := by
  intro t e ht
  rcases exec_went hi e with ⟨hf, rfl⟩ | ⟨-, h⟩ | ⟨-, u, c, -, rfl⟩
  · exact Same.refl _
  · exact h.coarser hb
  · cases ht

theorem Quiet.runAt {i : Instr} (hi : i ≠ .sessionReset) (hb : ∀ s, (doneBlank i s).lessPiece = s.lessPiece) (a : Nat)
    (s : State) : Quiet s (runAt i a s) :=
  fun t e ht => Same.trans s (s.withArg0 (BitVec.ofNat 32 a)) t rfl (Quiet.exec hi hb _ t e ht)

theorem Quiet.bit (a : Nat) (s : State) : Quiet s (Machine.runAt .rcDecBit a s) := Quiet.runAt (by simp) (fun _ => rfl) a s

theorem Quiet.tree (n a : Nat) (s : State) : Quiet s (Machine.runAt (.rcDecTree n) a s) :=
  Quiet.runAt (by simp) (fun _ => rfl) a s

theorem Quiet.rtree (n a : Nat) (s : State) : Quiet s (Machine.runAt (.rcDecRtree n) a s) :=
  Quiet.runAt (by simp) (fun _ => rfl) a s

theorem Quiet.direct (n : Nat) (s : State) : Quiet s (Machine.exec (.rcDecDirect n) s) :=
  Quiet.exec (by simp) (fun _ => rfl) s

theorem Quiet.addRes (n : Nat) (s : State) : Quiet s (addRes n s) := by
  rintro t ⟨⟩ -
  rfl

theorem Quiet.ifRuns {h : State → Host.Outcome State Fault Refusal} (ho : Quiet s o) (hh : ∀ t, Quiet t (h t)) :
    Quiet s (ifRuns o h) := by
  intro v e hv
  cases o with
  | next t =>
    cases hf : t.faulted with
    | true =>
      have : ifRuns (.next t) h = .next t := by simp [Machine.ifRuns, andThen, hf]
      cases e.symm.trans this
      rw [hf] at hv
      cases hv
    | false =>
      rw [ifRuns_runs hf] at e
      exact Same.trans s t v (ho t rfl hf) (hh t v e hv)
  | fault f => cases e
  | refused r => cases e

theorem lengthRun_quiet (l ps : Nat) (s : State) : Quiet s (lengthRun l ps s) := by
  refine (Quiet.bit _ _).ifRuns fun t => ?_
  split
  · exact Quiet.tree _ _ _
  refine (Quiet.bit _ _).ifRuns fun u => ?_
  split
  · exact (Quiet.tree _ _ _).ifRuns fun _ => Quiet.addRes _ _
  · exact (Quiet.tree _ _ _).ifRuns fun _ => Quiet.addRes _ _

theorem distanceRun_quiet (i : Nat) (s : State) : Quiet s (distanceRun i s) := by
  refine (Quiet.tree _ _ _).ifRuns fun t => ?_
  split
  · rintro u ⟨⟩ -
    rfl
  split
  · exact (Quiet.rtree _ _ _).ifRuns fun _ => Quiet.addRes _ _
  · exact (Quiet.direct _ _).ifRuns fun _ => (Quiet.rtree _ _ _).ifRuns fun _ => Quiet.addRes _ _

/-- Commands that came out without a fault stand for a run that ended with a value, which is in RES. -/
theorem Comes.value {α : Type} {y : Cmd α} {val : α → Word → Prop} (h : Comes y val (.next v) u)
    (hv : v.faulted = false) : ∃ i t, y u = .ok i t ∧ val i v.res := by
  unfold Comes ComesTo at h
  split at h
  · rename_i i t e
    obtain ⟨-, -, a, b, w, hw, hvt⟩ := h
    cases hvt
    exact ⟨i, t, e, hw⟩
  · obtain ⟨a, b, r, hvt⟩ := h
    cases hvt
    cases hv
  · cases h

/-- A length field that decodes without a fault is at most 271 (R224). -/
theorem lengthRun_le {l ps : Nat} (hl : l = 0x340 ∨ l = 0x542) (hps : ps < 16) (hu : Ready .decode u)
    (e : lengthRun l ps u = .next v) (hv : v.faulted = false) : v.res.toNat ≤ 271 := by
  have h : Comes (lenDecode l ps) IsNumber (lengthRun l ps u) u :=
    comes_length (x := u.arg0) (y := u.arg1) (r := u.res) hl hps hu.1 hu.2
  rw [e] at h
  obtain ⟨i, t, hi, hres⟩ := h.value hv
  have := lenDecode_le hi
  exact (isNumber_toNat hres (by omega)).trans_le this

/-! ## The decisions a list gives -/

theorem res_zero_iff {b : Bool} (h : t.res.toNat = b.toNat) : t.res = 0 ↔ b = false := by
  rw [← BitVec.toNat_inj, h]
  cases b <;> simp

/-- The first decision of a list picks its branch. -/
theorem Decides.branch {a : Nat} {bit : Bool} {rest : List (Nat × Bool)} (h : Decides ((a, bit) :: rest) s u) :
    ∃ t, Same State.lessPiece s t ∧ Decides rest t u ∧
      ∀ f g : State → Host.Outcome State Fault Refusal,
        ifRuns (runAt .rcDecBit a s) (fun t => if t.res = 0 then f t else g t) = if bit then g t else f t := by
  obtain ⟨t, e, ht, hbit, hrest⟩ := h
  refine ⟨t, Quiet.bit a s t e ht, hrest, fun f g => ?_⟩
  rw [e, ifRuns_runs ht]
  cases bit with
  | true => rw [if_neg (by rw [res_zero_iff hbit]; decide), if_pos rfl]
  | false => rw [if_pos ((res_zero_iff hbit).2 rfl), if_neg (by decide)]

theorem tokenRun_match (hk : knownSize s ≠ some (posOf s))
    (h : Decides [(s.fsm.toNat * 16 + posState s, true), (0x0C0 + s.fsm.toNat, false)] s u) :
    tokenRun s = matchRun s.fsm.toNat (posState s) u ∧ Same State.lessPiece s u := by
  obtain ⟨t, st, h, et⟩ := h.branch
  obtain ⟨_, tu, rfl, eu⟩ := h.branch
  unfold tokenRun
  rw [if_neg hk, et, if_pos rfl, eu]
  exact ⟨rfl, Same.trans _ _ _ st tu⟩

theorem tokenRun_rep (hk : knownSize s ≠ some (posOf s)) {path : List (Nat × Bool)}
    (h : Decides ((s.fsm.toNat * 16 + posState s, true) :: (0x0C0 + s.fsm.toNat, true) :: path) s u) :
    ∃ t, tokenRun s = repRun s.fsm.toNat (posState s) t ∧ Same State.lessPiece s t ∧ Decides path t u := by
  obtain ⟨t, st, h, et⟩ := h.branch
  obtain ⟨v, tv, h, ev⟩ := h.branch
  unfold tokenRun
  rw [if_neg hk, et, if_pos rfl, ev]
  exact ⟨v, rfl, Same.trans _ _ _ st tv, h⟩

section

variable {st ps : Nat} (hp : posOf s ≠ 0)
include hp

/-- After IS_REP_G0 = 0 the flag IS_REP0_LONG tells REP0 with a length from SHORTREP. -/
theorem repRun_rep0 {long : Bool} (h : Decides [(0x0CC + st, false), (0x0F0 + st * 16 + ps, long)] s u) :
    repRun st ps s = (if long then repLengthRun st ps 4 u
      else copyRun 1 3 { u with fsm := if st < 7 then 9 else 11 }) ∧ Same State.lessPiece s u := by
  obtain ⟨t, hst, h, et⟩ := h.branch
  obtain ⟨_, htu, rfl, eu⟩ := h.branch
  unfold repRun
  rw [if_neg hp, et, if_neg Bool.false_ne_true, eu]
  exact ⟨rfl, Same.trans _ _ _ hst htu⟩

theorem repRun_rep1 (h : Decides [(0x0CC + st, true), (0x0D8 + st, false)] s u) :
    repRun st ps s = repLengthRun st ps 5 (frontRep1 u) ∧ Same State.lessPiece s u := by
  obtain ⟨t, hst, h, et⟩ := h.branch
  obtain ⟨_, htu, rfl, eu⟩ := h.branch
  unfold repRun
  rw [if_neg hp, et, if_pos rfl, eu]
  exact ⟨rfl, Same.trans _ _ _ hst htu⟩

/-- After IS_REP_G1 = 1 the flag IS_REP_G2 tells REP3 from REP2. -/
theorem repRun_rep2or3 {g2 : Bool} (h : Decides [(0x0CC + st, true), (0x0D8 + st, true), (0x0E4 + st, g2)] s u) :
    repRun st ps s = (if g2 then repLengthRun st ps 7 (frontRep3 u) else repLengthRun st ps 6 (frontRep2 u)) ∧
      Same State.lessPiece s u := by
  obtain ⟨t, hst, h, et⟩ := h.branch
  obtain ⟨v, htv, h, ev⟩ := h.branch
  obtain ⟨_, hvu, rfl, eu⟩ := h.branch
  unfold repRun
  rw [if_neg hp, et, if_pos rfl, ev, if_pos rfl, eu]
  exact ⟨rfl, Same.trans _ _ _ hst (Same.trans _ _ _ htv hvu)⟩

end

/-! ## The copy at a token's end -/

theorem copyMatch_run {d n : Nat} (hr : Readable u d) (ht : sinkTakes n u) :
    copyMatch d n u = .ok () (u.copied d n) := by
  have h := ends_copyMatch d n u
  unfold Ends at h
  split at h
  · rename_i e
    rw [e, h.2]
  · obtain ⟨h1, h2, h3⟩ := hr
    rcases h with ⟨⟨-, h⟩ | ⟨-, -, h⟩, -⟩ | ⟨-, -, h, -⟩
    · omega
    · omega
    · exact absurd ht h

theorem asToken_next (hf : t.faulted = false) :
    asToken s (.next t) = .next { t with arg0 := s.arg0, arg1 := s.arg1 } := by
  simp [asToken, mapNext, andThen, hf]

/-- The token with the copy of `n` bytes done: STATE, the reps and RES set, and the cells and the coder as in `x`. -/
def CopyCompletes (s x : State) (n : Nat) (f : BitVec 4) (r0 r1 r2 r3 kind : Word)
    (o : Host.Outcome State Fault Refusal) : Prop :=
  ∃ l, l.length = n ∧
    (∀ j < l.length, (s.window ++ l)[posOf s + j]? = (s.window ++ l)[posOf s + j - (r0.toNat + 1)]?) ∧
    o = .next { s with
      range := x.range, code := x.code, source := x.source, inCount := x.inCount, pram := x.pram,
      fsm := f, rep0 := r0, rep1 := r1, rep2 := r2, rep3 := r3,
      window := s.window ++ l, sink := s.sink ++ l, outCount := s.outCount + l.length, res := kind }

/-- A copy that the window and the sink allow completes (R227). -/
theorem copyRun_completes (hx : Ready .decode x) {n : Nat} (hn : n < 2 ^ 32) (hr : Readable x (x.rep0.toNat + 1))
    (ht : sinkTakes n x) (k : TokenKind) : ∃ l a b, l.length = n ∧
    (∀ j < l.length, (x.window ++ l)[posOf x + j]? = (x.window ++ l)[posOf x + j - (x.rep0.toNat + 1)]?) ∧
    copyRun n k.code x = .next { x with
      window := x.window ++ l, sink := x.sink ++ l, outCount := x.outCount + l.length, arg0 := a, arg1 := b,
      res := k.code } := by
  have hc : ComesEnd (do copyMatch (x.rep0.toNat + 1) n; report k) (copyRun n k.code x) x :=
    comes_copy (x := x.arg0) (y := x.arg1) (r := x.res) n hn k hx.1 hx.2
  obtain ⟨l, hlen, hrep, e⟩ := copied_decode hx.2 hr n
  unfold ComesEnd ComesTo at hc
  rw [bind_run, copyMatch_run hr ht, e] at hc
  obtain ⟨a, b, hc⟩ := hc
  exact ⟨l, a, b, hlen, hrep, hc⟩

theorem asToken_copyRun (hs : Ready .decode s) (hx : Midway s x f r0 r1 r2 r3) {n : Nat} (hn : n < 2 ^ 32)
    (hr : Readable s (r0.toNat + 1)) (ht : sinkTakes n s) (k : TokenKind) :
    CopyCompletes s x n f r0 r1 r2 r3 k.code (asToken s (copyRun n k.code x)) := by
  have hready := hx.ready hs
  have htx : sinkTakes n x = sinkTakes n s := hx.only.field (fun y => sinkTakes n y) fun _ => rfl
  have hrx := hx.readable (r0.toNat + 1)
  obtain ⟨only, rfl, rfl, rfl, rfl, rfl⟩ := hx
  obtain ⟨l, a, b, hlen, hrep, e⟩ := copyRun_completes hready hn (hrx ▸ hr) (htx ▸ ht) k
  have hw : x.window = s.window := only.field State.window fun _ => rfl
  have hp : posOf x = posOf s := only.field posOf fun _ => rfl
  rw [hw, hp] at hrep
  refine ⟨l, hlen, hrep, ?_⟩
  rw [e, asToken_next (t := { x with
      window := x.window ++ l, sink := x.sink ++ l, outCount := x.outCount + l.length, arg0 := a, arg1 := b,
      res := k.code }) hready.1]
  rw [eq_of_lessMid only]

theorem asToken_sizedCopy (hs : Ready .decode s) (hx : Midway s x f r0 r1 r2 r3) {n : Nat} (hn : n < 2 ^ 32)
    (hfit : FitsSize s n) (hr : Readable s (r0.toNat + 1)) (ht : sinkTakes n s) (k : TokenKind) :
    CopyCompletes s x n f r0 r1 r2 r3 k.code (asToken s (sizedCopyRun n k.code x)) := by
  have hk : knownSize x = knownSize s := hx.only.field knownSize fun _ => rfl
  have hp : posOf x = posOf s := hx.only.field posOf fun _ => rfl
  have hsize : ¬ (knownSize s).any (fun size => size < posOf s + n) = true := by
    cases hks : knownSize s with
    | none => simp
    | some size => simpa using hfit size hks
  unfold sizedCopyRun
  rw [hk, hp, if_neg hsize]
  exact asToken_copyRun hs hx hn hr ht k

/-- A rep token after its flags completes when its length field does and the copy may (R217, R220). -/
theorem asToken_repLength (hs : Ready .decode s) (hps : posState s < 16) (hx : Midway s x s.fsm r0 r1 r2 r3)
    (hlen : lengthRun 0x542 (posState s) x = .next v) (hv : v.faulted = false) (hfit : FitsSize s (v.res.toNat + 2))
    (hr : Readable s (r0.toNat + 1)) (ht : sinkTakes (v.res.toNat + 2) s) (k : TokenKind) :
    CopyCompletes s v (v.res.toNat + 2) (if s.fsm.toNat < 7 then 8 else 11) r0 r1 r2 r3 k.code
      (asToken s (repLengthRun s.fsm.toNat (posState s) k.code x)) := by
  have hle := lengthRun_le (.inr rfl) hps (hx.ready hs) hlen hv
  unfold repLengthRun
  rw [hlen, ifRuns_runs hv]
  exact asToken_sizedCopy hs ((hx.quiet (lengthRun_quiet _ _ _ v hlen hv)).setFsm _) (by omega) hfit hr ht k

/-- A MATCH token after its length and distance fields: what they leave alone, and how it goes on (R216, R220). -/
theorem matchRun_fields (hs : Ready .decode s) (hps : posState s < 16) (hu : Same State.lessPiece s u)
    (hlen : lengthRun 0x340 (posState s) (u.withReps u.rep0 s.rep0 s.rep1 s.rep2) = .next v) (hv : v.faulted = false)
    (hdist : distanceRun v.res.toNat { v with fsm := if s.fsm.toNat < 7 then 7 else 10 } = .next w)
    (hw : w.faulted = false) :
    v.res.toNat ≤ 271 ∧
    Midway s { w with rep0 := w.res } (if s.fsm.toNat < 7 then 7 else 10) w.res s.rep0 s.rep1 s.rep2 ∧
    matchRun s.fsm.toNat (posState s) u = if w.res = 0xFFFFFFFF then endMarkerRun { w with rep0 := w.res }
      else sizedCopyRun (v.res.toNat + 2) 2 { w with rep0 := w.res } := by
  have hx := hu.midway.setReps u.rep0 s.rep0 s.rep1 s.rep2
  have hle := lengthRun_le (.inl rfl) hps (hx.ready hs) hlen hv
  have hsv := hx.quiet (lengthRun_quiet _ _ _ v hlen hv)
  have hsw := (hsv.setFsm _).quiet (distanceRun_quiet _ _ w hdist hw)
  refine ⟨hle, hsw.setRep0 w.res, ?_⟩
  obtain ⟨-, -, h0, h1, h2, -⟩ := hu.midway
  rw [← h0, ← h1, ← h2] at hlen
  have hlen : lengthRun 0x340 (posState s) { u with rep1 := u.rep0, rep2 := u.rep1, rep3 := u.rep2 } = .next v := hlen
  unfold matchRun
  rw [hlen, ifRuns_runs hv, hdist, ifRuns_runs hw]

/-- The end marker completes when its checks pass (R221). -/
theorem asToken_endMarker (hs : Ready .decode s) (hx : Midway s x f r0 r1 r2 r3)
    (hk : knownSize s = none) (hc : x.code = 0) (ht : s.policy.getLsbD 12 = true → x.source = []) :
    asToken s (endMarkerRun x) = .next { s with
      range := x.range, code := 0, source := x.source, inCount := x.inCount, pram := x.pram,
      fsm := f, rep0 := r0, rep1 := r1, rep2 := r2, rep3 := r3, mode := .done, eosSeen := true, res := 8 } := by
  have hf := (hx.ready hs).1
  obtain ⟨only, rfl, rfl, rfl, rfl, rfl⟩ := hx
  have hks : knownSize x = none := (only.field knownSize fun _ => rfl).trans hk
  have hpol : x.policy = s.policy := only.field State.policy fun _ => rfl
  have hrun : endMarkerRun x = .next { x with eosSeen := true, mode := .done, res := 8 } := by
    unfold endMarkerRun
    rw [if_neg (not_not.2 hks), if_neg (not_not.2 hc), hpol, if_neg fun h => h.2 (ht h.1)]
  rw [hrun, asToken_next (t := { x with eosSeen := true, mode := .done, res := 8 }) hf, ← hc]
  rw [eq_of_lessMid only]

/-- The byte a copy of one byte appends is the one it reads. -/
theorem copied_one {d : Nat} {b : Byte} (hr : Readable s d)
    (h : ∀ j < [b].length, (s.window ++ [b])[posOf s + j]? = (s.window ++ [b])[posOf s + j - d]?) :
    s.window[posOf s - d]? = some b := by
  obtain ⟨h1, h2, -⟩ := hr
  have h := h 0 (by simp)
  unfold posOf at *
  rw [Nat.add_zero, List.getElem?_concat_length, List.getElem?_append_left (by omega)] at h
  exact h.symm

/-- Settles O48: each clause runs the token's commands along the decisions it names. -/
theorem decTokenKindsComplete : Obligations.DecTokenKindsComplete := by
  intro s u v w hs hi hk
  have hps : posState s < 16 := posState_lt (hi.1.propsOk (by rw [hs.2]; decide))
  rw [exec_decToken_eq hs hi]
  refine ⟨fun hd hr ht => ?_, fun kind r0 r1 r2 r3 path hpath hd hlen hv hfit hr ht => ?_,
    fun hd hlen hv hdist hw => ?_⟩
  · obtain ⟨t, e, hst, hd⟩ := tokenRun_rep hk hd
    obtain ⟨e', htu⟩ := repRun_rep0 (hst.midway.pos hr) hd
    obtain ⟨l, hl, hrep, e''⟩ := asToken_copyRun hs
      ((hst.midway.quiet htu).setFsm (if s.fsm.toNat < 7 then 9 else 11)) (n := 1) (by omega) hr ht .shortRep
    obtain ⟨b, rfl⟩ := List.length_eq_one_iff.1 hl
    rw [e, e', if_neg Bool.false_ne_true]
    exact ⟨b, copied_one hr hrep, e''⟩
  · simp only [List.mem_cons, Prod.mk.injEq, List.not_mem_nil, or_false] at hpath
    obtain ⟨t, e, hst, hd'⟩ := tokenRun_rep hk hd
    have hp := hst.midway.pos hr
    rw [e]
    rcases hpath with ⟨rfl, rfl, rfl, rfl, rfl, rfl⟩ | ⟨rfl, rfl, rfl, rfl, rfl, rfl⟩ | ⟨rfl, rfl, rfl, rfl, rfl, rfl⟩ |
      ⟨rfl, rfl, rfl, rfl, rfl, rfl⟩
    · obtain ⟨e', htu⟩ := repRun_rep0 hp hd'
      have hm := hst.midway.quiet htu
      rw [← hm.rep0, ← hm.rep1, ← hm.rep2, ← hm.rep3] at hlen
      rw [e', if_pos rfl]
      exact asToken_repLength hs hps hm hlen hv hfit hr ht .rep0
    · obtain ⟨e', htu⟩ := repRun_rep1 hp hd'
      have hm := hst.midway.quiet htu
      rw [e', frontRep1, hm.rep0, hm.rep1, hm.rep2, hm.rep3]
      exact asToken_repLength hs hps (hm.setReps _ _ _ _) hlen hv hfit hr ht .rep1
    · obtain ⟨e', htu⟩ := repRun_rep2or3 hp hd'
      have hm := hst.midway.quiet htu
      rw [e', if_neg Bool.false_ne_true, frontRep2, hm.rep0, hm.rep1, hm.rep2, hm.rep3]
      exact asToken_repLength hs hps (hm.setReps _ _ _ _) hlen hv hfit hr ht .rep2
    · obtain ⟨e', htu⟩ := repRun_rep2or3 hp hd'
      have hm := hst.midway.quiet htu
      rw [e', if_pos rfl, frontRep3, hm.rep0, hm.rep1, hm.rep2, hm.rep3]
      exact asToken_repLength hs hps (hm.setReps _ _ _ _) hlen hv hfit hr ht .rep3
  · obtain ⟨e, hsu⟩ := tokenRun_match hk hd
    obtain ⟨hle, hx, e'⟩ := matchRun_fields hs hps hsu hlen hv hdist hw
    rw [e, e']
    refine ⟨fun hne hfit hr ht => ?_, fun heq hks hc ht => ?_⟩
    · rw [if_neg hne]
      exact asToken_sizedCopy hs hx (by omega) hfit hr ht .newMatch
    · rw [heq] at hx
      rw [if_pos heq, heq]
      exact asToken_endMarker hs hx hks hc ht

end Sys2Proof.Machine
end

section
/-! PROOFS. What a command that completes has run, and what holds of one however it ends (60_exceptions.md R323): the facts
that every statement about all commands is drawn from. -/

namespace Sys2Proof.Machine

variable {i : Instr} {s t u : State} {α : Type} {modes : List Mode} {body : Cmd Unit}

/-- What holds of a command however it ends: refused while FAULTED, in a wrong mode, and as its body ends. -/
theorem issue_ends {P : State → Prop} (e : issue modes body s = .next t) (h0 : s.faulted = true → P s)
    (h1 : s.faulted = false → P (s.takeFault .sequenceError))
    (h2 : s.faulted = false → s.mode ∈ modes → Ends body s (fun _ t => P t) fun _ t => ∀ c, P (t.takeFault c)) :
    P t := by
  rcases issue_cases modes body s with ⟨hf, h⟩ | ⟨hf, -, h⟩ | ⟨hf, hm, h⟩ <;> rw [h] at e
  · cases e
    exact h0 hf
  · cases e
    exact h1 hf
  · refine conclude_ends (P := fun o => o = .next t → P t) ((h2 hf (by simpa using hm)).mono ?_ ?_) e
    · rintro _ u hu ⟨⟩
      exact hu
    · rintro (c | f) u hu
      · rintro ⟨⟩
        exact hu c
      · rintro ⟨⟩

/-- A command that does not end FAULTED ran its body to the end, in one of its modes. -/
theorem issue_completes (e : issue modes body s = .next t) (ht : t.faulted = false) :
    s.mode ∈ modes ∧ body s = .ok () t := by
  revert ht
  refine issue_ends (P := fun t => t.faulted = false → s.mode ∈ modes ∧ body s = .ok () t) e (fun h h' => ?_)
    (fun _ h => by cases h) fun _ hm => ?_
  · rw [h] at h'
    cases h'
  · unfold Ends
    split
    · exact fun _ => ⟨hm, by assumption⟩
    · exact fun _ h => by cases h

theorem doneBlank_faulted (hi : i ≠ .sessionReset) (s : State) : (doneBlank i s).faulted = s.faulted := by
  cases i with
  | sessionReset => exact absurd rfl hi
  | _ => rfl

/-- What a command that completes may not write (`doneBlank`) is as before. -/
theorem exec_done_same (hi : i ≠ .sessionReset) (e : exec i s = .next t) (ht : t.faulted = false) :
    Same (doneBlank i) s t := by
  rcases exec_went hi e with ⟨-, rfl⟩ | ⟨-, h⟩ | ⟨-, u, c, -, rfl⟩
  · exact Same.refl _
  · exact h
  · cases ht

/-- A field that neither a fault nor an unfinished command writes is as before when a command ends FAULTED. -/
theorem exec_fault_keeps {g : State → α} (hg : ∀ u, g (faultBlank i u) = g u) (hc : ∀ u c, g (u.takeFault c) = g u)
    (e : exec i s = .next t) (ht : t.faulted = true) : g t = g s := by
  by_cases hi : i = .sessionReset
  · subst hi
    cases e
    cases ht
  rcases exec_went hi e with ⟨-, rfl⟩ | ⟨hf, h⟩ | ⟨-, u, c, h, rfl⟩
  · rfl
  · rw [h.field State.faulted (doneBlank_faulted hi), hf] at ht
    cases ht
  · exact (hc u c).trans (h.field g hg)

/-- A field that a completed command does not write, nor a fault, is as before however the command ends. -/
theorem exec_keeps {g : State → α} (hi : i ≠ .sessionReset) (hg : ∀ u, g (doneBlank i u) = g u)
    (hc : ∀ u c, g (u.takeFault c) = g u) (e : exec i s = .next t) : g t = g s := by
  cases ht : t.faulted with
  | false => exact (exec_done_same hi e ht).field g hg
  | true =>
    refine exec_fault_keeps (fun u => ?_) hc e ht
    rw [← hg, doneBlank_faultBlank, hg]

/-! ## The checks before a body's effects -/

variable {E : Stop → State → Prop}

theorem ends_cellOperand {Q : Nat → State → Prop} (hq : cellValid s.arg0.toNat = true → Q s.arg0.toNat s)
    (he : E (.raise .illegalOperand) s) : Ends cellOperand s Q E := by
  unfold cellOperand
  rw [ends_bind, ends_get, ends_bind]
  exact Ends.check hq fun _ => he

theorem ends_probOperand {Q : Nat → State → Prop} (hq : 1 ≤ s.arg0.toNat → s.arg0.toNat ≤ 2047 → Q s.arg0.toNat s)
    (he : E (.raise .illegalOperand) s) : Ends probOperand s Q E := by
  unfold probOperand
  rw [ends_bind, ends_get, ends_bind]
  exact Ends.check (fun h => by
    obtain ⟨h1, h2⟩ := (by simpa using h : 1 ≤ s.arg0.toNat ∧ s.arg0.toNat ≤ 2047)
    exact hq h1 h2) fun _ => he

theorem ends_treeBaseOperand {n : Nat} {Q : Nat → State → Prop}
    (hq : (∀ x, 1 ≤ x → x < 2 ^ n → cellValid (s.arg0.toNat + x) = true) → Q s.arg0.toNat s)
    (he : E (.raise .illegalOperand) s) : Ends (treeBaseOperand n) s Q E := by
  unfold treeBaseOperand
  rw [ends_bind, ends_get, ends_bind]
  exact Ends.check (fun h => hq (treeOperandsLegal_cells h)) fun _ => he

/-- The two checks of an init command pass with valid properties and a window that fits (R130, R140). -/
theorem ends_initChecks {Q : Unit → State → Prop}
    (hq : propsValid s.props = true → windowCap s ≤ s.config.pMaxDict → Q () s) (he : ∀ c, E (.raise c) s) :
    Ends initChecks s Q E := by
  unfold initChecks
  rw [ends_bind, ends_get, ends_bind]
  exact Ends.check (fun h => Ends.check (fun h' => hq h (by simpa using h')) fun _ => he _) fun _ => he _

theorem ends_requireNoEos {Q : Unit → State → Prop} (hq : Q () s) (he : E (.raise .sequenceError) s) :
    Ends requireNoEos s Q E := by
  unfold requireNoEos
  rw [ends_bind, ends_get]
  exact Ends.check (fun _ => hq) fun _ => he

end Sys2Proof.Machine
end

section
/-! PROOFS. The host port (10_state.md R22 to R42): a step's access, what each address reads, and the writes of the
configuration. -/

namespace Sys2Proof.Machine

variable {s t : State} {a : PortAddr} {v : Word}

/-! ## A step's access -/

theorem step_nil (h : s.hostQueue = []) : step s = .next s := by
  unfold step hostStep
  rw [h]

theorem step_cons {x : Access} {rest : List Access} (h : s.hostQueue = x :: rest) :
    step s = access x (s.withQueue rest) := by
  unfold step hostStep
  rw [h]

theorem readPort_withQueue (s : State) (rest : List Access) (a : PortAddr) :
    readPort (s.withQueue rest) a = readPort s a := rfl

/-- Settles O6: a step performs the access at the head of the queue, and the queue is no register of the port. -/
theorem stepPerformsNextAccess : Obligations.StepPerformsNextAccess := by
  refine ⟨fun s a rest h => ?_, fun s a v rest h => step_cons h, fun s h => step_nil h⟩
  rw [step_cons h, access, readPort_withQueue]
  rfl

/-! ## Reads -/

/-- Settles O7. -/
theorem identityRegister : Obligations.IdentityRegister := ⟨fun _ => rfl, by decide⟩

/-- The fields of STATUS (R25). -/
theorem statusWord_fields (s : State) : (statusWord s).extractLsb' 0 2 = BitVec.ofNat 2 s.mode.bits ∧
    (statusWord s).getLsbD 4 = s.faulted ∧ (statusWord s).getLsbD 8 = s.eosSeen ∧ statusWord s &&& 0xFFFFFEEC = 0 := by
  unfold statusWord
  generalize s.mode = m
  cases s.faulted <;> cases s.eosSeen <;> cases m <;> decide

/-- The fields of FAULT (R26). -/
theorem faultWord_fields (s : State) :
    faultWord s = if s.faulted then (0 : BitVec 16) ++ s.faultSub ++ s.faultCode else 0 := by
  unfold faultWord
  split
  · apply BitVec.eq_of_toNat_eq
    have h1 := s.faultCode.isLt
    have h2 := s.faultSub.isLt
    rw [BitVec.toNat_append, BitVec.toNat_append, ← Nat.shiftLeft_add_eq_or_of_lt h1, BitVec.toNat_ofNat]
    simp [Nat.shiftLeft_eq]
    omega
  · rfl

/-- The two halves of a 64-bit value (R22). -/
theorem hiWord_append_loWord (n : Nat) : hiWord n ++ loWord n = BitVec.ofNat 64 n := by
  apply BitVec.eq_of_toNat_eq
  rw [BitVec.toNat_append, ← Nat.shiftLeft_add_eq_or_of_lt (loWord n).isLt]
  simp only [hiWord, loWord, BitVec.toNat_ofNat, Nat.shiftLeft_eq, Nat.shiftRight_eq_div_pow]
  omega

theorem hiWord_append_loWord_toNat (x : BitVec 64) : hiWord x.toNat ++ loWord x.toNat = x := by
  rw [hiWord_append_loWord, BitVec.ofNat_toNat, BitVec.setWidth_eq]

/-- Unaligned addresses and those past the map's last register read 0 (R22, R23). -/
theorem readPort_reserved (s : State) (h : a.toNat % 4 ≠ 0 ∨ 0x74 ≤ a.toNat) : readPort s a = 0 := by
  unfold readPort
  split
  case h_29 => rfl
  all_goals omega

/-! ## Writes -/

/-- An address that takes no write keeps the state (R22, R23). -/
theorem writePort_ignored (h : a ∉ [(0x0C : PortAddr), 0x10, 0x14, 0x18, 0x1C, 0x20, 0x24, 0x2C]) (v : Word) (s : State) :
    writePort a v s = .next s := by
  have h : a.toNat ∉ [0x0C, 0x10, 0x14, 0x18, 0x1C, 0x20, 0x24, 0x2C] := fun hm =>
    h (by simpa [← BitVec.toNat_inj] using hm)
  unfold writePort
  split
  case h_9 => rfl
  all_goals simp_all

/-- Settles O8: each register's read is its field or its halves. -/
theorem portMap : Obligations.PortMap := fun s =>
  ⟨statusWord_fields s, faultWord_fields s, rfl, rfl, hiWord_append_loWord_toNat _, rfl, rfl, rfl, rfl, rfl,
    hiWord_append_loWord _, rfl, rfl, hiWord_append_loWord_toNat _, BitVec.ofNat_toNat .., rfl, BitVec.ofNat_toNat .., rfl,
    rfl, rfl, rfl, hiWord_append_loWord _, hiWord_append_loWord _, fun _ h => readPort_reserved s h,
    fun _ v h => writePort_ignored h v s⟩

theorem configWrite_faulted (h : s.faulted = true) (store : State → State) : configWrite store s = .next s := if_pos h

theorem configWrite_idle (h : s.faulted = false) (hm : s.mode = .idle) (store : State → State) :
    configWrite store s = .next (store s) := by
  unfold configWrite
  rw [if_neg (by simp [h]), if_pos hm]

theorem configWrite_busy (h : s.faulted = false) (hm : s.mode ≠ .idle) (store : State → State) :
    configWrite store s = .next (s.takeFault .sequenceError) := by
  unfold configWrite
  rw [if_neg (by simp [h]), if_neg hm]

/-! ### The five configuration registers (R27 to R30) -/

theorem writePort_props (v : Word) (s : State) :
    writePort 0x0C v s = configWrite (fun t => t.withProps (v &&& propsMask)) s := rfl

theorem writePort_dictSize (v : Word) (s : State) :
    writePort 0x10 v s = configWrite (fun t => t.withDictSize v) s := rfl

theorem writePort_usizeLo (v : Word) (s : State) :
    writePort 0x14 v s = configWrite (fun t => t.withUsize (withLo t.usize v)) s := rfl

theorem writePort_usizeHi (v : Word) (s : State) :
    writePort 0x18 v s = configWrite (fun t => t.withUsize (withHi t.usize v)) s := rfl

theorem writePort_policy (v : Word) (s : State) :
    writePort 0x1C v s = configWrite (fun t => t.withPolicy (v &&& policyMask)) s := rfl

theorem writePort_config (h : a ∈ [(0x0C : PortAddr), 0x10, 0x14, 0x18, 0x1C]) (v : Word) (s : State) :
    ∃ store, writePort a v s = configWrite store s := by
  simp only [List.mem_cons, List.not_mem_nil, or_false] at h
  rcases h with rfl | rfl | rfl | rfl | rfl
  · exact ⟨_, writePort_props v s⟩
  · exact ⟨_, writePort_dictSize v s⟩
  · exact ⟨_, writePort_usizeLo v s⟩
  · exact ⟨_, writePort_usizeHi v s⟩
  · exact ⟨_, writePort_policy v s⟩

/-- Settles O9: the three ways of a configuration write. -/
theorem configurationWrites : Obligations.ConfigurationWrites := by
  refine ⟨fun a v s ha => ?_, fun v s hf hm => ?_⟩
  · obtain ⟨store, e⟩ := writePort_config ha v s
    rw [e]
    exact ⟨fun h => configWrite_faulted h store, fun h hm => configWrite_busy h hm store⟩
  · rw [writePort_props, writePort_dictSize, writePort_usizeLo, writePort_usizeHi, writePort_policy]
    simp only [configWrite_idle hf hm]
    exact ⟨rfl, rfl, rfl, rfl, rfl⟩

end Sys2Proof.Machine
end

section
/-! PROOFS. The probability RAM as a memory (10_state.md R43). -/

namespace Sys2Proof.Machine

/-- Settles O42: read after write, and canonical lists that read alike are equal. -/
theorem cellMemory : Obligations.CellMemory :=
  ⟨fun _ a b v h => ⟨Memory.read_write h a b v, Memory.wf_write h a v⟩,
    fun _ _ hm hn h => Memory.eq_of_read_from hm hn h⟩

end Sys2Proof.Machine
end

section
/-! PROOFS. Who writes which register (10_state.md R25 to R42, 30_encoding.md R85). -/

namespace Sys2Proof.Machine

variable {i : Instr} {s t : State}

/-! ## ARG0, ARG1 and what is not the block's -/

/-- The operand registers, the open parameter, and what the environment alone decides. -/
def State.outside (s : State) :
    (Word × Word) × Config × SourceEnd × Option Nat × List Access × List Word :=
  ((s.arg0, s.arg1), s.config, s.sourceEnd, s.sinkFailAt, s.hostQueue, s.hostReads)

/-- No command writes any of it. -/
theorem exec_outside (e : exec i s = .next t) : t.outside = s.outside := by
  cases i with
  | sessionReset => cases e; rfl
  | _ => exact exec_keeps (by simp) (fun _ => rfl) (fun _ _ => rfl) e

/-- Settles O10. -/
theorem operandRegisters : Obligations.OperandRegisters := by
  refine ⟨fun v s => ⟨rfl, rfl⟩, fun i s t e => ?_⟩
  have h := congrArg Prod.fst (exec_outside e)
  exact ⟨congrArg Prod.fst h, congrArg Prod.snd h⟩

/-! ## MODE -/

theorem faultBlank_mode (i : Instr) (s : State) : (faultBlank i s).mode = s.mode := by cases i <;> rfl

theorem faultBlank_res (i : Instr) (s : State) : (faultBlank i s).res = s.res := by cases i <;> rfl

/-- A command that changes MODE has completed (60_exceptions.md R321). -/
theorem exec_fault_mode (e : exec i s = .next t) (h : t.faulted = true) : t.mode = s.mode :=
  exec_fault_keeps (g := State.mode) (faultBlank_mode i) (fun _ _ => rfl) e h

/-- A run that ends with a value has run both parts of a bind. -/
theorem run_bind {α β : Type} {x : Cmd α} {f : α → Cmd β} {b : β} (e : (x >>= f) s = .ok b t) :
    ∃ a u, x s = .ok a u ∧ f a u = .ok b t := by
  rw [bind_run] at e
  split at e
  · exact ⟨_, _, by assumption, e⟩
  · cases e

/-- Settles O20: a command that changes MODE has completed, and only four that complete write it, each to its own phase. -/
theorem modeTransitions : Obligations.ModeTransitions := by
  intro i s t e hne
  have ht : t.faulted = false := Bool.eq_false_iff.2 fun h => hne (exec_fault_mode e h)
  cases i with
  | sessionReset => cases e; exact .inr (.inr (.inr (.inr ⟨rfl, rfl⟩)))
  | rcEncInit =>
    obtain ⟨hm, hb⟩ := issue_completes e ht
    obtain ⟨_, u, -, h⟩ := run_bind hb
    cases h
    exact .inl ⟨rfl, by simpa using hm, rfl⟩
  | rcDecInit =>
    obtain ⟨hm, hb⟩ := issue_completes e ht
    obtain ⟨_, u, -, h⟩ := run_bind hb
    obtain ⟨_, v, -, h⟩ := run_bind h
    cases h
    exact .inr (.inl ⟨rfl, by simpa using hm, rfl⟩)
  | rcEncFlush =>
    obtain ⟨hm, hb⟩ := issue_completes e ht
    obtain ⟨_, u, -, h⟩ := run_bind hb
    cases h
    exact .inr (.inr (.inl ⟨rfl, by simpa using hm, rfl⟩))
  | decToken =>
    obtain ⟨hm, hb⟩ := issue_completes e ht
    obtain ⟨u, -, -, -, -, -, -, h⟩ := (ends_of_run hb).1 (tokRel_grows.anyToken s)
    obtain ⟨hdone, hres⟩ := h.resolve_left hne
    exact .inr (.inr (.inr (.inl ⟨rfl, by simpa using hm, hdone, hres⟩)))
  | _ => exact absurd ((exec_done_same (by simp) e ht).field State.mode fun _ => rfl) hne

/-! ## RES -/

/-- Settles O21: RES is kept by a fault and by the commands that complete without writing it. -/
theorem resultRegisterWriters : Obligations.ResultRegisterWriters := by
  refine ⟨fun i s t e hne => ?_, fun s t e => by cases e; rfl⟩
  have ht : t.faulted = false := Bool.eq_false_iff.2 fun h =>
    hne (exec_fault_keeps (g := State.res) (faultBlank_res i) (fun _ _ => rfl) e h)
  refine ⟨ht, ?_⟩
  cases i with
  | rcEncBitNa _ | rcDecBit | rcDecBitNa | rcDecDirect _ | rcDecTree _ | rcDecRtree _ | rcDecFinished | cellRead
  | decToken | dwByteAt | dwLast | sessionReset => trivial
  | _ => exact hne ((exec_done_same (by simp) e ht).field State.res fun _ => rfl)

/-! ## What HDR_READ writes -/

/-- PROPS as HDR_READ writes it stores only its three fields (R27, R296). -/
theorem propsWord_masked : ∀ lc < 9, ∀ lp < 5, ∀ pb < 5, propsWord lc lp pb &&& propsMask = propsWord lc lp pb := by
  decide

/-- USIZE_PRESENT is the only bit of POLICY that HDR_READ writes (R290, R296). -/
theorem setUsizePresent_other (p : Word) (b : Bool) : setUsizePresent p b &&& 0xFFFFFEFF = p &&& 0xFFFFFEFF := by
  unfold setUsizePresent
  split
  · rw [BitVec.and_or_distrib_right]
    exact BitVec.or_zero
  · rw [BitVec.and_assoc]
    rfl

theorem setUsizePresent_masked {p : Word} (h : p &&& policyMask = p) (b : Bool) :
    setUsizePresent p b &&& policyMask = setUsizePresent p b := by
  unfold setUsizePresent
  split
  · rw [BitVec.and_or_distrib_right, h]
    rfl
  · rw [BitVec.and_assoc, BitVec.and_comm _ policyMask, ← BitVec.and_assoc, h]

/-- HDR_READ writes the registers last, from what it read (R296). -/
theorem readHeader_writes (s : State) : Ends readHeader s
    (fun _ t => ∃ p < 225, ∃ present, t.props = propsWord (p % 9) (p / 9 % 5) (p / 9 / 5) ∧
      t.policy = setUsizePresent s.policy present) fun _ _ => True := by
  have hf : ∀ (s : State) b rest, s.source = b :: rest → Same (faultBlank .hdrRead) s (s.consumed rest) :=
    fun _ _ _ _ => rfl
  unfold readHeader
  rw [ends_bind, ends_get, ends_bind]
  refine Ends.check (fun _ => ?_) fun _ => trivial
  rw [ends_bind]
  refine (keeps_inRead Same.refl hf _ s).mono (fun p t1 h1 => ?_) fun _ _ _ => trivial
  rw [ends_bind]
  refine Ends.check (fun hp => ?_) fun _ => trivial
  rw [ends_bind]
  refine (readLE_keeps hf 4 0 0 t1).mono (fun ds t2 h2 => ?_) fun _ _ _ => trivial
  rw [ends_bind]
  refine (readSize_keeps hf _ _ _ t2).mono (fun size t3 h3 => ?_) fun _ _ _ => trivial
  rw [ends_modify]
  have h13 := Same.trans _ _ _ (Same.trans _ _ _ h1 h2) h3
  exact ⟨p.toNat, by simpa using hp, size.2, rfl,
    congrArg (setUsizePresent · size.2) (h13.field State.policy fun _ => rfl)⟩

/-! ## The configuration, STATE, the reps and EOS_SEEN -/

/-- The configuration registers (R27 to R30). -/
def State.configuration (s : State) : Word × Word × BitVec 64 × Word := (s.props, s.dictSize, s.usize, s.policy)

theorem faultBlank_configuration (i : Instr) (s : State) : (faultBlank i s).configuration = s.configuration := by
  cases i <;> rfl

/-- Only a completed HDR_READ in IDLE writes the configuration (R42, 44_header.md R297). -/
theorem exec_configuration (e : exec i s = .next t) (h : i ≠ .hdrRead ∨ s.mode ≠ .idle ∨ t.faulted = true) :
    t.configuration = s.configuration := by
  cases ht : t.faulted with
  | true => exact exec_fault_keeps (faultBlank_configuration i) (fun _ _ => rfl) e ht
  | false =>
    cases i with
    | sessionReset => cases e; rfl
    | hdrRead =>
      obtain ⟨hm, -⟩ := issue_completes e ht
      have hm : s.mode = .idle := by simpa using hm
      simp [hm, ht] at h
    | _ => exact (exec_done_same (by simp) e ht).field State.configuration fun _ => rfl

/-- Of POLICY no command writes a bit but USIZE_PRESENT (44_header.md R290). -/
theorem exec_policy (e : exec i s = .next t) : t.policy &&& 0xFFFFFEFF = s.policy &&& 0xFFFFFEFF := by
  by_cases h : i ≠ .hdrRead ∨ s.mode ≠ .idle ∨ t.faulted = true
  · have hc := exec_configuration e h
    rw [show t.policy = s.policy from congrArg (fun c => c.2.2.2) hc]
  · obtain ⟨rfl, -, ht⟩ : i = .hdrRead ∧ s.mode = .idle ∧ t.faulted = false := by simpa using h
    obtain ⟨-, hb⟩ := issue_completes e ht
    obtain ⟨p, -, present, -, hp⟩ := (ends_of_run hb).1 (readHeader_writes s)
    rw [hp, setUsizePresent_other]

theorem exec_fsm (e : exec i s = .next t) (hne : t.fsm ≠ s.fsm) :
    (∃ b, i = .encLiteral b) ∨ i = .decToken ∨ i = .sessionReset := by
  cases i with
  | encLiteral b => exact .inl ⟨b, rfl⟩
  | decToken => exact .inr (.inl rfl)
  | sessionReset => exact .inr (.inr rfl)
  | _ => exact absurd (exec_keeps (g := State.fsm) (by simp) (fun _ => rfl) (fun _ _ => rfl) e) hne

theorem exec_reps (e : exec i s = .next t) (hne : t.reps ≠ s.reps) : i = .decToken ∨ i = .sessionReset := by
  cases i with
  | decToken => exact .inl rfl
  | sessionReset => exact .inr rfl
  | _ => exact absurd (exec_keeps (g := State.reps) (by simp) (fun _ => rfl) (fun _ _ => rfl) e) hne

theorem exec_eosSeen (e : exec i s = .next t) (hne : t.eosSeen ≠ s.eosSeen) :
    i = .encEos ∨ i = .decToken ∨ i = .sessionReset := by
  cases i with
  | encEos => exact .inl rfl
  | decToken => exact .inr (.inl rfl)
  | sessionReset => exact .inr (.inr rfl)
  | _ => exact absurd (exec_keeps (g := State.eosSeen) (by simp) (fun _ => rfl) (fun _ _ => rfl) e) hne

/-- Settles O22. -/
theorem registerWriters : Obligations.RegisterWriters := by
  intro i s t e
  have hout := exec_outside e
  simp only [State.outside, Prod.mk.injEq] at hout
  refine ⟨fun h => ?_, exec_policy e, exec_fsm e, fun h => exec_reps e fun hr => ?_, exec_eosSeen e, hout.2⟩
  · simpa only [State.configuration, Prod.mk.injEq] using exec_configuration e h
  · simp only [State.reps, Prod.mk.injEq] at hr
    simp [hr] at h

end Sys2Proof.Machine
end

section
/-! PROOFS. The byte streams and the window over every command: what is taken, delivered and appended is what is counted, and
a failing sink cuts a command short at its byte (10_state.md R41, R46, 43_dictionary_window.md R264, 60_exceptions.md
R322). -/

namespace Sys2Proof.Machine

variable {i : Instr} {s t u : State} {α : Type} {modes : List Mode} {body : Cmd Unit}

/-! ## What is counted -/

/-- The streams, their counters and the window. -/
def State.streams (s : State) : List Byte × Nat × List Byte × Nat × List Byte :=
  (s.source, s.inCount, s.sink, s.outCount, s.window)

/-- The streams of `t` are those that growth from `s` leads to, whatever MODE and the registers have become. -/
def Accounted (s t : State) : Prop := ∃ u, Grows s u ∧ t.streams = u.streams

theorem Grows.accounted (h : Grows s t) : Accounted s t := ⟨t, h, rfl⟩

theorem TokenGrows.accounted (h : TokenGrows s t) : Accounted s t := by
  obtain ⟨u, hu, h1, h2, h3, h4, h5, -⟩ := h
  exact ⟨u, hu, by simp [State.streams, h1, h2, h3, h4, h5]⟩

/-- A body accounts for its streams however it ends. -/
def Accounts (x : Cmd α) (s : State) : Prop := Ends x s (fun _ t => Accounted s t) fun _ t => Accounted s t

theorem issue_accounts (e : issue modes body s = .next t) (h : s.mode ∈ modes → Accounts body s) : Accounted s t :=
  issue_ends e (fun _ => (Grows.refl s).accounted) (fun _ => (Grows.refl s).accounted) fun _ hm =>
    (h hm).mono (fun _ _ h => h) fun _ _ h _ => h

/-- A body that only grows the streams. -/
def GrowsFrom (x : Cmd α) (s : State) : Prop := Ends x s (fun _ t => Grows s t) fun _ t => Grows s t

theorem GrowsFrom.accounts {x : Cmd α} (h : GrowsFrom x s) : Accounts x s :=
  h.mono (fun _ _ h => h.accounted) fun _ _ h => h.accounted

/-- A last update of what no stream is. -/
theorem GrowsFrom.last {x : Cmd α} (h : GrowsFrom x s) {g : α → State → State}
    (hg : ∀ a u, (g a u).streams = u.streams) : Accounts (x >>= fun a => modify (g a)) s :=
  ends_bind.2 (h.mono (fun a u h => ⟨u, h, hg a u⟩) fun _ _ h => h.accounted)

/-- The encoder and the header write the sink alone, outside DECODE. -/
theorem GrowsFrom.of_outside {x : Cmd α} {m : Mode} (hm : s.mode ∈ [m])
    (h : Ends x s (fun _ t => GrowsOutside s t) fun _ t => GrowsOutside s t) (hne : m ≠ .decode := by decide) :
    GrowsFrom x s := by
  rw [← List.mem_singleton.1 hm] at hne
  exact h.mono (fun _ _ h => h hne) fun _ _ h => h hne

theorem readLE_grows : ∀ n k v, Keeps Grows (readLE n k v)
  | 0, _, _ => Keeps.pure Grows.refl _
  | n + 1, _, _ => Keeps.bind Grows.trans (keeps_inRead Grows.refl (fun _ _ _ h => Grows.consumed h) _)
      fun _ => readLE_grows n _ _

theorem readSize_grows (pol : Nat) (us : BitVec 64) (pr : Bool) : Keeps Grows (readSize pol us pr) := by
  unfold readSize
  refine Keeps.ite ?_ (Keeps.pure Grows.refl _)
  exact Keeps.bind Grows.trans (readLE_grows 8 0 0)
    fun v => Keeps.ite (Keeps.pure Grows.refl _) (Keeps.pure Grows.refl _)

/-- Reading a header takes source bytes; the registers written last are no stream (44_header.md R296). -/
theorem readHeader_accounts (s : State) : Accounts readHeader s := by
  have comp : ∀ s t u, Grows s t → Accounted t u → Accounted s u := fun s t u h h' => by
    obtain ⟨v, hv, e⟩ := h'
    exact ⟨v, Grows.trans _ _ _ h hv, e⟩
  have check : ∀ ok c, Keeps Grows (check ok c) := Keeps.check Grows.refl
  refine Ends.mono (Leads.getBind (R := Grows) (Q := Accounted) (fun s => ?_) s) (fun _ _ h => h) fun _ _ h => h.accounted
  refine Leads.bind Grows.trans comp (check _ _) (fun _ => ?_) s
  refine Leads.bind Grows.trans comp (keeps_inRead Grows.refl (fun _ _ _ h => Grows.consumed h) _) fun p => ?_
  refine Leads.bind Grows.trans comp (check _ _) fun _ => ?_
  refine Leads.bind Grows.trans comp (readLE_grows 4 0 0) fun ds => ?_
  refine Leads.bind Grows.trans comp (readSize_grows _ _ _) fun size t => ?_
  exact ⟨t, Grows.refl t, rfl⟩

theorem Accounts.afterCellOperand {f : Nat → Cmd α} (h : Accounts (f s.arg0.toNat) s) :
    Accounts (cellOperand >>= f) s :=
  ends_bind.2 (ends_cellOperand (fun _ => h) (Grows.refl s).accounted)

theorem Accounts.afterProbOperand {f : Nat → Cmd α} (h : Accounts (f s.arg0.toNat) s) :
    Accounts (probOperand >>= f) s :=
  ends_bind.2 (ends_probOperand (fun _ _ => h) (Grows.refl s).accounted)

theorem Accounts.afterTreeBaseOperand {n : Nat} {f : Nat → Cmd α} (h : Accounts (f s.arg0.toNat) s) :
    Accounts (treeBaseOperand n >>= f) s :=
  ends_bind.2 (ends_treeBaseOperand (fun _ => h) (Grows.refl s).accounted)

theorem Accounts.afterCheck {ok : Bool} {c : Cause} {f : Unit → Cmd α} (h : Accounts (f ()) s) :
    Accounts (check ok c >>= f) s :=
  ends_bind.2 (Ends.check (fun _ => h) fun _ => (Grows.refl s).accounted)

/-- Every command that empties nothing accounts for its streams: the encoder's by what a session outside DECODE delivers, the
decoder's by what it takes, the window's by what it appends. -/
theorem exec_accounted (hi : i ≠ .sessionReset) (hw : i ≠ .dwReset) (e : exec i s = .next t) : Accounted s t := by
  cases i with
  | sessionReset => exact absurd rfl hi
  | dwReset => exact absurd rfl hw
  | rcEncBit bit =>
    refine issue_accounts e fun hm => ?_
    exact .afterCellOperand (GrowsFrom.of_outside hm (encRel_grows.cellDecision trivial bit s)).accounts
  | rcEncBitNa bit =>
    refine issue_accounts e fun hm => ?_
    exact .afterProbOperand ((GrowsFrom.of_outside hm (encRel_grows.bitCore _ bit s)).last fun _ _ => rfl)
  | rcEncTree n =>
    refine issue_accounts e fun hm => ?_
    exact .afterCheck (GrowsFrom.of_outside hm
      (encRel_grows.treeLoop _ _ n 1 (fun _ _ _ => trivial) s)).accounts
  | rcEncFlush =>
    refine issue_accounts e fun hm => ?_
    exact (GrowsFrom.of_outside hm
      (Keeps.repeatCmd GrowsOutside.refl GrowsOutside.trans encRel_grows.shiftLow 5 s)).last fun _ _ => rfl
  | encLiteral b =>
    refine issue_accounts e fun hm => ?_
    exact .afterCheck (GrowsFrom.of_outside hm
      (encRel_grows.literal trivial (fun _ _ _ => trivial) (fun _ _ => GrowsOutside.refl _) GrowsOutside.appended
        b)).accounts
  | encEos =>
    refine issue_accounts e fun hm => ?_
    exact .afterCheck (GrowsFrom.of_outside hm
      (encRel_grows.endMarker trivial fun _ => GrowsOutside.refl _)).accounts
  | rcDecInit =>
    refine issue_accounts e fun _ => ?_
    exact ends_bind.2 (ends_initChecks
      (fun _ _ => GrowsFrom.last (decRel_grows.init s) fun _ _ => rfl) fun _ => (Grows.refl s).accounted)
  | rcDecBit =>
    refine issue_accounts e fun _ => ?_
    exact .afterCellOperand (GrowsFrom.last (decRel_grows.cellDecision trivial s) fun _ _ => rfl)
  | rcDecBitNa =>
    refine issue_accounts e fun _ => ?_
    exact .afterProbOperand (GrowsFrom.last (decRel_grows.bitCore _ s) fun _ _ => rfl)
  | rcDecDirect n =>
    refine issue_accounts e fun _ => ?_
    exact .afterCheck (GrowsFrom.last (decRel_grows.direct n s) fun _ _ => rfl)
  | rcDecTree n =>
    refine issue_accounts e fun _ => ?_
    exact .afterTreeBaseOperand (GrowsFrom.last (decRel_grows.tree (fun _ _ _ => trivial) s) fun _ _ => rfl)
  | rcDecRtree n =>
    refine issue_accounts e fun _ => ?_
    exact .afterTreeBaseOperand (GrowsFrom.last (decRel_grows.rtree (fun _ _ _ => trivial) s) fun _ _ => rfl)
  | decToken =>
    refine issue_accounts e fun _ => ?_
    exact (tokRel_grows.anyToken s).mono (fun _ _ h => h.accounted) fun _ _ h => h.accounted
  | dwPush b =>
    refine issue_accounts e fun _ => ?_
    exact GrowsFrom.accounts (keeps_windowAppend Grows.refl Grows.appended b s)
  | dwCopy =>
    refine issue_accounts e fun _ => ?_
    exact GrowsFrom.accounts (keeps_copyMatch Grows.refl Grows.trans Grows.appended _ _ s)
  | hdrWrite =>
    refine issue_accounts e fun hm => ?_
    exact .afterCheck (GrowsFrom.of_outside hm
      (keeps_outWriteAll GrowsOutside.refl GrowsOutside.trans GrowsOutside.delivered _ s)).accounts
  | hdrRead =>
    refine issue_accounts e fun _ => ?_
    exact readHeader_accounts s
  | _ => exact ⟨s, Grows.refl s, exec_keeps (g := State.streams) hi (fun _ => rfl) (fun _ _ => rfl) e⟩

/-- DW_RESET runs in IDLE and touches no stream but the window (43_dictionary_window.md R270). -/
theorem exec_dwReset_cases (e : exec .dwReset s = .next t) : t.source = s.source ∧ t.inCount = s.inCount ∧
    t.sink = s.sink ∧ t.outCount = s.outCount ∧ (t.faulted = false → s.mode = .idle ∧ t.window = []) ∧
    (t.faulted = true → t.window = s.window) := by
  have h := exec_keeps (g := fun u => (u.source, u.inCount, u.sink, u.outCount)) (by simp) (fun _ => rfl)
    (fun _ _ => rfl) e
  simp only [Prod.mk.injEq] at h
  obtain ⟨h1, h2, h3, h4⟩ := h
  refine ⟨h1, h2, h3, h4, fun ht => ?_, exec_fault_keeps (g := State.window) (fun _ => rfl) (fun _ _ => rfl) e⟩
  obtain ⟨hm, hb⟩ := issue_completes e ht
  cases hb
  exact ⟨by simpa using hm, rfl⟩

/-- What the streams of a command that goes on with its session have become (R41, R46, R264). -/
theorem exec_streams (hi : i ≠ .sessionReset) (e : exec i s = .next t) : ∃ taken given,
    s.source = taken ++ t.source ∧ t.inCount = s.inCount + taken.length ∧ t.sink = s.sink ++ given ∧
      t.outCount = s.outCount + given.length ∧ (s.mode = .decode → t.window = s.window ++ given) := by
  by_cases hw : i = .dwReset
  · subst hw
    obtain ⟨h1, h2, h3, h4, hdone, hfault⟩ := exec_dwReset_cases e
    refine ⟨[], [], by simp [h1], by simp [h2], by simp [h3], by simp [h4], fun hm => ?_⟩
    have ht : t.faulted = true := Bool.eq_true_of_not_eq_false fun h => by cases hm.symm.trans (hdone h).1
    rw [hfault ht, List.append_nil]
  · obtain ⟨u, ⟨taken, given, new, h1, h2, h3, h4, h5, h6, -⟩, hu⟩ := exec_accounted hi hw e
    simp only [State.streams, Prod.mk.injEq] at hu
    obtain ⟨k1, k2, k3, k4, k5⟩ := hu
    exact ⟨taken, given, k1 ▸ h1, k2.trans h2, k3.trans h3, k4.trans h4, fun hm => h6 hm ▸ k5.trans h5⟩

theorem exec_window_grows (hi : i ≠ .sessionReset) (hw : i ≠ .dwReset) (e : exec i s = .next t) :
    s.window <+: t.window := by
  obtain ⟨u, ⟨_, _, new, _, _, _, _, h, _, _⟩, hu⟩ := exec_accounted hi hw e
  have hw : t.window = u.window := congrArg (fun x => x.2.2.2.2) hu
  exact ⟨new, by rw [hw, h]⟩

/-! ## A sink that fails -/

section Cuts

variable {k : Nat}

theorem cellOperand_cuts (s : State) : Cuts k cellOperand cellOperand s :=
  Cuts.getBind (Cuts.bind (Cuts.check _ _ s) fun _ t => Cuts.pure _ t)

theorem probOperand_cuts (s : State) : Cuts k probOperand probOperand s :=
  Cuts.getBind (Cuts.bind (Cuts.check _ _ s) fun _ t => Cuts.pure _ t)

theorem treeBaseOperand_cuts (n : Nat) (s : State) : Cuts k (treeBaseOperand n) (treeBaseOperand n) s :=
  Cuts.getBind (Cuts.bind (Cuts.check _ _ s) fun _ t => Cuts.pure _ t)

theorem requireNoEos_cuts (s : State) : Cuts k requireNoEos requireNoEos s := Cuts.getBind (Cuts.check _ _ s)

theorem initChecks_cuts (s : State) : Cuts k initChecks initChecks s :=
  Cuts.getBind (Cuts.bind (Cuts.check _ _ s) fun _ t => Cuts.check _ _ t)

theorem withRes_cuts (v : Word) (s : State) :
    Cuts k (modify fun t => t.withRes v) (modify fun t => t.withRes v) s := Cuts.modify rfl rfl rfl

theorem encoderStart_failAt (s : State) : encoderStart (s.failAt k) = (encoderStart s).failAt k := by
  simp only [encoderStart, State.withLow, State.withRange, State.withCache, State.withMode, State.failAt]

theorem decodeBitCore_cuts (p : Nat) (s : State) : Cuts k (decodeBitCore p) (decodeBitCore p) s :=
  Cuts.of_decoder (failAt_dec.bitCore p s) (sameDecCells.bitCore p)

theorem readCode_cuts : ∀ n c s, Cuts k (readCode n c) (readCode n c) s
  | 0, _, s => Cuts.pure _ s
  | n + 1, _, s => Cuts.bind (inRead_cuts _ s) fun _ t => readCode_cuts n _ t

theorem decInit_cuts (s : State) : Cuts k decInit decInit s :=
  Cuts.bind (Cuts.modify rfl rfl rfl) fun _ t => Cuts.bind (inRead_cuts _ t) fun _ u =>
    Cuts.bind (readCode_cuts 4 0 u) fun _ _ => Cuts.modify rfl rfl rfl

theorem readLE_cuts : ∀ n j v s, Cuts k (readLE n j v) (readLE n j v) s
  | 0, _, _, s => Cuts.pure _ s
  | n + 1, _, _, s => Cuts.bind (inRead_cuts _ s) fun _ t => readLE_cuts n _ _ t

theorem readSize_cuts (pol : Nat) (us : BitVec 64) (pr : Bool) (s : State) :
    Cuts k (readSize pol us pr) (readSize pol us pr) s := by
  unfold readSize
  refine Cuts.ite (Cuts.bind (readLE_cuts 8 0 0 s) fun _ t => ?_) (Cuts.pure _ s)
  exact Cuts.ite (Cuts.pure _ t) (Cuts.pure _ t)

theorem readHeader_cuts (s : State) : Cuts k readHeader readHeader s := by
  refine Cuts.getBind (Cuts.bind (Cuts.check _ _ s) fun _ t => Cuts.bind (inRead_cuts _ t) fun _ u => ?_)
  refine Cuts.bind (Cuts.check _ _ u) fun _ v => Cuts.bind (readLE_cuts 4 0 0 v) fun _ w => ?_
  exact Cuts.bind (readSize_cuts _ _ _ w) fun _ _ => Cuts.modify rfl rfl rfl

/-- Every command on a sink that fails at byte `k`: as on one that never fails, up to that byte (R322). -/
theorem exec_cuts (hi : i ≠ .sessionReset) (hk : s.sinkFailAt = some k) (hl : s.sink.length ≤ k)
    (e : exec i { s with sinkFailAt := none } = .next u) : (u.sink.length ≤ k → exec i s = .next (u.failAt k)) ∧
    (k < u.sink.length → ∃ t : State, exec i s = .next (t.takeFault .ioErrorOut) ∧ t.sink = u.sink.take k) := by
  cases i with
  | sessionReset => exact absurd rfl hi
  | nop => exact issue_cuts (Cuts.pure ()) hk hl e
  | rcEncInit =>
    refine issue_cuts (fun s => ?_) hk hl e
    exact Cuts.bind (initChecks_cuts s) fun _ t => Cuts.modify (encoderStart_failAt t) rfl rfl
  | rcEncBit bit => exact issue_cuts (fun s => Cuts.bind (cellOperand_cuts s) fun _ t => encCell_cuts _ _ t) hk hl e
  | rcEncBitNa bit =>
    refine issue_cuts (fun s => ?_) hk hl e
    exact Cuts.bind (probOperand_cuts s) fun _ t => Cuts.bind (encodeBitCore_cuts _ _ t) fun _ v => withRes_cuts _ v
  | rcEncTree n =>
    refine issue_cuts (fun s => ?_) hk hl e
    exact Cuts.getBind (Cuts.bind (Cuts.check _ _ s) fun _ t => treeEncodeLoop_cuts _ _ n 1 t)
  | rcEncFlush =>
    refine issue_cuts (fun s => ?_) hk hl e
    exact Cuts.bind (Cuts.repeatCmd shiftLow_cuts 5 s) fun _ _ => Cuts.modify rfl rfl rfl
  | rcDecInit =>
    refine issue_cuts (fun s => ?_) hk hl e
    exact Cuts.bind (initChecks_cuts s) fun _ t => Cuts.bind (decInit_cuts t) fun _ _ => Cuts.modify rfl rfl rfl
  | rcDecBit =>
    refine issue_cuts (fun s => ?_) hk hl e
    exact Cuts.bind (cellOperand_cuts s) fun _ t => Cuts.bind (decCell_cuts _ t) fun _ v => withRes_cuts _ v
  | rcDecBitNa =>
    refine issue_cuts (fun s => ?_) hk hl e
    exact Cuts.bind (probOperand_cuts s) fun _ t => Cuts.bind (decodeBitCore_cuts _ t) fun _ v => withRes_cuts _ v
  | rcDecDirect n =>
    refine issue_cuts (fun s => ?_) hk hl e
    exact Cuts.bind (Cuts.check _ _ s) fun _ t => Cuts.bind (decDirect_cuts n t) fun _ v => withRes_cuts _ v
  | rcDecTree n =>
    refine issue_cuts (fun s => ?_) hk hl e
    exact Cuts.bind (treeBaseOperand_cuts n s) fun _ t => Cuts.bind (treeDecode_cuts _ n t) fun _ v => withRes_cuts _ v
  | rcDecRtree n =>
    refine issue_cuts (fun s => ?_) hk hl e
    exact Cuts.bind (treeBaseOperand_cuts n s) fun _ t => Cuts.bind (rtreeDecode_cuts _ n t) fun _ v => withRes_cuts _ v
  | rcDecFinished => refine issue_cuts (fun s => ?_) hk hl e; exact Cuts.modify rfl rfl rfl
  | pmInit => refine issue_cuts (fun s => ?_) hk hl e; exact Cuts.modify rfl rfl rfl
  | cellRead =>
    refine issue_cuts (fun s => ?_) hk hl e
    exact Cuts.bind (cellOperand_cuts s) fun _ t => Cuts.bind (readCell_cuts _ t) fun _ v => withRes_cuts _ v
  | encLiteral b => exact issue_cuts (fun s => Cuts.bind (requireNoEos_cuts s) fun _ t => encLiteral_cuts b t) hk hl e
  | encEos => exact issue_cuts (fun s => Cuts.bind (requireNoEos_cuts s) fun _ t => encEos_cuts t) hk hl e
  | decToken => exact issue_cuts decToken_cuts hk hl e
  | dwReset => refine issue_cuts (fun s => ?_) hk hl e; exact Cuts.modify rfl rfl rfl
  | dwPush b => exact issue_cuts (windowAppend_cuts b) hk hl e
  | dwByteAt =>
    refine issue_cuts (fun s => ?_) hk hl e
    exact Cuts.getBind (Cuts.bind (byteAt_cuts s.arg0.toNat s) fun _ t => withRes_cuts _ t)
  | dwLast => refine issue_cuts (fun s => ?_) hk hl e; exact Cuts.modify rfl rfl rfl
  | dwCopy => exact issue_cuts (fun s => Cuts.getBind (copyMatch_cuts s.arg0.toNat s.arg1.toNat s)) hk hl e
  | propsValidate => refine issue_cuts (fun s => ?_) hk hl e; exact Cuts.getBind (Cuts.check _ _ s)
  | hdrWrite =>
    refine issue_cuts (fun s => ?_) hk hl e
    exact Cuts.getBind (Cuts.bind (Cuts.check _ _ s) fun _ t => outWriteAll_cuts (headerBytes s) t)
  | hdrRead => exact issue_cuts readHeader_cuts hk hl e

end Cuts

/-- Settles O24: the accounts of every command, and every command on a failing sink. -/
theorem streamAccounting : Obligations.StreamAccounting := by
  refine ⟨fun i s t e => ⟨fun hi => exec_streams hi e, fun hi hw => exec_window_grows hi hw e,
    fun hne => ?_, fun hw ht => ?_, fun hi => ?_⟩, fun i s u k hk hl e => ?_⟩
  · cases i with
    | encLiteral _ | decToken | dwPush _ | dwCopy | dwReset | sessionReset => trivial
    | _ => exact hne (exec_keeps (g := State.window) (by simp) (fun _ => rfl) (fun _ _ => rfl) e)
  · subst hw
    obtain ⟨-, -, -, -, h, -⟩ := exec_dwReset_cases e
    exact (h ht).2
  · subst hi
    cases e
    exact ⟨rfl, rfl, rfl, rfl, rfl⟩
  by_cases hi : i = .sessionReset
  · subst hi
    cases e
    refine ⟨fun _ => ?_, fun h => absurd hl (Nat.not_le.2 h)⟩
    rw [← hk]
    rfl
  · obtain ⟨h1, h2⟩ := exec_cuts hi hk hl e
    refine ⟨h1, fun h => ?_⟩
    obtain ⟨t, et, hsink⟩ := h2 h
    have hmode := exec_fault_mode et rfl
    have hres := exec_fault_keeps (g := State.res) (faultBlank_res i) (fun _ _ => rfl) et rfl
    exact ⟨_, et, rfl, rfl, rfl, hsink, hmode, hres⟩

end Sys2Proof.Machine
end

section
/-! PROOFS. The invariant (10_state.md R48, 40_range_coder.md R125): it holds at power-on, and every command and every access of
the port keeps it. Each command's body is shown to end well shaped, and live where it completes. -/

namespace Sys2Proof.Machine

variable {s t u : State} {modes : List Mode} {body : Cmd Unit}

/-- What a body has to keep: it ends well shaped, and live too if it completes. -/
def KeepsInv (body : Cmd Unit) (s : State) : Prop := Ends body s (fun _ t => t.Shape ∧ t.Live) fun _ t => t.Shape

theorem issue_inv (hi : s.Inv) (e : issue modes body s = .next t)
    (h : s.mode ∈ modes → s.Shape → s.Live → KeepsInv body s) : t.Inv := by
  refine issue_ends e (fun _ => hi) (fun _ => takeFault_inv hi.1 _) fun hf hm => ?_
  exact (h hm hi.1 (hi.2 hf)).mono (fun _ _ h => ⟨h.1, fun _ => h.2⟩) fun _ _ h c => takeFault_inv h c

/-- The same for a command with one mode. -/
theorem issue_inv_in {m : Mode} (hi : s.Inv) (e : issue [m] body s = .next t)
    (h : s.mode = m → s.Shape → s.Live → KeepsInv body s) : t.Inv :=
  issue_inv hi e fun hm => h (List.mem_singleton.1 hm)

/-! ## Updates -/

theorem State.Shape.cellsOk (h : s.Shape) : CellsOk s := ⟨h.pramWf, h.cells⟩

theorem State.Live.enc (hl : s.Live) (hs : s.Shape) : EncLive s :=
  ⟨⟨hs.cachePos, by have := hl.rangeGe; omega, hl.lowRange, hl.noCarryIntoFF⟩, hl.rangeGe⟩

/-- With the encoder at rest a session is live if RANGE is renormalised and a match state's distance can be read. -/
theorem live_of_rest (h1 : s.low = 0) (h2 : s.cache = 0) (hr : 2 ^ 24 ≤ s.range.toNat)
    (hd : s.mode = .decode → 7 ≤ s.fsm.toNat → Readable s (s.rep0.toNat + 1)) : s.Live where
  rangeGe := hr
  lowRange := by
    rw [h1]
    exact (Nat.zero_add _).trans_lt (s.range.isLt.trans (by decide))
  noCarryIntoFF h := by rw [h2] at h; cases h
  matchReadable hm h7 := (hd hm h7).2

/-- A coder as an init command or SESSION_RESET leaves it (R130, R140, R341). -/
theorem live_of_start (h1 : s.low = 0) (h2 : s.range = 0xFFFFFFFF) (h3 : s.cache = 0) (h4 : s.fsm = 0) : s.Live :=
  live_of_rest h1 h3 (by rw [h2]; decide) fun _ h => by rw [h4] at h; cases h

/-- What an init command's checks and IDLE give the session it starts (R130, R140). -/
theorem shape_start (h : s.Shape) (hm : s.mode = .idle) (hp : propsValid s.props = true)
    (hc : windowCap s ≤ s.config.pMaxDict) (m : Mode) : (s.withMode m).Shape :=
  { h with
    propsOk := fun _ => hp, capFits := fun _ => hc, encodeFsm := fun _ => (h.idleFresh hm).1,
    idleFresh := fun _ => h.idleFresh hm, encoderFresh := fun _ => h.encoderFresh (.inl hm) }

theorem shape_done (h : s.Shape) (hm : s.mode ≠ .idle) : (s.withMode .done).Shape :=
  { h with
    propsOk := fun _ => h.propsOk hm, capFits := fun _ => h.capFits hm, encodeFsm := fun h => (by cases h),
    idleFresh := fun h => (by cases h), encoderFresh := fun h => (by rcases h with h | h <;> cases h) }

/-- A session in DECODE, where the encoder is at rest (R35), as it goes on to DONE. -/
theorem decode_done_inv (h : s.Shape) (hm : s.mode = .decode) (hr : 2 ^ 24 ≤ s.range.toNat) :
    (s.withMode .done).Shape ∧ (s.withMode .done).Live := by
  obtain ⟨h1, h2, -⟩ := h.encoderFresh (.inr hm)
  exact ⟨shape_done h (by rw [hm]; decide), live_of_rest h1 h2 hr fun h => by cases h⟩

/-! ## Encoder commands -/

theorem encRun_inv {n : Nat} (hs : s.Shape) (hm : s.mode = .encode) (h : EncRun n s t) : t.Shape ∧ t.Live :=
  ⟨encode_shape hs hm h.only h.cells h.live.cachePos, h.live.rangeGe, h.live.lowRange, h.live.noCarry,
    fun hd => by rw [h.mode, hm] at hd; cases hd⟩

theorem encRuns_inv {n : Nat} (hs : s.Shape) (hm : s.mode = .encode)
    (h : Ends body s (fun _ t => EncRun n s t) (EncCut n s)) : KeepsInv body s :=
  h.mono (fun _ _ h => encRun_inv hs hm h) fun _ _ h => encode_shape hs hm h.only h.cells h.cachePos

theorem rcEncBit_inv (bit : Bool) (hs : s.Shape) (hl : s.Live) (hm : s.mode = .encode) :
    KeepsInv (do let a ← cellOperand; encCell a bit) s := by
  unfold KeepsInv
  rw [ends_bind]
  exact ends_cellOperand (fun ha => encRuns_inv hs hm (encCell_run (hl.enc hs) hs.cellsOk ha bit)) hs

theorem lessEnc_cellsOk (h : t.lessEnc = s.lessEnc) (hs : s.Shape) : CellsOk t :=
  hs.cellsOk.congr (Same.field (f := State.lessEnc) h State.pram fun _ => rfl)

theorem rcEncBitNa_inv (bit : Bool) (hs : s.Shape) (hl : s.Live) (hm : s.mode = .encode) : KeepsInv (do
    let p ← probOperand
    let q ← encodeBitCore p bit
    modify fun t => t.withRes (BitVec.ofNat 32 q)) s := by
  unfold KeepsInv
  rw [ends_bind]
  refine ends_probOperand (fun h1 h2 => ?_) hs
  rw [ends_bind]
  refine ((ends_encodeBitCore (hl.enc hs) h1 h2 bit (n := 2) (by omega) (bitRange_twice hl.rangeGe h1 h2)).and
    (encRel_arith.bitCore s.arg0.toNat bit s)).mono ?_ ?_
  · rintro q t ⟨⟨-, hlive, k, -, hstep⟩, only⟩
    exact withRes_inv _ (encRun_inv hs hm
      ⟨hlive, lessEnc_cellsOk only hs, hstep.count.le, lessEnc_cells only⟩)
  · rintro e t ⟨⟨-, hc, -, -⟩, only⟩
    exact encode_shape hs hm (lessEnc_cells only) (lessEnc_cellsOk only hs) hc

theorem rcEncTree_inv (n : Nat) (hs : s.Shape) (hl : s.Live) (hm : s.mode = .encode) : KeepsInv (do
    let t ← get
    check (treeOperandsLegal n t.arg0.toNat t.arg1.toNat) .illegalOperand
    treeEncode t.arg0.toNat n t.arg1.toNat) s := by
  unfold KeepsInv
  rw [ends_bind, ends_get, ends_bind]
  refine Ends.check (fun h => ?_) fun _ => hs
  exact encRuns_inv hs hm (treeEncode_run _ (hl.enc hs) hs.cellsOk (treeOperandsLegal_cells h))

/-- Five shift-outs leave LOW and CACHE at 0 (R126, R133). -/
theorem rcEncFlush_inv (hs : s.Shape) (hl : s.Live) (hm : s.mode = .encode) :
    KeepsInv (do repeatCmd 5 shiftLow; modify fun t => t.withMode .done) s := by
  have hok := (hl.enc hs).shiftOk
  unfold KeepsInv
  rw [ends_bind]
  refine ((ends_shifts 5 hok).and
    (Keeps.repeatCmd Same.refl Same.trans sameEnc.shiftLow 5 s)).mono ?_ ?_
  · rintro _ t ⟨ht, only⟩
    obtain ⟨hok5, -, -, -, hrange⟩ := shiftedTimes_facts 5 hok
    obtain ⟨-, -, -, hcache, hlow⟩ := flush_value hok
    rw [← ht] at hok5 hrange hcache hlow
    have hmode : t.mode = .encode := (only.field State.mode fun _ => rfl).trans hm
    have hshape := encode_shape hs hm (lessEnc_cells only) (lessEnc_cellsOk only hs) hok5.cachePos
    exact ⟨shape_done hshape (by rw [hmode]; decide),
      live_of_rest hlow hcache (hrange ▸ hl.rangeGe) fun h => by cases h⟩
  · rintro e t ⟨⟨-, hc, -, -⟩, only⟩
    exact encode_shape hs hm (lessEnc_cells only) (lessEnc_cellsOk only hs) hc

/-- STATE stays 0 in ENCODE (42_symbol_fsm.md R202). -/
theorem encLiteral_inv (b : Byte) (hs : s.Shape) (hl : s.Live) (hm : s.mode = .encode) :
    KeepsInv (do requireNoEos; encLiteral b) s := by
  unfold KeepsInv
  rw [ends_bind]
  refine ends_requireNoEos ?_ hs
  have hf := hs.encodeFsm hm
  refine (encLiteral_run (hl.enc hs) hs.cellsOk (hs.propsOk (by rw [hm]; decide)) hs.fsmLe hm b).mono ?_
    fun _ _ h => encode_shape hs hm h.only h.cells h.cachePos
  rintro _ t ⟨u, hu, rfl⟩
  obtain ⟨hus, hul⟩ := encRun_inv hs hm hu
  have hum : u.mode = .encode := hu.mode.trans hm
  rw [hf]
  refine ⟨{ hus with fsmLe := Nat.zero_le 11, encodeFsm := fun _ => rfl, idleFresh := fun h => ?_ },
    { hul with matchReadable := fun h => ?_ }⟩ <;> cases hum.symm.trans h

theorem encEos_inv (hs : s.Shape) (hl : s.Live) (hm : s.mode = .encode) :
    KeepsInv (do requireNoEos; encEos) s := by
  unfold KeepsInv
  rw [ends_bind]
  refine ends_requireNoEos ?_ hs
  refine (encEos_run (hl.enc hs) hs.cellsOk (hs.propsOk (by rw [hm]; decide)) hs.fsmLe).mono ?_
    fun _ _ h => encode_shape hs hm h.only h.cells h.cachePos
  rintro _ t ⟨u, hu, rfl⟩
  obtain ⟨hus, hul⟩ := encRun_inv hs hm hu
  exact ⟨{ hus with idleFresh := fun h => by cases (hu.mode.trans hm).symm.trans h }, { hul with }⟩

theorem rcEncInit_inv (hs : s.Shape) (hm : s.mode = .idle) : KeepsInv (do initChecks; modify encoderStart) s := by
  unfold KeepsInv
  rw [ends_bind]
  refine ends_initChecks (fun hp hc => ?_) fun _ => hs
  have h0 : (((s.withLow 0).withRange 0xFFFFFFFF).withCache 0 1).Shape :=
    { hs with cachePos := le_rfl, encoderFresh := fun _ => ⟨rfl, rfl, rfl⟩ }
  exact ⟨shape_start h0 hm hp hc .encode, live_of_start rfl rfl rfl (hs.idleFresh hm).1⟩

/-! ## Decoder commands -/

theorem decRun_inv {n : Nat} (hs : s.Shape) (hl : s.Live) (hm : s.mode = .decode) (h : DecRun n s t) :
    t.Shape ∧ t.Live :=
  ⟨decode_shape hs hm h.only h.cells, decode_live hl hs hm h.only h.rangeGe⟩

/-- A run of decisions, then RES. -/
theorem decRes_inv {α : Type} {n : Nat} {x : Cmd α} {P : α → Prop} (f : α → Word) (hs : s.Shape) (hl : s.Live)
    (hm : s.mode = .decode)
    (h : Ends x s (fun a t => P a ∧ DecRun n s t) fun e t => DecCut n s e ∧ CellsOk t)
    (hk : Keeps (Same State.lessDecCells) x) : KeepsInv (do let a ← x; modify fun t => t.withRes (f a)) s := by
  unfold KeepsInv
  rw [ends_bind]
  refine (h.and (hk s)).mono ?_ ?_
  · rintro a t ⟨⟨-, hr⟩, -⟩
    exact withRes_inv _ (decRun_inv hs hl hm hr)
  · rintro e t ⟨⟨-, hc⟩, only⟩
    exact decode_shape hs hm only hc

/-- A decision at any legal probability takes at most two bytes (R142). -/
theorem decodeBitCore_run (hr : 2 ^ 24 ≤ s.range.toNat) (hc : CellsOk s) {p : Nat} (h1 : 1 ≤ p) (h2 : p ≤ 2047) :
    Ends (decodeBitCore p) s (fun _ t => True ∧ DecRun 2 s t) fun e t => DecCut 2 s e ∧ CellsOk t := by
  refine ((ends_decodeBitCore hr h1 h2 (n := 2) (bitRange_twice hr h1 h2)).and (decRel_arith.bitCore p s)).mono ?_ ?_
  · rintro q t ⟨⟨-, hge, k, hk, hstep⟩, only⟩
    obtain ⟨l, h3, h4, -⟩ := hstep.taken
    exact ⟨trivial, hge, hc.congr (lessDec_pram only), ⟨l, h3, by omega, by rw [hstep.counted, h4]⟩, lessDec_cells only⟩
  · rintro e t ⟨h, only⟩
    exact ⟨h, hc.congr (lessDec_pram only)⟩

theorem rcDecBit_inv (hs : s.Shape) (hl : s.Live) (hm : s.mode = .decode) : KeepsInv (do
    let a ← cellOperand
    let bit ← decCell a
    modify fun t => t.withRes (BitVec.ofNat 32 bit.toNat)) s := by
  unfold KeepsInv
  rw [ends_bind]
  exact ends_cellOperand (fun ha => decRes_inv _ hs hl hm (decCell_run hl.rangeGe hs.cellsOk ha)
    (sameDecCells.cellDecision trivial)) hs

theorem rcDecBitNa_inv (hs : s.Shape) (hl : s.Live) (hm : s.mode = .decode) : KeepsInv (do
    let p ← probOperand
    let r ← decodeBitCore p
    modify fun t => t.withRes (BitVec.ofNat 32 (r.2 <<< 16 ||| r.1.toNat))) s := by
  unfold KeepsInv
  rw [ends_bind]
  exact ends_probOperand (fun h1 h2 => decRes_inv _ hs hl hm (decodeBitCore_run hl.rangeGe hs.cellsOk h1 h2)
    (sameDecCells.bitCore _)) hs

theorem rcDecDirect_inv (n : Nat) (hs : s.Shape) (hl : s.Live) (hm : s.mode = .decode) : KeepsInv (do
    check (directCountLegal n) .illegalOperand
    let v ← decDirect n
    modify fun t => t.withRes (BitVec.ofNat 32 v)) s := by
  unfold KeepsInv
  rw [ends_bind]
  exact Ends.check (fun _ => decRes_inv _ hs hl hm (decDirect_run n hl.rangeGe hs.cellsOk) (sameDecCells.direct n))
    fun _ => hs

theorem rcDecTree_inv (n : Nat) (hs : s.Shape) (hl : s.Live) (hm : s.mode = .decode) : KeepsInv (do
    let base ← treeBaseOperand n
    let v ← treeDecode base n
    modify fun t => t.withRes (BitVec.ofNat 32 v)) s := by
  unfold KeepsInv
  rw [ends_bind]
  exact ends_treeBaseOperand (fun hv => decRes_inv _ hs hl hm (treeDecode_run hl.rangeGe hs.cellsOk hv)
    (sameDecCells.tree fun _ _ _ => trivial)) hs

theorem rcDecRtree_inv (n : Nat) (hs : s.Shape) (hl : s.Live) (hm : s.mode = .decode) : KeepsInv (do
    let base ← treeBaseOperand n
    let v ← rtreeDecode base n
    modify fun t => t.withRes (BitVec.ofNat 32 v)) s := by
  unfold KeepsInv
  rw [ends_bind]
  exact ends_treeBaseOperand (fun hv => decRes_inv _ hs hl hm (rtreeDecode_run hl.rangeGe hs.cellsOk hv)
    (sameDecCells.rtree fun _ _ _ => trivial)) hs

/-- Reading the five bytes of `DecInit` leaves RANGE at its start value (R136). -/
theorem decInit_range (s : State) : Ends decInit s (fun _ t => t.range = 0xFFFFFFFF) fun _ _ => True := by
  have hr : ∀ s : State, s.range = s.range := fun _ => rfl
  have ht : ∀ s t u : State, t.range = s.range → u.range = t.range → u.range = s.range := fun _ _ _ h h' => h'.trans h
  have hin : Keeps (fun s t => t.range = s.range) (inRead .truncated) := keeps_inRead hr (fun _ _ _ _ => rfl) _
  have hc : ∀ n c, Keeps (fun s t => t.range = s.range) (readCode n c) := fun n => by
    induction n with
    | zero => exact fun c => Keeps.pure hr _
    | succ n ih => exact fun c => Keeps.bind ht hin fun b => ih _
  unfold decInit
  rw [ends_bind, ends_modify]
  refine (Keeps.bind ht hin (fun _ => Keeps.bind ht (hc 4 0) fun c =>
    keeps_modify (f := fun t => t.withCode (BitVec.ofNat 32 c)) fun _ => rfl) _).mono ?_ fun _ _ _ => trivial
  exact fun _ t h => h

theorem rcDecInit_inv (hs : s.Shape) (hm : s.mode = .idle) :
    KeepsInv (do initChecks; decInit; modify fun t => t.withMode .decode) s := by
  have shape : ∀ t : State, t.lessDec = s.lessDec → t.Shape := fun t only => by
    rw [eq_of_lessDec only]
    exact { hs with }
  unfold KeepsInv
  rw [ends_bind]
  refine ends_initChecks (fun hp hc => ?_) fun _ => hs
  rw [ends_bind]
  refine ((decRel_arith.init s).and (decInit_range s)).mono ?_ fun _ t h => shape t h.1
  rintro _ t ⟨only, hrange⟩
  have hmt : t.mode = .idle := (Same.field (f := State.lessDec) only State.mode fun _ => rfl).trans hm
  have hpt : propsValid t.props = true := by rw [eq_of_lessDec only]; exact hp
  have hct : windowCap t ≤ t.config.pMaxDict := by rw [eq_of_lessDec only]; exact hc
  have hst := shape t only
  obtain ⟨h1, h2, -⟩ := hst.encoderFresh (.inl hmt)
  exact ⟨shape_start hst hmt hpt hct .decode, live_of_start h1 hrange h2 (hst.idleFresh hmt).1⟩

/-! ## The window -/

theorem copied_inv (d : Nat) : ∀ (n : Nat) {s : State}, s.Shape ∧ s.Live → (s.copied d n).Shape ∧ (s.copied d n).Live
  | 0, _, h => h
  | n + 1, _, h => copied_inv d n (appended_inv _ h)

theorem windowAppend_inv (b : Byte) (hs : s.Shape) (hl : s.Live) : KeepsInv (windowAppend b) s :=
  ends_windowAppend (appended_inv b ⟨hs, hl⟩) fun _ _ => hs

theorem copyMatch_inv (d n : Nat) (hs : s.Shape) (hl : s.Live) : KeepsInv (copyMatch d n) s := by
  refine (ends_copyMatch d n s).mono ?_ ?_
  · rintro _ t ⟨-, rfl⟩
    exact copied_inv d n ⟨hs, hl⟩
  · rintro e t (⟨-, rfl⟩ | ⟨-, -, -, j, -, rfl⟩)
    · exact hs
    · exact (copied_inv d j ⟨hs, hl⟩).1

/-! ## DEC_TOKEN -/

/-- A token never leaves STATE above 11 (42_symbol_fsm.md R202). -/
theorem tokRel_fsm : TokRel (fun s t => s.fsm.toNat ≤ 11 → t.fsm.toNat ≤ 11) (fun _ _ => True) (fun _ => True) where
  refl _ h := h
  trans _ _ _ h h' := h' ∘ h
  range _ _ h := h
  code _ _ h := h
  cell _ _ _ _ _ h := h
  take _ _ _ _ h := h
  fsm _ n hn _ := by
    rw [State.withFsm_fsm, BitVec.toNat_ofNat]
    omega
  reps _ _ _ _ _ h := h
  eos _ h := h
  append s b h := by
    rw [Same.field (f := State.lessWindow) (lessWindow_appended s b) State.fsm fun _ => rfl]
    exact h
  comp _ _ _ _ _ := trivial
  res _ _ := trivial
  done _ _ _ := trivial

/-- What a token's decoding may write before it ends keeps the shape. -/
theorem token_shape (hs : s.Shape) (hm : s.mode = .decode) (only : t.lessToken = s.lessToken) (hmt : t.mode = .decode)
    (hc : CellsOk t) (hf : t.fsm.toNat ≤ 11) : t.Shape := by
  have e := eq_of_lessToken only
  rw [hmt, ← hm] at e
  rw [e]
  exact { hs with
    pramWf := hc.wf, cells := hc.range, fsmLe := hf, encodeFsm := fun h => (by cases hm.symm.trans h),
    idleFresh := fun h => (by cases hm.symm.trans h) }

variable {n f : Nat} {r : Word × Word × Word × Word}

theorem TokMid.shape (h : TokMid n f r s u) (hs : s.Shape) (hm : s.mode = .decode) (hf : f ≤ 11) : u.Shape :=
  token_shape hs hm (congrArg State.lessToken h.only :) (h.mode.trans hm) h.cells (h.fsm.trans_le hf)

/-- Midway through a token the session is live if REP0 + 1 is readable where STATE becomes a match state (R223). -/
theorem TokMid.inv (h : TokMid n f r s u) (hs : s.Shape) (hm : s.mode = .decode) (hf : f ≤ 11)
    (hr : 7 ≤ f → Readable s (r.1.toNat + 1)) : u.Shape ∧ u.Live := by
  have hshape := h.shape hs hm hf
  have h0 : u.rep0 = r.1 := congrArg Prod.fst h.reps
  obtain ⟨hlow, hcache, -⟩ := hshape.encoderFresh (.inr (h.mode.trans hm))
  refine ⟨hshape, live_of_rest hlow hcache h.rangeGe fun _ h7 => ?_⟩
  rw [h.readable, h0]
  exact hr (h.fsm ▸ h7)

theorem litNext_lt {f : Nat} (h : f ≤ 11) : litNext f < 7 := by
  unfold litNext
  split_ifs <;> omega

/-- Each kind of token ends with the invariant kept (R202, R223). -/
theorem TokenEnd.inv (h : TokenEnd s t) (hs : s.Shape) (hl : s.Live) (hm : s.mode = .decode) : t.Shape ∧ t.Live := by
  have hfsm := hs.fsmLe
  cases h with
  | size hk => exact withRes_inv _ (decode_done_inv hs hm hl.rangeGe)
  | lit u b h =>
    have := litNext_lt hfsm
    exact withRes_inv _ (appended_inv b (h.inv hs hm (by omega) fun _ => by omega))
  | shortRep u h hp hr => exact withRes_inv _ (appended_inv _ (h.inv hs hm (shortRepNext_le _) fun _ => hr))
  | rep u i k r h hp hi hk hf hr => exact withRes_inv _ (copied_inv _ _ (h.inv hs hm (repNext_le _) fun _ => hr))
  | newMatch u i d h hi hd hf hr => exact withRes_inv _ (copied_inv _ _ (h.inv hs hm (matchNext_le _) fun _ => hr))
  | eos u h hk hc ht =>
    have hum : u.sawEos.mode = .decode := h.mode.trans hm
    have hus := h.shape hs hm (matchNext_le _)
    have huss : u.sawEos.Shape := { hus with idleFresh := fun h => by cases hum.symm.trans h }
    exact withRes_inv _ (decode_done_inv huss hum h.rangeGe)

theorem decToken_inv (hs : s.Shape) (hl : s.Live) (hm : s.mode = .decode) : KeepsInv decToken s := by
  refine (((decToken_run hl.rangeGe hs.cellsOk (hs.propsOk (by rw [hm]; decide)) hs.fsmLe).and (decToken_leads s)).and
    (tokRel_fsm.anyToken s)).mono ?_ ?_
  · rintro _ t ⟨⟨h, -⟩, -⟩
    exact h.inv hs hl hm
  · rintro e t ⟨⟨h, only⟩, hf⟩
    exact token_shape hs hm (congrArg State.lessToken only :)
      ((only.field State.mode fun _ => rfl).trans hm) h.cells (hf hs.fsmLe)

/-! ## The header -/

/-- The state without what the header commands and the configuration registers write. -/
def State.lessHeader (s : State) : State := { doneBlank .hdrRead s with sink := [], outCount := 0 }

/-- An IDLE session with other properties, sizes and stream contents (44_header.md R294, R296). -/
theorem idle_inv (hs : s.Shape) (hl : s.Live) (hm : s.mode = .idle)
    (h : Same State.lessHeader s t)
    (hp : t.props &&& propsMask = t.props) (hq : t.policy &&& policyMask = t.policy) : t.Shape ∧ t.Live := by
  obtain ⟨a, b, c, d, e, f, g, k, rfl⟩ : ∃ a b c d e f g k, t = { s with
      props := a, dictSize := b, usize := c, policy := d, source := e, inCount := f, sink := g, outCount := k } := by
    cases t; cases s; cases h
    exact ⟨_, _, _, _, _, _, _, _, rfl⟩
  exact ⟨{ hs with
      propsMasked := hp, policyMasked := hq, propsOk := fun h => absurd hm h, capFits := fun h => absurd hm h },
    { hl with matchReadable := fun h => (by cases hm.symm.trans h) }⟩

theorem hdrRead_inv (hs : s.Shape) (hl : s.Live) (hm : s.mode = .idle) : KeepsInv readHeader s := by
  refine ((readHeader_leads s).and (readHeader_writes s)).mono ?_ ?_
  · rintro _ t ⟨only, p, hp, present, hprops, hpolicy⟩
    refine idle_inv hs hl hm (only.coarser (g := State.lessHeader) fun _ => rfl) ?_ ?_
    · rw [hprops]
      exact propsWord_masked _ (Nat.mod_lt _ (by decide)) _ (Nat.mod_lt _ (by decide)) _ (by omega)
    · rw [hpolicy]
      exact setUsizePresent_masked hs.policyMasked present
  · rintro e t ⟨only, -⟩
    refine (idle_inv hs hl hm (Same.coarser (f := faultBlank .hdrRead) (fun _ => rfl) only) ?_ ?_).1
    · rw [only.field State.props fun _ => rfl]
      exact hs.propsMasked
    · rw [only.field State.policy fun _ => rfl]
      exact hs.policyMasked

theorem hdrWrite_inv (hs : s.Shape) (hl : s.Live) (hm : s.mode = .idle) : KeepsInv (do
    let t ← get
    check (propsValid t.props) .invalidProperties
    outWriteAll (headerBytes t)) s := by
  unfold KeepsInv
  rw [ends_bind, ends_get, ends_bind]
  refine Ends.check (fun _ => ?_) fun _ => hs
  have h : ∀ l, (s.deliveredAll l).Shape ∧ (s.deliveredAll l).Live := fun l =>
    idle_inv hs hl hm rfl hs.propsMasked hs.policyMasked
  refine (ends_outWriteAll _ s).mono ?_ ?_
  · rintro _ t rfl
    exact h _
  · rintro e t ⟨-, l, -, rfl⟩
    exact (h l).1

/-! ## Every command -/

theorem sessionReset_inv (h : s.Shape) : s.sessionReset.Inv :=
  ⟨{ h with
      pramWf := rfl, cells := rfl, fsmLe := Nat.zero_le 11, cachePos := le_rfl, faultClear := fun _ => ⟨rfl, rfl⟩,
      propsOk := fun h => absurd rfl h, capFits := fun h => absurd rfl h, encodeFsm := fun _ => rfl,
      idleFresh := fun _ => ⟨rfl, rfl, rfl⟩, encoderFresh := fun _ => ⟨rfl, rfl, rfl⟩ },
    fun _ => live_of_start rfl rfl rfl rfl⟩

theorem pmInit_inv (hs : s.Shape) (hl : s.Live) :
    KeepsInv (modify fun t => t.withPram []) s :=
  ⟨{ hs with pramWf := rfl, cells := rfl, idleFresh := fun h => ⟨(hs.idleFresh h).1, (hs.idleFresh h).2.1, rfl⟩ },
    { hl with }⟩

theorem dwReset_inv (hs : s.Shape) (hl : s.Live) (hm : s.mode = .idle) :
    KeepsInv (modify fun t => t.withWindow []) s :=
  ⟨{ hs with }, { hl with matchReadable := fun h => (by cases hm.symm.trans h) }⟩

/-- Reads of a cell or of the window, whose result goes to RES. -/
theorem readRes_inv {α : Type} {x : Cmd α} {f : α → Word} (hs : s.Shape) (hl : s.Live) (hk : Keeps Eq x) :
    KeepsInv (do let a ← x; modify fun t => t.withRes (f a)) s := by
  unfold KeepsInv
  rw [ends_bind]
  exact (hk s).mono (fun _ _ e => e ▸ withRes_inv _ ⟨hs, hl⟩) fun _ _ e => e ▸ hs

theorem exec_inv {i : Instr} (hi : s.Inv) (e : exec i s = .next t) : t.Inv := by
  cases i with
  | sessionReset => cases e; exact sessionReset_inv hi.1
  | nop => exact issue_inv hi e fun _ hs hl => ⟨hs, hl⟩
  | rcEncInit => exact issue_inv_in hi e fun hm hs _ => rcEncInit_inv hs hm
  | rcEncBit bit => exact issue_inv_in hi e fun hm hs hl => rcEncBit_inv bit hs hl hm
  | rcEncBitNa bit => exact issue_inv_in hi e fun hm hs hl => rcEncBitNa_inv bit hs hl hm
  | rcEncTree n => exact issue_inv_in hi e fun hm hs hl => rcEncTree_inv n hs hl hm
  | rcEncFlush => exact issue_inv_in hi e fun hm hs hl => rcEncFlush_inv hs hl hm
  | rcDecInit => exact issue_inv_in hi e fun hm hs _ => rcDecInit_inv hs hm
  | rcDecBit => exact issue_inv_in hi e fun hm hs hl => rcDecBit_inv hs hl hm
  | rcDecBitNa => exact issue_inv_in hi e fun hm hs hl => rcDecBitNa_inv hs hl hm
  | rcDecDirect n => exact issue_inv_in hi e fun hm hs hl => rcDecDirect_inv n hs hl hm
  | rcDecTree n => exact issue_inv_in hi e fun hm hs hl => rcDecTree_inv n hs hl hm
  | rcDecRtree n => exact issue_inv_in hi e fun hm hs hl => rcDecRtree_inv n hs hl hm
  | rcDecFinished => exact issue_inv hi e fun _ hs hl => withRes_inv _ ⟨hs, hl⟩
  | pmInit => exact issue_inv hi e fun _ hs hl => pmInit_inv hs hl
  | cellRead => exact issue_inv hi e fun _ hs hl =>
      ends_bind.2 (ends_cellOperand (fun _ => readRes_inv hs hl (keeps_readCell (fun _ => rfl) _)) hs)
  | encLiteral b => exact issue_inv_in hi e fun hm hs hl => encLiteral_inv b hs hl hm
  | encEos => exact issue_inv_in hi e fun hm hs hl => encEos_inv hs hl hm
  | decToken => exact issue_inv_in hi e fun hm hs hl => decToken_inv hs hl hm
  | dwReset => exact issue_inv_in hi e fun hm hs hl => dwReset_inv hs hl hm
  | dwPush b => exact issue_inv hi e fun _ hs hl => windowAppend_inv b hs hl
  | dwByteAt => exact issue_inv hi e fun _ hs hl =>
      ends_bind.2 (readRes_inv (x := byteAt s.arg0.toNat) hs hl (keeps_byteAt (fun _ => rfl) _))
  | dwLast => exact issue_inv hi e fun _ hs hl => withRes_inv _ ⟨hs, hl⟩
  | dwCopy => exact issue_inv hi e fun _ hs hl => copyMatch_inv _ _ hs hl
  | propsValidate => exact issue_inv hi e fun _ hs hl => ends_bind.2 (Ends.check (fun _ => ⟨hs, hl⟩) fun _ => hs)
  | hdrWrite => exact issue_inv_in hi e fun hm hs hl => hdrWrite_inv hs hl hm
  | hdrRead => exact issue_inv_in hi e fun hm hs hl => hdrRead_inv hs hl hm

/-! ## Every access of the host -/

theorem configWrite_inv {store : State → State} (hi : s.Inv) (e : configWrite store s = .next t)
    (h : Same State.lessHeader s (store s)) (hp : (store s).props &&& propsMask = (store s).props)
    (hq : (store s).policy &&& policyMask = (store s).policy) : t.Inv := by
  unfold configWrite at e
  split_ifs at e with hf hm <;> cases e
  · exact hi
  · obtain ⟨hs, hl⟩ := idle_inv hi.1 (hi.2 (by simpa using hf)) hm h hp hq
    exact ⟨hs, fun _ => hl⟩
  · exact takeFault_inv hi.1 _

/-- The state without the operand registers and the host's side, of which the invariant does not speak. -/
def State.lessHost (s : State) : State := { s with arg0 := 0, arg1 := 0, hostQueue := [], hostReads := [] }

theorem host_inv (hi : s.Inv) (h : Same State.lessHost s t) : t.Inv := by
  obtain ⟨a, b, q, r, rfl⟩ : ∃ a b q r, t = { s with arg0 := a, arg1 := b, hostQueue := q, hostReads := r } := by
    cases t; cases s; cases h
    exact ⟨_, _, _, _, rfl⟩
  exact ⟨{ hi.1 with }, fun hf => { hi.2 hf with }⟩

theorem masked_twice (v m : Word) : v &&& m &&& m = v &&& m := by
  rw [BitVec.and_assoc, BitVec.and_self]

theorem command_inv {w : Word} (hi : s.Inv) (e : command w s = .next t) : t.Inv := by
  unfold command at e
  split at e
  · exact exec_inv hi e
  · split_ifs at e <;> cases e
    · exact hi
    · exact takeFault_inv hi.1 _

theorem writePort_inv {a : PortAddr} {v : Word} (hi : s.Inv) (e : writePort a v s = .next t) : t.Inv := by
  have hp := hi.1.propsMasked
  have hq := hi.1.policyMasked
  unfold writePort at e
  split at e
  · exact configWrite_inv hi e rfl (masked_twice _ _) hq
  · exact configWrite_inv hi e rfl hp hq
  · exact configWrite_inv hi e rfl hp hq
  · exact configWrite_inv hi e rfl hp hq
  · exact configWrite_inv hi e rfl hp (masked_twice _ _)
  · cases e; exact host_inv hi rfl
  · cases e; exact host_inv hi rfl
  · exact command_inv hi e
  · cases e; exact hi

theorem access_inv {x : Access} (hi : s.Inv) (e : access x s = .next t) : t.Inv := by
  cases x with
  | read a => cases e; exact host_inv hi rfl
  | write a v => exact writePort_inv hi e

/-- Settles O59: a step performs the host's next access, and every access keeps the invariant. -/
theorem stepKeepsInv : Obligations.StepKeepsInv := by
  intro s t hi e
  cases hq : s.hostQueue with
  | nil =>
    cases e.symm.trans (step_nil hq)
    exact hi
  | cons x rest =>
    rw [step_cons hq] at e
    exact access_inv (s := s.withQueue rest) (host_inv hi rfl) e

/-- Settles O58: power-on is SESSION_RESET's session, with PROPS and POLICY of their own fields. -/
theorem invAtReset : Obligations.InvAtReset :=
  ⟨by constructor <;> decide, fun _ => live_of_start rfl rfl rfl rfl⟩

end Sys2Proof.Machine
end

section
/-! PROOFS. The command word (30_encoding.md R80 to R88): its two fields, each row's test as a test of the fields, the
decoder as the inverse of the encoder, and what a write to CMD does with a word of no row or in a wrong mode. -/

namespace Sys2Proof

variable {w : Word} {i : Instr}

/-! ## The two fields of a word (R80) -/

theorem opcodeField_eq (w : Word) : opcodeField w = w.toNat / 2 ^ 24 := by
  have h := w.isLt
  rw [opcodeField, BitVec.extractLsb'_toNat, Nat.shiftRight_eq_div_pow]
  omega

theorem immField_eq (w : Word) : immField w = w.toNat % 2 ^ 24 := by
  rw [immField, BitVec.extractLsb'_toNat, Nat.shiftRight_zero]

theorem toNat_eq_fields (w : Word) : w.toNat = opcodeField w * 2 ^ 24 + immField w := by
  rw [opcodeField_eq, immField_eq, Nat.div_add_mod']

/-! ## The immediate field of a command (R81) -/

/-- The width of a command's immediate field (R81). -/
def Instr.fieldWidth : Instr → Nat
  | .rcEncBit _ | .rcEncBitNa _ => 1
  | .rcEncTree _ | .rcDecTree _ | .rcDecRtree _ => 4
  | .rcDecDirect _ => 6
  | .encLiteral _ | .dwPush _ => 8
  | _ => 0

theorem fieldWidth_le (i : Instr) : i.fieldWidth ≤ 24 := by
  cases i <;> simp [Instr.fieldWidth]

theorem opcode_lt (i : Instr) : i.opcode < 2 ^ 8 := by
  cases i <;> simp [Instr.opcode]

/-- A command is well formed when its immediate value fits its field. -/
theorem wf_iff_imm_lt (i : Instr) : i.wf = true ↔ i.imm < 2 ^ i.fieldWidth := by
  cases i with
  | rcEncBit b | rcEncBitNa b => exact iff_of_true rfl b.toNat_lt
  | encLiteral b | dwPush b => exact iff_of_true rfl b.isLt
  | rcEncTree n | rcDecTree n | rcDecRtree n | rcDecDirect n => exact decide_eq_true_iff
  | _ => exact iff_of_true rfl Nat.one_pos

theorem imm_lt (hi : i.wf = true) : i.imm < 2 ^ 24 :=
  ((wf_iff_imm_lt i).1 hi).trans_le (Nat.pow_le_pow_right Nat.two_pos (fieldWidth_le i))

/-- The row of a command has a command for each value of its immediate field. -/
theorem exists_row_imm {v : Nat} (hv : v < 2 ^ i.fieldWidth) :
    ∃ j : Instr, j.row = i.row ∧ j.opcode = i.opcode ∧ j.fieldWidth = i.fieldWidth ∧ j.imm = v := by
  cases i with
  | rcEncBit _ => exact ⟨.rcEncBit (v == 1), rfl, rfl, rfl, by change v < 2 at hv; interval_cases v <;> rfl⟩
  | rcEncBitNa _ => exact ⟨.rcEncBitNa (v == 1), rfl, rfl, rfl, by change v < 2 at hv; interval_cases v <;> rfl⟩
  | encLiteral _ => exact ⟨.encLiteral (BitVec.ofNat 8 v), rfl, rfl, rfl, Nat.mod_eq_of_lt hv⟩
  | dwPush _ => exact ⟨.dwPush (BitVec.ofNat 8 v), rfl, rfl, rfl, Nat.mod_eq_of_lt hv⟩
  | rcEncTree _ => exact ⟨.rcEncTree v, rfl, rfl, rfl, rfl⟩
  | rcDecTree _ => exact ⟨.rcDecTree v, rfl, rfl, rfl, rfl⟩
  | rcDecRtree _ => exact ⟨.rcDecRtree v, rfl, rfl, rfl, rfl⟩
  | rcDecDirect _ => exact ⟨.rcDecDirect v, rfl, rfl, rfl, rfl⟩
  | _ => exact ⟨_, rfl, rfl, rfl, (Nat.lt_one_iff.1 hv).symm⟩

/-! ## The encoder (R87) -/

theorem toNat_encode (hi : i.wf = true) : (encode i).toNat = i.opcode * 2 ^ 24 + i.imm := by
  have ho := opcode_lt i
  have hm := imm_lt hi
  rw [encode, BitVec.toNat_ofNat, Nat.mod_eq_of_lt (by omega)]

theorem encode_fields (hi : i.wf = true) : opcodeField (encode i) = i.opcode ∧ immField (encode i) = i.imm := by
  have hm := imm_lt hi
  rw [opcodeField_eq, immField_eq, toNat_encode hi]
  omega

/-- A word with the fields of a well-formed command is the command's word. -/
theorem encode_eq_of_fields (hi : i.wf = true) (ho : opcodeField w = i.opcode) (hm : immField w = i.imm) :
    encode i = w := by
  apply BitVec.eq_of_toNat_eq
  rw [toNat_encode hi, toNat_eq_fields w, ho, hm]

/-! ## The decoder (R83) -/

theorem plain_ok_iff {imm : Nat} {j : Instr} : plain imm j = .ok i ↔ imm = 0 ∧ j = i := by
  unfold plain
  split <;> simp_all

theorem withField_ok_iff {imm width : Nat} {f : Nat → Instr} :
    withField imm width f = .ok i ↔ imm < 2 ^ width ∧ f imm = i := by
  unfold withField
  split <;> simp_all

/-- A word with the fields of a well-formed command decodes to it. -/
theorem decode_of_fields (hi : i.wf = true) (ho : opcodeField w = i.opcode) (hm : immField w = i.imm) :
    decode w = .ok i := by
  unfold decode
  rw [ho, hm]
  have hv := (wf_iff_imm_lt i).1 hi
  cases i with
  | rcEncBit b | rcEncBitNa b => cases b <;> rfl
  | encLiteral b | dwPush b => exact withField_ok_iff.2 ⟨hv, by simp [Instr.imm]⟩
  | rcEncTree n | rcDecTree n | rcDecRtree n | rcDecDirect n => exact withField_ok_iff.2 ⟨hv, rfl⟩
  | _ => rfl

/-- A word that decodes has the fields of a well-formed command. -/
theorem fields_of_decode (h : decode w = .ok i) : i.wf = true ∧ opcodeField w = i.opcode ∧ immField w = i.imm := by
  rw [wf_iff_imm_lt]
  unfold decode at h
  split at h <;> rename_i ho
  case h_28 => cases h
  case h_4 | h_5 =>
    obtain ⟨hv, rfl⟩ := withField_ok_iff.1 h
    refine ⟨Bool.toNat_lt _, ho, ?_⟩
    generalize immField w = v at hv ⊢
    interval_cases v <;> rfl
  case h_17 | h_21 =>
    obtain ⟨hv, rfl⟩ := withField_ok_iff.1 h
    exact ⟨BitVec.isLt _, ho, (Nat.mod_eq_of_lt hv).symm⟩
  case h_6 | h_11 | h_12 | h_13 =>
    obtain ⟨hv, rfl⟩ := withField_ok_iff.1 h
    exact ⟨hv, ho, rfl⟩
  all_goals
    obtain ⟨hv, rfl⟩ := plain_ok_iff.1 h
    exact ⟨Nat.one_pos, ho, hv⟩

/-- Settles O2: the encoded word has the command's fields, and the decoder goes by them. -/
theorem decodeOfEncode : Obligations.DecodeOfEncode := fun _ hi =>
  decode_of_fields hi (encode_fields hi).1 (encode_fields hi).2

/-- Settles O1. -/
theorem commandWordsDecode : Obligations.CommandWordsDecode := by
  unfold Obligations.CommandWordsDecode
  decide

/-! ## Rows of the opcode map (R83, R84) -/

theorem row_eq (i : Instr) : i.row = ⟨BitVec.ofNat 32 (i.opcode * 2 ^ 24), BitVec.allOnes 32 <<< i.fieldWidth⟩ := by
  cases i <;> simp only [Instr.row, Instr.opcode, Instr.fieldWidth] <;> decide

/-- A mask of all but the `k` low bits clears them. -/
theorem toNat_and_highMask (w : Word) (k : Nat) :
    (w &&& BitVec.allOnes 32 <<< k).toNat = w.toNat / 2 ^ k * 2 ^ k := by
  have hle : w.toNat / 2 ^ k * 2 ^ k < 2 ^ 32 := (Nat.div_mul_le_self _ _).trans_lt w.isLt
  rw [← BitVec.shiftLeft_ushiftRight, BitVec.toNat_shiftLeft, BitVec.toNat_ushiftRight, Nat.shiftLeft_eq,
    Nat.shiftRight_eq_div_pow, Nat.mod_eq_of_lt hle]

/-- A row's test asks for the row's opcode and for an immediate value within the row's field (R83). -/
theorem row_matches_iff : i.row.matches w = true ↔ opcodeField w = i.opcode ∧ immField w < 2 ^ i.fieldWidth := by
  have ho := opcode_lt i
  have hdvd : 2 ^ i.fieldWidth ∣ 2 ^ 24 := Nat.pow_dvd_pow 2 (fieldWidth_le i)
  have himm := immField_eq w
  have hlow : w.toNat % 2 ^ i.fieldWidth = immField w % 2 ^ i.fieldWidth := by rw [himm, Nat.mod_mod_of_dvd _ hdvd]
  have hsplit := Nat.div_add_mod' w.toNat (2 ^ i.fieldWidth)
  have hle := Nat.mod_le (immField w) (2 ^ i.fieldWidth)
  have hfields := toNat_eq_fields w
  rw [row_eq, OpRow.matches, beq_iff_eq, ← BitVec.toNat_inj, toNat_and_highMask, BitVec.toNat_ofNat,
    Nat.mod_eq_of_lt (by omega), ← Nat.mod_eq_iff_lt (Nat.two_pow_pos _).ne']
  omega

/-- One command of each row, in the map's order. -/
def rowCommands : List Instr :=
  [.nop, .sessionReset, .rcEncInit, .rcEncBit false, .rcEncBitNa false, .rcEncTree 0, .rcEncFlush, .rcDecInit,
   .rcDecBit, .rcDecBitNa, .rcDecDirect 0, .rcDecTree 0, .rcDecRtree 0, .rcDecFinished, .pmInit, .cellRead, .encLiteral 0,
   .encEos, .decToken, .dwReset, .dwPush 0, .dwByteAt, .dwLast, .dwCopy, .propsValidate, .hdrWrite, .hdrRead]

theorem opcodeRows_eq : opcodeRows = rowCommands.map Instr.row := rfl

theorem exists_row_eq {r : OpRow} (h : r ∈ opcodeRows) : ∃ i : Instr, i.row = r := by
  rw [opcodeRows_eq] at h
  obtain ⟨i, -, hi⟩ := List.mem_map.1 h
  exact ⟨i, hi⟩

theorem row_mem_opcodeRows (i : Instr) : i.row ∈ opcodeRows := by
  cases i <;> simp only [Instr.row] <;> decide

/-- A word that matches a row decodes to a command of that row. -/
theorem decode_of_matches {r : OpRow} (hr : r ∈ opcodeRows) (h : r.matches w = true) :
    ∃ i, decode w = .ok i ∧ i.row = r := by
  obtain ⟨c, rfl⟩ := exists_row_eq hr
  obtain ⟨ho, hv⟩ := row_matches_iff.1 h
  obtain ⟨i, hrow, hop, hwidth, himm⟩ := exists_row_imm hv
  exact ⟨i, decode_of_fields ((wf_iff_imm_lt i).2 (by rwa [himm, hwidth])) (ho.trans hop.symm) himm.symm, hrow⟩

/-- A word that decodes matches its command's row. -/
theorem matches_of_decode (h : decode w = .ok i) : i.row.matches w = true := by
  obtain ⟨hi, ho, hm⟩ := fields_of_decode h
  exact row_matches_iff.2 ⟨ho, hm ▸ (wf_iff_imm_lt i).1 hi⟩

theorem encode_of_decode (h : decode w = .ok i) : encode i = w := by
  obtain ⟨hi, ho, hm⟩ := fields_of_decode h
  exact encode_eq_of_fields hi ho hm

/-- Settles O3: a matched row is the decoded command's, so there is at most one. -/
theorem decodesExactlyByRows : Obligations.DecodesExactlyByRows := by
  refine ⟨fun w => ⟨?_, ?_⟩, fun w i h => ?_, fun w r r' hr hr' h h' => ?_⟩
  · rintro ⟨i, h⟩
    exact ⟨i.row, row_mem_opcodeRows i, matches_of_decode h⟩
  · rintro ⟨r, hr, h⟩
    obtain ⟨i, hi, -⟩ := decode_of_matches hr h
    exact ⟨i, hi⟩
  · exact ⟨row_mem_opcodeRows i, matches_of_decode h, (fields_of_decode h).1, encode_of_decode h⟩
  · obtain ⟨i, hi, rfl⟩ := decode_of_matches hr h
    obtain ⟨j, hj, rfl⟩ := decode_of_matches hr' h'
    cases hi.symm.trans hj
    rfl

end Sys2Proof

namespace Sys2Proof.Machine

variable {w : Word} {i : Instr} {s : State}

/-! ## A word written to CMD (R86) -/

/-- A word that does not decode faults ILLEGAL_COMMAND. -/
theorem command_illegal {e : Reject} (h : decode w = .error e) (hf : s.faulted = false) :
    command w s = .next (s.takeFault .illegalCommand) := by
  simp [command, h, hf]

theorem command_illegal_faulted {e : Reject} (h : decode w = .error e) (hf : s.faulted = true) :
    command w s = .next s := by
  simp [command, h, hf]

/-- Every command but SESSION_RESET makes the checks of R323, with the modes of its row (R83). -/
theorem exec_issue (hi : i ≠ .sessionReset) : ∃ body, ∀ s, exec i s = issue (modesOf i) body s := by
  cases i with
  | sessionReset => exact absurd rfl hi
  | _ => exact ⟨_, fun _ => rfl⟩

theorem exec_faulted (hi : i ≠ .sessionReset) (hf : s.faulted = true) : exec i s = .next s := by
  obtain ⟨body, h⟩ := exec_issue hi
  rw [h, issue_faulted hf]

/-- Settles O4: a word of no row does not decode, and only the word of SESSION_RESET decodes to it. -/
theorem illegalCommandWord : Obligations.IllegalCommandWord := by
  refine ⟨fun w s hrow hf => ?_, fun w s hf hw => ?_, fun s _ => ⟨s.sessionReset, rfl, rfl⟩⟩
  · cases hd : decode w with
    | error e => exact command_illegal hd hf
    | ok i => exact absurd (matches_of_decode hd) (by simp [hrow _ (row_mem_opcodeRows i)])
  · cases hd : decode w with
    | error e => exact command_illegal_faulted hd hf
    | ok i =>
      have hi : i ≠ .sessionReset := by
        rintro rfl
        exact hw (encode_of_decode hd).symm
      rw [command_ok hd, exec_faulted hi hf]

/-! ## A command in a wrong mode (R83; 60_exceptions.md R323) -/

theorem exec_wrong_mode (hf : s.faulted = false) (hm : s.mode ∉ modesOf i) :
    exec i s = .next (s.takeFault .sequenceError) := by
  have hi : i ≠ .sessionReset := by
    rintro rfl
    cases hs : s.mode <;> simp [modesOf, hs] at hm
  obtain ⟨body, h⟩ := exec_issue hi
  rw [h, issue_wrong_mode hf (by simpa using hm)]

/-- Once EOS_SEEN is 1 a body that begins with `requireNoEos` faults there (42_symbol_fsm.md R210, R211). -/
theorem issue_after_eos {modes : List Mode} {body : Cmd Unit} (hf : s.faulted = false) (hm : s.mode ∈ modes)
    (he : s.eosSeen = true) : issue modes (do requireNoEos; body) s = .next (s.takeFault .sequenceError) := by
  rw [issue_ready hf (by simpa using hm)]
  simp only [requireNoEos, check, bind_run, get_run, he]
  rfl

/-- Settles O18. -/
theorem wrongModeFaults : Obligations.WrongModeFaults := by
  refine ⟨fun i s hf hm => exec_wrong_mode hf hm, fun b s hr he => ?_⟩
  obtain ⟨hf, hm⟩ := hr
  exact ⟨issue_after_eos hf (by simp [hm]) he, issue_after_eos hf (by simp [hm]) he⟩

end Sys2Proof.Machine
end

section
/-! PROOFS. The range coder's arithmetic and its sessions (40_range_coder.md R122, R127, R130, R133, R136, R140, R144):
adaptation, ShiftLow, and the commands that start and end a session. -/

namespace Sys2Proof.Machine

variable {s t u v : State} {α β : Type} {E : Stop → State → Prop}

/-! ## Adaptation (R122) -/

theorem adapt_zero (p : Nat) : adapt p false = p + (2048 - p) / 32 := by
  simp [adapt, Nat.shiftRight_eq_div_pow]

theorem adapt_one (p : Nat) : adapt p true = p - p / 32 := by
  simp [adapt, Nat.shiftRight_eq_div_pow]

/-- Settles O25. -/
theorem adaptationRange : Obligations.AdaptationRange := by
  intro p hp
  refine ⟨adapt_zero p, adapt_one p, fun bit h1 h2 => adapt_bounds h1 h2 bit, fun h => ?_, fun h => ?_⟩
  · rw [adapt_one]
    omega
  · rw [adapt_zero]
    omega

/-! ## Runs -/

/-- A run that cannot be cut short ends with a value. -/
theorem Ends.completes {x : Cmd α} {Q : α → State → Prop} (h : Ends x s Q E) (he : ∀ e t, ¬ E e t) :
    ∃ a t, x s = .ok a t ∧ Q a t := by
  unfold Ends at h
  split at h
  · exact ⟨_, _, by assumption, h⟩
  · exact absurd h (he _ _)

/-- A run that cannot end with a value is cut short. -/
theorem Ends.stops {x : Cmd α} {Q : α → State → Prop} (h : Ends x s Q E) (hq : ∀ a t, ¬ Q a t) :
    ∃ e t, x s = .error e t ∧ E e t := by
  unfold Ends at h
  split at h
  · exact absurd h (hq _ _)
  · exact ⟨_, _, by assumption, h⟩

/-- A repetition stops at its first turn that stops. -/
theorem repeatCmd_stops {c : Cmd Unit} {e : Stop} : ∀ {j n : Nat} {s : State}, j < n → repeatCmd j c s = .ok () u →
    c u = .error e v → repeatCmd n c s = .error e v
  | 0, n + 1, s, _, hu, he => by
    cases hu
    rw [repeatCmd, bind_run, he]
  | j + 1, n + 1, s, hj, hu, he => by
    rw [repeatCmd, bind_run] at hu ⊢
    cases hc : c s with
    | ok a t =>
      rw [hc] at hu
      exact repeatCmd_stops (Nat.lt_of_succ_lt_succ hj) hu he
    | error e' t =>
      rw [hc] at hu
      cases hu

/-! ## ShiftLow (R127) -/

/-- `ShiftLow` completes where it delivers nothing or the sink takes the run. -/
theorem shiftLow_run (h : 1 ≤ s.cacheSize) (ht : runIsFinal s.low = true → sinkTakes s.cacheSize s) :
    shiftLow s = .ok () s.shifted := by
  by_cases hf : runIsFinal s.low = true
  · obtain ⟨_, t, e, rfl⟩ := (ends_shiftLow h).completes fun e t he => he.2.1 (ht hf)
    exact e
  · unfold shiftLow
    rw [bind_run, get_run]
    simp only [runIf, State.shifted, hf, Bool.false_eq_true, if_false]
    rfl

theorem carryOf_of_lt {low : BitVec 64} (h : low.toNat < 2 ^ 33) : carryOf low = low.toNat / 2 ^ 32 := by
  rw [carryOf_eq]
  omega

/-- The pending run in bytes: CACHE and the 0xFF bytes, the carry added to each. -/
theorem pendingRun_eq (h : s.low.toNat < 2 ^ 33) : pendingRun s =
    (s.cache + BitVec.ofNat 8 (s.low.toNat / 2 ^ 32)) ::
      List.replicate (s.cacheSize - 1) (0xFF + BitVec.ofNat 8 (s.low.toNat / 2 ^ 32)) := by
  have h1 : BitVec.ofNat 8 (s.cache.toNat + carryOf s.low) = s.cache + BitVec.ofNat 8 (s.low.toNat / 2 ^ 32) := by
    rw [BitVec.ofNat_add, BitVec.ofNat_toNat, BitVec.setWidth_eq, carryOf_of_lt h]
  have h2 : BitVec.ofNat 8 (0xFF + carryOf s.low) = 0xFF + BitVec.ofNat 8 (s.low.toNat / 2 ^ 32) := by
    rw [BitVec.ofNat_add, carryOf_of_lt h]
    rfl
  rw [pendingRun, h1, h2]

theorem lowByte_eq (n : Nat) : (n &&& 0x00FFFFFF) <<< 8 = n % 2 ^ 24 * 256 := by
  rw [Nat.shiftLeft_eq, show (0x00FFFFFF : Nat) = 2 ^ 24 - 1 from rfl, Nat.and_two_pow_sub_one_eq_mod]

theorem lowTop_ofNat (low : BitVec 64) : low.extractLsb' 24 8 = BitVec.ofNat 8 (low.toNat / 2 ^ 24) := by
  apply BitVec.eq_of_toNat_eq
  rw [lowTop_eq, BitVec.toNat_ofNat]

/-- ShiftLow's delivery of the run (R127). -/
theorem shifted_final (hf : runIsFinal s.low = true) : s.shifted = { s with
    sink := s.sink ++ pendingRun s, outCount := s.outCount + (pendingRun s).length,
    cache := BitVec.ofNat 8 (s.low.toNat / 2 ^ 24), cacheSize := 1,
    low := BitVec.ofNat 64 (s.low.toNat % 2 ^ 24 * 256) } := by
  unfold State.shifted
  rw [if_pos hf, lowByte_eq, lowTop_ofNat]
  rfl

/-- ShiftLow's deferral of a 0xFF byte (R127). -/
theorem shifted_deferred (hf : ¬ runIsFinal s.low = true) : s.shifted = { s with
    cacheSize := s.cacheSize + 1, low := BitVec.ofNat 64 (s.low.toNat % 2 ^ 24 * 256) } := by
  unfold State.shifted
  rw [if_neg hf, lowByte_eq]
  rfl

/-- Settles O26: the two ways of ShiftLow, and a sink that cuts the first short. -/
theorem shiftOut : Obligations.ShiftOut := by
  intro s hc hl
  refine ⟨fun run hlow hrun => ?_, fun h1 h2 => ?_⟩
  · have hf : runIsFinal s.low = true := (runIsFinal_iff _).2 hlow
    rw [← pendingRun_eq hl] at hrun
    have hlen : run.length = s.cacheSize := hrun ▸ pendingRun_length hc
    refine ⟨fun ht => ?_, fun k hk hlt => ?_⟩
    · rw [shiftLow_run hc fun _ => ht, shifted_final hf, ← hrun, hlen]
    · have htake : (run.take (k - s.sink.length)).length = k - s.sink.length := by
        rw [List.length_take, hlen]
        omega
      rw [shiftLow_fails hc hf hk hlt, ← hrun, State.deliveredAll, htake]
  · have hf : ¬ runIsFinal s.low = true := by
      rw [runIsFinal_iff]
      omega
    rw [shiftLow_run hc fun h => absurd h hf, shifted_deferred hf]

/-! ## The checks of an init command (R130, R140) -/

theorem check_true (c : Cause) (s : State) : check true c s = .ok () s := rfl

theorem check_false (c : Cause) (s : State) : check false c s = .error (.raise c) s := rfl

theorem initChecks_pass (h1 : propsValid s.props = true) (h2 : windowCap s ≤ s.config.pMaxDict) :
    initChecks s = .ok () s := by
  simp only [initChecks, bind_run, get_run, h1, check_true, h2, decide_true]

theorem initChecks_invalid (h : propsValid s.props = false) : initChecks s = .error (.raise .invalidProperties) s := by
  simp only [initChecks, bind_run, get_run, h, check_false]

theorem initChecks_tooLarge (h1 : propsValid s.props = true) (h2 : s.config.pMaxDict < windowCap s) :
    initChecks s = .error (.raise .dictTooLarge) s := by
  simp only [initChecks, bind_run, get_run, h1, check_true, Nat.not_le.2 h2, decide_false, check_false]

/-- An init command in IDLE: its checks, then what starts its coder. -/
theorem issue_init {body : Cmd Unit} (hr : Ready .idle s) :
    issue [.idle] (do initChecks; body) s = conclude ((do initChecks; body : Cmd Unit) s) :=
  issue_ready hr.1 (by rw [hr.2]; rfl)

/-- Its two faults, in their order, with no other effect. -/
theorem issue_init_faults {body : Cmd Unit} (hr : Ready .idle s) :
    (propsValid s.props = false →
      issue [.idle] (do initChecks; body) s = .next (s.takeFault .invalidProperties)) ∧
    (propsValid s.props = true → s.config.pMaxDict < windowCap s →
      issue [.idle] (do initChecks; body) s = .next (s.takeFault .dictTooLarge)) := by
  rw [issue_init hr, bind_run]
  exact ⟨fun h => by rw [initChecks_invalid h]; rfl, fun h1 h2 => by rw [initChecks_tooLarge h1 h2]; rfl⟩

theorem exec_rcEncInit (hr : Ready .idle s) (h1 : propsValid s.props = true) (h2 : windowCap s ≤ s.config.pMaxDict) :
    exec .rcEncInit s = .next (encoderStart s) := by
  refine (issue_init hr).trans ?_
  rw [bind_run, initChecks_pass h1 h2]
  rfl

/-- Settles O27. -/
theorem encInitStarts : Obligations.EncInitStarts := fun _ hr => ⟨exec_rcEncInit hr, issue_init_faults hr⟩

/-! ## The decoder's start (R136, R140) -/

/-- The state with its next `n` source bytes consumed. -/
def State.tookAll (s : State) (n : Nat) : State := { s with source := s.source.drop n, inCount := s.inCount + n }

theorem State.tookAll_cons {b : Byte} {l : List Byte} (h : s.source = b :: l) (n : Nat) :
    (s.consumed l).tookAll n = s.tookAll (n + 1) := by
  simp only [State.tookAll, State.consumed, h, List.drop_succ_cons, Nat.add_assoc, Nat.add_comm 1]

/-- Bytes shifted into a 32-bit code, most significant first (R136). -/
theorem readCode_run : ∀ (l : List Byte) {rest : List Byte} {c : Nat} {s : State}, s.source = l ++ rest →
    c * 256 ^ l.length + numOf l < 2 ^ 32 →
    readCode l.length c s = .ok (c * 256 ^ l.length + numOf l) (s.tookAll l.length)
  | [], rest, c, s, _, _ => by
    simp [readCode, State.tookAll]
    rfl
  | b :: l, rest, c, s, hs, hlt => by
    have e : c * 256 ^ (b :: l).length + numOf (b :: l) = (c * 256 + b.toNat) * 256 ^ l.length + numOf l := by
      rw [numOf_cons, List.length_cons, pow_succ]
      ring
    have hpow : 1 ≤ 256 ^ l.length := Nat.one_le_pow _ _ (by decide)
    have hle : c * 256 + b.toNat ≤ (c * 256 + b.toNat) * 256 ^ l.length := Nat.le_mul_of_pos_right _ hpow
    rw [e] at hlt ⊢
    rw [List.length_cons, readCode, bind_run, inRead_cons hs]
    dsimp only
    rw [shl8_or, Nat.mod_eq_of_lt (by omega), readCode_run l rfl hlt, State.tookAll_cons hs]

/-- A source that ends inside the code is used up (R136). -/
theorem readCode_short : ∀ {n c : Nat} {s : State}, s.source.length < n →
    readCode n c s = .error (.raise (sourceStop s .truncated)) (s.tookAll s.source.length)
  | n + 1, c, s, h => by
    rw [readCode, bind_run]
    cases hs : s.source with
    | nil =>
      rw [inRead_nil hs]
      rfl
    | cons b l =>
      rw [hs] at h
      rw [inRead_cons hs]
      dsimp only
      rw [readCode_short (s := s.consumed l) (Nat.lt_of_succ_lt_succ h), sourceStop_congr (State.consumed_sourceEnd ..),
        State.consumed_source, State.tookAll_cons hs]
      rfl

theorem toNat_append_byte {n : Nat} (x : BitVec n) (b : Byte) : (x ++ b).toNat = x.toNat * 256 + b.toNat := by
  rw [BitVec.toNat_append, ← Nat.shiftLeft_add_eq_or_of_lt b.isLt, Nat.shiftLeft_eq]

/-- A code of four bytes as they stand in a word (20_memory.md R62). -/
theorem numOf_four (b1 b2 b3 b4 : Byte) : numOf [b1, b2, b3, b4] = (b1 ++ b2 ++ b3 ++ b4).toNat := by
  simp [toNat_append_byte, numOf]

/-- `DecInit` on five bytes: one discarded, four loaded (R136). -/
theorem decInit_run {b0 b1 b2 b3 b4 : Byte} {rest : List Byte} (hs : s.source = b0 :: b1 :: b2 :: b3 :: b4 :: rest) :
    decInit s = .ok () { s with
      range := 0xFFFFFFFF, code := b1 ++ b2 ++ b3 ++ b4, source := rest, inCount := s.inCount + 5 } := by
  have hlt : 0 * 256 ^ 4 + numOf [b1, b2, b3, b4] < 2 ^ 32 := by
    rw [numOf_four, Nat.zero_mul, Nat.zero_add]
    exact (b1 ++ b2 ++ b3 ++ b4).isLt
  have hc := readCode_run [b1, b2, b3, b4] (rest := rest) (c := 0)
    (s := (s.withRange 0xFFFFFFFF).consumed (b1 :: b2 :: b3 :: b4 :: rest)) rfl hlt
  rw [show [b1, b2, b3, b4].length = 4 from rfl, Nat.zero_mul, Nat.zero_add, numOf_four] at hc
  unfold decInit
  rw [bind_run]
  change (inRead .truncated >>= _) (s.withRange 0xFFFFFFFF) = _
  rw [bind_run, inRead_cons (s := s.withRange 0xFFFFFFFF) hs]
  dsimp only
  rw [bind_run, hc]
  change EStateM.Result.ok () (State.withCode _ (BitVec.ofNat 32 (b1 ++ b2 ++ b3 ++ b4).toNat)) = _
  rw [BitVec.ofNat_toNat, BitVec.setWidth_eq]
  rfl

/-- `DecInit` on a shorter source uses it up and raises (R136). -/
theorem decInit_short (h : s.source.length < 5) : decInit s = .error (.raise (sourceStop s .truncated)) { s with
    range := 0xFFFFFFFF, source := [], inCount := s.inCount + s.source.length } := by
  unfold decInit
  rw [bind_run]
  change (inRead .truncated >>= _) (s.withRange 0xFFFFFFFF) = _
  rw [bind_run]
  cases hs : s.source with
  | nil =>
    rw [inRead_nil (s := s.withRange 0xFFFFFFFF) hs]
    simp only [State.withRange, hs, List.length_nil, Nat.add_zero]
    rfl
  | cons b l =>
    rw [hs] at h
    rw [inRead_cons (s := s.withRange 0xFFFFFFFF) hs]
    dsimp only
    rw [bind_run, readCode_short (s := (s.withRange 0xFFFFFFFF).consumed l) (Nat.lt_of_succ_lt_succ h),
      State.consumed_source, State.tookAll_cons (s := s.withRange 0xFFFFFFFF) hs]
    simp only [State.tookAll, State.withRange, hs, List.length_cons, List.drop_succ_cons, List.drop_length]
    rfl

/-- The fault of a read past the end, in FAULT's fields (60_exceptions.md R320). -/
theorem takeFault_sourceStop (s t : State) : t.takeFault (sourceStop s .truncated) = { t with
    faulted := true, faultCode := if s.sourceEnd = .atEnd then 0x03 else 0x04, faultSub := 1 } := by
  unfold sourceStop
  cases s.sourceEnd <;> rfl

theorem exec_rcDecInit (hr : Ready .idle s) (h1 : propsValid s.props = true) (h2 : windowCap s ≤ s.config.pMaxDict) :
    exec .rcDecInit s = conclude ((do decInit; modify fun t => t.withMode .decode : Cmd Unit) s) := by
  refine (issue_init hr).trans ?_
  rw [bind_run, initChecks_pass h1 h2]

theorem exec_rcDecInit_five (hr : Ready .idle s) (h1 : propsValid s.props = true)
    (h2 : windowCap s ≤ s.config.pMaxDict) {b0 b1 b2 b3 b4 : Byte} {rest : List Byte}
    (hs : s.source = b0 :: b1 :: b2 :: b3 :: b4 :: rest) : exec .rcDecInit s = .next { s with
      range := 0xFFFFFFFF, code := b1 ++ b2 ++ b3 ++ b4, source := rest, inCount := s.inCount + 5, mode := .decode } := by
  rw [exec_rcDecInit hr h1 h2, bind_run, decInit_run hs]
  rfl

/-- Settles O31. -/
theorem decInitLoads : Obligations.DecInitLoads := by
  refine fun s hr => ⟨fun h1 h2 => ⟨fun b0 b1 b2 b3 b4 rest hs => exec_rcDecInit_five hr h1 h2 hs, fun h => ?_⟩,
    issue_init_faults hr⟩
  rw [exec_rcDecInit hr h1 h2, bind_run, decInit_short h]
  exact congrArg Host.Outcome.next (takeFault_sourceStop s _)

/-- Settles O35. -/
theorem decFinishedTestsCode : Obligations.DecFinishedTestsCode :=
  ⟨by decide, fun _ hr => exec_inDecode hr.1 hr.2,
    fun _ hf hm => exec_wrong_mode hf (by simpa [modesOf] using hm)⟩

end Sys2Proof.Machine
end

section
/-! PROOFS. The encoder's commands (40_range_coder.md R123 to R128, R131 to R133): what one decision does to the coded value,
what the flush delivers, and what a failing ShiftLow inside them leaves. -/

namespace Sys2Proof.Machine

variable {s t u v : State} {p : Nat} {bit : Bool} {e : Stop}

theorem exec_inEncode {body : Cmd Unit} (hr : Ready .encode s) : issue [.encode] body s = conclude (body s) :=
  issue_ready hr.1 (by rw [hr.2]; rfl)

/-- What growth says of the sink and its counter. -/
theorem Grows.delivers (h : Grows s t) :
    s.sink <+: t.sink ∧ t.outCount = s.outCount + (t.sink.length - s.sink.length) := by
  obtain ⟨_, given, _, -, -, hsink, hout, -, -, -⟩ := h
  exact ⟨⟨given, hsink.symm⟩, by rw [hout, hsink, List.length_append, Nat.add_sub_cancel_left]⟩

theorem grows_inEncode {α : Type} {x : Cmd α} (hr : Ready .encode s) (h : Keeps GrowsOutside x) : GrowsFrom x s :=
  GrowsFrom.of_outside (m := .encode) (by simp [hr.2]) (h s)

theorem State.Inv.encLive (hi : s.Inv) (hf : s.faulted = false) : EncLive s := (hi.2 hf).enc hi.1

/-! ## The part of the interval and the gain of a decision (R121, R123) -/

theorem bitRange_eq (r : Word) (p : Nat) (bit : Bool) :
    bitRange r p bit = if bit then r.toNat - r.toNat / 2048 * p else r.toNat / 2048 * p := by
  rw [bitRange, splitBound_eq]

theorem bitGain_eq (r : Word) (p : Nat) (bit : Bool) : bitGain r p bit = if bit then r.toNat / 2048 * p else 0 := by
  rw [bitGain, splitBound_eq]

/-! ## A decision that completes -/

/-- RC_ENC_BIT_NA codes its decision and leaves the adapted value in RES (R132). -/
theorem exec_rcEncBitNa_codes (hr : Ready .encode s) (hl : EncLive s) (h1 : 1 ≤ s.arg0.toNat) (h2 : s.arg0.toNat ≤ 2047)
    (ht : sinkTakes (s.cacheSize + 1) s) (bit : Bool) : ∃ t, ∃ k ≤ 2,
    exec (.rcEncBitNa bit) s = .next (t.withRes (BitVec.ofNat 32 (adapt s.arg0.toNat bit))) ∧ EncLive t ∧
      EncStep (bitGain s.range s.arg0.toNat bit) (bitRange s.range s.arg0.toNat bit) k s t ∧ Grows s t := by
  have hrun := ends_encodeBitCore hl h1 h2 bit (n := 2) (by omega) (bitRange_twice hl.rangeGe h1 h2)
  have hgrow := grows_inEncode hr (encRel_grows.bitCore s.arg0.toNat bit)
  obtain ⟨q, t, e, ⟨rfl, hlive, k, hk, hstep⟩, hg⟩ := (hrun.and hgrow).completes fun e t h => by
    obtain ⟨⟨-, -, -, h⟩, -⟩ := h
    exact h ht
  refine ⟨t, k, hk, (exec_inEncode hr).trans ?_, hlive, hstep, hg⟩
  rw [bind_run, probOperand_run h1 h2]
  dsimp only
  rw [bind_run, e]
  rfl

/-- RC_ENC_BIT codes its decision at the cell's probability and adapts the cell (R131). -/
theorem exec_rcEncBit_codes (hr : Ready .encode s) (hl : EncLive s) (hc : CellsOk s)
    (ha : cellValid s.arg0.toNat = true) (ht : sinkTakes s.cacheSize s) (bit : Bool) : ∃ t, ∃ k ≤ 1,
    exec (.rcEncBit bit) s = .next t ∧ EncCellStep s.arg0.toNat bit k s t ∧ Grows s t := by
  have hrun := ends_encCell hl hc ha bit
  have hgrow := grows_inEncode hr (encRel_grows.cellDecision (a := s.arg0.toNat) trivial bit)
  obtain ⟨_, t, e, ⟨k, hk, hstep⟩, hg⟩ := (hrun.and hgrow).completes fun e t h => by
    obtain ⟨⟨-, -, h⟩, -⟩ := h
    exact h ht
  refine ⟨t, k, hk, (exec_inEncode hr).trans ?_, hstep, hg⟩
  rw [bind_run, cellOperand_run ha]
  dsimp only
  rw [e]
  rfl

/-! ## A decision whose ShiftLow raises (R124, R127) -/

/-- One turn of `EncNormalize`. -/
theorem encNormalizeLoop_turn (h : s.range.toNat < 2 ^ 24) (n : Nat) : encNormalizeLoop (n + 1) s =
    (do shiftLow; encNormalizeLoop n : Cmd Unit) (s.withRange (BitVec.ofNat 32 (s.range.toNat * 256))) := by
  rw [encNormalizeLoop, bind_run, get_run]
  dsimp only
  rw [if_pos (show s.range.toNat < top from h), Nat.shiftLeft_eq]
  rfl

theorem encSplit_withRange (p : Nat) (bit : Bool) (s : State) (w : Word) : (encSplit p bit s).withRange w =
    { s with low := s.low + BitVec.ofNat 64 (bitGain s.range p bit), range := w } := by
  cases bit with
  | false => simp [encSplit, bitGain, State.withRange]
  | true =>
    simp only [encSplit, bitGain, if_true, BitVec.ofNat_add, BitVec.ofNat_toNat, BitVec.setWidth_eq]
    rfl

theorem encSplit_range (hl : EncLive s) (h1 : 1 ≤ p) (h2 : p ≤ 2047) (bit : Bool) :
    (encSplit p bit s).range.toNat = bitRange s.range p bit := by
  rw [(encSplit_facts hl h1 h2 bit).range, pow_zero, mul_one]

theorem encodeBitCore_run (p : Nat) (bit : Bool) (s : State) : encodeBitCore p bit s =
    (do encNormalizeLoop 4; pure (adapt p bit) : Cmd Nat) (encSplit p bit s) := rfl

/-- The state in which a decision's first ShiftLow runs: split, and RANGE one byte up. -/
def State.firstShift (s : State) (p : Nat) (bit : Bool) : State :=
  { s with low := s.low + BitVec.ofNat 64 (bitGain s.range p bit),
           range := BitVec.ofNat 32 (bitRange s.range p bit * 256) }

/-- A decision that has to renormalise goes on with a ShiftLow. -/
theorem encodeBitCore_shifts (hl : EncLive s) (h1 : 1 ≤ p) (h2 : p ≤ 2047) (hp : bitRange s.range p bit < 2 ^ 24) :
    encodeBitCore p bit s =
      (do shiftLow; encNormalizeLoop 3; pure (adapt p bit) : Cmd Nat) (s.firstShift p bit) := by
  have hr := encSplit_range hl h1 h2 bit
  rw [encodeBitCore_run, bind_run, encNormalizeLoop_turn (by rw [hr]; exact hp), hr, encSplit_withRange,
    ← bind_run, bind_assoc]
  rfl

theorem encodeBitCore_first_fails (hl : EncLive s) (h1 : 1 ≤ p) (h2 : p ≤ 2047) (hp : bitRange s.range p bit < 2 ^ 24)
    (he : shiftLow (s.firstShift p bit) = .error e v) : encodeBitCore p bit s = .error e v := by
  rw [encodeBitCore_shifts hl h1 h2 hp, bind_run, he]

theorem encodeBitCore_second_fails (hl : EncLive s) (h1 : 1 ≤ p) (h2 : p ≤ 2047) (hp : bitRange s.range p bit < 2 ^ 16)
    (hu : shiftLow (s.firstShift p bit) = .ok () u)
    (he : shiftLow { u with range := BitVec.ofNat 32 (bitRange s.range p bit * 65536) } = .error e v) :
    encodeBitCore p bit s = .error e v := by
  have hur : u.range.toNat = bitRange s.range p bit * 256 := by
    have h := (ends_of_run hu).1 (ends_shiftLow (s := s.firstShift p bit) hl.cachePos)
    rw [h, shifted_range, State.firstShift, BitVec.toNat_ofNat, Nat.mod_eq_of_lt (by omega)]
  rw [encodeBitCore_shifts hl h1 h2 (by omega), bind_run, hu]
  dsimp only
  have he : shiftLow (u.withRange (BitVec.ofNat 32 (u.range.toNat * 256))) = .error e v := by
    rw [hur, Nat.mul_assoc]
    exact he
  rw [bind_run, encNormalizeLoop_turn (by omega), bind_run, he]

/-- RC_ENC_BIT whose decision raises takes that fault, its cell not yet written (R131). -/
theorem exec_rcEncBit_fails {c : Cause} (hr : Ready .encode s) (ha : cellValid s.arg0.toNat = true)
    (he : encodeBitCore (cellAt s s.arg0.toNat) bit s = .error (.raise c) v) :
    exec (.rcEncBit bit) s = .next (v.takeFault c) := by
  refine (exec_inEncode hr).trans ?_
  rw [bind_run, cellOperand_run ha]
  dsimp only
  rw [encCell, bind_run, readCell_run ha]
  dsimp only
  rw [bind_run, he]
  rfl

/-- RC_ENC_BIT_NA whose decision raises takes that fault, RES not yet written (R132). -/
theorem exec_rcEncBitNa_fails {c : Cause} (hr : Ready .encode s) (h1 : 1 ≤ s.arg0.toNat) (h2 : s.arg0.toNat ≤ 2047)
    (he : encodeBitCore s.arg0.toNat bit s = .error (.raise c) v) :
    exec (.rcEncBitNa bit) s = .next (v.takeFault c) := by
  refine (exec_inEncode hr).trans ?_
  rw [bind_run, probOperand_run h1 h2]
  dsimp only
  rw [bind_run, he]
  rfl

/-- Settles O28: the decision at the cell's probability, and its ShiftLow that raises. -/
theorem encBitCodes : Obligations.EncBitCodes := by
  intro bit s part gain hr hi ha hpart hgain
  rw [← bitRange_eq] at hpart
  rw [← bitGain_eq] at hgain
  subst hpart hgain
  have hl := hi.encLive hr.1
  have hp := hi.1.cellsOk.bounds s.arg0.toNat
  refine ⟨fun ht => ?_, fun e u hlt he => ?_⟩
  · obtain ⟨t, k, hk, e, h, hg⟩ := exec_rcEncBit_codes hr hl hi.1.cellsOk ha ht bit
    obtain ⟨hsink, hout⟩ := hg.delivers
    have hf : t.faulted = false := (Same.field (f := State.lessEncCells) h.only State.faulted fun _ => rfl).trans hr.1
    refine ⟨t, k, e, hf, hk, h.live.rangeGe, h.range, h.value, h.count, hsink, h.quiet, h.lowLt, h.cell, ?_⟩
    rw [← hout]
    exact eq_of_lessEncCells h.only
  · exact exec_rcEncBit_fails hr ha (encodeBitCore_first_fails hl (by omega) (by omega) hlt he)

/-- Settles O29: the decision at the probability in ARG0, and the first or second ShiftLow that raises. -/
theorem encBitNaCodes : Obligations.EncBitNaCodes := by
  intro bit s part gain hr hi h1 h2 hpart hgain
  rw [← bitRange_eq] at hpart
  rw [← bitGain_eq] at hgain
  subst hpart hgain
  have hl := hi.encLive hr.1
  refine ⟨fun ht => ?_, fun e u v hlt => ⟨fun he => ?_, fun hu hlt' he => ?_⟩⟩
  · obtain ⟨t, k, hk, e, hlive, h, hg⟩ := exec_rcEncBitNa_codes hr hl h1 h2 ht bit
    obtain ⟨hsink, hout⟩ := hg.delivers
    have hf : t.faulted = false := (Same.field (f := State.lessEnc) h.only State.faulted fun _ => rfl).trans hr.1
    have ha := (adapt_range h1 h2 bit).2
    have hres : (BitVec.ofNat 32 (adapt s.arg0.toNat bit)).toNat = adapt s.arg0.toNat bit := by
      rw [BitVec.toNat_ofNat, Nat.mod_eq_of_lt (by omega)]
    refine ⟨_, k, e, hf, hk, hlive.rangeGe, hres, h.range, h.value, h.count, hsink,
      fun hk => ⟨(h.quiet hk).1, (h.quiet hk).2.1⟩, h.lowLt, ?_⟩
    change t.withRes _ = { s with
      low := t.low, range := t.range, cache := t.cache, cacheSize := t.cacheSize, sink := t.sink,
      outCount := s.outCount + (t.sink.length - s.sink.length), res := _ }
    rw [← hout]
    exact congrArg (State.withRes · _) (eq_of_lessEnc h.only)
  · exact exec_rcEncBitNa_fails hr h1 h2 (encodeBitCore_first_fails hl h1 h2 hlt he)
  · exact exec_rcEncBitNa_fails hr h1 h2 (encodeBitCore_second_fails hl h1 h2 hlt' hu he)

/-! ## The flush (R126, R133) -/

/-- RC_ENC_FLUSH delivers the pending bytes and LOW: five ShiftLows. -/
theorem exec_rcEncFlush_run (hr : Ready .encode s) (hl : ShiftOk s) (ht : sinkTakes (s.cacheSize + 4) s) :
    exec .rcEncFlush s = .next ((s.shiftedTimes 5).withMode .done) ∧ Grows s (s.shiftedTimes 5) := by
  have hgrow := grows_inEncode hr (Keeps.repeatCmd GrowsOutside.refl GrowsOutside.trans encRel_grows.shiftLow 5)
  obtain ⟨_, t, e, rfl, hg⟩ := ((ends_shifts 5 hl).and hgrow).completes fun e t h => by
    obtain ⟨⟨-, -, -, h⟩, -⟩ := h
    exact h ht
  refine ⟨(exec_inEncode hr).trans ?_, hg⟩
  rw [bind_run, e]
  rfl

/-- Settles O30. -/
theorem encFlushDelivers : Obligations.EncFlushDelivers := by
  intro s hr hi
  have hok := (hi.encLive hr.1).shiftOk
  refine ⟨fun ht => ?_, fun j e u v hj hu he => ?_⟩
  · obtain ⟨e, hg⟩ := exec_rcEncFlush_run hr hok ht
    obtain ⟨hvalue, hlen, hsize, hcache, hlow⟩ := flush_value hok
    obtain ⟨-, -, -, only, hrange⟩ := shiftedTimes_facts 5 hok
    obtain ⟨hsink, hout⟩ := hg.delivers
    have hf : (s.shiftedTimes 5).faulted = false :=
      (Same.field (f := State.lessEnc) only State.faulted fun _ => rfl).trans hr.1
    have hout : (s.shiftedTimes 5).outCount = s.outCount + s.cacheSize + 4 := by omega
    generalize s.shiftedTimes 5 = t at *
    refine ⟨_, e, hf, rfl, hvalue, hlen, hsink, ?_⟩
    have hs := eq_of_lessEnc only
    rw [hlow, hcache, hsize, hrange, hout] at hs
    exact congrArg (State.withMode · .done) hs
  · refine (exec_inEncode hr).trans ?_
    rw [bind_run, repeatCmd_stops hj hu he]
    rfl

end Sys2Proof.Machine
end

section
/-! PROOFS. The decoder's commands (40_range_coder.md R135 to R138, R141 to R143): one decision, direct bits, and a read that
finds no byte. -/

namespace Sys2Proof.Machine

variable {s t u v : State} {p : Nat}

theorem State.Inv.rangeGe (hi : s.Inv) (hf : s.faulted = false) : 2 ^ 24 ≤ s.range.toNat := (hi.2 hf).rangeGe

theorem decBit_iff (p : Nat) (s : State) : decBit p s = true ↔ s.range.toNat / 2048 * p ≤ s.code.toNat := by
  rw [decBit, decide_eq_true_iff, splitBound_eq]

/-- With the bytes a run may need on the source it is not cut short. -/
theorem DecCut.absurd {n : Nat} {e : Stop} (h : n ≤ s.source.length) : ¬ DecCut n s e :=
  fun hc => Nat.not_lt.2 h hc.2

/-! ## One decision (R137, R141, R142) -/

/-- RC_DEC_BIT decodes at the cell's probability and adapts the cell (R141). -/
theorem exec_rcDecBit_decodes (hr : Ready .decode s) (hge : 2 ^ 24 ≤ s.range.toNat) (hc : CellsOk s)
    (ha : cellValid s.arg0.toNat = true) (hsrc : 1 ≤ s.source.length) : ∃ t, ∃ k ≤ 1,
    exec .rcDecBit s = .next (t.withRes (BitVec.ofNat 32 (decBit (cellAt s s.arg0.toNat) s).toNat)) ∧
      DecCellStep s.arg0.toNat k s t := by
  obtain ⟨_, t, e, rfl, k, hk, hstep⟩ := (ends_decCell hge hc ha).completes fun e t h => DecCut.absurd hsrc h.1
  refine ⟨t, k, hk, (exec_inDecode hr.1 hr.2).trans ?_, hstep⟩
  rw [bind_run, cellOperand_run ha]
  dsimp only
  rw [bind_run, e]
  rfl

/-- RC_DEC_BIT_NA decodes at the probability in ARG0, with as many bytes as its part of the interval asks for (R142). -/
theorem exec_rcDecBitNa_decodes (hr : Ready .decode s) (hge : 2 ^ 24 ≤ s.range.toNat) (h1 : 1 ≤ s.arg0.toNat)
    (h2 : s.arg0.toNat ≤ 2047) {bit : Bool} (hbit : decBit s.arg0.toNat s = bit) {n : Nat}
    (hn : 2 ^ 24 ≤ bitRange s.range s.arg0.toNat bit * 256 ^ n) (hsrc : n ≤ s.source.length) : ∃ t, ∃ k ≤ n,
    exec .rcDecBitNa s = .next (t.withRes (BitVec.ofNat 32 (adapt s.arg0.toNat bit <<< 16 ||| bit.toNat))) ∧
      2 ^ 24 ≤ t.range.toNat ∧ DecStep (bitRange s.range s.arg0.toNat bit)
        (s.code.toNat - bitGain s.range s.arg0.toNat bit) k s t := by
  subst hbit
  obtain ⟨_, t, e, rfl, hget, k, hk, hstep⟩ := (ends_decodeBitCore hge h1 h2 hn).completes fun e t => DecCut.absurd hsrc
  refine ⟨t, k, hk, (exec_inDecode hr.1 hr.2).trans ?_, hget, hstep⟩
  rw [bind_run, probOperand_run h1 h2]
  dsimp only
  rw [bind_run, e]
  rfl

/-- A decision that has to renormalise on an empty source raises, with only RANGE and CODE changed (R135). -/
theorem decodeBitCore_starved (hge : 2 ^ 24 ≤ s.range.toNat) (h1 : 1 ≤ p) (h2 : p ≤ 2047) (hs : s.source = [])
    (hlt : bitRange s.range p (decBit p s) < 2 ^ 24) : ∃ r c,
    decodeBitCore p s = .error (.raise (sourceStop s .truncated)) { s with range := r, code := c } := by
  have hrun := ends_decodeBitCore hge h1 h2 (n := 2) (bitRange_twice hge h1 h2)
  obtain ⟨_, t, e, ⟨⟨rfl, -⟩, only⟩, taken, _, _, htaken, hcount, -⟩ :=
    ((hrun.and (decRel_arith.bitCore p s)).and (decRel_grows.bitCore p s)).stops fun a t h => by
      obtain ⟨⟨⟨-, hget, k, -, hstep⟩, -⟩, -⟩ := h
      obtain ⟨l, hl, rfl, -⟩ := hstep.taken
      rw [hs] at hl
      obtain ⟨rfl, -⟩ := List.append_eq_nil_iff.1 hl.symm
      have hrange := hstep.range
      rw [List.length_nil, pow_zero, mul_one] at hrange
      omega
  rw [hs] at htaken
  obtain ⟨rfl, hsrc⟩ := List.append_eq_nil_iff.1 htaken.symm
  refine ⟨t.range, t.code, e.trans (congrArg _ ((eq_of_lessDec only).trans ?_))⟩
  rw [hcount, List.length_nil, Nat.add_zero, hsrc, ← hs]

/-- Settles O32: the decision at the cell's probability, and its read that finds no byte. -/
theorem decBitDecodes : Obligations.DecBitDecodes := by
  intro s hr hi ha
  have hge := hi.rangeGe hr.1
  have hp := hi.1.cellsOk.bounds s.arg0.toNat
  refine ⟨fun hsrc => ?_, fun hs hlt => ?_⟩
  · obtain ⟨t, k, hk, e, h⟩ := exec_rcDecBit_decodes hr hge hi.1.cellsOk ha hsrc
    obtain ⟨taken, hl, rfl, hcode⟩ := h.taken
    have hrange := h.range
    have hcell := h.cell
    have hbit := decBit_iff (cellAt s s.arg0.toNat) s
    rw [bitRange_eq] at hrange
    rw [bitGain_eq] at hcode
    generalize decBit (cellAt s s.arg0.toNat) s = bit at *
    have hf : t.faulted = false := (Same.field (f := State.lessDecCells) h.only State.faulted fun _ => rfl).trans hr.1
    refine ⟨_, taken, bit, e, hf, hk, hbit, IsBit.toNat rfl, h.rangeGe, hrange, hcode, hl, hcell, ?_⟩
    rw [← h.counted]
    exact congrArg (State.withRes · _) (eq_of_lessDecCells h.only)
  · have hlt : bitRange s.range (cellAt s s.arg0.toNat) (decBit (cellAt s s.arg0.toNat) s) < 2 ^ 24 := by
      rw [bitRange_eq]
      simpa only [decBit_iff] using hlt
    obtain ⟨r, c, e⟩ := decodeBitCore_starved hge (by omega) (by omega) hs hlt
    refine ⟨_, (exec_inDecode hr.1 hr.2).trans ?_, takeFault_sourceStop s { s with range := r, code := c }⟩
    rw [bind_run, cellOperand_run ha]
    dsimp only
    rw [bind_run, decCell, bind_run, readCell_run ha]
    dsimp only
    rw [bind_run, e]
    rfl

/-- RES of RC_DEC_BIT_NA: the bit below, the adapted value from bit 16 up (R142). -/
theorem naRes_toNat (hp : p ≤ 2047) (bit : Bool) :
    (BitVec.ofNat 32 (p <<< 16 ||| bit.toNat)).toNat = p * 2 ^ 16 + bit.toNat := by
  have hb := bit.toNat_lt
  rw [← Nat.shiftLeft_add_eq_or_of_lt (by omega), Nat.shiftLeft_eq, BitVec.toNat_ofNat, Nat.mod_eq_of_lt (by omega)]

/-- Settles O33. -/
theorem decBitNaDecodes : Obligations.DecBitNaDecodes := by
  intro s hr hi h1 h2 hsrc
  have hge := hi.rangeGe hr.1
  obtain ⟨t, k, hk, e, hget, h⟩ := exec_rcDecBitNa_decodes hr hge h1 h2 rfl (bitRange_twice hge h1 h2) hsrc
  obtain ⟨taken, hl, rfl, hcode⟩ := h.taken
  have hrange := h.range
  have hbit := decBit_iff s.arg0.toNat s
  rw [bitRange_eq] at hrange
  rw [bitGain_eq] at hcode
  generalize decBit s.arg0.toNat s = bit at *
  have hf : t.faulted = false := (Same.field (f := State.lessDec) h.only State.faulted fun _ => rfl).trans hr.1
  refine ⟨_, taken, bit, e, hf, hk, hbit, naRes_toNat (adapt_range h1 h2 bit).2 bit, hget, hrange, hcode, hl, ?_⟩
  rw [← h.counted]
  exact congrArg (State.withRes · _) (eq_of_lessDec h.only)

/-! ## Direct bits (R138, R143) -/

/-- One direct bit. -/
def directOne : Cmd Bool := do
  let s ← get
  set (directSplit s)
  decNormalize
  pure (directBit s)

theorem decDirectLoop_step (k r : Nat) :
    decDirectLoop (k + 1) r = directOne >>= fun b => decDirectLoop k (2 * r + b.toNat) := by
  simp only [decDirectLoop, directOne, directBit, bind_assoc, pure_bind]

theorem decDirectLoop_one (r : Nat) : decDirectLoop 1 r = directOne >>= fun b => pure (2 * r + b.toNat) :=
  decDirectLoop_step 0 r

theorem decDirect_one : decDirect 1 = directOne >>= fun b => pure b.toNat := by
  rw [decDirect, decDirectLoop_one]
  simp only [Nat.mul_zero, Nat.zero_add]

/-- The last of `k + 1` direct bits is decoded after the first `k`. -/
theorem decDirectLoop_succ : ∀ k r, decDirectLoop (k + 1) r = decDirectLoop k r >>= decDirectLoop 1
  | 0, r => (pure_bind r _).symm
  | k + 1, r => by
    rw [decDirectLoop_step (k + 1), decDirectLoop_step k, bind_assoc]
    exact congrArg _ (funext fun b => decDirectLoop_succ k _)

/-- `k + 1` direct bits are `k` and then one more, the least significant (R138). -/
theorem decDirect_succ (k : Nat) :
    decDirect (k + 1) = decDirect k >>= fun v => decDirect 1 >>= fun b => pure (2 * v + b) := by
  rw [decDirect, decDirectLoop_succ, decDirect_one]
  simp only [bind_assoc, pure_bind, ← decDirectLoop_one]
  rfl

/-- One direct bit says whether CODE is at or past half the range, and takes that half (R138). -/
theorem ends_decDirect_one (hge : 2 ^ 24 ≤ s.range.toNat) : Ends (decDirect 1) s
    (fun v t => v = (directBit s).toNat ∧ ∃ k ≤ 1, DecStep (s.range.toNat / 2)
      (s.code.toNat - if directBit s then s.range.toNat / 2 else 0) k s t) (fun _ _ => True) := by
  have e : decDirect 1 = (get : Cmd State) >>= fun s =>
      (do set (directSplit s); decNormalize : Cmd Unit) >>= fun _ => pure (directBit s).toNat := by
    simp only [decDirect_one, directOne, bind_assoc, pure_bind]
  rw [e, ends_bind, ends_get, ends_bind]
  refine (ends_direct hge).mono (fun _ t h => ?_) fun _ _ _ => trivial
  exact ⟨rfl, h.2⟩

theorem directBit_iff (s : State) : directBit s = true ↔ s.range.toNat / 2 ≤ s.code.toNat := by
  rw [directBit, decide_eq_true_iff, Nat.shiftRight_eq_div_pow, pow_one]

/-- RC_DEC_DIRECT with a legal count: its decoded value to RES (R143). -/
theorem exec_rcDecDirect {n : Nat} (hr : Ready .decode s) (h1 : 1 ≤ n) (h2 : n ≤ 32) : exec (.rcDecDirect n) s =
    conclude ((do let v ← decDirect n; modify fun t => t.withRes (BitVec.ofNat 32 v) : Cmd Unit) s) := by
  have hn : directCountLegal n = true := by simp [directCountLegal, h1, h2]
  refine (exec_inDecode hr.1 hr.2).trans ?_
  rw [hn, bind_run, check_true]

/-- The first clause: `n` direct bits with `n` bytes left. -/
theorem exec_rcDecDirect_decodes {n : Nat} (hr : Ready .decode s) (hi : s.Inv) (h1 : 1 ≤ n) (h2 : n ≤ 32)
    (hsrc : n ≤ s.source.length) : ∃ v t, exec (.rcDecDirect n) s = .next (t.withRes (BitVec.ofNat 32 v)) ∧
      v < 2 ^ n ∧ DecRun n s t ∧ t.lessDec = s.lessDec ∧ (n = 1 → v = (directBit s).toNat ∧ ∃ k ≤ 1,
        DecStep (s.range.toNat / 2) (s.code.toNat - if directBit s then s.range.toNat / 2 else 0) k s t) := by
  have hge := hi.rangeGe hr.1
  have hrun := (decDirect_run n hge hi.1.cellsOk).and (decRel_arith.direct n s)
  obtain ⟨v, t, e, ⟨hv, hrun⟩, only⟩ := hrun.completes fun e t h => DecCut.absurd hsrc h.1.1
  refine ⟨v, t, ?_, hv, hrun, only, ?_⟩
  · rw [exec_rcDecDirect hr h1 h2, bind_run, e]
    rfl
  · rintro rfl
    exact (ends_of_run e).1 (ends_decDirect_one hge)

theorem decDirect_ready {n : Nat} (hr : Ready .decode s) (e : decDirect n s = .ok p t) : Ready .decode t := by
  have only : t.lessDec = s.lessDec := (ends_of_run e).1 (decRel_arith.direct n s)
  exact ⟨(Same.field (f := State.lessDec) only State.faulted fun _ => rfl).trans hr.1,
    (Same.field (f := State.lessDec) only State.mode fun _ => rfl).trans hr.2⟩

/-- One more direct bit after `n`, which gave `v`: the same fault, or twice `v` and that bit. -/
theorem exec_rcDecDirect_one (hr : Ready .decode t) (v : Nat) :
    conclude ((do let b ← decDirect 1; modify fun u => u.withRes (BitVec.ofNat 32 (2 * v + b)) : Cmd Unit) t) =
      mapNext (fun u => { u with res := if u.faulted then t.res else 2 * BitVec.ofNat 32 v + u.res })
        (exec (.rcDecDirect 1) (t.withRes (BitVec.ofNat 32 v))) := by
  have hrun : decDirect 1 (t.withRes (BitVec.ofNat 32 v)) = mapState _ (decDirect 1 t) :=
    (decApart_res (BitVec.ofNat 32 v)).directLoop 1 0 t
  have hready : Ready .decode (t.withRes (BitVec.ofNat 32 v)) := hr
  have only := decRel_arith.direct 1 t
  unfold Ends at only
  rw [exec_rcDecDirect hready le_rfl (by omega), bind_run, bind_run, hrun]
  cases hw : decDirect 1 t with
  | error e u =>
    rw [hw] at only
    cases e with
    | stuck f => rfl
    | raise c =>
      have hres : u.res = t.res := Same.field (f := State.lessDec) only State.res fun _ => rfl
      rw [← hres]
      rfl
  | ok b u =>
    rw [hw] at only
    have hf : u.faulted = false := (Same.field (f := State.lessDec) only State.faulted fun _ => rfl).trans hr.1
    have hres : BitVec.ofNat 32 (2 * v + b) = 2 * BitVec.ofNat 32 v + BitVec.ofNat 32 b := by
      rw [BitVec.ofNat_add, BitVec.ofNat_mul]
      rfl
    change Host.Outcome.next (u.withRes _) = .next (u.withRes (if u.faulted then _ else _))
    rw [if_neg (by simp [hf]), hres]
    rfl

/-- The second clause: `n + 1` direct bits are `n` and then one more, on every path. -/
theorem exec_rcDecDirect_succ {n : Nat} (hr : Ready .decode s) (h1 : 1 ≤ n) (h2 : n + 1 ≤ 32) :
    exec (.rcDecDirect (n + 1)) s = andThen (exec (.rcDecDirect n) s) fun t =>
      mapNext (fun u => { u with res := if u.faulted then s.res else 2 * t.res + u.res }) (exec (.rcDecDirect 1) t) := by
  have only := decRel_arith.direct n s
  unfold Ends at only
  rw [exec_rcDecDirect hr (by omega) h2, exec_rcDecDirect hr h1 (by omega), decDirect_succ, bind_assoc, bind_run,
    bind_run (decDirect n)]
  cases hv : decDirect n s with
  | error e t =>
    rw [hv] at only
    cases e with
    | stuck f => rfl
    | raise c =>
      have hres : t.res = s.res := Same.field (f := State.lessDec) only State.res fun _ => rfl
      have he : exec (.rcDecDirect 1) (t.takeFault c) = .next (t.takeFault c) := exec_faulted (by simp) rfl
      simp only [conclude, andThen, mapNext, he, ← hres]
      rfl
  | ok v t =>
    rw [hv] at only
    have hres : t.res = s.res := Same.field (f := State.lessDec) only State.res fun _ => rfl
    rw [← hres]
    dsimp only
    rw [bind_assoc]
    exact exec_rcDecDirect_one (decDirect_ready hr hv) v

/-- Settles O34. -/
theorem decDirectDecodes : Obligations.DecDirectDecodes := by
  refine ⟨fun n s hr hi h1 h2 hsrc => ?_, fun n s => exec_rcDecDirect_succ⟩
  obtain ⟨v, t, e, hv, hrun, only, hone⟩ := exec_rcDecDirect_decodes hr hi h1 h2 hsrc
  obtain ⟨taken, hl, hlen, hcount⟩ := hrun.takes
  have hf : t.faulted = false := (Same.field (f := State.lessDec) only State.faulted fun _ => rfl).trans hr.1
  have hres : (BitVec.ofNat 32 v).toNat < 2 ^ n := (Nat.mod_le _ _).trans_lt hv
  refine ⟨_, taken, e, hf, hlen, hres, hrun.rangeGe, hl, fun hn => ?_, ?_⟩
  · obtain ⟨hv, k, -, h⟩ := hone hn
    obtain ⟨taken', hl', rfl, hcode⟩ := h.taken
    obtain rfl : taken' = taken := List.append_cancel_right (hl'.symm.trans hl)
    have hbit := directBit_iff s
    refine ⟨h.range, ?_, ?_⟩
    · change BitVec.ofNat 32 v = 1 ↔ _
      rw [← hbit, hv]
      cases directBit s <;> decide
    · simp only [hbit] at hcode
      exact hcode
  · rw [← hcount]
    exact congrArg (State.withRes · _) (eq_of_lessDec only)

end Sys2Proof.Machine
end

section
/-! PROOFS. No step reaches one of the model's own stops (notes/assumptions/5.md, 6.md): from the invariant every command's body
completes or raises. -/

namespace Sys2Proof.Machine

variable {s t u : State} {α β : Type} {modes : List Mode} {body : Cmd Unit} {Q : α → State → Prop}
  {E : Stop → State → Prop}

/-- A stop of the block's own, which is a fault (60_exceptions.md R320). -/
def Raised (e : Stop) : Prop := ∃ c, e = .raise c

/-- A run that completes or raises. -/
def Unstuck (x : Cmd α) (s : State) : Prop := Ends x s (fun _ _ => True) fun e _ => Raised e

/-! ## Runs that do not get stuck -/

theorem raised (c : Cause) : Raised (.raise c) := ⟨c, rfl⟩

theorem Ends.unstuck {x : Cmd α} (h : Ends x s Q E) (he : ∀ e t, E e t → Raised e) : Unstuck x s :=
  h.mono (fun _ _ _ => trivial) he

theorem Unstuck.bind {x : Cmd α} {f : α → Cmd β} (hx : Unstuck x s) (hf : ∀ a t, Unstuck (f a) t) :
    Unstuck (x >>= f) s :=
  ends_bind.2 (hx.mono (fun a t _ => hf a t) fun _ _ he => he)

theorem unstuck_modify (f : State → State) (s : State) : Unstuck (modify f) s := trivial

theorem unstuck_check (ok : Bool) (c : Cause) (s : State) : Unstuck (check ok c) s :=
  Ends.check (fun _ => trivial) fun _ => raised c

theorem unstuck_inRead (c : Cause) (s : State) : Unstuck (inRead c) s :=
  ends_inRead (fun _ _ _ => trivial) fun _ => raised _

/-- A run, then a write of a register. -/
theorem Unstuck.thenModify {x : Cmd α} (h : Unstuck x s) (f : α → State → State) :
    Unstuck (do let a ← x; modify (f a)) s :=
  h.bind fun _ _ => unstuck_modify _ _

/-! ## Runs of the coders -/

theorem encRun_unstuck {x : Cmd α} {n : Nat} (h : Ends x s Q (EncCut n s)) : Unstuck x s :=
  h.unstuck fun _ _ hc => ⟨_, hc.stop⟩

theorem decRun_unstuck {x : Cmd α} {n : Nat} (h : Ends x s Q fun e t => DecCut n s e ∧ CellsOk t) : Unstuck x s :=
  h.unstuck fun _ _ hc => ⟨_, hc.1.1⟩

theorem readCode_unstuck : ∀ (n c : Nat) (s : State), Unstuck (readCode n c) s
  | 0, _, _ => trivial
  | n + 1, _, s => (unstuck_inRead _ s).bind fun _ t => readCode_unstuck n _ t

theorem decInit_unstuck (s : State) : Unstuck decInit s :=
  (unstuck_modify _ s).bind fun _ t => (unstuck_inRead _ t).bind fun _ u => (readCode_unstuck 4 0 u).thenModify _

theorem initChecks_unstuck (s : State) : Unstuck initChecks s := ends_initChecks (fun _ _ => trivial) raised

/-! ## Runs of the header and the window -/

theorem readLE_unstuck : ∀ (n k v : Nat) (s : State), Unstuck (readLE n k v) s
  | 0, _, _, _ => trivial
  | n + 1, _, _, s => (unstuck_inRead _ s).bind fun _ t => readLE_unstuck n _ _ t

theorem readSize_unstuck (pol : Nat) (size : BitVec 64) (present : Bool) (s : State) :
    Unstuck (readSize pol size present) s := by
  unfold readSize
  split_ifs
  · exact (readLE_unstuck 8 0 0 s).bind fun _ _ => trivial
  · exact (readLE_unstuck 8 0 0 s).bind fun _ _ => trivial
  · trivial

theorem readHeader_unstuck (s : State) : Unstuck readHeader s := by
  unfold readHeader Unstuck
  rw [ends_bind, ends_get]
  exact (unstuck_check _ _ s).bind fun _ t => (unstuck_inRead _ t).bind fun _ t => (unstuck_check _ _ t).bind fun _ t =>
    (readLE_unstuck 4 0 0 t).bind fun _ t => (readSize_unstuck _ _ _ t).thenModify _

theorem DistCut.raised {d : Nat} {e : Stop} (h : DistCut d s e) : Raised e := by
  rcases h with ⟨h, -⟩ | ⟨h, -, -⟩ <;> exact ⟨_, h⟩

theorem copyMatch_unstuck (d n : Nat) (s : State) : Unstuck (copyMatch d n) s := by
  refine (ends_copyMatch d n s).unstuck fun e t h => ?_
  rcases h with ⟨h, -⟩ | ⟨h, -, -, -⟩
  · exact h.raised
  · exact ⟨_, h⟩

theorem byteAt_unstuck (d : Nat) (s : State) : Unstuck (byteAt d) s := by
  unfold byteAt Unstuck
  rw [ends_bind]
  exact ends_distance (fun _ => trivial) fun _ h => h.raised

theorem windowAppend_unstuck (b : Byte) (s : State) : Unstuck (windowAppend b) s :=
  ends_windowAppend trivial fun _ _ => raised _

theorem outWriteAll_unstuck (l : List Byte) (s : State) : Unstuck (outWriteAll l) s :=
  (ends_outWriteAll l s).unstuck fun _ _ h => ⟨_, h.1⟩

/-! ## Every command -/

/-- A command whose body does not get stuck answers a next state. -/
theorem issue_answers (hi : s.Inv) (h : s.mode ∈ modes → s.Shape → s.Live → Unstuck body s) :
    ∃ t, issue modes body s = .next t := by
  rcases issue_cases modes body s with ⟨-, e⟩ | ⟨-, -, e⟩ | ⟨hf, hm, e⟩
  · exact ⟨_, e⟩
  · exact ⟨_, e⟩
  · have hb : Unstuck body s := h (by simpa using hm) hi.1 (hi.2 hf)
    rw [e]
    refine conclude_ends (P := fun o => ∃ t, o = .next t) (hb.mono (fun _ t _ => ⟨t, rfl⟩) ?_)
    rintro _ t ⟨c, rfl⟩
    exact ⟨_, rfl⟩

/-- The same for a command with one mode. -/
theorem issue_answers_in {m : Mode} (hi : s.Inv) (h : s.mode = m → s.Shape → s.Live → Unstuck body s) :
    ∃ t, issue [m] body s = .next t :=
  issue_answers hi fun hm => h (List.mem_singleton.1 hm)

theorem cellOperand_then {f : Nat → Cmd Unit} (h : cellValid s.arg0.toNat = true → Unstuck (f s.arg0.toNat) s) :
    Unstuck (do let a ← cellOperand; f a) s :=
  ends_bind.2 (ends_cellOperand h (raised _))

theorem probOperand_then {f : Nat → Cmd Unit}
    (h : 1 ≤ s.arg0.toNat → s.arg0.toNat ≤ 2047 → Unstuck (f s.arg0.toNat) s) :
    Unstuck (do let p ← probOperand; f p) s :=
  ends_bind.2 (ends_probOperand h (raised _))

theorem treeBaseOperand_then {n : Nat} {f : Nat → Cmd Unit}
    (h : (∀ x, 1 ≤ x → x < 2 ^ n → cellValid (s.arg0.toNat + x) = true) → Unstuck (f s.arg0.toNat) s) :
    Unstuck (do let base ← treeBaseOperand n; f base) s :=
  ends_bind.2 (ends_treeBaseOperand h (raised _))

theorem requireNoEos_then {x : Cmd Unit} (h : Unstuck x s) : Unstuck (do requireNoEos; x) s :=
  ends_bind.2 (ends_requireNoEos h (raised _))

theorem check_then {ok : Bool} {c : Cause} {x : Cmd Unit} (h : ok = true → Unstuck x s) : Unstuck (do check ok c; x) s :=
  ends_bind.2 (Ends.check h fun _ => raised c)

theorem encodeBitCore_unstuck {p : Nat} (hs : s.Shape) (hl : s.Live) (h1 : 1 ≤ p) (h2 : p ≤ 2047) (bit : Bool) :
    Unstuck (encodeBitCore p bit) s :=
  (ends_encodeBitCore (hl.enc hs) h1 h2 bit (n := 2) (by omega) (bitRange_twice hl.rangeGe h1 h2)).unstuck
    fun _ _ h => ⟨_, h.1⟩

theorem shifts_unstuck (n : Nat) (hs : s.Shape) (hl : s.Live) : Unstuck (repeatCmd n shiftLow) s :=
  (ends_shifts n (hl.enc hs).shiftOk).unstuck fun _ _ h => ⟨_, h.1⟩

theorem decToken_unstuck (hs : s.Shape) (hl : s.Live) (hm : s.mode = .decode) : Unstuck decToken s := by
  refine (decToken_run hl.rangeGe hs.cellsOk (hs.propsOk (by rw [hm]; decide)) hs.fsmLe).unstuck fun e t h => ?_
  obtain ⟨c, hc, -⟩ := h.cause
  exact ⟨c, hc⟩

theorem exec_answers (i : Instr) (hi : s.Inv) : ∃ t, exec i s = .next t := by
  cases i with
  | sessionReset => exact ⟨_, rfl⟩
  | nop => exact issue_answers hi fun _ _ _ => trivial
  | rcEncInit => exact issue_answers hi fun _ _ _ => (initChecks_unstuck s).thenModify _
  | rcEncBit bit => exact issue_answers hi fun _ hs hl => cellOperand_then fun ha =>
      encRun_unstuck (encCell_run (hl.enc hs) hs.cellsOk ha bit)
  | rcEncBitNa bit => exact issue_answers hi fun _ hs hl => probOperand_then fun h1 h2 =>
      (encodeBitCore_unstuck hs hl h1 h2 bit).thenModify _
  | rcEncTree n => exact issue_answers hi fun _ hs hl => ends_bind.2 (check_then fun h =>
      encRun_unstuck (treeEncode_run _ (hl.enc hs) hs.cellsOk (treeOperandsLegal_cells h)))
  | rcEncFlush => exact issue_answers hi fun _ hs hl => (shifts_unstuck 5 hs hl).thenModify _
  | rcDecInit => exact issue_answers hi fun _ _ _ => (initChecks_unstuck s).bind fun _ t => (decInit_unstuck t).thenModify _
  | rcDecBit => exact issue_answers hi fun _ hs hl => cellOperand_then fun ha =>
      (decRun_unstuck (decCell_run hl.rangeGe hs.cellsOk ha)).thenModify _
  | rcDecBitNa => exact issue_answers hi fun _ hs hl => probOperand_then fun h1 h2 =>
      (decRun_unstuck (decodeBitCore_run hl.rangeGe hs.cellsOk h1 h2)).thenModify _
  | rcDecDirect n => exact issue_answers hi fun _ hs hl => check_then fun _ =>
      (decRun_unstuck (decDirect_run n hl.rangeGe hs.cellsOk)).thenModify _
  | rcDecTree n => exact issue_answers hi fun _ hs hl => treeBaseOperand_then fun hv =>
      (decRun_unstuck (treeDecode_run hl.rangeGe hs.cellsOk hv)).thenModify _
  | rcDecRtree n => exact issue_answers hi fun _ hs hl => treeBaseOperand_then fun hv =>
      (decRun_unstuck (rtreeDecode_run hl.rangeGe hs.cellsOk hv)).thenModify _
  | rcDecFinished => exact issue_answers hi fun _ _ _ => unstuck_modify _ s
  | pmInit => exact issue_answers hi fun _ _ _ => unstuck_modify _ s
  | cellRead => exact issue_answers hi fun _ _ _ => cellOperand_then fun ha =>
      Unstuck.thenModify ((ends_readCell ha).2 trivial) _
  | encLiteral b => exact issue_answers_in hi fun hm hs hl => requireNoEos_then (encRun_unstuck
      (encLiteral_run (hl.enc hs) hs.cellsOk (hs.propsOk (by rw [hm]; decide)) hs.fsmLe hm b))
  | encEos => exact issue_answers_in hi fun hm hs hl => requireNoEos_then (encRun_unstuck
      (encEos_run (hl.enc hs) hs.cellsOk (hs.propsOk (by rw [hm]; decide)) hs.fsmLe))
  | decToken => exact issue_answers_in hi fun hm hs hl => decToken_unstuck hs hl hm
  | dwReset => exact issue_answers hi fun _ _ _ => unstuck_modify _ s
  | dwPush b => exact issue_answers hi fun _ _ _ => windowAppend_unstuck b s
  | dwByteAt => exact issue_answers hi fun _ _ _ => ends_bind.2 ((byteAt_unstuck s.arg0.toNat s).thenModify _)
  | dwLast => exact issue_answers hi fun _ _ _ => unstuck_modify _ s
  | dwCopy => exact issue_answers hi fun _ _ _ => copyMatch_unstuck s.arg0.toNat s.arg1.toNat s
  | propsValidate => exact issue_answers hi fun _ _ _ => unstuck_check (propsValid s.props) .invalidProperties s
  | hdrWrite => exact issue_answers hi fun _ _ _ => ends_bind.2 (check_then fun _ => outWriteAll_unstuck _ s)
  | hdrRead => exact issue_answers hi fun _ _ _ => readHeader_unstuck s

/-! ## Every access of the host -/

theorem configWrite_answers (store : State → State) (s : State) : ∃ t, configWrite store s = .next t := by
  unfold configWrite
  split_ifs <;> exact ⟨_, rfl⟩

theorem command_answers (w : Word) (hi : s.Inv) : ∃ t, command w s = .next t := by
  unfold command
  split
  · exact exec_answers _ hi
  · split_ifs <;> exact ⟨_, rfl⟩

theorem writePort_answers (a : PortAddr) (v : Word) (hi : s.Inv) : ∃ t, writePort a v s = .next t := by
  unfold writePort
  split
  · exact configWrite_answers _ s
  · exact configWrite_answers _ s
  · exact configWrite_answers _ s
  · exact configWrite_answers _ s
  · exact configWrite_answers _ s
  · exact ⟨_, rfl⟩
  · exact ⟨_, rfl⟩
  · exact command_answers v hi
  · exact ⟨_, rfl⟩

theorem access_answers (x : Access) (hi : s.Inv) : ∃ t, access x s = .next t := by
  cases x with
  | read a => exact ⟨_, rfl⟩
  | write a v => exact writePort_answers a v hi

/-- Settles O60: a step performs the host's next access, and every access answers a next state. -/
theorem stepNeverStops : Obligations.StepNeverStops := by
  intro s hi
  cases hq : s.hostQueue with
  | nil => exact ⟨s, step_nil hq⟩
  | cons x rest =>
    rw [step_cons hq]
    exact access_answers x (s := s.withQueue rest) (host_inv hi rfl)

end Sys2Proof.Machine
end

section
/-! PROOFS. A coded body decodes to its decisions (40_range_coder.md R145). The coded value never leaves the encoder's interval:
what the flush delivers, cut to as many bytes as the encoder had at any decision, lies in the interval of that decision, and
the decoder's CODE is its distance from the interval's low end. -/

namespace Sys2Proof.Machine

variable {s t u d : State} {p : Nat} {bit : Bool} {ds : List (Word × Bool)}

/-! ## The accesses -/

theorem access_issue {i : Instr} (h : i.wf = true) (s : State) : access (issueAccess i) s = exec i s := by
  rw [issueAccess, access_write_cmd, command_ok (decodeOfEncode i h)]

/-- The accesses that code the decisions, between RC_ENC_INIT and RC_ENC_FLUSH (R145). -/
def encodeTurns (ds : List (Word × Bool)) : List Access :=
  ds.flatMap fun d => [.write 0x20 d.1, issueAccess (.rcEncBitNa d.2)]

/-- The accesses that decode at the given probabilities, after RC_DEC_INIT (R145). -/
def decodeTurns (ps : List Word) : List Access :=
  ps.flatMap fun p => [.write 0x20 p, issueAccess .rcDecBitNa, .read 0x28]

theorem perform_encodeDecisions (ds : List (Word × Bool)) (s : State) : perform (encodeDecisions ds) s =
    andThen (exec .rcEncInit s) (perform (encodeTurns ds ++ [issueAccess .rcEncFlush])) := by
  change perform (issueAccess .rcEncInit :: (encodeTurns ds ++ [issueAccess .rcEncFlush])) s = _
  rw [perform_cons, access_issue rfl]

theorem perform_decodeDecisions (ps : List Word) (d : State) : perform (decodeDecisions ps) d =
    andThen (exec .rcDecInit d) (perform (decodeTurns ps)) := by
  change perform (issueAccess .rcDecInit :: decodeTurns ps) d = _
  rw [perform_cons, access_issue rfl]

theorem perform_encodeTurn (x : Word × Bool) (l : List Access) (s : State) :
    perform (encodeTurns (x :: ds) ++ l) s =
      andThen (exec (.rcEncBitNa x.2) (s.withArg0 x.1)) (perform (encodeTurns ds ++ l)) := by
  change perform (.write 0x20 x.1 :: issueAccess (.rcEncBitNa x.2) :: (encodeTurns ds ++ l)) s = _
  rw [perform_cons, access_write_arg0, ← access_issue (i := .rcEncBitNa x.2) rfl, ← perform_cons]
  rfl

theorem perform_decodeTurn (w : Word) (ps : List Word) (d : State) : perform (decodeTurns (w :: ps)) d =
    andThen (exec .rcDecBitNa (d.withArg0 w)) fun t => perform (decodeTurns ps) (t.answered t.res) := by
  change perform (.write 0x20 w :: issueAccess .rcDecBitNa :: .read 0x28 :: decodeTurns ps) d = _
  rw [perform_cons, access_write_arg0]
  change perform (issueAccess .rcDecBitNa :: .read 0x28 :: decodeTurns ps) (d.withArg0 w) = _
  rw [perform_cons, access_issue rfl]
  rfl

theorem naRes_bit (hp : p ≤ 2047) (bit : Bool) : (BitVec.ofNat 32 (p <<< 16 ||| bit.toNat)).getLsbD 0 = bit := by
  have h := naRes_toNat hp bit
  have hb := bit.toNat_lt
  rw [BitVec.getLsbD, h, Nat.testBit_zero]
  cases bit <;> simp <;> omega

/-! ## One decision on both sides -/

/-- CODE's distance from the interval's low end says which part of the interval holds it (R121, R137). -/
theorem decBit_of_part (h1 : bitGain d.range p bit ≤ d.code.toNat)
    (h2 : d.code.toNat < bitGain d.range p bit + bitRange d.range p bit) : decBit p d = bit := by
  rw [bitGain_eq] at h1 h2
  rw [bitRange_eq] at h2
  cases bit with
  | true => exact (decBit_iff p d).2 h1
  | false =>
    rw [← Bool.not_eq_true, decBit_iff]
    simpa using h2

/-- A part of the interval is renormalised by one number of bytes alone (R124, R139). -/
theorem renorm_unique {part j k : Nat} (hjk : j ≤ k) (hj : 2 ^ 24 ≤ part * 256 ^ j) (hk : part * 256 ^ k < 2 ^ 32) :
    j = k := by
  by_contra hne
  have hpow : 256 ^ (j + 1) ≤ 256 ^ k := Nat.pow_le_pow_right (by decide) (by omega)
  have hmul : part * 256 ^ (j + 1) ≤ part * 256 ^ k := Nat.mul_le_mul_left _ hpow
  rw [pow_succ, ← Nat.mul_assoc] at hmul
  omega

/-- A value of `m` more digits in base `K` lies in a part of the interval, so it does without them. -/
theorem part_of_scaled {K low part y n : Nat} (hn : n < K) (h1 : low * K ≤ y * K + n)
    (h2 : y * K + n < low * K + part * K) :
    low ≤ y ∧ y < low + part ∧ y * K + n - low * K = (y - low) * K + n := by
  have hlow : low ≤ y := Nat.lt_succ_iff.1 (Nat.lt_of_mul_lt_mul_right (a := K) (by rw [Nat.succ_mul]; omega))
  have hpart : y < low + part := Nat.lt_of_mul_lt_mul_right (a := K) (by rw [Nat.add_mul]; omega)
  have hmul : low * K ≤ y * K := Nat.mul_le_mul_right K hlow
  exact ⟨hlow, hpart, by rw [Nat.sub_mul]; omega⟩

/-! ## The decoder's side -/

/-- A decoder with RANGE `r`, CODE `c` and the bytes `l` left gives the decisions' bits and uses the bytes up (R145). -/
def ReadsBack (ds : List (Word × Bool)) (r : Word) (c : Nat) (l : List Byte) : Prop :=
  ∀ d : State, Ready .decode d → d.range = r → d.code.toNat = c → d.source = l →
    ∃ u reads, perform (decodeTurns (ds.map Prod.fst)) d = .next u ∧ u.faulted = false ∧
      u.hostReads = d.hostReads ++ reads ∧ reads.map (fun w => w.getLsbD 0) = ds.map Prod.snd ∧
      u.source = [] ∧ u.code = 0

theorem readsBack_nil (r : Word) : ReadsBack [] r 0 [] := fun d hr _ hc hl =>
  ⟨d, [], rfl, hr.1, (List.append_nil _).symm, rfl, hl, BitVec.eq_of_toNat_eq hc⟩

/-- A decision read back before the others: its bytes `l0` are those its part of the interval renormalises by. -/
theorem ReadsBack.cons {w : Word} {r r' : Word} {c : Nat} {l0 l : List Byte} (h1 : 1 ≤ w.toNat) (h2 : w.toNat ≤ 2047)
    (hr : 2 ^ 24 ≤ r.toNat) (hr' : r'.toNat = bitRange r w.toNat bit * 256 ^ l0.length) (hge : 2 ^ 24 ≤ r'.toNat)
    (hlow : bitGain r w.toNat bit ≤ c) (hhigh : c < bitGain r w.toNat bit + bitRange r w.toNat bit)
    (hc : (c - bitGain r w.toNat bit) * 256 ^ l0.length + numOf l0 < 2 ^ 32)
    (h : ReadsBack ds r' ((c - bitGain r w.toNat bit) * 256 ^ l0.length + numOf l0) l) :
    ReadsBack ((w, bit) :: ds) r c (l0 ++ l) := by
  rintro d hd rfl rfl hsrc
  have hd' : Ready .decode (d.withArg0 w) := hd
  have hbit : decBit w.toNat (d.withArg0 w) = bit := decBit_of_part hlow hhigh
  have hlen : l0.length ≤ (d.withArg0 w).source.length := by
    rw [State.withArg0_source, hsrc, List.length_append]
    omega
  obtain ⟨t, k, hk, e, hget, hstep⟩ := exec_rcDecBitNa_decodes hd' hr h1 h2 hbit (hr' ▸ hge) hlen
  obtain ⟨l', hl', hlk, hcode⟩ := hstep.taken
  have hrange : t.range.toNat = bitRange d.range w.toNat bit * 256 ^ k := hstep.range
  obtain rfl : k = l0.length := renorm_unique hk (hrange ▸ hget) (hr' ▸ r'.isLt)
  obtain ⟨rfl, hsource⟩ : l0 = l' ∧ l = t.source := List.append_inj (hsrc.symm.trans hl') hlk.symm
  have hcode : t.code.toNat = (d.code.toNat - bitGain d.range w.toNat bit) * 256 ^ l0.length + numOf l0 :=
    hcode.trans (Nat.mod_eq_of_lt hc)
  have hres := naRes_bit (adapt_range h1 h2 bit).2 bit
  have hf : t.faulted = false := (Same.field (f := State.lessDec) hstep.only State.faulted fun _ => rfl).trans hd.1
  have hm : t.mode = .decode := (Same.field (f := State.lessDec) hstep.only State.mode fun _ => rfl).trans hd.2
  have hreads : t.hostReads = d.hostReads := Same.field (f := State.lessDec) hstep.only State.hostReads fun _ => rfl
  rw [State.withArg0_arg0] at e
  generalize BitVec.ofNat 32 (adapt w.toNat bit <<< 16 ||| bit.toNat) = v at *
  obtain ⟨u, reads, e', hfu, hread, hbits, hend⟩ := h ((t.withRes v).answered v) ⟨hf, hm⟩
    (BitVec.eq_of_toNat_eq (hrange.trans hr'.symm)) hcode hsource.symm
  refine ⟨u, v :: reads, ?_, hfu, ?_, ?_, hend⟩
  · rw [List.map_cons, perform_decodeTurn, e]
    exact e'
  · rw [hread]
    change t.hostReads ++ [v] ++ reads = _
    rw [hreads, List.append_assoc]
    rfl
  · rw [List.map_cons, List.map_cons, hres, hbits]

/-! ## The encoder's side -/

/-- What the rest of a coding session delivers: a body whose first bytes, as many as the encoder at `s` has plus LOW's four, lie
in its interval, and whose distance from the low end reads back (R125, R145). -/
structure Delivers (ds : List (Word × Bool)) (s t : State) (pre l : List Byte) : Prop where
  unfaulted : t.faulted = false
  done : t.mode = .done
  sink : t.sink = pre ++ l
  length : pre.length = s.sink.length + s.cacheSize + 4
  low : codeValue s ≤ numOf pre
  high : numOf pre < codeValue s + s.range.toNat
  readsBack : ReadsBack ds s.range (numOf pre - codeValue s) l

theorem sinkTakes_of_none (h : s.sinkFailAt = none) (n : Nat) : sinkTakes n s := fun k hk => by
  rw [h] at hk
  cases hk

/-- The flush alone: the coded value itself (R133). -/
theorem flush_delivers (hr : Ready .encode s) (hl : EncLive s) (hs : s.sinkFailAt = none) : ∃ t pre l,
    perform [issueAccess .rcEncFlush] s = .next t ∧ Delivers [] s t pre l := by
  have hok := hl.shiftOk
  obtain ⟨e, -⟩ := exec_rcEncFlush_run hr hok (sinkTakes_of_none hs _)
  obtain ⟨hvalue, hlen, -⟩ := flush_value hok
  obtain ⟨-, -, -, only, -⟩ := shiftedTimes_facts 5 hok
  have hf : (s.shiftedTimes 5).faulted = false :=
    (Same.field (f := State.lessEnc) only State.faulted fun _ => rfl).trans hr.1
  generalize s.shiftedTimes 5 = v at *
  refine ⟨v.withMode .done, v.sink, [], ?_, hf, rfl, (List.append_nil _).symm, hlen, hvalue.ge, ?_, ?_⟩
  · rw [perform_cons, access_issue rfl, e]
    rfl
  · rw [hvalue]
    have := hl.rangePos
    omega
  · rw [hvalue, Nat.sub_self]
    exact readsBack_nil _

/-- A decision before the rest: its part of the interval holds what the rest delivers (R121, R125). -/
theorem Delivers.cons {w : Word} {k : Nat} {pre l : List Byte} (h1 : 1 ≤ w.toNat) (h2 : w.toNat ≤ 2047)
    (hl : EncLive s) (hl' : EncLive u) (hstep : EncStep (bitGain s.range w.toNat bit) (bitRange s.range w.toNat bit) k s u)
    (h : Delivers ds u t pre l) : ∃ pre' l', Delivers ((w, bit) :: ds) s t pre' l' := by
  have hlen := h.length
  rw [hstep.count] at hlen
  obtain ⟨pre', l0, rfl, hk⟩ : ∃ a b, pre = a ++ b ∧ b.length = k :=
    ⟨_, _, (List.take_append_drop (pre.length - k) pre).symm, by rw [List.length_drop]; omega⟩
  subst hk
  have hlow := h.low
  have hhigh := h.high
  have hreads := h.readsBack
  have hlt := u.range.isLt
  rw [List.length_append] at hlen
  rw [hstep.value, numOf_append] at hlow hhigh hreads
  rw [hstep.range] at hhigh
  obtain ⟨hge, hpart, hdist⟩ := part_of_scaled (numOf_lt l0) hlow hhigh
  rw [hdist, Nat.sub_add_eq] at hreads
  have hwhole := (bitRange_ge (bit := bit) hl.rangeGe h1 h2).2
  refine ⟨pre', l0 ++ l, h.unfaulted, h.done, by rw [h.sink, List.append_assoc], by omega, by omega, by omega, ?_⟩
  refine hreads.cons h1 h2 hl.rangeGe hstep.range hl'.rangeGe (by omega) (by omega) ?_
  rw [hstep.range] at hlt
  rw [← Nat.sub_add_eq]
  omega

/-- The rest of a coding session from a live encoder on an unfailing sink (R145). -/
theorem encodeTurns_delivers : ∀ (ds : List (Word × Bool)) {s : State}, (∀ x ∈ ds, 1 ≤ x.1.toNat ∧ x.1.toNat ≤ 2047) →
    Ready .encode s → EncLive s → s.sinkFailAt = none →
    ∃ t pre l, perform (encodeTurns ds ++ [issueAccess .rcEncFlush]) s = .next t ∧ Delivers ds s t pre l
  | [], _, _, hr, hl, hs => flush_delivers hr hl hs
  | (w, bit) :: ds, s, hds, hr, hl, hs => by
    obtain ⟨h1, h2⟩ := hds (w, bit) List.mem_cons_self
    have hl0 : EncLive (s.withArg0 w) := { hl with }
    obtain ⟨u, k, -, e, hl', hstep, -⟩ :=
      exec_rcEncBitNa_codes (s := s.withArg0 w) hr hl0 h1 h2 (sinkTakes_of_none hs _) bit
    have hf : u.faulted = false := (Same.field (f := State.lessEnc) hstep.only State.faulted fun _ => rfl).trans hr.1
    have hm : u.mode = .encode := (Same.field (f := State.lessEnc) hstep.only State.mode fun _ => rfl).trans hr.2
    have hn : u.sinkFailAt = none :=
      (Same.field (f := State.lessEnc) hstep.only State.sinkFailAt fun _ => rfl).trans hs
    obtain ⟨t, pre, l, e', h⟩ := encodeTurns_delivers ds (s := u.withRes (BitVec.ofNat 32 (adapt w.toNat bit)))
      (fun x hx => hds x (List.mem_cons_of_mem _ hx)) ⟨hf, hm⟩ { hl' with } hn
    have h : Delivers ds u t pre l := { h with }
    obtain ⟨pre', l', h'⟩ := h.cons h1 h2 hl0 hl' hstep
    refine ⟨t, pre', l', ?_, { h' with }⟩
    rw [perform_encodeTurn, e]
    exact e'

/-! ## The session -/

theorem encoderStart_live (s : State) : EncLive (encoderStart s) where
  cachePos := le_rfl
  rangePos := (by decide : 1 ≤ (0xFFFFFFFF : Word).toNat)
  lowRange := (by decide : (0 : BitVec 64).toNat + (0xFFFFFFFF : Word).toNat < 2 ^ 33)
  noCarry h := by cases h
  rangeGe := (by decide : 2 ^ 24 ≤ (0xFFFFFFFF : Word).toNat)

theorem codeValue_encoderStart (hs : s.sink = []) : codeValue (encoderStart s) = 0 := by
  change numOf (s.sink ++ [0]) * 2 ^ 32 + 0 = 0
  rw [hs]
  rfl

/-- A decoder that starts on a body whose first five bytes are a number below RANGE's start value reads them as CODE, and
goes on with the rest (R136). -/
theorem decodeDecisions_readsBack {pre l : List Byte} (hr : Ready .idle d) (h1 : propsValid d.props = true)
    (h2 : windowCap d ≤ d.config.pMaxDict) (hlen : pre.length = 5) (hlt : numOf pre < 2 ^ 32) (hsrc : d.source = pre ++ l)
    (h : ReadsBack ds 0xFFFFFFFF (numOf pre) l) : ∃ u reads, perform (decodeDecisions (ds.map Prod.fst)) d = .next u ∧
      u.faulted = false ∧ u.hostReads = d.hostReads ++ reads ∧
      reads.map (fun w => w.getLsbD 0) = ds.map Prod.snd ∧ u.source = [] ∧ u.code = 0 := by
  obtain ⟨b0, b1, b2, b3, b4, rfl⟩ : ∃ b0 b1 b2 b3 b4, [b0, b1, b2, b3, b4] = pre := by
    simpa [List.length_eq_succ_iff] using hlen
  have hcode : (b1 ++ b2 ++ b3 ++ b4).toNat = numOf [b0, b1, b2, b3, b4] := by
    have h0 := numOf_cons b0 [b1, b2, b3, b4]
    rw [show [b1, b2, b3, b4].length = 4 from rfl] at h0
    rw [← numOf_four]
    omega
  rw [perform_decodeDecisions, exec_rcDecInit_five hr h1 h2 hsrc]
  exact h _ ⟨hr.1, rfl⟩ rfl hcode rfl

/-- Settles O36, by induction on the decisions: what the encoder delivers from each of them lies in the interval the decoder
has there. -/
theorem mirrorProperty : Obligations.MirrorProperty := by
  intro ds s d hds hs hprops hcap hsink hfail hd hdprops hdcap
  have hfail' : (encoderStart s).sinkFailAt = none := hfail
  obtain ⟨t, pre, l, e, h⟩ := encodeTurns_delivers ds hds (s := encoderStart s) ⟨hs.1, rfl⟩ (encoderStart_live s) hfail'
  have hlen : pre.length = s.sink.length + 1 + 4 := h.length
  have hhigh : numOf pre < codeValue (encoderStart s) + 0xFFFFFFFF := h.high
  have hreads : ReadsBack ds 0xFFFFFFFF (numOf pre - codeValue (encoderStart s)) l := h.readsBack
  rw [hsink] at hlen
  rw [codeValue_encoderStart hsink] at hhigh hreads
  refine ⟨t, ?_, h.unfaulted, h.done, fun hsrc => ?_⟩
  · rw [perform_encodeDecisions, exec_rcEncInit hs hprops hcap]
    exact e
  · exact decodeDecisions_readsBack hd hdprops hdcap hlen (by omega) (hsrc.trans h.sink) hreads

end Sys2Proof.Machine
end

section
/-! PROOFS. The probability cells (41_probability_model.md R163 to R168, R179, R180): who writes one, which cells a token can
reach, and the two commands that set and read them. -/

namespace Sys2Proof.Machine

variable {s t : State}

/-! ## Who writes a cell (R163, R164) -/

theorem cellAt_congr (h : t.pram = s.pram) (a : Nat) : cellAt t a = cellAt s a := by
  rw [cellAt, cellAt, h]

theorem configWrite_pram {store : State → State} (h : (store s).pram = s.pram) (e : configWrite store s = .next t) :
    t.pram = s.pram := by
  unfold configWrite at e
  split_ifs at e <;> cases e
  · rfl
  · exact h
  · rfl

/-- A word written to CMD changes the cells only as a command (30_encoding.md R86). -/
theorem command_pram {w : Word} (e : command w s = .next t) : t.pram = s.pram ∨ ∃ i, decode w = .ok i := by
  unfold command at e
  split at e
  · exact .inr ⟨_, by assumption⟩
  · split_ifs at e <;> cases e <;> exact .inl rfl

theorem writePort_pram {p : PortAddr} {w : Word} (e : writePort p w s = .next t) :
    t.pram = s.pram ∨ p = 0x2C ∧ ∃ i, decode w = .ok i := by
  unfold writePort at e
  split at e
  · exact .inl (configWrite_pram rfl e)
  · exact .inl (configWrite_pram rfl e)
  · exact .inl (configWrite_pram rfl e)
  · exact .inl (configWrite_pram rfl e)
  · exact .inl (configWrite_pram rfl e)
  · cases e; exact .inl rfl
  · cases e; exact .inl rfl
  · rename_i h
    exact (command_pram e).imp_right fun hi => ⟨BitVec.eq_of_toNat_eq h, hi⟩
  · cases e; exact .inl rfl

theorem probOperand_commutes {f : State → State} (h : ∀ s, (f s).arg0 = s.arg0) (s : State) :
    Commutes f probOperand probOperand s := by
  refine Commutes.getBind ?_
  rw [h]
  exact Commutes.bind (Commutes.check _ _ s) fun _ t => Commutes.pure _ t

/-- A non-adaptive decision does the same on any probability RAM (R164). -/
theorem exec_rcEncBitNa_withPram (bit : Bool) (m : Memory) (s : State) :
    exec (.rcEncBitNa bit) (s.withPram m) = mapNext (fun t => t.withPram m) (exec (.rcEncBitNa bit) s) :=
  issue_commutes rfl rfl (fun _ _ => rfl)
    (Commutes.bind (probOperand_commutes (f := fun t => t.withPram m) (fun _ => rfl) s) fun p t =>
      Commutes.bind ((encApart_pram m).bitCore p bit t) fun _ _ => Commutes.modify rfl)

theorem exec_rcDecBitNa_withPram (m : Memory) (s : State) :
    exec .rcDecBitNa (s.withPram m) = mapNext (fun t => t.withPram m) (exec .rcDecBitNa s) :=
  issue_commutes rfl rfl (fun _ _ => rfl)
    (Commutes.bind (probOperand_commutes (f := fun t => t.withPram m) (fun _ => rfl) s) fun p t =>
      Commutes.bind ((decApart_pram m).bitCore p t) fun _ _ => Commutes.modify rfl)

/-- Settles O23: the commands that keep PRAM by their frames, the accesses by what a port write does, and the two
non-adaptive decisions by commuting with any exchange of the probability RAM. -/
theorem cellWriters : Obligations.CellWriters := by
  refine ⟨fun i s t a e hne => ?_, fun x s t a e hne => ?_, fun i m s hi => ?_⟩
  · cases i with
    | rcEncBit _ | rcDecBit | rcEncTree _ | rcDecTree _ | rcDecRtree _ | encLiteral _ | encEos | decToken | pmInit
    | sessionReset => trivial
    | _ => exact hne (cellAt_congr (exec_keeps (g := State.pram) (by simp) (fun _ => rfl) (fun _ _ => rfl) e) a)
  · cases x with
    | read p => cases e; exact absurd rfl hne
    | write p w =>
      obtain ⟨rfl, i, hi⟩ := (writePort_pram e).resolve_left fun h => hne (cellAt_congr h a)
      exact ⟨w, i, rfl, hi⟩
  · cases i with
    | rcEncBitNa bit =>
      exact ⟨exec_rcEncBitNa_withPram bit m s, fun t =>
        exec_keeps (g := State.pram) (by simp) (fun _ => rfl) fun _ _ => rfl⟩
    | rcDecBitNa =>
      exact ⟨exec_rcDecBitNa_withPram m s, fun t =>
        exec_keeps (g := State.pram) (by simp) (fun _ => rfl) fun _ _ => rfl⟩
    | _ => exact hi.elim

/-! ## The cells of a token (R165 to R168) -/

/-- Settles O50: the token's decisions are made with its own cells, and neither a refusal nor a fault writes one. -/
theorem decTokenCells : Obligations.DecTokenCells := by
  intro s t hi e
  refine issue_ends (P := OnlyCells (TokenCell s) s) e (fun _ => OnlyCells.refl s) (fun _ _ _ => rfl) fun _ hm => ?_
  have hm : s.mode = .decode := by simpa using hm
  have hps : posState s < 16 := posState_lt (hi.1.propsOk (by rw [hm]; decide))
  exact ((tokRel_cells (TokenCell s)).token (.inl hps) fun _ h => h).mono (fun _ _ h => h) fun _ _ h _ => h

/-! ## PM_INIT and CELL_READ (R179, R180) -/

theorem exec_pmInit (hr : Ready .idle s) : exec .pmInit s = .next (s.withPram []) :=
  issue_ready hr.1 (by rw [hr.2]; rfl)

theorem exec_cellRead (hf : s.faulted = false) (ha : cellValid s.arg0.toNat = true) :
    exec .cellRead s = .next (s.withRes (BitVec.ofNat 32 (cellAt s s.arg0.toNat))) := by
  refine (issue_ready hf (by cases s.mode <;> rfl)).trans ?_
  rw [bind_run, cellOperand_run ha]
  dsimp only
  rw [bind_run, readCell_run ha]
  rfl

/-- Settles O41. -/
theorem cellCommands : Obligations.CellCommands :=
  ⟨fun _ hr => ⟨_, exec_pmInit hr, fun _ => rfl, rfl⟩, fun _ => exec_cellRead⟩

end Sys2Proof.Machine
end

section
/-! PROOFS. The bit trees (41_probability_model.md R170 to R178): a tree command as one decision per level along its path, the
reverse tree as the tree with its bits reversed, and what they leave when they complete. -/

namespace Sys2Proof.Machine

variable {s t : State} {n base : Nat}

/-! ## One decision of a path as a command (R131, R141) -/

theorem arg0_ofNat_toNat {a : Nat} (ha : cellValid a = true) (s : State) :
    (s.withArg0 (BitVec.ofNat 32 a)).arg0.toNat = a := by
  rw [State.withArg0_arg0, BitVec.toNat_ofNat, Nat.mod_eq_of_lt (cellValid_lt ha)]

/-- RC_ENC_BIT at cell `a` is the decision at `a`. -/
theorem exec_rcEncBit_at {a : Nat} (hr : Ready .encode s) (ha : cellValid a = true) (bit : Bool) :
    exec (.rcEncBit bit) (s.withArg0 (BitVec.ofNat 32 a)) =
      conclude (mapState (fun t => t.withArg0 (BitVec.ofNat 32 a)) (encCell a bit s)) := by
  have hr : Ready .encode (s.withArg0 (BitVec.ofNat 32 a)) := hr
  have e := arg0_ofNat_toNat ha s
  refine (exec_inEncode hr).trans ?_
  rw [bind_run, cellOperand_run (by rw [e]; exact ha), e]
  exact congrArg conclude ((encApart_arg0 _).cellDecision (cellsApart_arg0 _) a bit s)

theorem decApart_operand (w r : Word) : DecApart fun s => (s.withRes r).withArg0 w :=
  ⟨fun _ => ⟨rfl, rfl, rfl, rfl⟩, fun _ _ => rfl, fun _ _ => rfl, fun _ _ => rfl⟩

/-- RC_DEC_BIT at cell `a` is the decision at `a`, its bit to RES. -/
theorem exec_rcDecBit_at {a : Nat} (hr : Ready .decode s) (ha : cellValid a = true) :
    exec .rcDecBit (s.withArg0 (BitVec.ofNat 32 a)) = conclude ((do
      let bit ← decCell a
      modify fun t => t.withRes (BitVec.ofNat 32 bit.toNat) : Cmd Unit) (s.withArg0 (BitVec.ofNat 32 a))) := by
  have hr : Ready .decode (s.withArg0 (BitVec.ofNat 32 a)) := hr
  have e := arg0_ofNat_toNat ha s
  refine (exec_inDecode hr.1 hr.2).trans ?_
  rw [bind_run, cellOperand_run (by rw [e]; exact ha), e]

/-- A run that writes neither FAULTED nor MODE leaves the block ready. -/
theorem Same.ready {m : Mode} {f : State → State} (h : Same f s t) (hf : ∀ u, (f u).faulted = u.faulted)
    (hm : ∀ u, (f u).mode = u.mode) (hr : Ready m s) : Ready m t :=
  ⟨(h.field State.faulted hf).trans hr.1, (h.field State.mode hm).trans hr.2⟩

/-! ## RC_ENC_TREE (R171, R176) -/

/-- Once faulted, the rest of a path changes nothing but ARG0 (60_exceptions.md R324). -/
theorem encodePath_faulted (base v : Nat) (x : Word) : ∀ k m {s : State}, s.faulted = true →
    mapNext (fun t => t.withArg0 x) (encodePath base v k m s) = .next (s.withArg0 x)
  | 0, _, _, _ => rfl
  | k + 1, m, s, hf => by
    have hf : (s.withArg0 (BitVec.ofNat 32 (base + m))).faulted = true := hf
    rw [encodePath, exec_faulted (by simp) hf]
    exact encodePath_faulted base v x k _ hf

/-- RC_ENC_BIT along a path is the walk of `TreeEncode`, but for ARG0. -/
theorem encodePath_eq (base v : Nat) : ∀ k m {s : State} (x : Word), Ready .encode s →
    (∀ x, m ≤ x → 2 * x < (m + 1) * 2 ^ k → cellValid (base + x) = true) →
    mapNext (fun t => t.withArg0 s.arg0) (encodePath base v k m (s.withArg0 x)) =
      conclude (treeEncodeLoop base v k m s)
  | 0, _, _, _, _, _ => rfl
  | k + 1, m, s, x, hr, hv => by
    have only := sameEncCells.cellDecision (a := base + m) trivial (v.testBit k) s
    have step := exec_rcEncBit_at hr (hv m le_rfl (walk_here m k)) (v.testBit k)
    unfold Ends at only
    rw [treeEncodeLoop, bind_run]
    change mapNext _ (andThen (exec _ (s.withArg0 _)) _) = _
    rw [step]
    cases hrun : encCell (base + m) (v.testBit k) s with
    | ok _ t =>
      rw [hrun] at only
      rw [← only.field State.arg0 fun _ => rfl]
      exact encodePath_eq base v k _ _ (only.ready (fun _ => rfl) (fun _ => rfl) hr)
        fun x h1 h2 => hv x (by omega) (walk_next h2)
    | error e t =>
      rw [hrun] at only
      cases e with
      | stuck f => rfl
      | raise c =>
        rw [← only.field State.arg0 fun _ => rfl]
        exact encodePath_faulted base v _ k _ rfl

theorem exec_rcEncTree (hr : Ready .encode s) (h : treeOperandsLegal n s.arg0.toNat s.arg1.toNat = true) :
    exec (.rcEncTree n) s = conclude (treeEncode s.arg0.toNat n s.arg1.toNat s) := by
  refine (exec_inEncode hr).trans ?_
  rw [bind_run, get_run]
  dsimp only
  rw [h, bind_run, check_true]

/-- A tree's nodes are those of the walk from its root (R170, R174). -/
theorem walk_root {C : Nat → Prop} (h : ∀ x, 1 ≤ x → x < 2 ^ n → C x) :
    ∀ x, 1 ≤ x → 2 * x < (1 + 1) * 2 ^ n → C x :=
  fun x h1 h2 => h x h1 (by omega)

/-- The cells of the nodes 1 to 2^n - 1 of a tree (R174). -/
def TreeCell (base n a : Nat) : Prop := base < a ∧ a < base + 2 ^ n

theorem treeCell_node {x : Nat} (h1 : 1 ≤ x) (h2 : x < 2 ^ n) : TreeCell base n (base + x) :=
  ⟨by omega, by omega⟩

theorem OnlyCells.outsideTree (h : OnlyCells (TreeCell base n) s t) (a : Nat) (ha : a ≤ base ∨ base + 2 ^ n ≤ a) :
    cellAt t a = cellAt s a :=
  h a fun hc => by obtain ⟨h1, h2⟩ := hc; omega

/-- Settles O37: the path by walking the tree beside it, completion and frame by the run of the walk. -/
theorem encTreeEncodes : Obligations.EncTreeEncodes := by
  refine ⟨fun n s hr h => ?_, fun n s hr hi h ht => ?_⟩
  · rw [exec_rcEncTree hr h]
    exact (encodePath_eq _ _ n 1 s.arg0 hr (walk_root (treeOperandsLegal_cells h))).symm
  · have hrun := treeEncode_run s.arg1.toNat (hi.encLive hr.1) hi.1.cellsOk (treeOperandsLegal_cells h)
    have hcells := (encRel_cells (TreeCell s.arg0.toNat n)).treeLoop s.arg0.toNat s.arg1.toNat n 1
      (walk_root fun _ => treeCell_node) s
    obtain ⟨_, t, e, ht, hc⟩ := (hrun.and hcells).completes fun e t h => h.1.room ht
    have only : Same State.lessEncCells s t := ht.only
    refine ⟨t, ?_, (only.ready (fun _ => rfl) (fun _ => rfl) hr).1, ht.live.rangeGe, hc.outsideTree,
      eq_of_lessEncCells only⟩
    rw [exec_rcEncTree hr h, e]
    rfl

/-! ## RC_DEC_TREE (R172, R177) -/

/-- What a path from `s` left, `t`, as the one command leaves it: ARG0 is the host's, RES the last node less 2^n, or after a
fault what it was (30_encoding.md R85). -/
def asTree (n : Nat) (s t : State) : State :=
  { t with arg0 := s.arg0, res := if t.faulted then s.res else BitVec.ofNat 32 (t.res.toNat - 2 ^ n) }

theorem asTree_congr (h : Same State.lessDecCells s t) : asTree n t = asTree n s := by
  funext u
  rw [asTree, asTree, h.field State.arg0 fun _ => rfl, h.field State.res fun _ => rfl]

theorem Same.operands_restored (h : Same State.lessDecCells s t) : (t.withArg0 s.arg0).withRes s.res = t := by
  rw [← h.field State.arg0 fun _ => rfl, ← h.field State.res fun _ => rfl]
  rfl

/-- Once faulted, the rest of a path changes nothing but ARG0 and RES (60_exceptions.md R324). -/
theorem decodePath_faulted (base : Nat) : ∀ k m {t : State}, t.faulted = true →
    mapNext (asTree n s) (decodePath base k m t) = .next ((t.withArg0 s.arg0).withRes s.res)
  | 0, m, t, hf => by
    change Host.Outcome.next (asTree n s (t.withRes _)) = _
    rw [asTree, if_pos (by exact hf)]
    rfl
  | k + 1, m, t, hf => by
    have hf : (t.withArg0 (BitVec.ofNat 32 (base + m))).faulted = true := hf
    rw [decodePath, exec_faulted (by simp) hf]
    exact decodePath_faulted base k _ hf

/-- The last node of a path, still in RES, comes out as the tree's value. -/
theorem asTree_lastNode {m : Nat} (hf : s.faulted = false) (hm : m < 2 ^ 32) (x r : Word) :
    asTree n s (((s.withArg0 x).withRes r).withRes (BitVec.ofNat 32 m)) = s.withRes (BitVec.ofNat 32 (m - 2 ^ n)) := by
  have e : (BitVec.ofNat 32 m).toNat = m := by rw [BitVec.toNat_ofNat, Nat.mod_eq_of_lt hm]
  rw [asTree, if_neg (by simp [hf]), State.withRes_res, e]
  rfl

/-- The nodes that a walk can end at after one step are among those it could end at before. -/
theorem walk_narrows (m k : Nat) (b : Bool) : (2 * m + b.toNat + 1) * 2 ^ k ≤ (m + 1) * 2 ^ (k + 1) := by
  have hb : b.toNat ≤ 1 := Bool.toNat_le b
  calc (2 * m + b.toNat + 1) * 2 ^ k ≤ (2 * m + 2) * 2 ^ k := Nat.mul_le_mul_right _ (by omega)
    _ = (m + 1) * 2 ^ (k + 1) := by ring

/-- RC_DEC_BIT down a path is the walk of `TreeDecode`, its last node less 2^n in RES. -/
theorem decodePath_eq (base : Nat) : ∀ k m {s : State} (x r : Word), Ready .decode s →
    (∀ x, m ≤ x → 2 * x < (m + 1) * 2 ^ k → cellValid (base + x) = true) → (m + 1) * 2 ^ k ≤ 2 ^ 32 →
    mapNext (asTree n s) (decodePath base k m ((s.withArg0 x).withRes r)) = conclude ((do
      let v ← treeDecodeLoop base k m
      modify fun t => t.withRes (BitVec.ofNat 32 (v - 2 ^ n)) : Cmd Unit) s)
  | 0, m, s, x, r, hr, _, hm => congrArg Host.Outcome.next (asTree_lastNode hr.1 (by omega) x r)
  | k + 1, m, s, x, r, hr, hv, hm => by
    have ha := hv m le_rfl (walk_here m k)
    have only := sameDecCells.cellDecision (a := base + m) trivial s
    have comm := (decApart_operand (BitVec.ofNat 32 (base + m)) r).cellDecision
      ⟨fun _ => rfl, fun _ _ => rfl⟩ (base + m) s
    have step := exec_rcDecBit_at (s := s.withRes r) hr ha
    unfold Ends at only
    unfold Commutes at comm
    rw [bind_run, comm] at step
    rw [treeDecodeLoop, bind_assoc, bind_run]
    change mapNext _ (andThen (exec _ ((s.withRes r).withArg0 _)) _) = _
    rw [step]
    cases hrun : decCell (base + m) s with
    | ok bit t =>
      rw [hrun] at only
      have hb : (BitVec.ofNat 32 bit.toNat).toNat = bit.toNat := IsBit.toNat rfl
      rw [← asTree_congr only]
      change mapNext _ (decodePath base k (2 * m + (BitVec.ofNat 32 bit.toNat).toNat) _) = _
      rw [hb]
      exact decodePath_eq base k _ _ _ (only.ready (fun _ => rfl) (fun _ => rfl) hr)
        (fun x h1 h2 => hv x (by omega) (walk_next h2)) ((walk_narrows m k bit).trans hm)
    | error e t =>
      rw [hrun] at only
      cases e with
      | stuck f => rfl
      | raise c =>
        exact (decodePath_faulted base k _ rfl).trans
          (congrArg (fun u => Host.Outcome.next (u.takeFault c)) only.operands_restored)

theorem exec_rcDecTree (hr : Ready .decode s) (h : treeOperandsLegal n s.arg0.toNat 0 = true) :
    exec (.rcDecTree n) s = conclude ((do
      let v ← treeDecode s.arg0.toNat n
      modify fun t => t.withRes (BitVec.ofNat 32 v) : Cmd Unit) s) := by
  refine (exec_inDecode hr.1 hr.2).trans ?_
  rw [bind_run, treeBaseOperand_run h]

theorem exec_rcDecRtree (hr : Ready .decode s) (h : treeOperandsLegal n s.arg0.toNat 0 = true) :
    exec (.rcDecRtree n) s = conclude ((do
      let v ← rtreeDecode s.arg0.toNat n
      modify fun t => t.withRes (BitVec.ofNat 32 v) : Cmd Unit) s) := by
  refine (exec_inDecode hr.1 hr.2).trans ?_
  rw [bind_run, treeBaseOperand_run h]

/-- Settles O38: the path by walking the tree beside it. -/
theorem decTreeIsBits : Obligations.DecTreeIsBits := by
  intro n s hr h
  obtain ⟨-, hn, -, hv⟩ := treeOperandsLegal_iff.1 h
  have hroot : (1 + 1) * 2 ^ n ≤ 2 ^ 32 := by
    rw [← pow_succ']
    exact Nat.pow_le_pow_right (by omega) (by omega)
  rw [exec_rcDecTree hr h, treeDecode]
  simp only [bind_assoc, pure_bind]
  exact (decodePath_eq _ n 1 s.arg0 s.res hr (walk_root hv) hroot).symm

/-! ## RC_DEC_RTREE (R173, R178) -/

/-- The low `n` bits of `v` in the opposite order. -/
def reversedBits (n v : Nat) : Nat := (BitVec.ofNat n v).reverse.toNat

theorem testBit_reversedBits (n v i : Nat) :
    (reversedBits n v).testBit i = (decide (i < n) && v.testBit (n - 1 - i)) := by
  rw [reversedBits, BitVec.testBit_toNat, BitVec.getLsbD_reverse, BitVec.getMsbD, BitVec.getLsbD_ofNat]
  by_cases h : i < n
  · simp [h, show n - 1 - i < n by omega]
  · simp [h]

/-- The last node of a walk that is left has, above its low `j` bits, the node the walk starts from. -/
theorem testBit_lastNode {j m v : Nat} {b : Bool} (h1 : (2 * m + b.toNat) * 2 ^ j ≤ v)
    (h2 : v < (2 * m + b.toNat + 1) * 2 ^ j) : v.testBit j = b := by
  have e : v / 2 ^ j = 2 * m + b.toNat := Nat.div_eq_of_lt_le h1 h2
  rw [Nat.testBit_eq_decide_div_mod_eq, e]
  cases b <;> simp [Nat.add_mod]

/-- The bit a reverse walk decodes next stands below the rest of its value. -/
theorem reversedBits_succ {j k v r : Nat} :
    r ||| (v.testBit j).toNat <<< k ||| reversedBits j v <<< (k + 1) = r ||| reversedBits (j + 1) v <<< k := by
  refine Nat.eq_of_testBit_eq fun i => ?_
  simp only [Nat.testBit_or, Nat.testBit_shiftLeft, testBit_reversedBits, Bool.or_assoc]
  congr 1
  rcases lt_trichotomy i k with hi | rfl | hi
  · simp [Nat.not_le.2 hi, Nat.not_le.2 (Nat.lt_succ_of_lt hi)]
  · cases h : v.testBit j <;> simp [h]
  · have hbit : (v.testBit j).toNat.testBit (i - k) = false :=
      Nat.testBit_lt_two_pow ((Bool.toNat_lt _).trans_le (Nat.le_pow (by omega)))
    have e : j + 1 - 1 - (i - k) = j - 1 - (i - (k + 1)) := by omega
    have hlt : i - (k + 1) < j ↔ i - k < j + 1 := by omega
    simp only [hbit, e, hlt, hi.le, Nat.succ_le_of_lt hi, decide_true, Bool.and_false, Bool.true_and, Bool.false_or]

/-- RES of the reverse tree against RES of the tree, whose last node is `m`. -/
theorem getLsbD_reversedBits {m : Nat} (hn : n ≤ 8) (h1 : 2 ^ n ≤ m) (h2 : m < 2 * 2 ^ n) (k : Nat) :
    (BitVec.ofNat 32 (reversedBits n m)).getLsbD k =
      (decide (k < n) && (BitVec.ofNat 32 (m - 2 ^ n)).getLsbD (n - 1 - k)) := by
  have e : m - 2 ^ n = m % 2 ^ n := by
    rw [Nat.mod_eq_sub_mod h1, Nat.mod_eq_of_lt (by omega)]
  rw [BitVec.getLsbD_ofNat, BitVec.getLsbD_ofNat, testBit_reversedBits, e, Nat.testBit_mod_two_pow]
  by_cases hk : k < n
  · simp [hk, show k < 32 by omega, show n - 1 - k < 32 by omega, show n - 1 - k < n by omega]
  · simp [hk]

/-- What follows a walk may use that its last node lies below the node it starts from. -/
theorem treeDecodeLoop_bind_congr {α : Type} {f g : Nat → Cmd α} (base k m : Nat)
    (h : ∀ v, m * 2 ^ k ≤ v → v < (m + 1) * 2 ^ k → f v = g v) :
    treeDecodeLoop base k m >>= f = treeDecodeLoop base k m >>= g := by
  funext s
  have hb := treeDecodeLoop_bounds base k m s
  unfold Ends at hb
  rw [bind_run, bind_run]
  cases hrun : treeDecodeLoop base k m s with
  | error e t => rfl
  | ok v t =>
    rw [hrun] at hb
    dsimp only
    rw [h v hb.1 hb.2]

/-- The reverse walk is the walk, its last node's low bits read in the opposite order. -/
theorem rtreeDecodeLoop_eq (base : Nat) : ∀ j k m r, rtreeDecodeLoop base j k m r =
    treeDecodeLoop base j m >>= fun v => pure (r ||| reversedBits j v <<< k)
  | 0, k, m, r => by
    have h0 : ∀ v, reversedBits 0 v = 0 := fun v => Nat.lt_one_iff.1 (BitVec.isLt _)
    simp only [rtreeDecodeLoop, treeDecodeLoop, pure_bind, h0, Nat.zero_shiftLeft, Nat.or_zero]
  | j + 1, k, m, r => by
    rw [rtreeDecodeLoop, treeDecodeLoop, bind_assoc]
    refine congrArg _ (funext fun bit => ?_)
    rw [rtreeDecodeLoop_eq base j]
    refine treeDecodeLoop_bind_congr base j _ fun v h1 h2 => ?_
    rw [← reversedBits_succ, testBit_lastNode h1 h2]

theorem rtreeDecode_eq (base n : Nat) :
    rtreeDecode base n = treeDecodeLoop base n 1 >>= fun v => pure (reversedBits n v) := by
  simp only [rtreeDecode, rtreeDecodeLoop_eq, Nat.zero_or, Nat.shiftLeft_zero]

/-- Settles O39: both commands make the same walk, and differ in how they read its last node. -/
theorem rtreeReversesBits : Obligations.RtreeReversesBits := by
  intro n s t hr _ h e
  obtain ⟨-, hn, -, -⟩ := treeOperandsLegal_iff.1 h
  have only := sameDecCells.treeLoop s.arg0.toNat n 1 (fun _ _ _ => trivial) s
  have hb := treeDecodeLoop_bounds s.arg0.toNat n 1 s
  unfold Ends at only hb
  rw [exec_rcDecTree hr h, treeDecode] at e
  rw [exec_rcDecRtree hr h, rtreeDecode_eq]
  simp only [bind_assoc, pure_bind] at e ⊢
  rw [bind_run] at e ⊢
  cases hrun : treeDecodeLoop s.arg0.toNat n 1 s with
  | error stop u =>
    rw [hrun] at e only
    cases stop with
    | stuck f => cases e
    | raise c =>
      cases e
      exact ⟨_, rfl, rfl, fun _ => only.field State.res fun _ => rfl, fun hf => by cases hf⟩
  | ok m u =>
    rw [hrun] at e only hb
    cases e
    have hf : u.faulted = false := (only.field State.faulted fun _ => rfl).trans hr.1
    refine ⟨_, rfl, rfl, fun hf' => ?_, fun _ k => ?_⟩
    · cases hf.symm.trans hf'
    · exact getLsbD_reversedBits hn (by omega) (by omega) k

/-! ## Completion (R174) -/

/-- A tree decoder whose source has a byte for each bit completes. -/
theorem exec_tree_completes {i : Instr} {x : Cmd Nat} (he : exec i s = conclude ((do
      let v ← x
      modify fun t => t.withRes (BitVec.ofNat 32 v) : Cmd Unit) s))
    (hrun : Ends x s (fun v t => v < 2 ^ n ∧ DecRun n s t) fun e t => DecCut n s e ∧ CellsOk t)
    (hcells : Keeps (OnlyCells (TreeCell base n)) x) (hsrc : n ≤ s.source.length) :
    ∃ v t, exec i s = .next (t.withRes (BitVec.ofNat 32 v)) ∧ v < 2 ^ n ∧ DecRun n s t ∧
      OnlyCells (TreeCell base n) s t := by
  obtain ⟨v, t, e, ⟨hv, ht⟩, hc⟩ := (hrun.and (hcells s)).completes fun e t h => DecCut.absurd hsrc h.1.1
  refine ⟨v, t, ?_, hv, ht, hc⟩
  rw [he, bind_run, e]
  rfl

/-- Settles O40: each decoder's walk completes and keeps to the tree. -/
theorem decTreesComplete : Obligations.DecTreesComplete := by
  intro i n s hi hr hinv h hsrc
  have hge := hinv.rangeGe hr.1
  have hv := treeOperandsLegal_cells h
  obtain ⟨v, t, e, hv, ht, hc⟩ : ∃ v t, exec i s = .next (t.withRes (BitVec.ofNat 32 v)) ∧ v < 2 ^ n ∧ DecRun n s t ∧
      OnlyCells (TreeCell s.arg0.toNat n) s t := by
    have hcells := decRel_cells (TreeCell s.arg0.toNat n)
    rcases hi with rfl | rfl
    · exact exec_tree_completes (exec_rcDecTree hr h) (treeDecode_run hge hinv.1.cellsOk hv)
        (hcells.tree fun _ => treeCell_node) hsrc
    · exact exec_tree_completes (exec_rcDecRtree hr h) (rtreeDecode_run hge hinv.1.cellsOk hv)
        (hcells.rtree fun _ => treeCell_node) hsrc
  have only : Same State.lessDecCells s t := ht.only
  exact ⟨_, e, (only.ready (fun _ => rfl) (fun _ => rfl) hr).1, (Nat.mod_le _ _).trans_lt hv, ht.rangeGe,
    hc.outsideTree, congrArg (State.withRes · _) (eq_of_lessDecCells only)⟩

end Sys2Proof.Machine
end

section
/-! PROOFS. The encoder's symbols (42_symbol_fsm.md R210, R211): ENC_LITERAL and ENC_EOS as the coder's commands, and what they
leave when they complete. -/

namespace Sys2Proof.Machine

variable {s t u : State} {α β : Type} {f : Word → Word → State → State} {o : Host.Outcome State Fault Refusal}

/-! ## Runs as encoder commands

The commands of a symbol find their operands in registers that the symbol's own body does not use. `f` writes two of those
registers. -/

/-- The outcome `o` is what the run of `x` from `s` is, with whatever values in the registers of `f`. -/
def RunsAs (f : Word → Word → State → State) (x : Cmd α) (s : State) (o : Host.Outcome State Fault Refusal) : Prop :=
  match x s with
  | .ok _ t => ∃ a b, o = .next (f a b t)
  | .error (.raise c) t => ∃ a b, o = .next ((f a b t).takeFault c)
  | .error (.stuck e) _ => o = .fault e

/-- A command whose body is `x` but for registers of `f`. -/
theorem RunsAs.of_conclude {x : Cmd Unit} {k : State → State} (e : o = conclude (mapState k (x s)))
    (hk : ∀ t, ∃ a b, k t = f a b t) : RunsAs f x s o := by
  subst e
  unfold RunsAs
  cases x s with
  | ok v t =>
    obtain ⟨a, b, h⟩ := hk t
    exact ⟨a, b, congrArg Host.Outcome.next h⟩
  | error e t =>
    cases e with
    | stuck w => rfl
    | raise c =>
      obtain ⟨a, b, h⟩ := hk t
      exact ⟨a, b, congrArg (fun u : State => Host.Outcome.next (u.takeFault c)) h⟩

/-- A first part that commands need not repeat. -/
theorem RunsAs.of_run {x : Cmd α} {y : α → Cmd β} {v : α} (e : x s = .ok v t) (h : RunsAs f (y v) t o) :
    RunsAs f (x >>= y) s o := by
  unfold RunsAs at *
  rwa [bind_run, e]

theorem RunsAs.get {y : State → Cmd β} (h : RunsAs f (y s) s o) : RunsAs f ((MonadState.get : Cmd State) >>= y) s o := h

/-- One part after the other; after a fault in the first the second's commands are refused (60_exceptions.md R324). -/
theorem RunsAs.andThen {x : Cmd α} {y : α → Cmd β} {h : State → Host.Outcome State Fault Refusal} (hx : RunsAs f x s o)
    (hy : ∀ v t, x s = .ok v t → ∀ a b, RunsAs f (y v) t (h (f a b t)))
    (cut : ∀ t c a b, ∃ a' b', h ((f a b t).takeFault c) = .next ((f a' b' t).takeFault c)) :
    RunsAs f (x >>= y) s (andThen o h) := by
  unfold RunsAs at hx
  unfold RunsAs
  rw [bind_run]
  cases hrun : x s with
  | ok v t =>
    rw [hrun] at hx
    obtain ⟨a, b, rfl⟩ := hx
    exact hy v t hrun a b
  | error e t =>
    rw [hrun] at hx
    cases e with
    | stuck w =>
      subst hx
      rfl
    | raise c =>
      obtain ⟨a, b, rfl⟩ := hx
      exact cut t c a b

/-- The commands' outcome with `g`, which puts the registers of `f` back, is the body's. -/
theorem RunsAs.concludes {x y : Cmd Unit} {g : State → State} (hx : RunsAs f x s o)
    (hg : Ends x s (fun _ t => ∀ a b, .next (g (f a b t)) = conclude (y t))
      fun _ t => ∀ a b c, g ((f a b t).takeFault c) = t.takeFault c) :
    mapNext g o = conclude ((do x; y : Cmd Unit) s) := by
  unfold RunsAs at hx
  unfold Ends at hg
  rw [bind_run]
  cases hrun : x s with
  | ok v t =>
    rw [hrun] at hx hg
    obtain ⟨a, b, rfl⟩ := hx
    exact hg a b
  | error e t =>
    rw [hrun] at hx hg
    cases e with
    | stuck w =>
      subst hx
      rfl
    | raise c =>
      obtain ⟨a, b, rfl⟩ := hx
      exact congrArg Host.Outcome.next (hg a b c)

/-- While EOS_SEEN is 0 a symbol's body runs (30_encoding.md R83). -/
theorem issue_noEos {body : Cmd Unit} (hr : Ready .encode s) (he : s.eosSeen = false) :
    issue [.encode] (do requireNoEos; body) s = conclude (body s) := by
  refine (exec_inEncode hr).trans ?_
  simp only [requireNoEos, check, bind_run, get_run, he]
  rfl

/-- Outside IDLE the properties are valid (40_range_coder.md R130, R140). -/
theorem State.Inv.propsValid {m : Mode} (hi : s.Inv) (hr : Ready m s) (hm : m ≠ .idle) :
    Machine.propsValid s.props = true :=
  hi.1.propsOk (by rwa [hr.2])

/-! ## ENC_LITERAL (R210) -/

/-- ARG0 and ARG1 written. -/
def State.withArgs (a b : Word) (s : State) : State := (s.withArg0 a).withArg1 b

theorem literalCoder_run (h : propsValid s.props = true) : literalCoder s = .ok (literalBase (litState s)) s := by
  have hlc : lcOf s.props ≤ 8 := by simp [propsValid] at h; omega
  rw [literalCoder, bind_run, get_run]
  exact congrFun (if_pos hlc) s

/-- RC_ENC_TREE with its operands in ARG0 and ARG1 is the tree's walk. -/
theorem exec_rcEncTree_at {n base v : Nat} (hr : Ready .encode s) (h : treeOperandsLegal n base v = true)
    (hb : base < 2 ^ 32) : exec (.rcEncTree n) (s.withArgs (BitVec.ofNat 32 base) (BitVec.ofNat 32 v)) =
      conclude (mapState (State.withArgs (BitVec.ofNat 32 base) (BitVec.ofNat 32 v)) (treeEncode base n v s)) := by
  obtain ⟨-, hn, hv, -⟩ := treeOperandsLegal_iff.1 h
  have hv32 : v < 2 ^ 32 := hv.trans (Nat.pow_lt_pow_right (by omega) (by omega))
  have e0 : (s.withArgs (BitVec.ofNat 32 base) (BitVec.ofNat 32 v)).arg0.toNat = base :=
    (BitVec.toNat_ofNat ..).trans (Nat.mod_eq_of_lt hb)
  have e1 : (s.withArgs (BitVec.ofNat 32 base) (BitVec.ofNat 32 v)).arg1.toNat = v :=
    (BitVec.toNat_ofNat ..).trans (Nat.mod_eq_of_lt hv32)
  have hr : Ready .encode (s.withArgs (BitVec.ofNat 32 base) (BitVec.ofNat 32 v)) := hr
  rw [exec_rcEncTree hr (by rw [e0, e1]; exact h), e0, e1]
  have hc : EncApart (State.withArgs (BitVec.ofNat 32 base) (BitVec.ofNat 32 v)) :=
    ⟨fun _ => ⟨rfl, rfl, rfl, rfl, rfl⟩, fun _ _ => rfl, fun _ _ => rfl, fun _ _ _ => rfl, fun _ _ => rfl⟩
  exact congrArg conclude (hc.treeLoop ⟨fun _ => rfl, fun _ _ => rfl⟩ base v n 1 s)

/-- In ENCODE DW_PUSH is the append to the window (43_dictionary_window.md R271). -/
theorem exec_dwPush_at (hr : Ready .encode s) (b : Byte) (x y : Word) :
    exec (.dwPush b) (s.withArgs x y) = conclude (mapState (State.withArgs x y) (windowAppend b s)) := by
  have hw : WindowApart (State.withArgs x y) :=
    ⟨fun _ => ⟨rfl, rfl, rfl, rfl, rfl⟩, fun _ _ => rfl, fun _ _ => rfl⟩
  refine (issue_ready (s := s.withArgs x y) hr.1 ?_).trans (congrArg conclude (hw.append b s))
  rw [show (s.withArgs x y).mode = .encode from hr.2]
  rfl

/-- In ENCODE a literal leaves STATE at 0 (42_symbol_fsm.md R202). -/
theorem withFsm_literal (h : s.fsm = 0) : s.withFsm (litNext (0 : BitVec 4).toNat) = s := by
  change { s with fsm := 0 } = s
  rw [← h]

/-- A literal after its IS_MATCH decision runs as RC_ENC_TREE and DW_PUSH. -/
theorem literalTail_runsAs {lb : Nat} (hr : Ready .encode s) (hf : s.fsm = 0)
    (hv : ∀ x, x < 0x100 → cellValid (lb + x) = true) (b : Byte) :
    RunsAs State.withArgs
      (do treeEncode lb 8 b.toNat; setFsm (litNext (0 : BitVec 4).toNat); windowAppend b : Cmd Unit) s
      (andThen (exec (.rcEncTree 8) (s.withArgs (BitVec.ofNat 32 lb) (BitVec.ofNat 32 b.toNat))) (exec (.dwPush b))) := by
  have tree := exec_rcEncTree_at hr (treeOperandsLegal_iff.2 ⟨by omega, le_rfl, b.isLt, fun x _ => hv x⟩)
    (cellValid_lt (hv 0 (by omega)))
  refine RunsAs.andThen (RunsAs.of_conclude tree fun t => ⟨_, _, rfl⟩) (fun _ t e x y => ?_)
    fun t c x y => ⟨x, y, exec_faulted (by simp) rfl⟩
  have only := (ends_of_run e).1 (sameEncCells.treeLoop lb b.toNat 8 1 (fun _ _ _ => trivial) s)
  have hft : t.fsm = 0 := (only.field State.fsm fun _ => rfl).trans hf
  refine RunsAs.of_run (congrArg (EStateM.Result.ok ()) (withFsm_literal hft)) ?_
  exact RunsAs.of_conclude (exec_dwPush_at (only.ready (fun _ => rfl) (fun _ => rfl) hr) b x y) fun t => ⟨_, _, rfl⟩

/-- ENC_LITERAL's body runs as its three commands. -/
theorem encLiteral_runsAs (hr : Ready .encode s) (hi : s.Inv) (b : Byte) :
    RunsAs State.withArgs (encLiteral b) s
      (andThen (exec (.rcEncBit false) (s.withArg0 (BitVec.ofNat 32 (isMatchCell s.fsm.toNat (posState s))))) fun t =>
        andThen (exec (.rcEncTree 8)
          (t.withArgs (BitVec.ofNat 32 (literalBase (litState s))) (BitVec.ofNat 32 b.toNat)))
        fun u => exec (.dwPush b) u) := by
  have hf : s.fsm = 0 := hi.1.encodeFsm hr.2
  have hp := hi.propsValid hr (by decide)
  have bit := exec_rcEncBit_at hr (isMatchCell_valid hp hi.1.fsmLe) false
  refine RunsAs.get (RunsAs.andThen (RunsAs.of_conclude bit fun t => ⟨BitVec.ofNat 32 _, t.arg1, rfl⟩)
    (fun _ t e x y => ?_) fun t c x y => ?_)
  · have only := (ends_of_run e).1 (sameEncCells.cellDecision (a := isMatchCell s.fsm.toNat (posState s)) trivial false s)
    have hpt : propsValid t.props = true := (only.field (fun u => propsValid u.props) fun _ => rfl).trans hp
    have hlt : litState t = litState s := only.field litState fun _ => rfl
    refine RunsAs.of_run (literalCoder_run hpt) ?_
    rw [hlt, hf]
    exact literalTail_runsAs (only.ready (fun _ => rfl) (fun _ => rfl) hr) ((only.field State.fsm fun _ => rfl).trans hf)
      (fun x hx => litCell_valid hp (by omega)) b
  · refine ⟨BitVec.ofNat 32 (literalBase (litState s)), BitVec.ofNat 32 b.toNat, ?_⟩
    rw [exec_faulted (i := .rcEncTree 8) (by simp) rfl]
    exact exec_faulted (i := .dwPush b) (by simp) rfl

/-- The cells that ENC_LITERAL may write: the IS_MATCH cell and its literal coder's first 256 (R210, R170). -/
def EncLiteralCell (s : State) (a : Nat) : Prop :=
  a = isMatchCell s.fsm.toNat (posState s) ∨
    literalBase (litState s) < a ∧ a < literalBase (litState s) + 256

/-- ENC_LITERAL completes where the sink has room. -/
theorem encLiteral_completes (hr : Ready .encode s) (hi : s.Inv) (hroom : sinkTakes (s.cacheSize + 8) s) (b : Byte) :
    ∃ u, encLiteral b s = .ok () (u.withWindow (s.window ++ [b])) ∧ EncRun 9 s u ∧ OnlyCells (EncLiteralCell s) s u := by
  have hf : s.fsm = 0 := hi.1.encodeFsm hr.2
  have hp := hi.propsValid hr (by decide)
  have hrun := encLiteral_run (hi.encLive hr.1) hi.1.cellsOk hp hi.1.fsmLe hr.2 b
  have hcells := (encRel_cells (EncLiteralCell s)).literal (s := s) (.inl rfl) (fun x h1 h2 => .inr ⟨by omega, by omega⟩)
    (fun _ _ => OnlyCells.refl _) (fun s b a _ => cellAt_congr (lessWindow_pram (lessWindow_appended s b)) a) b
  obtain ⟨_, _, e, ⟨u, hu, rfl⟩, hc⟩ := (hrun.and hcells).completes fun e t h => h.1.room hroom
  have hfu : u.fsm = 0 := (Same.field (f := State.lessEncCells) hu.only State.fsm fun _ => rfl).trans hf
  rw [hf, withFsm_literal hfu] at e hc
  exact ⟨u, e, hu, hc⟩

/-- Settles O43: the body runs as its three commands, and completes where the sink has room. -/
theorem encLiteralEncodes : Obligations.EncLiteralEncodes := by
  intro b s hr hi he
  have hbody : exec (.encLiteral b) s = conclude (encLiteral b s) := issue_noEos hr he
  refine ⟨?_, fun hroom => ?_⟩
  · have keep : Keeps (fun s t => t.arg0 = s.arg0 ∧ t.arg1 = s.arg1) (encLiteral b) := fun s =>
      (encLiteral_leads b s).mono (fun _ _ h => ⟨h.field State.arg0 fun _ => rfl, h.field State.arg1 fun _ => rfl⟩)
        fun _ _ h => ⟨h.field State.arg0 fun _ => rfl, h.field State.arg1 fun _ => rfl⟩
    have h := RunsAs.concludes (y := pure ()) (g := fun t => { t with arg0 := s.arg0, arg1 := s.arg1 })
      (encLiteral_runsAs hr hi b) ((keep s).mono ?_ ?_)
    · rw [bind_pure_unit] at h
      exact hbody.trans h.symm
    · rintro _ t ⟨h0, h1⟩ a b
      rw [← h0, ← h1]
      rfl
    · rintro _ t ⟨h0, h1⟩ a b c
      rw [← h0, ← h1]
      rfl
  · obtain ⟨u, e, hu, hc⟩ := encLiteral_completes hr hi hroom b
    have only : Same State.lessEncCells s u := hu.only
    refine ⟨u.withWindow (s.window ++ [b]), by rw [hbody, e]; rfl, (only.ready (fun _ => rfl) (fun _ => rfl) hr).1,
      hu.live.rangeGe, fun a h1 h2 => hc a ?_, congrArg (State.withWindow · _) (eq_of_lessEncCells only)⟩
    rintro (h | h)
    · exact h1 h
    · omega

/-! ## ENC_EOS (R211) -/

/-- ARG0 and RES written. -/
def State.withOperand (a r : Word) (s : State) : State := (s.withArg0 a).withRes r

theorem encApart_operand (a r : Word) : EncApart (State.withOperand a r) :=
  ⟨fun _ => ⟨rfl, rfl, rfl, rfl, rfl⟩, fun _ _ => rfl, fun _ _ => rfl, fun _ _ _ => rfl, fun _ _ => rfl⟩

/-- The non-adaptive decisions at probability 1024, one per bit (30_encoding.md R97). -/
def discardAll : List Bool → Cmd Unit
  | [] => pure ()
  | bit :: bits => do
    encDiscard 1024 bit
    discardAll bits

theorem discardAll_append (l m : List Bool) : discardAll (l ++ m) = (do discardAll l; discardAll m) := by
  induction l with
  | nil => simp only [List.nil_append, discardAll, pure_bind]
  | cons bit l ih => simp only [List.cons_append, discardAll, ih, bind_assoc]

theorem repeatCmd_encDiscard (bit : Bool) (n : Nat) :
    repeatCmd n (encDiscard 1024 bit) = discardAll (List.replicate n bit) := by
  induction n with
  | zero => rfl
  | succ n ih => rw [repeatCmd, ih, List.replicate_succ, discardAll]

/-- The 41 non-adaptive decisions of an end marker (30_encoding.md R97). -/
def eosBits : List Bool := List.replicate 5 false ++ List.replicate 36 true

/-- ENC_EOS's body is its IS_MATCH decision, the 41 others, and EOS_SEEN. -/
theorem encEos_run_eq (s : State) : encEos s = (do
    (do encCell (isMatchCell s.fsm.toNat (posState s)) true; discardAll eosBits)
    modify State.sawEos : Cmd Unit) s := by
  have e : eosBits = false :: List.replicate 4 false ++ (List.replicate 6 true ++ List.replicate 30 true) := rfl
  rw [encEos, bind_run, get_run, e]
  simp only [repeatCmd_encDiscard, discardAll_append, discardAll, bind_assoc, List.cons_append]

theorem EncRel.discardAll {R : State → State → Prop} {C : Nat → Prop} (h : EncRel R C) :
    ∀ bits, Keeps R (discardAll bits)
  | [] => Keeps.pure h.refl ()
  | bit :: bits => Keeps.bind h.trans (h.discard 1024 bit) fun _ => EncRel.discardAll h bits

/-- RC_ENC_BIT_NA at probability 1024 is a decision whose adapted value goes to RES (R132). -/
theorem rcEncBitNa_runsAs (hr : Ready .encode s) (bit : Bool) (a r : Word) :
    RunsAs State.withOperand (encDiscard 1024 bit) s
      (exec (.rcEncBitNa bit) ((s.withOperand a r).withArg0 1024)) := by
  have hr : Ready .encode (s.withOperand 1024 r) := hr
  have hp : probOperand (s.withOperand 1024 r) = .ok 1024 (s.withOperand 1024 r) :=
    probOperand_run (show 1 ≤ (1024 : Word).toNat by decide) (show (1024 : Word).toNat ≤ 2047 by decide)
  have hc : encodeBitCore 1024 bit (s.withOperand 1024 r) = _ := (encApart_operand 1024 r).bitCore 1024 bit s
  have e : exec (.rcEncBitNa bit) (s.withOperand 1024 r) = _ := exec_inEncode hr
  rw [bind_run, hp] at e
  dsimp only at e
  rw [bind_run, hc] at e
  change RunsAs _ _ _ (exec (.rcEncBitNa bit) (s.withOperand 1024 r))
  rw [e]
  unfold RunsAs
  rw [encDiscard, bind_run]
  cases encodeBitCore 1024 bit s with
  | ok q t => exact ⟨1024, BitVec.ofNat 32 q, rfl⟩
  | error e t =>
    cases e with
    | stuck w => rfl
    | raise c => exact ⟨1024, r, rfl⟩

/-- Once faulted, the rest of the decisions change nothing but ARG0 (60_exceptions.md R324). -/
theorem encodeDiscards_faulted (c : Cause) (t : State) : ∀ bits a r, ∃ a' r',
    encodeDiscards bits ((t.withOperand a r).takeFault c) = .next ((t.withOperand a' r').takeFault c)
  | [], a, r => ⟨a, r, rfl⟩
  | bit :: bits, a, r => by
    rw [encodeDiscards, exec_faulted (by simp) rfl]
    exact encodeDiscards_faulted c t bits 1024 r

theorem encodeDiscards_runsAs : ∀ (bits : List Bool) {s : State} (a r : Word), Ready .encode s →
    RunsAs State.withOperand (discardAll bits) s (encodeDiscards bits (s.withOperand a r))
  | [], _, a, r, _ => ⟨a, r, rfl⟩
  | bit :: bits, s, a, r, hr => by
    refine RunsAs.andThen (rcEncBitNa_runsAs hr bit a r) (fun _ t e a r => ?_) fun t c a r =>
      encodeDiscards_faulted c t bits a r
    have only := (ends_of_run e).1 (sameEnc.discard 1024 bit s)
    exact encodeDiscards_runsAs bits a r (only.ready (fun _ => rfl) (fun _ => rfl) hr)

/-- The 42 decisions of an end marker run as their commands. -/
theorem eosDecisions_runsAs (hr : Ready .encode s) {a : Nat} (ha : cellValid a = true) (bits : List Bool) :
    RunsAs State.withOperand (do encCell a true; discardAll bits) s
      (andThen (exec (.rcEncBit true) (s.withArg0 (BitVec.ofNat 32 a))) (encodeDiscards bits)) := by
  have bit := exec_rcEncBit_at hr ha true
  refine RunsAs.andThen (RunsAs.of_conclude bit fun t => ⟨BitVec.ofNat 32 a, t.res, rfl⟩) (fun _ t e x r => ?_)
    fun t c x r => encodeDiscards_faulted c t bits x r
  have only := (ends_of_run e).1 (sameEncCells.cellDecision (a := a) trivial true s)
  exact encodeDiscards_runsAs bits x r (only.ready (fun _ => rfl) (fun _ => rfl) hr)

theorem ends_congr {x y : Cmd α} {Q : α → State → Prop} {E : Stop → State → Prop} (h : x s = y s) :
    Ends x s Q E ↔ Ends y s Q E := by
  unfold Ends
  rw [h]

/-- ENC_EOS adapts its IS_MATCH cell to a 1 and writes no other (R211, 41_probability_model.md R164). -/
theorem encEos_cells (hl : EncLive s) (hc : CellsOk s) (ha : cellValid (isMatchCell s.fsm.toNat (posState s)) = true) :
    Ends encEos s (fun _ t => ∀ a, cellAt t a = if a = isMatchCell s.fsm.toNat (posState s)
      then adapt (cellAt s (isMatchCell s.fsm.toNat (posState s))) true else cellAt s a) fun _ _ => True := by
  rw [ends_congr (encEos_run_eq s), bind_assoc]
  refine Ends.bind ((ends_encCell hl hc ha true).mono (fun _ _ h => h) fun _ _ _ => trivial) fun _ t ⟨k, _, ht⟩ => ?_
  refine Ends.bind ((sameEnc.discardAll eosBits t).mono (fun _ _ h => h) fun _ _ _ => trivial) fun _ u hu a => ?_
  rw [← ht.cell a]
  exact cellAt_congr (s := t) (hu.field State.pram fun _ => rfl) a

/-- Settles O44: the 42 decisions run as their commands, and complete where the sink has room. -/
theorem encEosEncodes : Obligations.EncEosEncodes := by
  intro s hr hi he
  have hp : propsValid s.props = true := hi.propsValid hr (by decide)
  have ha := isMatchCell_valid hp hi.1.fsmLe
  have hbody : exec .encEos s = conclude (encEos s) := issue_noEos hr he
  refine ⟨?_, fun hroom => ?_⟩
  · have keep : Keeps (Same State.lessEncCells)
        (do encCell (isMatchCell s.fsm.toNat (posState s)) true; discardAll eosBits : Cmd Unit) :=
      Keeps.bind Same.trans (sameEncCells.cellDecision trivial true) fun _ => sameEncCells.discardAll eosBits
    rw [hbody, encEos_run_eq]
    refine (RunsAs.concludes (eosDecisions_runsAs hr ha eosBits) ((keep s).mono ?_ ?_)).symm
    · intro _ t only a r
      have hf : t.faulted = false := (only.field State.faulted fun _ => rfl).trans hr.1
      rw [← only.field State.arg0 fun _ => rfl, ← only.field State.res fun _ => rfl]
      change Host.Outcome.next { t with eosSeen := !t.faulted } = .next t.sawEos
      rw [show (!t.faulted) = true by rw [hf]; rfl]
      rfl
    · intro _ t only a r c
      have h0 : t.eosSeen = false := (only.field State.eosSeen fun _ => rfl).trans he
      rw [← only.field State.arg0 fun _ => rfl, ← only.field State.res fun _ => rfl]
      change { t.takeFault c with eosSeen := false } = t.takeFault c
      rw [← h0]
      rfl
  · obtain ⟨_, _, e, ⟨u, hu, rfl⟩, hc⟩ := ((encEos_run (hi.encLive hr.1) hi.1.cellsOk hp hi.1.fsmLe).and
      (encEos_cells (hi.encLive hr.1) hi.1.cellsOk ha)).completes fun e t h => h.1.room hroom
    have only : Same State.lessEncCells s u := hu.only
    exact ⟨u.sawEos, by rw [hbody, e]; rfl, (only.ready (fun _ => rfl) (fun _ => rfl) hr).1, hu.live.rangeGe, hc,
      congrArg State.sawEos (eq_of_lessEncCells only)⟩

end Sys2Proof.Machine
end

section
/-! PROOFS. DEC_TOKEN's end by size (42_symbol_fsm.md R222) and its literals (R220, R223): the commands of a literal, and its
completion. -/

namespace Sys2Proof.Machine

variable {s t u : State} {o : Host.Outcome State Fault Refusal}

/-- Settles O45. -/
theorem decTokenEndsBySize : Obligations.DecTokenEndsBySize := by
  intro s hr hk
  refine (exec_inDecode hr.1 hr.2).trans ?_
  rw [decToken, bind_run, get_run]
  dsimp only
  rw [if_pos hk]
  rfl

/-! ## A literal's commands (R220, R223) -/

/-- What runs next may use that it comes after a run without a fault. -/
theorem ifRuns_congr {f g : State → Host.Outcome State Fault Refusal}
    (h : ∀ t, o = .next t → t.faulted = false → f t = g t) : ifRuns o f = ifRuns o g := by
  cases o with
  | next t =>
    cases hf : t.faulted with
    | false => rw [ifRuns_runs hf, ifRuns_runs hf, h t rfl hf]
    | true => simp [ifRuns, andThen, hf]
  | fault e => rfl
  | refused r => rfl

/-- RC_DEC_BIT that comes out without a fault leaves the decision at the cell's probability in RES (R141). -/
theorem runAt_rcDecBit_res {a : Nat} (hr : Ready .decode s) (hge : 2 ^ 24 ≤ s.range.toNat) (hc : CellsOk s)
    (ha : cellValid a = true) (e : runAt .rcDecBit a s = .next t) (ht : t.faulted = false) :
    IsBit (decBit (cellAt s a) s) t.res := by
  have h : Comes (decCell a) IsBit (runAt .rcDecBit a s) s :=
    comes_decCell (x := s.arg0) (y := s.arg1) (r := s.res) ha hr.1 hr.2
  rw [e] at h
  obtain ⟨bit, u, hrun, hbit⟩ := h.value ht
  obtain ⟨rfl, -⟩ := (ends_of_run hrun).1 (decCell_run hge hc ha)
  exact hbit

/-- A token whose IS_MATCH decision is a 0 is its literal's commands, in the context the token starts from. -/
theorem tokenRun_literal (hr : Ready .decode s) (hi : s.Inv) (hk : knownSize s ≠ some (posOf s))
    (hbit : decBit (cellAt s (isMatchCell s.fsm.toNat (posState s))) s = false) :
    tokenRun s = ifRuns (runAt .rcDecBit (isMatchCell s.fsm.toNat (posState s)) s) fun t =>
      ifRuns (if s.fsm.toNat < 7 then runAt (.rcDecTree 8) (literalBase (litState s)) t
        else matchedWalk (literalBase (litState s)) (windowByte s (s.rep0.toNat + 1)) 8 1 t)
      (literalEnd s.fsm.toNat) := by
  have hv := hi.propsValid hr (by decide)
  rw [tokenRun, if_neg hk, ← isMatchCell_eq]
  refine ifRuns_congr fun t e ht => ?_
  have hres := runAt_rcDecBit_res hr (hi.rangeGe hr.1) hi.1.cellsOk (isMatchCell_valid hv hi.1.fsmLe) e ht
  have only := Quiet.bit _ s t e ht
  rw [if_pos (hres.zero.2 hbit), literalRun, only.field litState fun _ => rfl,
    only.field (fun u => windowByte u (u.rep0.toNat + 1)) fun _ => rfl]

/-- A readable distance reads a byte of the window. -/
theorem getElem?_windowByte {d : Nat} (h : Readable s d) : s.window[posOf s - d]? = some (windowByte s d) := by
  obtain ⟨h1, h2, -⟩ := h
  have hlt : s.window.length - d < s.window.length := by unfold posOf at h2; omega
  unfold windowByte posOf
  rw [List.getD_eq_getElem?_getD, List.getElem?_eq_getElem hlt]
  rfl

/-! ## A literal's completion -/

/-- The cells of a literal token: the IS_MATCH cell and those of its literal coder (41_probability_model.md R165). -/
def LiteralCell (s : State) (a : Nat) : Prop :=
  a = isMatchCell s.fsm.toNat (posState s) ∨ literalBase (litState s) < a ∧ a < literalBase (litState s) + 0x300

/-- The state a literal token ends in, after decisions that left `u`. -/
def State.literalDone (s u : State) (b : Byte) : State :=
  ((u.withFsm (litNext s.fsm.toNat)).appended b).withRes TokenKind.lit.code

/-- A token whose IS_MATCH decision is a 0 ends as a literal after nine decisions, unless they or its byte are cut short. -/
theorem decToken_literal (hr : Ready .decode s) (hi : s.Inv) (hk : knownSize s ≠ some (posOf s))
    (hbit : decBit (cellAt s (isMatchCell s.fsm.toNat (posState s))) s = false) :
    Ends decToken s
      (fun _ t => ∃ u b, DecRun 9 s u ∧ OnlyCells (LiteralCell s) s u ∧ t = s.literalDone u b)
      (fun e _ => DecCut 9 s e ∨ ¬ sinkTakes 1 s) := by
  have hv := hi.propsValid hr (by decide)
  have hl := hi.2 hr.1
  have hcells := tokRel_cells (LiteralCell s)
  unfold decToken
  rw [ends_bind, ends_get, if_neg hk]
  refine Ends.bind (((decCell_run hl.rangeGe hi.1.cellsOk (isMatchCell_valid hv hi.1.fsmLe)).and
    (hcells.cellDecision (.inl rfl) s)).mono (fun _ _ h => h) fun _ _ h => .inl (h.1.1.mono (by omega))) ?_
  rintro isMatch t ⟨⟨rfl, ht⟩, hct⟩
  have only : Same State.lessDecCells s t := ht.only
  have hvt : propsValid t.props = true := (only.field (fun u => propsValid u.props) fun _ => rfl).trans hv
  have hlt : litState t = litState s := only.field litState fun _ => rfl
  have hrd : 7 ≤ s.fsm.toNat → Readable t (t.rep0.toNat + 1) :=
    (only.field (fun u => 7 ≤ s.fsm.toNat → Readable u (u.rep0.toNat + 1)) fun _ => rfl).mpr (hl.readable hr.2)
  rw [if_neg (by rw [hbit]; decide), decLiteralToken, ends_bind, ends_of_run (literalCoder_run hvt), hlt]
  refine Ends.bind (((decodeLiteral_run ht.rangeGe ht.cells fun x hx => litCell_valid hv hx).and
    (hcells.literal (lb := literalBase (litState s)) (fun x h1 h2 => .inr ⟨by omega, by omega⟩) s.fsm.toNat t)).mono
      (fun _ _ h => h) ?_) ?_
  · rintro e v ⟨⟨hcut | ⟨h7, hn, -⟩, -⟩, -⟩
    · exact .inl (DecCut.after ht.takes ht.sourceEnd hcut)
    · exact absurd (hrd h7) hn
  · rintro b u ⟨hu, hcu⟩
    have htu := ht.trans hu
    rw [setFsm, ends_bind, ends_modify, ends_bind]
    refine ends_windowAppend ⟨u, b, htu, hct.trans _ _ _ hcu, rfl⟩ fun _ hs => .inr ?_
    have hroom := sinkFails_not_takes hs le_rfl
    rwa [htu.mid.setFsm (litNext_le s.fsm.isLt) |>.sinkTakes] at hroom

theorem literalDone_eq (hr : Ready .decode s) (only : Same State.lessDecCells s u) (b : Byte) :
    s.literalDone u b = { s with
      range := u.range, code := u.code, source := u.source, inCount := u.inCount, pram := u.pram,
      fsm := BitVec.ofNat 4 (litNext s.fsm.toNat), window := s.window ++ [b], sink := s.sink ++ [b],
      outCount := s.outCount + 1, res := 1 } := by
  have hm : (u.withFsm (litNext s.fsm.toNat)).mode = .decode := (only.field State.mode fun _ => rfl).trans hr.2
  rw [State.literalDone, State.appended_decode hm, eq_of_lessDecCells only]
  rfl

/-- Settles O46: the token's commands along the decision that is a 0, and the run of a literal that nothing cuts short. -/
theorem decTokenLiteral : Obligations.DecTokenLiteral := by
  intro s hr hi hk hcode
  have hbit : decBit (cellAt s (isMatchCell s.fsm.toNat (posState s))) s = false :=
    Bool.eq_false_iff.2 fun h => Nat.not_lt.2 ((decBit_iff _ s).1 h) hcode
  have htoken := exec_decToken_eq hr hi
  rw [tokenRun_literal hr hi hk hbit] at htoken
  refine ⟨fun h7 => ?_, fun h7 => ?_, fun hsrc hroom => ?_⟩
  · simpa only [if_pos h7] using htoken
  · simp only [if_neg (Nat.not_lt.2 h7)] at htoken
    exact ⟨_, getElem?_windowByte ((hi.2 hr.1).readable hr.2 h7), htoken⟩
  · obtain ⟨_, _, e, u, b, hu, hc, rfl⟩ := (decToken_literal hr hi hk hbit).completes fun e t h =>
      h.elim (DecCut.absurd hsrc) fun h => h hroom
    obtain ⟨taken, h1, h2, h3⟩ := hu.takes
    rw [literalDone_eq hr hu.only] at e
    refine ⟨_, b, taken, (exec_inDecode hr.1 hr.2).trans (congrArg conclude e), hr.1, h1, h2, ?_, hu.rangeGe,
      fun a ha hout => hc a ?_, ?_⟩
    · have := litNext_le s.fsm.isLt
      exact (BitVec.toNat_ofNat ..).trans (Nat.mod_eq_of_lt (by omega))
    · rintro (h | h)
      · exact ha h
      · omega
    · rw [h3]

end Sys2Proof.Machine
end

section
/-! PROOFS. The five window commands (43_dictionary_window.md R270 to R274): the modes they run in, the distance check, and
the append through the sink. -/

namespace Sys2Proof.Machine

variable {s : State} {body : Cmd Unit} {d n : Nat} {b : Byte}

/-! ## Modes -/

/-- A command whose row lists every mode runs unless FAULTED. -/
theorem issue_everyMode (hf : s.faulted = false) : issue [.idle, .encode, .decode, .done] body s = conclude (body s) :=
  issue_ready hf (by cases s.mode <;> rfl)

/-- A command whose row lists every mode but DONE. -/
theorem issue_notDone (hf : s.faulted = false) (hm : s.mode ≠ .done) :
    issue [.idle, .encode, .decode] body s = conclude (body s) := by
  refine issue_ready hf ?_
  cases h : s.mode with
  | done => exact absurd h hm
  | _ => rfl

/-! ## The distance check (R263) -/

/-- The fault of a distance the window cannot read. -/
def distCause (d : Nat) (s : State) : Cause := if d = 0 ∨ posOf s < d then .distBeyondOutput else .distBeyondDict

theorem distCause_output (h : d = 0 ∨ posOf s < d) : distCause d s = .distBeyondOutput := if_pos h

theorem distCause_dict (h1 : d ≤ posOf s) (h2 : windowLimit s < d) : distCause d s = .distBeyondDict :=
  if_neg (by omega)

theorem checkDistance_fails (h : ¬ Readable s d) : checkDistance d s = .error (.raise (distCause d s)) s := by
  rcases checkDistance_cases d s with ⟨hr, -⟩ | ⟨hd, e⟩ | ⟨-, h1, h2, e⟩
  · exact absurd hr h
  · rw [e, distCause_output hd]
  · rw [e, distCause_dict h1 h2]

/-- Both distance faults are STREAM_CORRUPT, and differ in the sub-cause. -/
theorem takeFault_distCause (d : Nat) (s : State) : s.takeFault (distCause d s) = { s with
    faulted := true, faultCode := 0x03, faultSub := if d = 0 ∨ posOf s < d then 2 else 3 } := by
  unfold distCause
  split <;> rfl

/-! ## DW_BYTE_AT and DW_LAST (R265, R266, R272, R273) -/

theorem exec_dwByteAt (hf : s.faulted = false) (hr : Readable s s.arg0.toNat) :
    exec .dwByteAt s = .next (s.withRes (BitVec.ofNat 32 (windowByte s s.arg0.toNat).toNat)) := by
  refine (issue_everyMode hf).trans ?_
  rw [bind_run, get_run]
  dsimp only
  rw [bind_run, byteAt_run hr]
  rfl

theorem exec_dwByteAt_fails (hf : s.faulted = false) (hr : ¬ Readable s s.arg0.toNat) :
    exec .dwByteAt s = .next (s.takeFault (distCause s.arg0.toNat s)) := by
  refine (issue_everyMode hf).trans ?_
  rw [bind_run, get_run]
  dsimp only
  rw [bind_run, byteAt, bind_run, checkDistance_fails hr]
  rfl

theorem exec_dwLast (hf : s.faulted = false) :
    exec .dwLast s = .next (s.withRes (BitVec.ofNat 32 (lastByte s).toNat)) := issue_everyMode hf

theorem lastByte_empty (h : s.window = []) : lastByte s = 0 := by rw [lastByte, h]; rfl

theorem lastByte_append {w : List Byte} (h : s.window = w ++ [b]) : lastByte s = b := by
  rw [lastByte, h, List.getLastD_concat]

/-- Settles O52: DW_BYTE_AT on each side of the distance check, and the two windows DW_LAST can find. -/
theorem windowReads : Obligations.WindowReads := by
  intro s hf
  refine ⟨fun h1 h2 h3 => ?_, fun h => ?_, fun h1 h2 => ?_, fun h => ?_, fun w b h => ?_⟩
  · have hr : Readable s s.arg0.toNat := ⟨h1, h2, h3⟩
    exact ⟨_, getElem?_windowByte hr, exec_dwByteAt hf hr⟩
  · have hr : ¬ Readable s s.arg0.toNat := by unfold Readable posOf; omega
    rw [exec_dwByteAt_fails hf hr, distCause_output h]
    rfl
  · have hr : ¬ Readable s s.arg0.toNat := by unfold Readable; omega
    rw [exec_dwByteAt_fails hf hr, distCause_dict h1 h2]
    rfl
  · rw [exec_dwLast hf, lastByte_empty h]
    rfl
  · rw [exec_dwLast hf, lastByte_append h]
    rfl

/-! ## DW_COPY (R267, R274) -/

theorem DistCut.not_readable {e : Stop} (h : DistCut d s e) : ¬ Readable s d := by
  rintro ⟨h1, h2, h3⟩
  obtain ⟨-, h⟩ | ⟨-, -, h⟩ := h <;> omega

/-- With room on the sink, which only DECODE writes, a copy from a readable distance runs to its end. -/
theorem copyMatch_completes (hr : Readable s d) (ht : s.mode = .decode → sinkTakes n s) :
    copyMatch d n s = .ok () (s.copied d n) := by
  obtain ⟨_, _, e, -, rfl⟩ := (ends_copyMatch d n s).completes fun e t h => by
    obtain ⟨h, -⟩ | ⟨-, hm, h, -⟩ := h
    · exact h.not_readable hr
    · exact h (ht hm)
  exact e

theorem exec_dwCopy (hf : s.faulted = false) (hm : s.mode ≠ .done) :
    exec .dwCopy s = conclude (copyMatch s.arg0.toNat s.arg1.toNat s) := issue_notDone hf hm

/-- Settles O53: a copy that completes is the recurrence of `copied_spec`, and the check stops any other. -/
theorem copyRepeats : Obligations.CopyRepeats := by
  intro s hf hm
  refine ⟨fun hr ht => ?_, fun hr => ?_⟩
  · obtain ⟨l, hlen, hw, hrep, e⟩ := copied_spec s.arg0.toNat s.arg1.toNat s hr.1 hr.2.1
    refine ⟨_, l, ?_, hlen, hw, fun j hj => ?_, e⟩
    · rw [exec_dwCopy hf hm, copyMatch_completes hr ht]
      rfl
    · rw [hw]
      exact hrep j (hlen ▸ hj)
  · rw [exec_dwCopy hf hm, copyMatch, bind_run, checkDistance_fails hr, ← takeFault_distCause]
    rfl

/-! ## DW_RESET and DW_PUSH (R264, R270, R271) -/

theorem exec_dwReset (hr : Ready .idle s) : exec .dwReset s = .next (s.withWindow []) :=
  issue_ready hr.1 (by rw [hr.2]; rfl)

/-- A sink that does not take the next byte fails on it (10_state.md R46). -/
theorem sinkFails_of_not_takes (h : ¬ sinkTakes 1 s) : sinkFails s = true := by
  by_contra hs
  refine h fun k hk => ?_
  simp only [sinkFails, hk, decide_eq_true_eq] at hs
  omega

theorem outWrite_fails (h : ¬ sinkTakes 1 s) : outWrite b s = .error (.raise .ioErrorOut) s := by
  rw [outWrite, bind_run, get_run]
  dsimp only
  rw [if_pos (sinkFails_of_not_takes h)]
  rfl

/-- In DECODE the append stops at a sink that fails, before the window is written (R264). -/
theorem windowAppend_fails (hm : s.mode = .decode) (h : ¬ sinkTakes 1 s) :
    windowAppend b s = .error (.raise .ioErrorOut) s := by
  have hd : (s.mode == .decode) = true := by rw [hm]; rfl
  rw [windowAppend, bind_run, get_run]
  dsimp only
  rw [runIf, if_pos hd, bind_run, outWrite_fails h]

theorem exec_dwPush (hf : s.faulted = false) (hm : s.mode ≠ .done) :
    exec (.dwPush b) s = conclude (windowAppend b s) := issue_notDone hf hm

/-- Settles O51: the append outside DECODE, and in DECODE on a sink that takes the byte and on one that fails. -/
theorem windowResetAndPush : Obligations.WindowResetAndPush := by
  refine ⟨fun _ => exec_dwReset, fun b s hf => ⟨fun hm => ?_, fun hm ht => ?_, fun hm ht => ?_⟩⟩
  · have hdec : s.mode ≠ .decode := by rcases hm with h | h <;> simp [h]
    have hdone : s.mode ≠ .done := by rcases hm with h | h <;> simp [h]
    rw [exec_dwPush hf hdone, windowAppend_run fun h => absurd h hdec, State.appended_other hdec]
    rfl
  · rw [exec_dwPush hf (by simp [hm]), windowAppend_run fun _ => ht, State.appended_decode hm]
    rfl
  · rw [exec_dwPush hf (by simp [hm]), windowAppend_fails hm ht]
    rfl

end Sys2Proof.Machine
end

section
/-! PROOFS. The properties and the stream header (44_header.md): the fields of the props byte and of PROPS, what
HDR_WRITE delivers, what HDR_READ sets, where each stops, and that the second reads back what the first wrote. -/

namespace Sys2Proof.Machine

variable {s t : State} {p : Byte} {d z rest : List Byte} {props : Word}

/-! ## The properties (R291, R293, R296) -/

theorem propsValid_iff : propsValid props = true ↔ lcOf props ≤ 8 ∧ lpOf props ≤ 4 ∧ pbOf props ≤ 4 := by
  simp only [propsValid, Bool.and_eq_true, decide_eq_true_eq, and_assoc]

/-- Valid properties fit their byte. -/
theorem propsByte_toNat (h : propsValid props = true) :
    (propsByte props).toNat = lcOf props + 9 * (lpOf props + 5 * pbOf props) := by
  have := propsValid_iff.1 h
  exact (BitVec.toNat_ofNat ..).trans (Nat.mod_eq_of_lt (by omega))

/-- The PROPS word that a props byte gives. -/
def propsOfByte (p : Byte) : Word := propsWord (p.toNat % 9) (p.toNat / 9 % 5) (p.toNat / 9 / 5)

theorem propsWord_fields : ∀ lc < 9, ∀ lp < 5, ∀ pb < 5,
    lcOf (propsWord lc lp pb) = lc ∧ lpOf (propsWord lc lp pb) = lp ∧ pbOf (propsWord lc lp pb) = pb := by
  decide

/-- A byte below 225 = 9 * 5 * 5 has its three digits in the three fields. -/
theorem propsOfByte_fields (h : p.toNat < 225) : lcOf (propsOfByte p) = p.toNat % 9 ∧
    lpOf (propsOfByte p) = p.toNat / 9 % 5 ∧ pbOf (propsOfByte p) = p.toNat / 9 / 5 :=
  propsWord_fields _ (Nat.mod_lt _ (by decide)) _ (Nat.mod_lt _ (by decide)) _ (by omega)

theorem propsOfByte_masked (h : p.toNat < 225) : propsOfByte p &&& propsMask = propsOfByte p :=
  propsWord_masked _ (Nat.mod_lt _ (by decide)) _ (Nat.mod_lt _ (by decide)) _ (by omega)

theorem propsOfByte_valid (h : p.toNat < 225) : propsValid (propsOfByte p) = true := by
  obtain ⟨hlc, hlp, hpb⟩ := propsOfByte_fields h
  rw [propsValid_iff, hlc, hlp, hpb]
  omega

theorem getLsbD_propsMask : ∀ i < 32,
    propsMask.getLsbD i = (decide (i < 4) || decide (8 ≤ i ∧ i < 12) || decide (16 ≤ i ∧ i < 20)) := by
  decide

/-- A field's bit at the field's own place in the word. -/
theorem testBit_field (x : Word) (k i : Nat) : ((x.extractLsb' k 4).toNat <<< k).testBit i =
    (x.getLsbD i && decide (k ≤ i ∧ i < k + 4)) := by
  rw [Nat.testBit_shiftLeft, BitVec.testBit_toNat, BitVec.getLsbD_extractLsb']
  by_cases h : k ≤ i
  · have hlt : i - k < 4 ↔ i < k + 4 := by omega
    simp only [h, Nat.add_sub_cancel' h, hlt, decide_true, Bool.true_and, true_and, Bool.and_comm]
  · simp only [h, decide_false, Bool.false_and, false_and, Bool.and_false]

/-- A word with no bit outside the three fields is the word of its fields (R27). -/
theorem propsWord_of_masked (h : props &&& propsMask = props) :
    propsWord (lcOf props) (lpOf props) (pbOf props) = props := by
  refine BitVec.eq_of_getLsbD_eq fun i hi => ?_
  have hbit : (props.getLsbD i && propsMask.getLsbD i) = props.getLsbD i := by rw [← BitVec.getLsbD_and, h]
  rw [getLsbD_propsMask i hi] at hbit
  rw [← hbit, propsWord, ← Nat.shiftLeft_zero (n := lcOf props), BitVec.getLsbD_ofNat]
  simp only [lcOf, lpOf, pbOf, Nat.testBit_or, testBit_field, hi, Nat.zero_le, Nat.zero_add, Nat.reduceAdd, true_and,
    decide_true, Bool.true_and, Bool.and_or_distrib_left]

/-- The props byte of valid properties gives them back. -/
theorem propsOfByte_propsByte (hv : propsValid props = true) (hm : props &&& propsMask = props) :
    propsOfByte (propsByte props) = props := by
  have hb := propsValid_iff.1 hv
  rw [propsOfByte, propsByte_toNat hv]
  have hlc : (lcOf props + 9 * (lpOf props + 5 * pbOf props)) % 9 = lcOf props := by omega
  have hlp : (lcOf props + 9 * (lpOf props + 5 * pbOf props)) / 9 % 5 = lpOf props := by omega
  have hpb : (lcOf props + 9 * (lpOf props + 5 * pbOf props)) / 9 / 5 = pbOf props := by omega
  rw [hlc, hlp, hpb, propsWord_of_masked hm]

theorem propsByte_lt (h : propsValid props = true) : (propsByte props).toNat < 225 := by
  have := propsValid_iff.1 h
  rw [propsByte_toNat h]
  omega

theorem exec_propsValidate (hf : s.faulted = false) :
    exec .propsValidate s = conclude (check (propsValid s.props) .invalidProperties s) := issue_everyMode hf

/-- Settles O54: the check of the three bounds, and its two outcomes. -/
theorem propertiesCheck : Obligations.PropertiesCheck := by
  refine fun s => ⟨propsValid_iff, fun hf h => ?_, fun hf h => ?_⟩
  · rw [exec_propsValidate hf, h, check_true]
    rfl
  · rw [exec_propsValidate hf, h, check_false]
    rfl

/-! ## HDR_WRITE (R293, R294) -/

theorem exec_inIdle {body : Cmd Unit} (hr : Ready .idle s) : issue [.idle] body s = conclude (body s) :=
  issue_ready hr.1 (by rw [hr.2]; rfl)

/-- The header's bytes for the size, which ENC_POLICY leaves out or not. -/
def sizeBytes (s : State) : List Byte := if encPolicySkip s.policy then [] else bytesLE 8 (sizeField s)

theorem headerBytes_eq (s : State) :
    headerBytes s = propsByte s.props :: bytesLE 4 s.dictSize.toNat ++ sizeBytes s := rfl

theorem headerBytes_ne_nil (s : State) : headerBytes s ≠ [] := List.cons_ne_nil _ _

theorem headerBytes_length (s : State) : (headerBytes s).length = 5 + (sizeBytes s).length := by
  rw [headerBytes_eq, List.length_append, List.length_cons, bytesLE_length]

theorem exec_hdrWrite (hr : Ready .idle s) : exec .hdrWrite s = conclude ((do
    check (propsValid s.props) .invalidProperties
    outWriteAll (headerBytes s) : Cmd Unit) s) := exec_inIdle hr

theorem exec_hdrWrite_valid (hr : Ready .idle s) (h : propsValid s.props = true) :
    exec .hdrWrite s = conclude (outWriteAll (headerBytes s) s) := by
  rw [exec_hdrWrite hr, bind_run, h, check_true]

theorem exec_hdrWrite_invalid (hr : Ready .idle s) (h : propsValid s.props = false) :
    exec .hdrWrite s = .next (s.takeFault .invalidProperties) := by
  rw [exec_hdrWrite hr, bind_run, h, check_false]
  rfl

theorem exec_hdrWrite_delivers (hr : Ready .idle s) (h : propsValid s.props = true)
    (ht : sinkTakes (headerBytes s).length s) : exec .hdrWrite s = .next (s.deliveredAll (headerBytes s)) := by
  rw [exec_hdrWrite_valid hr h, outWriteAll_run _ ht]
  rfl

/-- A sink that fails inside the header cuts it there (60_exceptions.md R322). -/
theorem exec_hdrWrite_cut {k : Nat} (hr : Ready .idle s) (h : propsValid s.props = true) (hk : s.sinkFailAt = some k)
    (hlt : k < s.sink.length + (headerBytes s).length) : exec .hdrWrite s =
      .next ((s.deliveredAll ((headerBytes s).take (k - s.sink.length))).takeFault .ioErrorOut) := by
  rw [exec_hdrWrite_valid hr h, outWriteAll_fails _ (headerBytes_ne_nil s) hk hlt]
  rfl

theorem sizeBytes_skip (h : s.policy.getLsbD 4 = true) : sizeBytes s = [] := if_pos h

theorem sizeBytes_write (h : s.policy.getLsbD 4 = false) : sizeBytes s = bytesLE 8 (sizeField s) :=
  if_neg (Bool.eq_false_iff.1 h)

theorem sizeField_lt (s : State) : sizeField s < 256 ^ 8 := by
  unfold sizeField
  split
  · exact s.usize.isLt
  · exact unknownSize.isLt

/-- The fields read back as the values they were made of. -/
theorem numOf_dictBytes (x : Word) : numOf (bytesLE 4 x.toNat).reverse = x.toNat := by
  rw [numOf_bytesLE]
  exact Nat.mod_eq_of_lt x.isLt

theorem numOf_sizeBytes (s : State) : numOf (bytesLE 8 (sizeField s)).reverse = sizeField s := by
  rw [numOf_bytesLE, Nat.mod_eq_of_lt (sizeField_lt s)]

/-- Settles O55: the header's bytes through `outWriteAll`, whole and cut short, and the check before them. -/
theorem headerWritten : Obligations.HeaderWritten := by
  refine fun s hr => ⟨fun h => ?_, exec_hdrWrite_invalid hr⟩
  refine ⟨propsByte s.props, bytesLE 4 s.dictSize.toNat, sizeBytes s, propsByte_toNat h, bytesLE_length 4 _,
    numOf_dictBytes _, sizeBytes_skip, fun hw => ?_, fun ht => ?_, fun k hk hlt => ?_⟩
  · rw [sizeBytes_write hw]
    exact ⟨bytesLE_length 8 _, numOf_sizeBytes s⟩
  · rw [← headerBytes_length] at ht ⊢
    rw [List.append_assoc, ← headerBytes_eq]
    exact exec_hdrWrite_delivers hr h ht
  · rw [← headerBytes_length] at hlt
    have hlen : ((headerBytes s).take (k - s.sink.length)).length = k - s.sink.length := by
      rw [List.length_take]
      omega
    rw [exec_hdrWrite_cut hr h hk hlt, State.deliveredAll, hlen]
    rfl

/-! ## HDR_READ (R296, R297) -/

theorem exec_hdrRead (hr : Ready .idle s) : exec .hdrRead s = conclude (readHeader s) := exec_inIdle hr

theorem decPolicy_eq_iff (x : Word) (n : BitVec 2) : decPolicy x = n.toNat ↔ x.extractLsb' 0 2 = n := BitVec.toNat_inj

/-- The length of the size field under a DEC_POLICY. -/
def sizeLength (pol : Nat) : Nat := if pol = 0 ∨ pol = 1 then 8 else 0

theorem sizeLength_decPolicy (x : Word) (h : x.extractLsb' 0 2 ≠ 3) :
    sizeLength (decPolicy x) = if x.extractLsb' 0 2 = 2 then 0 else 8 := by
  unfold decPolicy
  generalize x.extractLsb' 0 2 = pol at h ⊢
  revert pol
  decide

/-- USIZE and USIZE_PRESENT after a size field of value `v`, if any, was read (R296). -/
def sizeSet (pol : Nat) (usize : BitVec 64) (present : Bool) (v : Nat) : BitVec 64 × Bool :=
  if pol = 0 then if v = unknownSize.toNat then (0, false) else (BitVec.ofNat 64 v, true) else (usize, present)

theorem State.took_took (s : State) (m n : Nat) (l l' : List Byte) : (s.took m l).took n l' = s.took (m + n) l' := by
  simp only [State.took, Nat.add_assoc]

theorem State.took_zero (s : State) : s.took 0 s.source = s := rfl

theorem State.consumed_took (s : State) (n : Nat) (l l' : List Byte) : (s.consumed l).took n l' = s.took (1 + n) l' :=
  s.took_took 1 n l l'

theorem readSize_run {pol : Nat} (us : BitVec 64) (pr : Bool) (hz : z.length = sizeLength pol)
    (hs : s.source = z ++ rest) :
    readSize pol us pr s = .ok (sizeSet pol us pr (numOf z.reverse)) (s.took z.length rest) := by
  unfold readSize
  by_cases h : pol = 0 ∨ pol = 1
  · have h8 : z.length = 8 := hz.trans (if_pos h)
    have hrun := readLE_run z 0 0 s rest hs (by decide)
    rw [h8, Nat.pow_zero, Nat.mul_one, Nat.zero_add] at hrun
    rw [if_pos h, bind_run, hrun, h8]
    dsimp only
    unfold sizeSet
    split
    · split <;> rfl
    · rfl
  · obtain rfl : z = [] := List.eq_nil_of_length_eq_zero (hz.trans (if_neg h))
    have hs : s.source = rest := hs
    have h0 : pol ≠ 0 := fun e => h (.inl e)
    rw [if_neg h, sizeSet, if_neg h0, ← hs]
    rfl

theorem readSize_short {pol : Nat} (us : BitVec 64) (pr : Bool) (h : s.source.length < sizeLength pol) :
    readSize pol us pr s = .error (.raise (sourceStop s .headerTooShort)) (s.took s.source.length []) := by
  unfold readSize
  unfold sizeLength at h
  split at h
  · next hpol => rw [if_pos hpol, bind_run, readLE_short 8 0 0 s h]
  · exact absurd h (Nat.not_lt_zero _)

/-- The configuration written from a header's fields (R296). -/
def State.withHeader (s : State) (p : Byte) (ds : Nat) (size : BitVec 64 × Bool) : State :=
  (((s.withProps (propsOfByte p)).withDictSize (BitVec.ofNat 32 (max ds Config.minDict))).withUsize size.1).withPolicy
    (setUsizePresent s.policy size.2)

/-- What HDR_READ does after a props byte below 225, with the policy and the size of the state `s` it began in. -/
def readFields (s : State) (p : Byte) : Cmd Unit := do
  let ds ← readLE 4 0 0
  let size ← readSize (decPolicy s.policy) s.usize (usizePresent s.policy)
  modify fun t => t.withHeader p ds size

/-- HDR_READ checks the policy, then the props byte (R296). -/
theorem readHeader_eq (s : State) : readHeader s = (do
    check (decPolicy s.policy != 3) .invalidConfig
    let p ← inRead .headerTooShort
    check (p.toNat < 225) .invalidProperties
    readFields s p : Cmd Unit) s := rfl

theorem readHeader_reserved (h : decPolicy s.policy = 3) : readHeader s = .error (.raise .invalidConfig) s := by
  rw [readHeader_eq, bind_run, h]
  rfl

theorem readHeader_allowed (h : decPolicy s.policy ≠ 3) : readHeader s = (do
    let p ← inRead .headerTooShort
    check (p.toNat < 225) .invalidProperties
    readFields s p : Cmd Unit) s := by
  rw [readHeader_eq, bind_run, bne_iff_ne.2 h, check_true]

theorem readHeader_empty (h : decPolicy s.policy ≠ 3) (hs : s.source = []) :
    readHeader s = .error (.raise (sourceStop s .headerTooShort)) s := by
  rw [readHeader_allowed h, bind_run, inRead_nil hs]

theorem readHeader_invalid (h : decPolicy s.policy ≠ 3) (hs : s.source = p :: rest) (hp : 225 ≤ p.toNat) :
    readHeader s = .error (.raise .invalidProperties) (s.consumed rest) := by
  rw [readHeader_allowed h, bind_run, inRead_cons hs]
  dsimp only
  rw [bind_run, decide_eq_false (Nat.not_lt.2 hp), check_false]

theorem readHeader_fields (h : decPolicy s.policy ≠ 3) (hs : s.source = p :: rest) (hp : p.toNat < 225) :
    readHeader s = readFields s p (s.consumed rest) := by
  rw [readHeader_allowed h, bind_run, inRead_cons hs]
  dsimp only
  rw [bind_run, decide_eq_true hp, check_true]

theorem readFields_run (hd : d.length = 4) (hz : z.length = sizeLength (decPolicy s.policy))
    (ht : t.source = d ++ z ++ rest) : readFields s p t = .ok () ((t.took (4 + z.length) rest).withHeader p
      (numOf d.reverse) (sizeSet (decPolicy s.policy) s.usize (usizePresent s.policy) (numOf z.reverse))) := by
  have hdict := readLE_run d 0 0 t (z ++ rest) (by rw [ht, List.append_assoc]) (by decide)
  rw [hd, Nat.pow_zero, Nat.mul_one, Nat.zero_add] at hdict
  rw [readFields, bind_run, hdict]
  dsimp only
  rw [bind_run, readSize_run _ _ hz rfl, State.took_took]
  rfl

/-- A source that ends inside the dictionary size or the size is used up, and no register is written. -/
theorem readFields_short (h : t.source.length < 4 + sizeLength (decPolicy s.policy)) :
    readFields s p t = .error (.raise (sourceStop t .headerTooShort)) (t.took t.source.length []) := by
  rw [readFields, bind_run]
  by_cases h4 : t.source.length < 4
  · rw [readLE_short 4 0 0 t h4]
  · have hlen : (t.source.take 4).length = 4 := by rw [List.length_take]; omega
    have hdict := readLE_run (t.source.take 4) 0 0 t (t.source.drop 4) (List.take_append_drop 4 _).symm (by decide)
    have hrest : (t.took 4 (t.source.drop 4)).source.length = t.source.length - 4 := List.length_drop
    rw [hlen] at hdict
    rw [hdict]
    dsimp only
    rw [bind_run, readSize_short _ _ (by omega), State.took_took, hrest, Nat.add_sub_cancel' (Nat.not_lt.1 h4)]
    rfl

/-- HDR_READ of a complete header. -/
theorem readHeader_run (h : decPolicy s.policy ≠ 3) (hp : p.toNat < 225) (hd : d.length = 4)
    (hz : z.length = sizeLength (decPolicy s.policy)) (hs : s.source = p :: d ++ z ++ rest) :
    readHeader s = .ok () ((s.took (5 + z.length) rest).withHeader p (numOf d.reverse)
      (sizeSet (decPolicy s.policy) s.usize (usizePresent s.policy) (numOf z.reverse))) := by
  rw [readHeader_fields h hs hp, readFields_run (s := s) hd hz rfl, State.consumed_took, ← Nat.add_assoc]

/-- HDR_READ of a header that the source cuts short. -/
theorem readHeader_short (h : decPolicy s.policy ≠ 3) (hp : ∀ p rest, s.source = p :: rest → p.toNat < 225)
    (hlen : s.source.length < 5 + sizeLength (decPolicy s.policy)) :
    readHeader s = .error (.raise (sourceStop s .headerTooShort)) (s.took s.source.length []) := by
  cases hs : s.source with
  | nil =>
    rw [readHeader_empty h hs, List.length_nil, ← hs, State.took_zero]
  | cons p rest =>
    rw [hs, List.length_cons] at hlen
    rw [readHeader_fields h hs (hp p rest hs), readFields_short (by rw [State.consumed_source]; omega),
      State.consumed_source, State.consumed_took, List.length_cons, Nat.add_comm 1]
    rfl

/-- The fault of a header cut short, in FAULT's fields (60_exceptions.md R320). -/
theorem takeFault_headerStop (s t : State) : t.takeFault (sourceStop s .headerTooShort) = { t with
    faulted := true, faultCode := if s.sourceEnd = .atEnd then 0x01 else 0x04,
    faultSub := if s.sourceEnd = .atEnd then 0 else 1 } := by
  unfold sourceStop
  cases s.sourceEnd <;> rfl

theorem exec_hdrRead_run (hr : Ready .idle s) (h : decPolicy s.policy ≠ 3) (hp : p.toNat < 225) (hd : d.length = 4)
    (hz : z.length = sizeLength (decPolicy s.policy)) (hs : s.source = p :: d ++ z ++ rest) :
    exec .hdrRead s = .next ((s.took (5 + z.length) rest).withHeader p (numOf d.reverse)
      (sizeSet (decPolicy s.policy) s.usize (usizePresent s.policy) (numOf z.reverse))) := by
  rw [exec_hdrRead hr, readHeader_run h hp hd hz hs]
  rfl

/-! ## The registers that HDR_READ writes -/

@[simp] theorem withHeader_usize (s : State) (p : Byte) (ds : Nat) (size : BitVec 64 × Bool) :
    (s.withHeader p ds size).usize = size.1 := rfl

@[simp] theorem withHeader_usizePresent (s : State) (p : Byte) (ds : Nat) (size : BitVec 64 × Bool) :
    usizePresent (s.withHeader p ds size).policy = size.2 := getLsbD_setUsizePresent _ _

theorem withHeader_dictSize (s : State) (p : Byte) (size : BitVec 64 × Bool) {ds : Nat} (h : ds < 2 ^ 32) :
    (s.withHeader p ds size).dictSize.toNat = max ds 0x1000 :=
  (BitVec.toNat_ofNat ..).trans (Nat.mod_eq_of_lt (by change max ds 0x1000 < 2 ^ 32; omega))

theorem numOf_reverse_lt (l : List Byte) : numOf l.reverse < 256 ^ l.length :=
  (numOf_lt l.reverse).trans_eq (by rw [List.length_reverse])

/-- READ trusts the field, whose all-ones value means unknown. -/
theorem sizeSet_read (us : BitVec 64) (pr : Bool) {v : Nat} (h : v < 2 ^ 64) :
    (sizeSet 0 us pr v).1.toNat = (if v = 2 ^ 64 - 1 then 0 else v) ∧
      (sizeSet 0 us pr v).2 = decide (v ≠ 2 ^ 64 - 1) := by
  have hu : unknownSize.toNat = 2 ^ 64 - 1 := rfl
  unfold sizeSet
  rw [if_pos rfl, hu]
  split
  · next hv => exact ⟨rfl, (decide_eq_false (not_not.2 hv)).symm⟩
  · next hv => exact ⟨(BitVec.toNat_ofNat ..).trans (Nat.mod_eq_of_lt h), (decide_eq_true hv).symm⟩

theorem sizeSet_other {pol : Nat} (h : pol ≠ 0) (us : BitVec 64) (pr : Bool) (v : Nat) :
    sizeSet pol us pr v = (us, pr) := if_neg h

/-- Settles O56: the complete header, then each place where HDR_READ stops. -/
theorem headerRead : Obligations.HeaderRead := by
  refine ⟨fun s p d z rest hr h hp hd hz hs => ?_, fun s hr => ⟨fun h => ?_, fun h p rest hs hp => ?_,
    fun h hp hlen => ?_⟩⟩
  · have hpol : decPolicy s.policy ≠ 3 := mt (decPolicy_eq_iff s.policy 3).1 h
    rw [← sizeLength_decPolicy _ h] at hz
    obtain ⟨hlc, hlp, hpb⟩ := propsOfByte_fields hp
    have hds : numOf d.reverse < 2 ^ 32 := by simpa [hd] using numOf_reverse_lt d
    refine ⟨_, exec_hdrRead_run hr hpol hp hd hz hs, hr.1, hlc, hlp, ?_, propsOfByte_masked hp, propsOfByte_valid hp,
      withHeader_dictSize _ _ _ hds, fun h0 => ?_, fun h0 => ?_, setUsizePresent_other _ _, rfl⟩
    · exact hpb.trans (Nat.div_div_eq_div_mul _ 9 5)
    · have h0 : decPolicy s.policy = 0 := (decPolicy_eq_iff s.policy 0).2 h0
      have hz8 : z.length = 8 := by rw [hz, h0]; rfl
      have hsize : numOf z.reverse < 2 ^ 64 := by simpa [hz8] using numOf_reverse_lt z
      obtain ⟨hu, hpr⟩ := sizeSet_read s.usize (usizePresent s.policy) hsize
      rw [h0]
      exact ⟨hu, (getLsbD_setUsizePresent _ _).trans hpr⟩
    · have h0 : decPolicy s.policy ≠ 0 := mt (decPolicy_eq_iff s.policy 0).1 h0
      rw [sizeSet_other h0]
      exact ⟨rfl, setUsizePresent_same _⟩
  · rw [exec_hdrRead hr, readHeader_reserved ((decPolicy_eq_iff s.policy 3).2 h)]
    rfl
  · rw [exec_hdrRead hr, readHeader_invalid (mt (decPolicy_eq_iff s.policy 3).1 h) hs hp]
    rfl
  · have hlen : s.source.length < 5 + sizeLength (decPolicy s.policy) := by
      rw [sizeLength_decPolicy _ h]
      split_ifs at hlen ⊢ <;> exact hlen
    rw [exec_hdrRead hr, readHeader_short (mt (decPolicy_eq_iff s.policy 3).1 h) hp hlen]
    exact congrArg Host.Outcome.next (takeFault_headerStop s _)

/-! ## Written and read back (R298) -/

theorem knownSize_absent (h : usizePresent s.policy = false) : knownSize s = none := by
  rw [knownSize, h]
  rfl

theorem knownSize_present (h : usizePresent s.policy = true) :
    knownSize s = if s.usize = unknownSize then none else some s.usize.toNat := by
  simp only [knownSize, h, Bool.true_and, bne_iff_ne, ite_not]

/-- The size field carries `KnownSize()`, all ones for none (R29, R294). -/
theorem knownSize_eq (s : State) :
    knownSize s = if sizeField s = unknownSize.toNat then none else some (sizeField s) := by
  unfold sizeField
  cases h : usizePresent s.policy with
  | false => exact knownSize_absent h
  | true => simp only [knownSize_present h, if_true, BitVec.toNat_inj]

/-- Under READ a size field gives the reader the `KnownSize()` it carries, whatever the reader held before. -/
theorem knownSize_withHeader (t : State) (p : Byte) (ds : Nat) (us : BitVec 64) (pr : Bool) {v : Nat}
    (hv : v < 2 ^ 64) :
    knownSize (t.withHeader p ds (sizeSet 0 us pr v)) = if v = unknownSize.toNat then none else some v := by
  have hn : (BitVec.ofNat 64 v).toNat = v := (BitVec.toNat_ofNat ..).trans (Nat.mod_eq_of_lt hv)
  unfold sizeSet
  rw [if_pos rfl]
  split
  · exact knownSize_absent (withHeader_usizePresent ..)
  · next hne =>
    have hu : BitVec.ofNat 64 v ≠ unknownSize := fun h => hne (by rw [← h, hn])
    rw [knownSize_present (withHeader_usizePresent ..), withHeader_usize, if_neg hu, hn]

/-- Settles O57: the bytes O55 names are a complete header, and each register O56 sets from them is the writer's. -/
theorem headerRoundTrip : Obligations.HeaderRoundTrip := by
  intro s d hr hv hm hw hsink ht hrd hpol
  have hz : sizeBytes s = bytesLE 8 (sizeField s) := sizeBytes_write hw
  have hlen : (headerBytes s).length = 13 := by rw [headerBytes_length, hz, bytesLE_length]
  have hpol : decPolicy d.policy = 0 := (decPolicy_eq_iff d.policy 0).2 hpol
  have hsent : (s.deliveredAll (headerBytes s)).sink = headerBytes s := by rw [State.deliveredAll, hsink]; rfl
  refine ⟨_, exec_hdrWrite_delivers hr hv (hlen ▸ ht), by rw [hsent, hlen], fun hd => ?_⟩
  have hd : d.source = propsByte s.props :: bytesLE 4 s.dictSize.toNat ++ bytesLE 8 (sizeField s) ++ [] := by
    rw [hd, hsent, headerBytes_eq, hz, List.append_nil]
  refine ⟨_, exec_hdrRead_run hrd (by omega) (propsByte_lt hv) (bytesLE_length 4 _)
    (by rw [bytesLE_length, hpol]; rfl) hd, hrd.1, rfl, propsOfByte_propsByte hv hm, ?_, ?_⟩
  · rw [numOf_dictBytes, withHeader_dictSize _ _ _ s.dictSize.isLt]
  · rw [numOf_sizeBytes, hpol, knownSize_withHeader _ _ _ _ _ (sizeField_lt s), ← knownSize_eq]

end Sys2Proof.Machine
end

section
/-! PROOFS. The exceptions (60_exceptions.md R320 to R325): fault entry, what a fault keeps, the faulted state and the
way out of it, and the operand checks of R323. -/

namespace Sys2Proof.Machine

variable {i : Instr} {s t : State} {a : PortAddr} {v : Word} {x : Access} {α β : Type} {c : Cause} {modes : List Mode}

/-! ## Fault entry (R321, R322) -/

/-- A raise ends the pseudocode around it in the state it was made in (R321). -/
theorem bind_raises {m : Cmd α} (h : m s = .error (.raise c) s) (f : α → Cmd β) :
    (m >>= f) s = .error (.raise c) s := by
  rw [bind_run, h]

/-- Reading the state first makes no difference. -/
theorem get_bind_raises {f : State → Cmd β} (h : f s s = .error (.raise c) s) :
    ((get : Cmd State) >>= f) s = .error (.raise c) s := h

/-- Settles O14. -/
theorem faultEntry : Obligations.FaultEntry := by
  intro c later s
  rw [bind_raises (m := raise c) rfl]
  rfl

/-- A command that ends FAULTED has taken a cause of R320. -/
theorem exec_fault_cause (hf : s.faulted = false) (e : exec i s = .next t) (ht : t.faulted = true) :
    ∃ c : Cause, t.faultCode = c.code ∧ t.faultSub = c.sub := by
  have hi : i ≠ .sessionReset := by
    rintro rfl
    cases e
    cases ht
  rcases exec_went hi e with ⟨h, -⟩ | ⟨-, h⟩ | ⟨-, u, c, -, rfl⟩
  · simp [hf] at h
  · simp [h.field State.faulted (doneBlank_faulted hi), hf] at ht
  · exact ⟨c, rfl, rfl⟩

/-- Settles O15: what no command writes, what only a completed one does, and the cause that was taken. -/
theorem faultingCommandKeeps : Obligations.FaultingCommandKeeps := by
  intro i s t hf e ht
  have hres : t.res = s.res := exec_fault_keeps (faultBlank_res i) (fun _ _ => rfl) e ht
  have hconf := exec_configuration e (.inr (.inr ht))
  have hout := exec_outside e
  simp only [State.configuration, Prod.mk.injEq] at hconf
  simp only [State.outside, Prod.mk.injEq] at hout
  obtain ⟨hprops, hdict, husize, hpolicy⟩ := hconf
  obtain ⟨⟨harg0, harg1⟩, -, -, -, hqueue, hreads⟩ := hout
  exact ⟨exec_fault_mode e ht, hres, harg0, harg1, hprops, hdict, husize, hpolicy, hqueue, hreads,
    exec_fault_cause hf e ht⟩

/-! ## The faulted state (R324, R325) -/

/-- A configuration write has no effect while FAULTED. -/
theorem writePort_config_faulted (hf : s.faulted = true) (ha : a ∈ [(0x0C : PortAddr), 0x10, 0x14, 0x18, 0x1C])
    (v : Word) : writePort a v s = .next s := by
  obtain ⟨store, e⟩ := writePort_config ha v s
  rw [e, configWrite_faulted hf]

/-- While FAULTED a write changes ARG0 and ARG1 at most, unless it is the word of SESSION_RESET to CMD. -/
theorem writePort_faulted (hf : s.faulted = true) (hne : a = 0x2C → v ≠ 0x01000000)
    (e : writePort a v s = .next t) : Same State.lessHost s t := by
  by_cases hconf : a ∈ [(0x0C : PortAddr), 0x10, 0x14, 0x18, 0x1C]
  · cases e.symm.trans (writePort_config_faulted hf hconf v)
    exact Same.refl s
  by_cases harg0 : a = 0x20
  · subst harg0
    cases e
    rfl
  by_cases harg1 : a = 0x24
  · subst harg1
    cases e
    rfl
  by_cases hcmd : a = 0x2C
  · subst hcmd
    obtain ⟨-, ignored, -⟩ := illegalCommandWord
    cases e.symm.trans (ignored v s hf (hne rfl))
    exact Same.refl s
  · cases e.symm.trans (writePort_ignored (by simp_all) v s)
    exact Same.refl s

theorem access_faulted (hf : s.faulted = true) (hne : x ≠ .write 0x2C 0x01000000) (e : access x s = .next t) :
    Same State.lessHost s t := by
  cases x with
  | read a => cases e; rfl
  | write a v => exact writePort_faulted hf (by rintro rfl rfl; exact hne rfl) e

/-- Settles O16: the refusals one by one, and FAULT as a field that no access but SESSION_RESET's reaches. -/
theorem whileFaulted : Obligations.WhileFaulted := fun _ hf =>
  ⟨fun _ hi => exec_faulted hi hf, fun _ v ha => writePort_config_faulted hf ha v, fun _ => ⟨rfl, rfl⟩, fun _ => rfl,
    fun _ _ e hne => (access_faulted hf hne e).field (readPort · 0x08) fun _ => rfl⟩

/-- Settles O17: every other access keeps FAULTED. -/
theorem onlySessionResetRecovers : Obligations.OnlySessionResetRecovers := by
  intro x s t hf e ht
  have hx : x = .write 0x2C 0x01000000 := by
    by_contra hne
    rw [(access_faulted hf hne e).field State.faulted fun _ => rfl, hf] at ht
    cases ht
  subst hx
  cases e
  exact ⟨rfl, rfl, rfl, rfl, rfl⟩

/-! ## Operand checks (R323, its fourth check) -/

theorem check_raises {ok : Bool} (h : ok = false) (c : Cause) (s : State) : check ok c s = .error (.raise c) s := by
  rw [h]
  rfl

theorem cellOperand_raises (h : cellValid s.arg0.toNat = false) :
    cellOperand s = .error (.raise .illegalOperand) s :=
  get_bind_raises (bind_raises (check_raises h _ s) _)

theorem probOperand_raises (h : s.arg0.toNat < 1 ∨ 2047 < s.arg0.toNat) :
    probOperand s = .error (.raise .illegalOperand) s := by
  refine get_bind_raises (bind_raises (check_raises ?_ _ s) _)
  simp only [Bool.and_eq_false_iff, decide_eq_false_iff_not]
  omega

/-- A depth out of 1..8, a value past the tree, or a node that is no cell (41_probability_model.md R175). -/
theorem treeOperandsLegal_eq_false {n base v : Nat} (h : n < 1 ∨ 8 < n ∨ 2 ^ n ≤ v ∨
    ∃ x, 1 ≤ x ∧ x < 2 ^ n ∧ cellValid (base + x) = false) : treeOperandsLegal n base v = false := by
  refine Bool.eq_false_iff.2 fun hl => ?_
  obtain ⟨h1, h8, hv, hcells⟩ := treeOperandsLegal_iff.1 hl
  obtain ⟨x, hx, hxn, hbad⟩ :=
    ((h.resolve_left (by omega)).resolve_left (by omega)).resolve_left (by omega)
  rw [hcells x hx hxn] at hbad
  cases hbad

theorem treeBaseOperand_raises {n : Nat} (h : n < 1 ∨ 8 < n ∨
    ∃ x, 1 ≤ x ∧ x < 2 ^ n ∧ cellValid (s.arg0.toNat + x) = false) :
    treeBaseOperand n s = .error (.raise .illegalOperand) s := by
  have hl : treeOperandsLegal n s.arg0.toNat 0 = false :=
    treeOperandsLegal_eq_false (h.imp_right fun h => h.imp_right .inr)
  exact get_bind_raises (bind_raises (check_raises hl _ s) _)

theorem directCountLegal_eq_false {n : Nat} (h : n < 1 ∨ 32 < n) : directCountLegal n = false := by
  simp only [directCountLegal, Bool.and_eq_false_iff, decide_eq_false_iff_not]
  omega

/-- A command whose body raises before it changes anything takes that fault and does nothing else. -/
theorem issue_raises {body : Cmd Unit} (hf : s.faulted = false) (hm : s.mode ∈ modes)
    (e : body s = .error (.raise c) s) : issue modes body s = .next (s.takeFault c) := by
  rw [issue_ready hf (by simpa using hm), e]
  rfl

/-- Settles O19: each command's body begins with its operand check. -/
theorem illegalOperandFaults : Obligations.IllegalOperandFaults := by
  intro i s hf hm h
  cases i with
  | rcEncBit _ | rcDecBit | cellRead => exact issue_raises hf hm (bind_raises (cellOperand_raises h) _)
  | rcEncBitNa _ | rcDecBitNa => exact issue_raises hf hm (bind_raises (probOperand_raises h) _)
  | rcDecDirect _ => exact issue_raises hf hm (bind_raises (check_raises (directCountLegal_eq_false h) _ s) _)
  | rcEncTree _ =>
    refine issue_raises (c := .illegalOperand) hf hm (get_bind_raises ?_)
    exact bind_raises (check_raises (treeOperandsLegal_eq_false h) _ s) _
  | rcDecTree _ | rcDecRtree _ => exact issue_raises hf hm (bind_raises (treeBaseOperand_raises h) _)
  | _ => exact h.elim

end Sys2Proof.Machine
end

section
/-! PROOFS. Power-on, SESSION_RESET and NOP (70_reset_and_hazards.md R340, R341, R345). -/

namespace Sys2Proof.Machine

variable {w : Word} {i : Instr} {s : State}

/-! ## A nonzero IMM in the word of a command without an immediate field (R81, R86) -/

theorem plain_reserved {imm : Nat} (h : imm ≠ 0) (i : Instr) : plain imm i = .error .reservedImm := if_neg h

/-- The word is ILLEGAL_COMMAND, or ignored while FAULTED. -/
theorem command_plain_reserved (hd : decode w = plain (immField w) i) (hm : immField w ≠ 0) (s : State) :
    command w s = if s.faulted then .next s else .next (s.takeFault .illegalCommand) := by
  rw [plain_reserved hm] at hd
  rw [command, hd]

theorem decode_opcode_nop (h : opcodeField w = 0x00) : decode w = plain (immField w) .nop := by
  rw [decode, h]
  rfl

theorem decode_opcode_sessionReset (h : opcodeField w = 0x01) : decode w = plain (immField w) .sessionReset := by
  rw [decode, h]
  rfl

/-! ## SESSION_RESET and power-on (R340, R341) -/

theorem exec_sessionReset (s : State) : exec .sessionReset s = .next s.sessionReset := rfl

theorem cellAt_sessionReset (s : State) (a : Nat) : cellAt s.sessionReset a = 1024 := by
  rw [cellAt, State.sessionReset_pram, Memory.read_nil]
  rfl

/-- The power-on state holds every effect of SESSION_RESET already. -/
theorem sessionReset_reset : State.reset.sessionReset = State.reset := rfl

/-- Settles O11. -/
theorem powerOnState : Obligations.PowerOnState := by
  have hreset : exec .sessionReset State.reset = .next State.reset := by
    rw [exec_sessionReset, sessionReset_reset]
  have hcells : ∀ a, cellAt State.reset a = 1024 := cellAt_sessionReset State.reset
  exact ⟨rfl, rfl, rfl, rfl, rfl, rfl, hreset, rfl, rfl, rfl, hcells⟩

/-- Settles O12. -/
theorem sessionResetEffects : Obligations.SessionResetEffects := by
  obtain ⟨-, hword, -⟩ := commandWordsDecode
  exact ⟨hword, fun s => ⟨s.sessionReset, exec_sessionReset s, cellAt_sessionReset s, rfl⟩,
    fun _ s ho hm => command_plain_reserved (decode_opcode_sessionReset ho) hm s⟩

/-! ## NOP (R345) -/

theorem exec_nop (s : State) : exec .nop s = .next s := by
  cases hf : s.faulted with
  | true => exact issue_faulted hf
  | false => exact issue_everyMode hf

/-- Settles O13. -/
theorem nopDoesNothing : Obligations.NopDoesNothing := by
  obtain ⟨hword, -⟩ := commandWordsDecode
  refine ⟨hword, exec_nop, fun w s ho hm hf => ?_⟩
  rw [command_plain_reserved (decode_opcode_nop ho) hm, if_neg (by simp [hf])]
  rfl

end Sys2Proof.Machine
end
